-- ==== Sys2Proof/Word.lean ====
section
/-! DEFINITION. The words of the block: bytes, 64-bit patterns, codec numbers, and the shapes of the wire
records the decode half fetches. Nothing here computes: the arithmetic is in Machine/Operands.lean. -/

namespace Sys2Proof

/-- A byte of a buffer (`20_memory.md` R51). -/
abbrev Byte := BitVec 8

/-- A 64-bit value pattern, and every 64-bit data register (`00_scope.md` R6 `VW`, R10). -/
abbrev Word := BitVec 64

/-- The two-bit codec number of `E.codec`, `D.codec` and of the `codec` operand (`10_state.md` R23,
`30_encoding.md` R72). All four values are named, so the type is closed. -/
inductive Codec where
  | raw
  | x64
  | era
  | chp
deriving DecidableEq, Repr

/-- The number of a codec on the command port (`30_encoding.md` R72). -/
def Codec.code : Codec → BitVec 2
  | .raw => 0
  | .x64 => 1
  | .era => 2
  | .chp => 3

/-- The codec a two-bit number names (`30_encoding.md` R72). -/
def Codec.ofCode (c : BitVec 2) : Codec :=
  if c = 0 then .raw else if c = 1 then .x64 else if c = 2 then .era else .chp

/-- The classes of a pattern (`00_scope.md` R10). -/
inductive FloatClass where
  | zero
  | subnormal
  | normal
  | inf
  | nan
deriving DecidableEq, Repr

/-- The X64 record formats with their fields (`30_encoding.md` R75). A payload is held as the number its
bits spell, first transmitted bit most significant. -/
inductive XRecord where
  | first (tz : BitVec 7) (p : Word)
  | same
  | reuse (p : Word)
  | news (iii : BitVec 3) (cccc : BitVec 4) (p : Word)
  | newl (iii : BitVec 3) (cccccc : BitVec 6) (p : Word)
deriving DecidableEq, Repr

/-- The ERA control prefixes (`30_encoding.md` R78). -/
inductive EPrefix where
  | sameb
  | plain
  | newb (bbbb : BitVec 4)
deriving DecidableEq, Repr

/-- The CHP record formats with their fields (`30_encoding.md` R79). `r` is the `L`-bit slot number. -/
inductive CRecord where
  | first (p : Word)
  | copy (r : Word)
  | hist (r : Word) (iii : BitVec 3) (ssssss : BitVec 6) (p : Word)
  | prev (p : Word)
  | prevn (iii : BitVec 3) (p : Word)
deriving DecidableEq, Repr

/-- A command record on the command port (`30_encoding.md` R70): the fields the spec names, in its order.
`data` is two sequences, of bytes (`LOAD`, `DECOMPRESS`) and of patterns (`COMPRESS`); only the fields a
command's row names are read. -/
structure Command where
  op : BitVec 5
  codec : BitVec 2
  n : BitVec 7
  b : Bool
  v : Word
  bytes : List Byte
  pats : List Word
deriving DecidableEq, Repr

/-- Where an instruction is read, and what the registers say there that its own bits do not: the command
port; the dispatch of a command by `E.codec` and `D.codec` (table rows `CMD.DISPATCH`); the record at the
decode cursor, whose format set and open field widths the decoder registers fix (`30_encoding.md` R84). -/
inductive Context where
  /-- The command port. -/
  | port
  /-- The dispatch of `ENC.VAL`, `ENC.CLOSE`, `DEC.VAL` under `E.codec = e` and `D.codec = d`. -/
  | dispatch (e d : Codec)
  /-- An X64 record while `D.X.first = 1`. -/
  | xFirst
  /-- An X64 record while `D.X.first = 0`; `cb = 64 - slz - stz`. -/
  | xSteady (cb : Nat)
  /-- An ERA control position. -/
  | eraPrefix
  /-- A CHP record while `D.C.first = 1`. -/
  | cFirst
  /-- A CHP record while `D.C.first = 0`; `slot = L`, `prev = 64 - slz`. -/
  | cSteady (slot prev : Nat)
deriving DecidableEq, Repr

/-- The two shapes an instruction's words take: a command record, or a bit string of a block in
transmission order (`30_encoding.md` R70, R75). -/
inductive Encoding where
  | command (w : Command)
  | record (bits : List Bool)
deriving DecidableEq, Repr

/-- Why the decoder reads no instruction. -/
inductive Reject where
  /-- The `op` value names no command (`30_encoding.md` R87). -/
  | reservedOp
  /-- The command word is no dispatched command under the codec registers (rows `CMD.DISPATCH`). -/
  | notDispatched
  /-- A command record where a wire record is read, or the other way round. -/
  | wrongStream
  /-- The bit string ends inside the record (`60_exceptions.md` R232). -/
  | truncated
deriving DecidableEq, Repr

end Sys2Proof
end

