-- ==== Sys2Proof/Config.lean ====
section
/-! DEFINITION. The constants of the block and the parameters an implementation fixes (`00_scope.md` R6). -/

namespace Sys2Proof.Config

/-- `VW`, the width of a value pattern (`00_scope.md` R6). -/
def valueWidth : Nat := 64

/-- `NMAX`, the largest bit count of one WBITS or RBITS transfer (`00_scope.md` R6, `20_memory.md` R55). -/
def nMax : Nat := 64

/-- `SENTINEL`, the end-of-block pattern and the canonical NaN (`00_scope.md` R6, `43_erasure.md` R151). -/
def sentinel : Word := 0x7FF8000000000000

/-- `LZSET`, the canonical leading-zero counts in index order (`00_scope.md` R6, R8). -/
def lzSet : List Nat := [0, 8, 12, 16, 18, 20, 22, 24]

/-- `BETA_CAP`, the cap on the significant-digit count (`00_scope.md` R6). -/
def betaCap : Nat := 17

/-- `ERASE_MIN`: a value is erased only for more erased bits than this (`00_scope.md` R6). -/
def eraseMin : Nat := 4

/-- The reset value of `CFG.LOG2W` (`00_scope.md` R6, `10_state.md` R38). -/
def log2wReset : BitVec 6 := 7

/-- The CHP mark "no window": the source's sentinel 65 (`10_state.md` R26). -/
def noWindow : BitVec 7 := 65

/-- The parameters the spec leaves to the implementation (`00_scope.md` R6). `none` is "unbounded".
They are plain data that no command writes: a statement about every state is a statement about every
implementation. DESIGN CHOICE (log 5). -/
structure Impl where
  /-- `LOG2W_MAX`, the largest `LOG2W` that `CFG.W` accepts. -/
  log2wMax : Nat
  /-- `SINK_CAP`, the capacity of the sink buffer in bytes. -/
  sinkCap : Option Nat
  /-- `SRC_CAP`, the capacity of the source buffer in bytes. -/
  srcCap : Option Nat
  /-- `IDX_BITS`, the width of the CHP absolute position counter. -/
  idxBits : Option Nat
deriving DecidableEq, Repr

/-- The spec's own model: `LOG2W_MAX` 16, the three capacities unbounded (`00_scope.md` R6, D10, D34, D35). -/
def Impl.default : Impl := ⟨16, none, none, none⟩

end Sys2Proof.Config
end

