-- ==== Sys2Proof/Machine/Operands.lean ====
section
/-! DEFINITION. The operand forms and arithmetic primitives of the block (`00_scope.md` R8, R10): shifts,
counts, the canonical leading-zero set, the float classes, the MSB-first bit strings of `20_memory.md`
R51 and R52, and the field widths of the wire records (`30_encoding.md` R75 to R80). -/

namespace Sys2Proof.Machine

/-- `SHR(a, k)`: `floor(a / 2^k)`, 0 for `k >= 64` (`00_scope.md` R8). -/
def shr (a : Word) (k : Nat) : Word := a >>> k

/-- `SHL64(a, k)`: `(a * 2^k) mod 2^64`, 0 for `k >= 64` (`00_scope.md` R8). -/
def shl64 (a : Word) (k : Nat) : Word := a <<< k

/-- `LOW(a, n)`: `a mod 2^n` (`00_scope.md` R8). -/
def low (a : Word) (n : Nat) : Word := BitVec.ofNat 64 (a.toNat % 2 ^ n)

/-- `CLZ(a)`: 64 for 0, else `63 - floor(log2 a)` (`00_scope.md` R8). -/
def clz (a : Word) : Nat := if a = 0 then 64 else 63 - Nat.log2 a.toNat

/-- The number of trailing zero bits of `n` among its lowest `fuel` bits. -/
def ctzUpTo : Nat → Nat → Nat
  | 0, _ => 0
  | fuel + 1, n => if n % 2 = 1 then 0 else ctzUpTo fuel (n / 2) + 1

/-- `CTZ(a)`: 64 for 0, else the largest `k` with `2^k` dividing `a` (`00_scope.md` R8). -/
def ctz (a : Word) : Nat := ctzUpTo 64 a.toNat

/-- `LZROUND(n)`: the largest member of `LZSET` that is at most `n`, as the table of `00_scope.md` R8. -/
def lzRound (n : Nat) : Nat :=
  if n < 8 then 0
  else if n < 12 then 8
  else if n < 16 then 12
  else if n < 18 then 16
  else if n < 20 then 18
  else if n < 22 then 20
  else if n < 24 then 22
  else 24

/-- `LZIDX(z)`: the position of `z` in `LZSET` (`00_scope.md` R8). -/
def lzIdx (z : Nat) : BitVec 3 := BitVec.ofNat 3 (Config.lzSet.idxOf z)

/-- `LZVAL(i)`: the member of `LZSET` at position `i` (`00_scope.md` R8). -/
def lzVal (i : BitVec 3) : Nat := Config.lzSet.getD i.toNat 0

/-- `p[62:52]`, the biased exponent of a pattern (`00_scope.md` R10). -/
def expField (p : Word) : Nat := (p.toNat / 2 ^ 52) % 2 ^ 11

/-- `p[51:0]`, the mantissa of a pattern (`00_scope.md` R10). -/
def mantField (p : Word) : Nat := p.toNat % 2 ^ 52

/-- The class of a pattern (`00_scope.md` R10). -/
def classOf (p : Word) : FloatClass :=
  if expField p = 0 then
    if mantField p = 0 then .zero else .subnormal
  else if expField p = 2047 then
    if mantField p = 0 then .inf else .nan
  else .normal

/-! ## Bit strings -/

/-- The low `n` bits of `v`, most significant of them first (`20_memory.md` R52). -/
def bitsOf {w : Nat} (v : BitVec w) : Nat → List Bool
  | 0 => []
  | n + 1 => v.getLsbD n :: bitsOf v n

/-- The number spelled by the first `n` bits of a bit string, first bit most significant; a bit past the
end counts 0 (`41_bitstream.md` R106). -/
def numeral : Nat → List Bool → Nat
  | 0, _ => 0
  | _ + 1, [] => 0
  | n + 1, b :: bs => (if b then 2 ^ n else 0) + numeral n bs

/-- The bits of a byte sequence, each byte most significant bit first (`41_bitstream.md` R107). -/
def bytesBits : List Byte → List Bool
  | [] => []
  | b :: bs => bitsOf b 8 ++ bytesBits bs

/-- The first `n` bits of a bit string as a `w`-bit field. -/
def field (w n : Nat) (bits : List Bool) : BitVec w := BitVec.ofNat w (numeral n bits)

/-! ## Field widths of the wire records -/

/-- Payload width of `X.FIRST`: `63 - tz` bits for `tz <= 63`, else none (`30_encoding.md` R75). -/
def firstWidth (tz : BitVec 7) : Nat := 63 - tz.toNat

/-- `cb` of `X.NEWS`: 16 when `cccc = 0` (`30_encoding.md` R76). -/
def newsCb (cccc : BitVec 4) : Nat := if cccc = 0 then 16 else cccc.toNat

/-- `cb` of `X.NEWL`: 64 when `cccccc = 0` (`30_encoding.md` R76). -/
def newlCb (cccccc : BitVec 6) : Nat := if cccccc = 0 then 64 else cccccc.toNat

/-- Payload width of a window-change record: `cb - 1` bits, none when the header is malformed, since the
check comes before the payload read (`42_xor64.md` R134). -/
def windowWidth (iii : BitVec 3) (cb : Nat) : Nat := if lzVal iii + cb > 64 then 0 else cb - 1

/-- Payload width of `C.HIST`: `sig` bits, none when `LZVAL(iii) + sig > 64` (`44_chimp.md` R198). -/
def histWidth (iii : BitVec 3) (ssssss : BitVec 6) : Nat :=
  if lzVal iii + ssssss.toNat > 64 then 0 else ssssss.toNat

/-- Payload width of `C.PREVN`: `64 - lz` bits (`30_encoding.md` R79). -/
def prevnWidth (iii : BitVec 3) : Nat := 64 - lzVal iii

end Sys2Proof.Machine
end

