-- ==== Sys2Proof/Syntax.lean ====
section
/-! DEFINITION. The instructions: one constructor per row of spec/opcode_table.json, in the table's order.
Host commands (`30_encoding.md` R71), the dispatch rows (what `ENC.VAL`, `ENC.CLOSE` and `DEC.VAL` are under
each codec), and the wire records (`30_encoding.md` R75, R78, R79). -/

namespace Sys2Proof

/-- An instruction of the block with its operands. -/
inductive Instr where
  /-- `RESET` (`45_block_and_system.md` R215). -/
  | reset
  /-- `CFG.W n` (`45_block_and_system.md` R214). -/
  | cfgW (n : BitVec 7)
  /-- `STATUS` (`45_block_and_system.md` R216). -/
  | status
  /-- `ENC.OPEN codec` (`45_block_and_system.md` R210). -/
  | encOpen (codec : Codec)
  /-- `WBIT b` (`41_bitstream.md` R100). -/
  | wbit (b : Bool)
  /-- `WBITS v, n` (`41_bitstream.md` R101). -/
  | wbits (v : Word) (n : BitVec 7)
  /-- `FLUSH` (`41_bitstream.md` R102). -/
  | flush
  /-- `BYTES` (`41_bitstream.md` R103). -/
  | bytes
  /-- `ENC.VAL v` (`45_block_and_system.md` R211). -/
  | encVal (v : Word)
  /-- `ENC.CLOSE` (`45_block_and_system.md` R211). -/
  | encClose
  /-- `LOAD data` (`41_bitstream.md` R104). -/
  | load (data : List Byte)
  /-- `DEC.OPEN codec` (`45_block_and_system.md` R212). -/
  | decOpen (codec : Codec)
  /-- `RBIT` (`41_bitstream.md` R105). -/
  | rbit
  /-- `RBITS n` (`41_bitstream.md` R106). -/
  | rbits (n : BitVec 7)
  /-- `DEC.VAL` (`45_block_and_system.md` R213). -/
  | decVal
  /-- `COMPRESS codec, values` (`45_block_and_system.md` R217). -/
  | compress (codec : Codec) (data : List Word)
  /-- `DECOMPRESS codec, bytes` (`45_block_and_system.md` R218). -/
  | decompress (codec : Codec) (data : List Byte)
  /-- `X64.ENC v`: `ENC.VAL` selected by `E.codec = 1` (`42_xor64.md` R120). -/
  | x64Enc (v : Word)
  /-- `ERA.ENC v`: `ENC.VAL` selected by `E.codec = 2` (`43_erasure.md` R158). -/
  | eraEnc (v : Word)
  /-- `CHP.ENC v`: `ENC.VAL` selected by `E.codec = 3` (`44_chimp.md` R181). -/
  | chpEnc (v : Word)
  /-- `X64.CLOSE`: `ENC.CLOSE` selected by `E.codec = 1` (`42_xor64.md` R127). -/
  | x64Close
  /-- `ERA.CLOSE`: `ENC.CLOSE` selected by `E.codec = 2` (`43_erasure.md` R159). -/
  | eraClose
  /-- `CHP.CLOSE`: `ENC.CLOSE` selected by `E.codec = 3` (`44_chimp.md` R190). -/
  | chpClose
  /-- `X64.DEC`: `DEC.VAL` selected by `D.codec = 1` (`42_xor64.md` R130). -/
  | x64Dec
  /-- `ERA.DEC`: `DEC.VAL` selected by `D.codec = 2` (`43_erasure.md` R161). -/
  | eraDec
  /-- `CHP.DEC`: `DEC.VAL` selected by `D.codec = 3` (`44_chimp.md` R194). -/
  | chpDec
  /-- Record `X.FIRST`: `ttttttt P` (`42_xor64.md` R121, R131). -/
  | xFirst (tz : BitVec 7) (p : Word)
  /-- Record `X.SAME`: `01` (`42_xor64.md` R122, R132). -/
  | xSame
  /-- Record `X.REUSE`: `00 P` (`42_xor64.md` R123, R133). -/
  | xReuse (p : Word)
  /-- Record `X.NEWS`: `10 iii cccc P` (`42_xor64.md` R125, R135). -/
  | xNews (iii : BitVec 3) (cccc : BitVec 4) (p : Word)
  /-- Record `X.NEWL`: `11 iii cccccc P` (`42_xor64.md` R126, R136). -/
  | xNewl (iii : BitVec 3) (cccccc : BitVec 6) (p : Word)
  /-- Prefix `E.SAMEB`: `0` (`43_erasure.md` R162). -/
  | eSameb
  /-- Prefix `E.PLAIN`: `10` (`43_erasure.md` R164). -/
  | ePlain
  /-- Prefix `E.NEWB`: `11 bbbb` (`43_erasure.md` R163). -/
  | eNewb (bbbb : BitVec 4)
  /-- Record `C.FIRST`: 64 raw bits (`44_chimp.md` R182, R195). -/
  | cFirst (p : Word)
  /-- Record `C.COPY`: `00 r` (`44_chimp.md` R185, R196). -/
  | cCopy (r : Word)
  /-- Record `C.HIST`: `01 r iii ssssss P` (`44_chimp.md` R186, R198). -/
  | cHist (r : Word) (iii : BitVec 3) (ssssss : BitVec 6) (p : Word)
  /-- Record `C.PREV`: `10 P` (`44_chimp.md` R187, R199). -/
  | cPrev (p : Word)
  /-- Record `C.PREVN`: `11 iii P` (`44_chimp.md` R188, R200). -/
  | cPrevn (iii : BitVec 3) (p : Word)
deriving DecidableEq, Repr

end Sys2Proof
end

