-- ==== Sys2Proof/WellFormed.lean ====
section
/-! DEFINITION. Which instructions an encoding admits in a context: the right kind of row for the place it is
read from, and every record field within its width (`30_encoding.md` R70 to R80). The operands of commands
have the widths of R70 by their types, so every command is well formed; that `n` is above 64 or a codec RAW
is for the meanings to refuse (`60_exceptions.md` R235). -/

namespace Sys2Proof

open Machine

/-- The width of the `X.REUSE` payload in a context, `cb = 64 - slz - stz` (`30_encoding.md` R84). -/
def Context.reuseWidth : Context → Nat
  | .xSteady cb => cb
  | _ => 0

/-- The width of a CHP slot number in a context, `L` (`30_encoding.md` R79). -/
def Context.slotWidth : Context → Nat
  | .cSteady slot _ => slot
  | _ => 0

/-- The width of the `C.PREV` payload in a context, `64 - slz` (`30_encoding.md` R84). -/
def Context.prevWidth : Context → Nat
  | .cSteady _ prev => prev
  | _ => 0

/-- Whether the context is that of a steady-state X64 record. -/
def Context.isXSteady : Context → Bool
  | .xSteady _ => true
  | _ => false

/-- Whether the context is that of a steady-state CHP record. -/
def Context.isCSteady : Context → Bool
  | .cSteady _ _ => true
  | _ => false

/-- Whether the dispatch context selects the encode side of the given codec. -/
def Context.encodes (c : Context) (k : Codec) : Bool :=
  match c with
  | .dispatch e _ => e == k
  | _ => false

/-- Whether the dispatch context selects the decode side of the given codec. -/
def Context.decodes (c : Context) (k : Codec) : Bool :=
  match c with
  | .dispatch _ d => d == k
  | _ => false

/-- Whether a payload fits in `n` bits. -/
def fits (p : Word) (n : Nat) : Bool := p.toNat < 2 ^ n

/-- An instruction that can stand where the context says, with every field in its width. -/
def Instr.wellFormed (c : Context) : Instr → Bool
  | .reset => c == .port
  | .cfgW _ => c == .port
  | .status => c == .port
  | .encOpen _ => c == .port
  | .wbit _ => c == .port
  | .wbits _ _ => c == .port
  | .flush => c == .port
  | .bytes => c == .port
  | .encVal _ => c == .port
  | .encClose => c == .port
  | .load _ => c == .port
  | .decOpen _ => c == .port
  | .rbit => c == .port
  | .rbits _ => c == .port
  | .decVal => c == .port
  | .compress _ _ => c == .port
  | .decompress _ _ => c == .port
  | .x64Enc _ => c.encodes .x64
  | .eraEnc _ => c.encodes .era
  | .chpEnc _ => c.encodes .chp
  | .x64Close => c.encodes .x64
  | .eraClose => c.encodes .era
  | .chpClose => c.encodes .chp
  | .x64Dec => c.decodes .x64
  | .eraDec => c.decodes .era
  | .chpDec => c.decodes .chp
  | .xFirst tz p => c == .xFirst && fits p (firstWidth tz)
  | .xSame => c.isXSteady
  | .xReuse p => c.isXSteady && fits p c.reuseWidth
  | .xNews iii cccc p => c.isXSteady && fits p (windowWidth iii (newsCb cccc))
  | .xNewl iii cccccc p => c.isXSteady && fits p (windowWidth iii (newlCb cccccc))
  | .eSameb => c == .eraPrefix
  | .ePlain => c == .eraPrefix
  | .eNewb _ => c == .eraPrefix
  | .cFirst _ => c == .cFirst
  | .cCopy r => c.isCSteady && fits r c.slotWidth
  | .cHist r iii ssssss p => c.isCSteady && fits r c.slotWidth && fits p (histWidth iii ssssss)
  | .cPrev p => c.isCSteady && fits p c.prevWidth
  | .cPrevn iii p => c.isCSteady && fits p (prevnWidth iii)

end Sys2Proof
end

