-- ==== Sys2Proof/Decode.lean ====
section
/-! DEFINITION. The decoder and the encoder: command records (`30_encoding.md` R70, R71), the dispatch of a
command by the codec registers, and the wire records (`30_encoding.md` R75 to R80). -/

namespace Sys2Proof

open Machine

/-! ## Decoding -/

/-- The host command a command record holds (`30_encoding.md` R71); any other `op` is reserved (R87). -/
def decodeCommand (w : Command) : Except Reject Instr :=
  if w.op = 0x01 then .ok .reset
  else if w.op = 0x02 then .ok (.cfgW w.n)
  else if w.op = 0x03 then .ok .status
  else if w.op = 0x08 then .ok (.encOpen (Codec.ofCode w.codec))
  else if w.op = 0x09 then .ok (.wbit w.b)
  else if w.op = 0x0A then .ok (.wbits w.v w.n)
  else if w.op = 0x0B then .ok .flush
  else if w.op = 0x0C then .ok .bytes
  else if w.op = 0x0D then .ok (.encVal w.v)
  else if w.op = 0x0E then .ok .encClose
  else if w.op = 0x10 then .ok (.load w.bytes)
  else if w.op = 0x11 then .ok (.decOpen (Codec.ofCode w.codec))
  else if w.op = 0x12 then .ok .rbit
  else if w.op = 0x13 then .ok (.rbits w.n)
  else if w.op = 0x14 then .ok .decVal
  else if w.op = 0x18 then .ok (.compress (Codec.ofCode w.codec) w.pats)
  else if w.op = 0x19 then .ok (.decompress (Codec.ofCode w.codec) w.bytes)
  else .error .reservedOp

/-- The dispatch row a command becomes under the codec registers (table rows `CMD.DISPATCH`,
`45_block_and_system.md` R211, R213). -/
def dispatchCommand (e d : Codec) : Instr → Except Reject Instr
  | .encVal v =>
    match e with
    | .raw => .error .notDispatched
    | .x64 => .ok (.x64Enc v)
    | .era => .ok (.eraEnc v)
    | .chp => .ok (.chpEnc v)
  | .encClose =>
    match e with
    | .raw => .error .notDispatched
    | .x64 => .ok .x64Close
    | .era => .ok .eraClose
    | .chp => .ok .chpClose
  | .decVal =>
    match d with
    | .raw => .error .notDispatched
    | .x64 => .ok .x64Dec
    | .era => .ok .eraDec
    | .chp => .ok .chpDec
  | _ => .error .notDispatched

/-- The X64 record at the head of a bit string (`42_xor64.md` R130). `first` is `D.X.first`, `cb` the width
of the announced window. Bits past the end count 0: whether they are there is for the meaning to test, field
by field, as the rules do (`60_exceptions.md` R238). -/
def decodeX (first : Bool) (cb : Nat) (bits : List Bool) : XRecord :=
  if first then
    .first (field 7 7 bits) (field 64 (firstWidth (field 7 7 bits)) (bits.drop 7))
  else if field 2 2 bits = 0b01#2 then .same
  else if field 2 2 bits = 0b00#2 then .reuse (field 64 cb (bits.drop 2))
  else if field 2 2 bits = 0b10#2 then
    .news (field 3 3 (bits.drop 2)) (field 4 4 (bits.drop 5))
      (field 64 (windowWidth (field 3 3 (bits.drop 2)) (newsCb (field 4 4 (bits.drop 5)))) (bits.drop 9))
  else
    .newl (field 3 3 (bits.drop 2)) (field 6 6 (bits.drop 5))
      (field 64 (windowWidth (field 3 3 (bits.drop 2)) (newlCb (field 6 6 (bits.drop 5)))) (bits.drop 11))

/-- The ERA control prefix at the head of a bit string (`43_erasure.md` R161). -/
def decodeE (bits : List Bool) : EPrefix :=
  if field 1 1 bits = 0#1 then .sameb
  else if field 1 1 (bits.drop 1) = 0#1 then .plain
  else .newb (field 4 4 (bits.drop 2))

/-- The CHP record at the head of a bit string (`44_chimp.md` R194). `first` is `D.C.first`, `slot` is `L`,
`prev` the width `64 - slz` of a `C.PREV` payload. -/
def decodeC (first : Bool) (slot prev : Nat) (bits : List Bool) : CRecord :=
  if first then .first (field 64 64 bits)
  else if field 2 2 bits = 0b00#2 then .copy (field 64 slot (bits.drop 2))
  else if field 2 2 bits = 0b01#2 then
    .hist (field 64 slot (bits.drop 2)) (field 3 3 (bits.drop (2 + slot))) (field 6 6 (bits.drop (5 + slot)))
      (field 64 (histWidth (field 3 3 (bits.drop (2 + slot))) (field 6 6 (bits.drop (5 + slot))))
        (bits.drop (11 + slot)))
  else if field 2 2 bits = 0b10#2 then .prev (field 64 prev (bits.drop 2))
  else .prevn (field 3 3 (bits.drop 2)) (field 64 (prevnWidth (field 3 3 (bits.drop 2))) (bits.drop 5))

/-- The instruction an X64 record is. -/
def XRecord.toInstr : XRecord → Instr
  | .first tz p => .xFirst tz p
  | .same => .xSame
  | .reuse p => .xReuse p
  | .news iii cccc p => .xNews iii cccc p
  | .newl iii cccccc p => .xNewl iii cccccc p

/-- The instruction an ERA prefix is. -/
def EPrefix.toInstr : EPrefix → Instr
  | .sameb => .eSameb
  | .plain => .ePlain
  | .newb bbbb => .eNewb bbbb

/-- The instruction a CHP record is. -/
def CRecord.toInstr : CRecord → Instr
  | .first p => .cFirst p
  | .copy r => .cCopy r
  | .hist r iii ssssss p => .cHist r iii ssssss p
  | .prev p => .cPrev p
  | .prevn iii p => .cPrevn iii p

/-- The length in bits of a record, or of a prefix without the X64 record after it (`30_encoding.md` R84).
A malformed header has no payload. 0 for what is no record. -/
def recordLength (c : Context) : Instr → Nat
  | .xFirst tz _ => 7 + firstWidth tz
  | .xSame => 2
  | .xReuse _ => 2 + c.reuseWidth
  | .xNews iii cccc _ => 9 + windowWidth iii (newsCb cccc)
  | .xNewl iii cccccc _ => 11 + windowWidth iii (newlCb cccccc)
  | .eSameb => 1
  | .ePlain => 2
  | .eNewb _ => 6
  | .cFirst _ => 64
  | .cCopy _ => 2 + c.slotWidth
  | .cHist _ iii ssssss _ => 11 + c.slotWidth + histWidth iii ssssss
  | .cPrev _ => 2 + c.prevWidth
  | .cPrevn iii _ => 5 + prevnWidth iii
  | _ => 0

/-- A record read whole from a bit string, or `truncated`. -/
def wholeRecord (c : Context) (bits : List Bool) (i : Instr) : Except Reject Instr :=
  if bits.length < recordLength c i then .error .truncated else .ok i

/-- The decoder: the instruction that stands where the context says, or why there is none. -/
def decode (c : Context) (w : Encoding) : Except Reject Instr :=
  match w with
  | .command w =>
    match c with
    | .port => decodeCommand w
    | .dispatch e d =>
      match decodeCommand w with
      | .ok i => dispatchCommand e d i
      | .error r => .error r
    | .xFirst => .error .wrongStream
    | .xSteady _ => .error .wrongStream
    | .eraPrefix => .error .wrongStream
    | .cFirst => .error .wrongStream
    | .cSteady _ _ => .error .wrongStream
  | .record bits =>
    match c with
    | .port => .error .wrongStream
    | .dispatch _ _ => .error .wrongStream
    | .xFirst => wholeRecord c bits (decodeX true 0 bits).toInstr
    | .xSteady cb => wholeRecord c bits (decodeX false cb bits).toInstr
    | .eraPrefix => wholeRecord c bits (decodeE bits).toInstr
    | .cFirst => wholeRecord c bits (decodeC true 0 0 bits).toInstr
    | .cSteady slot prev => wholeRecord c bits (decodeC false slot prev bits).toInstr

/-! ## Encoding -/

/-- A command record with only its `op` set. -/
def Command.ofOp (op : BitVec 5) : Command := ⟨op, 0, 0, false, 0, [], []⟩

/-- The words of an instruction, from the same tables (`30_encoding.md` R71, R75, R78, R79). The fields a
command's row does not name are zero or empty. -/
def encode (c : Context) : Instr → Encoding
  | .reset => .command (Command.ofOp 0x01)
  | .cfgW n => .command { Command.ofOp 0x02 with n := n }
  | .status => .command (Command.ofOp 0x03)
  | .encOpen codec => .command { Command.ofOp 0x08 with codec := codec.code }
  | .wbit b => .command { Command.ofOp 0x09 with b := b }
  | .wbits v n => .command { Command.ofOp 0x0A with v := v, n := n }
  | .flush => .command (Command.ofOp 0x0B)
  | .bytes => .command (Command.ofOp 0x0C)
  | .encVal v => .command { Command.ofOp 0x0D with v := v }
  | .encClose => .command (Command.ofOp 0x0E)
  | .load data => .command { Command.ofOp 0x10 with bytes := data }
  | .decOpen codec => .command { Command.ofOp 0x11 with codec := codec.code }
  | .rbit => .command (Command.ofOp 0x12)
  | .rbits n => .command { Command.ofOp 0x13 with n := n }
  | .decVal => .command (Command.ofOp 0x14)
  | .compress codec data => .command { Command.ofOp 0x18 with codec := codec.code, pats := data }
  | .decompress codec data => .command { Command.ofOp 0x19 with codec := codec.code, bytes := data }
  | .x64Enc v => .command { Command.ofOp 0x0D with v := v }
  | .eraEnc v => .command { Command.ofOp 0x0D with v := v }
  | .chpEnc v => .command { Command.ofOp 0x0D with v := v }
  | .x64Close => .command (Command.ofOp 0x0E)
  | .eraClose => .command (Command.ofOp 0x0E)
  | .chpClose => .command (Command.ofOp 0x0E)
  | .x64Dec => .command (Command.ofOp 0x14)
  | .eraDec => .command (Command.ofOp 0x14)
  | .chpDec => .command (Command.ofOp 0x14)
  | .xFirst tz p => .record (bitsOf tz 7 ++ bitsOf p (firstWidth tz))
  | .xSame => .record [false, true]
  | .xReuse p => .record ([false, false] ++ bitsOf p c.reuseWidth)
  | .xNews iii cccc p =>
    .record ([true, false] ++ bitsOf iii 3 ++ bitsOf cccc 4 ++ bitsOf p (windowWidth iii (newsCb cccc)))
  | .xNewl iii cccccc p =>
    .record ([true, true] ++ bitsOf iii 3 ++ bitsOf cccccc 6 ++ bitsOf p (windowWidth iii (newlCb cccccc)))
  | .eSameb => .record [false]
  | .ePlain => .record [true, false]
  | .eNewb bbbb => .record ([true, true] ++ bitsOf bbbb 4)
  | .cFirst p => .record (bitsOf p 64)
  | .cCopy r => .record ([false, false] ++ bitsOf r c.slotWidth)
  | .cHist r iii ssssss p =>
    .record ([false, true] ++ bitsOf r c.slotWidth ++ bitsOf iii 3 ++ bitsOf ssssss 6 ++
      bitsOf p (histWidth iii ssssss))
  | .cPrev p => .record ([true, false] ++ bitsOf p c.prevWidth)
  | .cPrevn iii p => .record ([true, true] ++ bitsOf iii 3 ++ bitsOf p (prevnWidth iii))

/-! ## Numbered bits -/

/-- The command record whose fields are the bits of a number, in the order of `30_encoding.md` R70 from bit 0
up: `op` 4:0, `codec` 6:5, `n` 13:7, `b` 14, `v` 78:15, `data` empty. The place of `op` is the table's
`command[4:0]`; the other places are a DESIGN CHOICE (log 2). -/
def Command.ofBits (w : Nat) : Command where
  op := BitVec.ofNat 5 w
  codec := BitVec.ofNat 2 (w / 2 ^ 5)
  n := BitVec.ofNat 7 (w / 2 ^ 7)
  b := w / 2 ^ 14 % 2 == 1
  v := BitVec.ofNat 64 (w / 2 ^ 15)
  bytes := []
  pats := []

/-- The instruction the decoder reads from a table row's word: bits `nbits` and up are 0. -/
def decodeTableWord (nbits w : Nat) : Option Instr :=
  match decodeCommand (Command.ofBits (w % 2 ^ nbits)) with
  | .ok i => some i
  | .error _ => none

end Sys2Proof
end

