-- ==== Sys2Proof/Machine/State.lean ====
section
/-! DEFINITION. The state of one CORE (`10_state.md` R20): the configuration register, the encode half `e`, the
decode half `d`; beside them the two ports and the implementation's parameters. Plain data throughout. -/

namespace Sys2Proof.Machine

/-- The error codes of `60_exceptions.md` R231. Codes 6 and 7 are reserved and never produced, so the type
is closed without them. -/
inductive ErrCode where
  | none
  | endOfStream
  | malformedBlock
  | precisionOverflow
  | contractViolation
  | overflow
deriving DecidableEq, Repr

/-- The phases of the decode half (`10_state.md` R30). -/
inductive Phase where
  | run
  | done
  | fault
deriving DecidableEq, Repr

/-- A sparse store of values by number: (key, value) pairs with keys strictly rising and no entry equal to
the value an unlisted key reads as. It holds the rings and the index table (`20_memory.md` R50). -/
abbrev Memory (α : Type) := List (Nat × α)

/-- The BitSink registers `E.BS.*` (`10_state.md` R22). -/
structure BitSink where
  /-- The completed bytes, byte 0 first written. -/
  buf : List Byte
  /-- The partial byte, first written bit in bit 7. -/
  acc : Byte
  /-- How many bits of `acc` are filled. -/
  woff : BitVec 3
  /-- 1 after `FLUSH`: the sink accepts no more bits. -/
  sealed : Bool
deriving DecidableEq, Repr

/-- The BitSource registers `D.BS.*` (`10_state.md` R28). -/
structure BitSource where
  /-- The bytes to read. -/
  buf : List Byte
  /-- The bit address of the next bit to read; it plays the program counter (`10_state.md` R29). -/
  pos : Nat
deriving DecidableEq, Repr

/-- The X64 registers of one half, `E.X.*` or `D.X.*` (`10_state.md` R24, R31). -/
structure XorRegs where
  /-- 1 in state First, 0 in state Steady. -/
  first : Bool
  /-- The pattern of the last value. -/
  sv : Word
  /-- 1 when a window has been announced in this block. -/
  winv : Bool
  /-- The announced leading-zero count. -/
  slz : BitVec 5
  /-- The announced trailing-zero count. -/
  stz : BitVec 7
deriving DecidableEq, Repr

/-- The ERA registers of one half, `E.R.*` or `D.R.*` (`10_state.md` R25, R32). -/
structure EraRegs where
  /-- 1 when `lbs` holds a betaStar announced in this block. -/
  lbsv : Bool
  /-- `lastBetaStar`. -/
  lbs : BitVec 4
deriving DecidableEq, Repr

/-- The CHP encoder registers `E.C.*` (`10_state.md` R26). -/
structure ChpEncRegs where
  /-- `E.C.L`, the `LOG2W` latched at `ENC.OPEN`. -/
  log2w : BitVec 6
  /-- 1 before the first value of the block. -/
  first : Bool
  /-- The last `W` patterns, position `p` in slot `p mod W`; an unlisted slot reads 0 (log 6). -/
  ring : Memory Word
  /-- The absolute position of the most recent value. -/
  index : Nat
  /-- The valid bits of the index table; an unlisted key reads 0. -/
  tblv : Memory Bool
  /-- The index table: the last position that produced a key; an unlisted key reads 0 (log 6). -/
  tbl : Memory Nat
  /-- The announced leading-zero count, or 65. -/
  slz : BitVec 7
deriving DecidableEq, Repr

/-- The CHP decoder registers `D.C.*` (`10_state.md` R33). -/
structure ChpDecRegs where
  /-- `D.C.L`, the `LOG2W` latched at `DEC.OPEN`. -/
  log2w : BitVec 6
  /-- 1 before the first value of the block. -/
  first : Bool
  /-- The last `W` patterns; an unlisted slot reads 0 (log 6). -/
  ring : Memory Word
  /-- The absolute position of the most recent value. -/
  index : Nat
  /-- The announced leading-zero count, or 65. -/
  slz : BitVec 7
deriving DecidableEq, Repr

/-- The sticky flags `E.STATUS` (`10_state.md` R27). -/
structure EncStatus where
  /-- Bit 0: a command of the encode half was refused as a ContractViolation. -/
  cv : Bool
  /-- Bit 1: a data value that is the sentinel pattern was encoded. -/
  sent : Bool
  /-- Bit 2: a command was refused as an Overflow. -/
  ovf : Bool
deriving DecidableEq, Repr

/-- The encode half `E.*` (`10_state.md` R20, R22 to R27). -/
structure EncHalf where
  bs : BitSink
  codec : Codec
  x : XorRegs
  r : EraRegs
  c : ChpEncRegs
  status : EncStatus
deriving DecidableEq, Repr

/-- The decode half `D.*` (`10_state.md` R20, R28 to R33). -/
structure DecHalf where
  bs : BitSource
  codec : Codec
  phase : Phase
  err : ErrCode
  x : XorRegs
  r : EraRegs
  c : ChpDecRegs
  /-- `D.STATUS` bit 0, `CV`. -/
  cv : Bool
deriving DecidableEq, Repr

/-- A response on the response port (`30_encoding.md` R73). -/
inductive Response where
  | ok
  | bit (b : Bool)
  | val (v : Word)
  | bytes (data : List Byte)
  | vals (data : List Word)
  | endOfBlock
  | status (word : Word)
  | err (code : ErrCode)
deriving DecidableEq, Repr

/-- The state of one CORE with its ports and its implementation's parameters. -/
structure State where
  /-- The implementation's parameters (`00_scope.md` R6); no command writes them (log 5). -/
  impl : Config.Impl
  /-- `CFG.LOG2W` (`10_state.md` R36). -/
  cfgLog2w : BitVec 6
  /-- The encode half. -/
  e : EncHalf
  /-- The decode half. -/
  d : DecHalf
  /-- The command port: commands issued and not yet taken, first first (`30_encoding.md` R70, log 1). -/
  port : List Command
  /-- The response port: the response of the last command, if one was answered (R73, log 3). -/
  resp : Option Response
deriving DecidableEq, Repr

/-- Why the machine stops. The spec's errors are responses (`60_exceptions.md` R230), not stops. -/
inductive Fault where
  /-- Raised by `DECOMPRESS` alone, if its loop did not end within the bound of `70_reset_and_hazards.md`
  R272. It is never raised; were it, the model would stop where the block goes on: safe (log 8). -/
  | decompressBound
deriving DecidableEq, Repr

/-- Why an instruction has no meaning. -/
inductive Refusal where
  /-- Answered by `exec` for an instruction without a meaning; every instruction has one, so it is never
  answered: safe. -/
  | notModelled (mnemonic : String)
deriving DecidableEq, Repr

/-! ## Reset values (`10_state.md` R38) -/

/-- The sink at reset and after `ENC.OPEN`. -/
def BitSink.reset : BitSink := ⟨[], 0, 0, false⟩

/-- The source at reset. -/
def BitSource.reset : BitSource := ⟨[], 0⟩

/-- The X64 registers at reset and after an OPEN. -/
def XorRegs.reset : XorRegs := ⟨true, 0, false, 0, 0⟩

/-- The ERA registers at reset and after an OPEN. -/
def EraRegs.reset : EraRegs := ⟨false, 0⟩

/-- The CHP encoder registers at reset; ring and table contents are a DESIGN CHOICE (log 6). -/
def ChpEncRegs.reset : ChpEncRegs := ⟨Config.log2wReset, true, [], 0, [], [], Config.noWindow⟩

/-- The CHP decoder registers at reset; ring contents are a DESIGN CHOICE (log 6). -/
def ChpDecRegs.reset : ChpDecRegs := ⟨Config.log2wReset, true, [], 0, Config.noWindow⟩

/-- `E.STATUS` at reset and after `ENC.OPEN`. -/
def EncStatus.reset : EncStatus := ⟨false, false, false⟩

/-- The encode half at reset. -/
def EncHalf.reset : EncHalf :=
  ⟨BitSink.reset, .raw, XorRegs.reset, EraRegs.reset, ChpEncRegs.reset, EncStatus.reset⟩

/-- The decode half at reset: phase DONE, nothing to decode. -/
def DecHalf.reset : DecHalf :=
  ⟨BitSource.reset, .raw, .done, .none, XorRegs.reset, EraRegs.reset, ChpDecRegs.reset, false⟩

/-- The machine after power-on (`70_reset_and_hazards.md` R260): every register at its reset value, no command
on the port, no response given. -/
def State.reset : State :=
  ⟨Config.Impl.default, Config.log2wReset, EncHalf.reset, DecHalf.reset, [], none⟩

end Sys2Proof.Machine
end

