-- ==== Sys2Proof/Machine/Flags.lean ====
section
/-! DEFINITION. The status word and every flag computation (`10_state.md` R27, R30, R34; `30_encoding.md` R73;
`45_block_and_system.md` R216; `60_exceptions.md` R231). The block has no arithmetic condition codes. -/

namespace Sys2Proof.Machine

/-- A flag as one bit. -/
def flagBit (b : Bool) : BitVec 1 := BitVec.ofBool b

/-- The number of an error code (`60_exceptions.md` R231). -/
def ErrCode.code : ErrCode → BitVec 3
  | .none => 0
  | .endOfStream => 1
  | .malformedBlock => 2
  | .precisionOverflow => 3
  | .contractViolation => 4
  | .overflow => 5

/-- The number of a phase (`10_state.md` R30). -/
def Phase.code : Phase → BitVec 2
  | .run => 0
  | .done => 1
  | .fault => 2

/-- The number of a response's kind (`30_encoding.md` R73). -/
def Response.kind : Response → BitVec 3
  | .ok => 0
  | .bit _ => 1
  | .val _ => 2
  | .bytes _ => 3
  | .vals _ => 4
  | .endOfBlock => 5
  | .status _ => 6
  | .err _ => 7

/-- The `code` field of a response: the error code of an `Err` response (`30_encoding.md` R73, `60_exceptions.md`
R231). DESIGN CHOICE (log 15): 0 in every other response, where the spec gives the field no value. -/
def Response.code : Response → BitVec 3
  | .err c => c.code
  | _ => 0

/-- `E.STATUS` as a byte: bit 0 `CV`, bit 1 `SENT`, bit 2 `OVF`, bits 7:3 read 0 (`10_state.md` R27). -/
def EncStatus.byte (s : EncStatus) : Byte := 0#5 ++ flagBit s.ovf ++ flagBit s.sent ++ flagBit s.cv

/-- `D.STATUS` as a byte: bit 0 `CV`, bits 7:1 read 0 (`10_state.md` R30). -/
def DecHalf.statusByte (d : DecHalf) : Byte := 0#7 ++ flagBit d.cv

/-- The word `STATUS` responds, field by field from bit 63 down (`45_block_and_system.md` R216). -/
def State.statusWord (s : State) : Word :=
  0#26 ++ s.cfgLog2w ++ 0#6 ++ flagBit s.e.bs.sealed ++ s.d.err.code ++ s.d.phase.code ++
    s.d.codec.code ++ s.e.codec.code ++ s.d.statusByte ++ s.e.status.byte

/-- The sticky flag of a refused encode-half command: `CV` for a ContractViolation, `OVF` for an Overflow
(`60_exceptions.md` R235, R237, R248). No other code refuses a command. -/
def EncStatus.stick (s : EncStatus) : ErrCode → EncStatus
  | .contractViolation => { s with cv := true }
  | .overflow => { s with ovf := true }
  | .none => s
  | .endOfStream => s
  | .malformedBlock => s
  | .precisionOverflow => s

end Sys2Proof.Machine
end

