-- ==== Sys2Proof/Machine/Ops.lean ====
section
/-! DEFINITION. The named operations over memories and registers: the sparse store, the sink and source
cursors, responses, refusals (`60_exceptions.md` R237), and the block's trap entry (`60_exceptions.md` R236)
with the way out of it (R240). -/

namespace Sys2Proof.Machine

/-! ## The sparse store -/

/-- The value at a key; `dflt` where nothing is listed. -/
def Memory.read {α : Type} (dflt : α) : Memory α → Nat → α
  | [], _ => dflt
  | (k, v) :: m, key => if k = key then v else Memory.read dflt m key

/-- Puts an entry in its place; an entry equal to `dflt` is left out. -/
def Memory.write {α : Type} [DecidableEq α] (dflt : α) : Memory α → Nat → α → Memory α
  | [], key, val => if val = dflt then [] else [(key, val)]
  | (k, v) :: m, key, val =>
    if key < k then (if val = dflt then (k, v) :: m else (key, val) :: (k, v) :: m)
    else if key = k then (if val = dflt then m else (key, val) :: m)
    else (k, v) :: Memory.write dflt m key val

/-- The canonical form above a lower bound: keys rising, no listed default. -/
def Memory.wfFrom {α : Type} [DecidableEq α] (dflt : α) : Nat → Memory α → Bool
  | _, [] => true
  | lo, (k, v) :: m => decide (lo ≤ k) && decide (v ≠ dflt) && Memory.wfFrom dflt (k + 1) m

/-- The canonical form of a store: keys strictly rising, no entry equal to the default. -/
def Memory.wf {α : Type} [DecidableEq α] (dflt : α) (m : Memory α) : Bool := Memory.wfFrom dflt 0 m

/-! ## Responses, refusals, the error entry -/

/-- The state after a command whose response is `r`. -/
def State.respond (s : State) (r : Response) : State := { s with resp := some r }

/-- A refused command of the encode half (`60_exceptions.md` R237): the sticky flag and the `Err` response. -/
def State.refuseEnc (s : State) (c : ErrCode) : State :=
  { s with e := { s.e with status := s.e.status.stick c }, resp := some (.err c) }

/-- A refused command of the decode half: `D.STATUS.CV` for a ContractViolation (`60_exceptions.md` R235); the
Overflow refusal of `LOAD` and `DECOMPRESS` has no sticky flag (R248). -/
def State.refuseDec (s : State) (c : ErrCode) : State :=
  { s with d := { s.d with cv := s.d.cv || decide (c = .contractViolation) }, resp := some (.err c) }

/-- The error entry of the decode half, the block's trap entry (`60_exceptions.md` R236): phase FAULT, the
code in `D.err`; every register written before the raise stands. -/
def DecHalf.raiseEntry (d : DecHalf) (c : ErrCode) : DecHalf := { d with phase := .fault, err := c }

/-- A micro-operation sequence of the encode half. An error is a refusal of the whole command. -/
abbrev EncM (α : Type) := EStateM ErrCode EncHalf α

/-- A micro-operation sequence of the decode half. An error is a `raise`; the state it carries is what the
micro-operations before it left (`60_exceptions.md` R239). -/
abbrev DecM (α : Type) := EStateM ErrCode DecHalf α

/-- An encode-half command as one atomic step (`20_memory.md` R59, `45_block_and_system.md` R211): its state
is committed when every micro-operation was accepted, else the command is refused. -/
def runEnc (m : EncM Response) (s : State) : State :=
  match m s.e with
  | .ok r e => { s with e := e, resp := some r }
  | .error c _ => s.refuseEnc c

/-- A decode rule run by `DEC.VAL`: its response, or the error entry and `Err` (`60_exceptions.md` R236). -/
def runDecHalf (m : DecM Response) (d : DecHalf) : Response × DecHalf :=
  match m d with
  | .ok r d => (r, d)
  | .error c d => (.err c, d.raiseEntry c)

/-- A decode rule as one step of the machine. -/
def runDec (m : DecM Response) (s : State) : State :=
  { s with d := (runDecHalf m s.d).2, resp := some (runDecHalf m s.d).1 }

/-- The decoder registers as an OPEN leaves them, `ring` aside (`45_block_and_system.md` R212), and with them
the way out of FAULT: no return from an error exists but a new start (`60_exceptions.md` R240). -/
def DecHalf.opened (d : DecHalf) (cfg : BitVec 6) (k : Codec) : DecHalf :=
  { d with
    codec := k
    phase := if k = .raw then .done else .run
    err := .none
    cv := false
    x := XorRegs.reset
    r := EraRegs.reset
    c := { d.c with
      log2w := if k = .chp then cfg else d.c.log2w
      first := true
      index := 0
      slz := Config.noWindow } }

/-- The source as `LOAD` leaves it (`41_bitstream.md` R104); it too leaves FAULT, for DONE. -/
def DecHalf.loaded (d : DecHalf) (data : List Byte) : DecHalf :=
  { d with bs := ⟨data, 0⟩, phase := .done, err := .none }

/-- The encode half as `ENC.OPEN` leaves it (`45_block_and_system.md` R210); ring and table are not cleared. -/
def EncHalf.opened (e : EncHalf) (cfg : BitVec 6) (k : Codec) : EncHalf :=
  { bs := BitSink.reset
    codec := k
    x := XorRegs.reset
    r := EraRegs.reset
    c := { e.c with
      log2w := if k = .chp then cfg else e.c.log2w
      first := true
      index := 0
      tblv := []
      slz := Config.noWindow }
    status := EncStatus.reset }

/-- Sets the sticky `E.STATUS.SENT` when the pattern given to an engine is the sentinel
(`70_reset_and_hazards.md` R266). -/
def markSent (v : Word) : EncM Unit := fun e =>
  .ok () (if v = Config.sentinel then { e with status := { e.status with sent := true } } else e)

/-! ## The sink -/

/-- The bit length of the sink (`10_state.md` R22). -/
def BitSink.bitLen (k : BitSink) : Nat := 8 * k.buf.length + k.woff.toNat

/-- `bits(E.BS)`, the bit string of the sink (`41_bitstream.md` R107). -/
def BitSink.bits (k : BitSink) : List Bool := bytesBits k.buf ++ (bitsOf k.acc 8).take k.woff.toNat

/-- The register effect of an accepted `WBIT` (`41_bitstream.md` R100). -/
def BitSink.push (k : BitSink) (b : Bool) : BitSink :=
  let acc := k.acc ||| ((if b then 1 else 0 : Byte) <<< (7 - k.woff.toNat))
  if k.woff = 7 then { k with buf := k.buf ++ [acc], acc := 0, woff := 0 }
  else { k with acc := acc, woff := k.woff + 1 }

/-- Bits `n-1` down to 0 of `v`, one `WBIT` each (`41_bitstream.md` R101). -/
def BitSink.pushBits (v : Word) : Nat → BitSink → BitSink
  | 0, k => k
  | n + 1, k => BitSink.pushBits v n (k.push (v.getLsbD n))

/-- The register effect of `FLUSH` (`41_bitstream.md` R102). -/
def BitSink.flushed (k : BitSink) : BitSink :=
  if k.sealed then k
  else if k.woff = 0 then { k with sealed := true }
  else { buf := k.buf ++ [k.acc], acc := 0, woff := 0, sealed := true }

/-- Whether `n` more bits would pass `SINK_CAP` (`20_memory.md` R57, `41_bitstream.md` R100, R101). -/
def sinkFull (m : Config.Impl) (k : BitSink) (n : Nat) : Bool :=
  match m.sinkCap with
  | none => false
  | some cap => k.bitLen + n > 8 * cap

/-- `WBITS(v, n)`, the operation `MemWrite` (`41_bitstream.md` R101, `00_scope.md` R9): the checks in the
order of `60_exceptions.md` R238, then all `n` bits. -/
def putBits (m : Config.Impl) (v : Word) (n : Nat) : EncM Unit := fun e =>
  if n > Config.nMax then .error .contractViolation e
  else if e.bs.sealed then .error .contractViolation e
  else if sinkFull m e.bs n then .error .overflow e
  else .ok () { e with bs := BitSink.pushBits v n e.bs }

/-- `WBIT(b)` (`41_bitstream.md` R100). -/
def putBit (m : Config.Impl) (b : Bool) : EncM Unit := fun e =>
  if e.bs.sealed then .error .contractViolation e
  else if sinkFull m e.bs 1 then .error .overflow e
  else .ok () { e with bs := e.bs.push b }

/-- `FLUSH` (`41_bitstream.md` R102). -/
def flushSink : EncM Unit := fun e => .ok () { e with bs := e.bs.flushed }

/-! ## The source -/

/-- `avail`, the number of unread bits (`10_state.md` R28). -/
def BitSource.avail (k : BitSource) : Nat := 8 * k.buf.length - k.pos

/-- The unread bits of the source (`41_bitstream.md` R107). -/
def BitSource.unread (k : BitSource) : List Bool := (bytesBits k.buf).drop k.pos

/-- The cursor effect of `RBITS(n)` inside a decode rule (`41_bitstream.md` R106): `n` bits are consumed, or
EndOfStream is raised and none is. The value of the field is the operand the record was decoded with. No
decode rule reads more than 64 bits at once (`70_reset_and_hazards.md` R264), so `n` is not tested (log 7). -/
def consume (n : Nat) : DecM Unit := fun d =>
  if d.bs.avail < n then .error .endOfStream d
  else .ok () { d with bs := { d.bs with pos := d.bs.pos + n } }

/-- `raise X` inside a decode rule (`60_exceptions.md` R236). -/
def raise {α : Type} (c : ErrCode) : DecM α := fun d => .error c d

end Sys2Proof.Machine
end

