-- ==== Sys2Proof/Machine/BitStream.lean ====
section
/-! DEFINITION. The BitStream unit (`41_bitstream.md`): the four commands of the sink and the three of the
source, as the host issues them. -/

namespace Sys2Proof.Machine

/-- `WBIT b` (`41_bitstream.md` R100). -/
def execWbit (b : Bool) (s : State) : Host.Outcome State Fault Refusal :=
  .next (runEnc (do putBit s.impl b; pure .ok) s)

/-- `WBITS v, n` (`41_bitstream.md` R101). -/
def execWbits (v : Word) (n : BitVec 7) (s : State) : Host.Outcome State Fault Refusal :=
  .next (runEnc (do putBits s.impl v n.toNat; pure .ok) s)

/-- `FLUSH` (`41_bitstream.md` R102); on a sealed sink it changes nothing and answers `Ok`. -/
def execFlush (s : State) : Host.Outcome State Fault Refusal :=
  .next (runEnc (do flushSink; pure .ok) s)

/-- `BYTES` (`41_bitstream.md` R103). -/
def execBytes (s : State) : Host.Outcome State Fault Refusal :=
  if s.e.bs.sealed then .next (s.respond (.bytes s.e.bs.buf))
  else .next (s.refuseEnc .contractViolation)

/-- Whether a byte sequence is longer than `SRC_CAP` (`20_memory.md` R57). -/
def sourceTooLong (m : Config.Impl) (data : List Byte) : Bool :=
  match m.srcCap with
  | none => false
  | some cap => data.length > cap

/-- `LOAD data` (`41_bitstream.md` R104). -/
def execLoad (data : List Byte) (s : State) : Host.Outcome State Fault Refusal :=
  if sourceTooLong s.impl data then .next (s.refuseDec .overflow)
  else .next { s with d := s.d.loaded data, resp := some .ok }

/-- The source with the cursor `n` bits further. -/
def DecHalf.advance (d : DecHalf) (n : Nat) : DecHalf := { d with bs := { d.bs with pos := d.bs.pos + n } }

/-- `RBIT` (`41_bitstream.md` R105): at the end of the source a plain error response, no state changes. -/
def execRbit (s : State) : Host.Outcome State Fault Refusal :=
  if s.d.bs.avail < 1 then .next (s.respond (.err .endOfStream))
  else .next { s with d := s.d.advance 1, resp := some (.bit (field 1 1 s.d.bs.unread == 1#1)) }

/-- `RBITS n` (`41_bitstream.md` R106): refused above 64 bits; a plain error response, and no bit consumed,
where fewer than `n` are left. -/
def execRbits (n : BitVec 7) (s : State) : Host.Outcome State Fault Refusal :=
  if n.toNat > Config.nMax then .next (s.refuseDec .contractViolation)
  else if s.d.bs.avail < n.toNat then .next (s.respond (.err .endOfStream))
  else .next { s with d := s.d.advance n.toNat, resp := some (.val (field 64 n.toNat s.d.bs.unread)) }

end Sys2Proof.Machine
end

