-- ==== Sys2Proof/Machine/Chimp.lean ====
section
/-! DEFINITION. The history-indexed engine (`44_chimp.md`): encoder and decoder rules over `E.C.*` and `D.C.*`,
and the table rows CHP.ENC, CHP.CLOSE and CHP.DEC. -/

namespace Sys2Proof.Machine

/-! ## Constants of a block (`44_chimp.md` R180) -/

/-- `W = 2^L`. -/
def windowSize (l : BitVec 6) : Nat := 2 ^ l.toNat

/-- `T = 6 + L`. -/
def threshold (l : BitVec 6) : Nat := 6 + l.toNat

/-- `key = v AND KMASK`, the low `T + 1` bits of a pattern. -/
def keyOf (l : BitVec 6) (v : Word) : Nat := v.toNat % 2 ^ (threshold l + 1)

/-- Whether the position counter is at `2^IDX_BITS - 1`, past which it cannot count
(`45_block_and_system.md` R211, `60_exceptions.md` R248). -/
def indexFull (m : Config.Impl) (index : Nat) : Bool :=
  match m.idxBits with
  | none => false
  | some b => index == 2 ^ b - 1

/-! ## Encoder -/

/-- Writes the CHP encoder registers. -/
def setEncC (c : ChpEncRegs) : EncM Unit := fun e => .ok () { e with c := c }

/-- The slot of the encoder ring that position `p` uses. -/
def ChpEncRegs.slot (c : ChpEncRegs) (p : Nat) : Nat := p % windowSize c.log2w

/-- The pattern in a slot of the encoder ring. -/
def ChpEncRegs.slotValue (c : ChpEncRegs) (i : Nat) : Word := Memory.read 0 c.ring i

/-- The registers with `v` stored at position `p`: the ring slot and the index-table entry of its key
(`44_chimp.md` R182, R189). -/
def ChpEncRegs.store (c : ChpEncRegs) (p : Nat) (v : Word) : ChpEncRegs :=
  { c with
    index := p
    ring := Memory.write 0 c.ring (c.slot p) v
    tblv := Memory.write false c.tblv (keyOf c.log2w v) true
    tbl := Memory.write 0 c.tbl (keyOf c.log2w v) p }

/-- Whether the index table has a valid candidate in the window for `v` that the trailing-zero test accepts
(`44_chimp.md` R183). -/
def ChpEncRegs.hit (c : ChpEncRegs) (v : Word) : Bool :=
  let key := keyOf c.log2w v
  let cand := Memory.read 0 c.tbl key
  Memory.read false c.tblv key && decide (c.index - cand < windowSize c.log2w) &&
    decide (ctz (v ^^^ c.slotValue (c.slot cand)) > threshold c.log2w)

/-- The reference slot (`44_chimp.md` R183): the accepted candidate's, else the previous value's. -/
def ChpEncRegs.refSlot (c : ChpEncRegs) (v : Word) : Nat :=
  if c.hit v then c.slot (Memory.read 0 c.tbl (keyOf c.log2w v)) else c.slot c.index

/-- The XOR with the reference (`44_chimp.md` R183). -/
def ChpEncRegs.refXor (c : ChpEncRegs) (v : Word) : Word := c.slotValue (c.refSlot v) ^^^ v

/-- `C.FIRST` (`44_chimp.md` R182). -/
def putCFirst (m : Config.Impl) (v : Word) (c : ChpEncRegs) : EncM Unit := do
  putBits m v 64
  setEncC ({ c with first := false }.store 0 v)

/-- `C.COPY` (`44_chimp.md` R185). -/
def putCopy (m : Config.Impl) (c : ChpEncRegs) (ref : Nat) : EncM Unit := do
  putBits m (BitVec.ofNat 64 ref) (c.log2w.toNat + 2)
  setEncC { c with slz := Config.noWindow }

/-- `C.HIST` (`44_chimp.md` R186). -/
def putHist (m : Config.Impl) (c : ChpEncRegs) (ref : Nat) (xor : Word) : EncM Unit := do
  let lz := lzRound (clz xor)
  let tz := ctz xor
  let sig := 64 - lz - tz
  putBits m (BitVec.ofNat 64 (512 * (windowSize c.log2w + ref) + 64 * (lzIdx lz).toNat + sig))
    (c.log2w.toNat + 11)
  putBits m (shr xor tz) sig
  setEncC { c with slz := Config.noWindow }

/-- `C.PREV` (`44_chimp.md` R187). -/
def putPrev (m : Config.Impl) (xor : Word) : EncM Unit := do
  putBits m 0b10 2
  putBits m xor (64 - lzRound (clz xor))

/-- `C.PREVN` (`44_chimp.md` R188). -/
def putPrevn (m : Config.Impl) (c : ChpEncRegs) (xor : Word) : EncM Unit := do
  setEncC { c with slz := BitVec.ofNat 7 (lzRound (clz xor)) }
  putBits m (BitVec.ofNat 64 (24 + (lzIdx (lzRound (clz xor))).toNat)) 5
  putBits m xor (64 - lzRound (clz xor))

/-- The steady-state record of `v` (`44_chimp.md` R181): the four cases in the rule's order. -/
def putCRecord (m : Config.Impl) (v : Word) (c : ChpEncRegs) : EncM Unit :=
  if c.refXor v = 0 then putCopy m c (c.refSlot v)
  else if c.hit v then putHist m c (c.refSlot v) (c.refXor v)
  else if lzRound (clz (c.refXor v)) = c.slz.toNat then putPrev m (c.refXor v)
  else putPrevn m c (c.refXor v)

/-- The history update after a steady-state record (`44_chimp.md` R189). -/
def updateHistory (v : Word) : EncM Unit := fun e => .ok () { e with c := e.c.store (e.c.index + 1) v }

/-- `CHP.PUT(v)` (`44_chimp.md` R181). A counter that cannot count refuses the command before any bit is
written, as `ENC.VAL` and `ENC.CLOSE` have it (`45_block_and_system.md` R211; log 7). -/
def chpPut (m : Config.Impl) (v : Word) : EncM Unit := fun e =>
  if e.bs.sealed then .error .contractViolation e
  else if e.c.first then putCFirst m v e.c e
  else if indexFull m e.c.index then .error .overflow e
  else (do putCRecord m v e.c; updateHistory v) e

/-- `CHP.ENC(v)` (`44_chimp.md` R181). -/
def chpEncode (m : Config.Impl) (v : Word) : EncM Unit := do
  markSent v
  chpPut m v

/-- `CHP.CLOSE` (`44_chimp.md` R190): no extra `0` bit. -/
def chpFinish (m : Config.Impl) : EncM Unit := do
  chpPut m Config.sentinel
  flushSink

/-- Row `CHP.ENC`: the encoder operation `ENC.VAL` selects under `E.codec = 3`, as a command (log 4). -/
def execChpEnc (v : Word) (s : State) : Host.Outcome State Fault Refusal :=
  .next (runEnc (do chpEncode s.impl v; pure .ok) s)

/-- Row `CHP.CLOSE`: what `ENC.CLOSE` selects under `E.codec = 3`, as a command (log 4). -/
def execChpClose (s : State) : Host.Outcome State Fault Refusal :=
  .next (runEnc (do chpFinish s.impl; pure .ok) s)

/-! ## Decoder -/

/-- Writes the CHP decoder registers. -/
def setDecC (c : ChpDecRegs) : DecM Unit := fun d => .ok () { d with c := c }

/-- The slot of the decoder ring that position `p` uses. -/
def ChpDecRegs.slot (c : ChpDecRegs) (p : Nat) : Nat := p % windowSize c.log2w

/-- The pattern in a slot of the decoder ring. -/
def ChpDecRegs.slotValue (c : ChpDecRegs) (i : Nat) : Word := Memory.read 0 c.ring i

/-- The registers with `v` stored at position `p` (`44_chimp.md` R195, R201). -/
def ChpDecRegs.store (c : ChpDecRegs) (p : Nat) (v : Word) : ChpDecRegs :=
  { c with index := p, ring := Memory.write 0 c.ring (c.slot p) v }

/-- The end of a steady-state record (`44_chimp.md` R194, R201): the sentinel ends the block with no history
update; a counter that cannot count raises Overflow. -/
def chpDeliver (m : Config.Impl) (v : Word) : DecM Response := fun d =>
  if v = Config.sentinel then .ok .endOfBlock { d with phase := .done }
  else if indexFull m d.c.index then .error .overflow d
  else .ok (.val v) { d with c := d.c.store (d.c.index + 1) v }

/-- Decode `C.FIRST` (`44_chimp.md` R195, R194). -/
def getCFirst (p : Word) : DecM Response := do
  consume 64
  let d ← get
  if p = Config.sentinel then do
    set { d with phase := Phase.done, c := { d.c with first := false } }
    pure .endOfBlock
  else do
    set { d with c := { d.c with first := false }.store 0 p }
    pure (.val p)

/-- Decode `C.COPY` (`44_chimp.md` R196, R197). -/
def getCopy (r : Word) : DecM Word := do
  let d ← get
  consume 2
  consume d.c.log2w.toNat
  if r.toNat > d.c.index then raise .malformedBlock
  else do
    setDecC { d.c with slz := Config.noWindow }
    pure (d.c.slotValue r.toNat)

/-- Decode `C.HIST` (`44_chimp.md` R198, R197): the three checks in the rule's order, then the payload. -/
def getHist (r : Word) (iii : BitVec 3) (ssssss : BitVec 6) (p : Word) : DecM Word := do
  let d ← get
  consume 2
  consume (d.c.log2w.toNat + 9)
  if r.toNat > d.c.index then raise .malformedBlock
  else if ssssss = 0 then raise .malformedBlock
  else if lzVal iii + ssssss.toNat > 64 then raise .malformedBlock
  else do
    consume ssssss.toNat
    setDecC { d.c with slz := Config.noWindow }
    pure (d.c.slotValue r.toNat ^^^ shl64 p (64 - lzVal iii - ssssss.toNat))

/-- Decode `C.PREV` (`44_chimp.md` R199). -/
def getPrev (p : Word) : DecM Word := do
  let d ← get
  consume 2
  if d.c.slz = Config.noWindow then raise .malformedBlock
  else do
    consume (64 - d.c.slz.toNat)
    pure (d.c.slotValue (d.c.slot d.c.index) ^^^ p)

/-- Decode `C.PREVN` (`44_chimp.md` R200): `D.C.slz` is written before the payload is read. -/
def getPrevn (iii : BitVec 3) (p : Word) : DecM Word := do
  let d ← get
  consume 2
  consume 3
  setDecC { d.c with slz := BitVec.ofNat 7 (lzVal iii) }
  consume (64 - lzVal iii)
  pure (d.c.slotValue (d.c.slot d.c.index) ^^^ p)

/-- The decode rule of a CHP record with its delivery (`44_chimp.md` R194). -/
def getC (m : Config.Impl) : CRecord → DecM Response
  | .first p => getCFirst p
  | .copy r => do let v ← getCopy r; chpDeliver m v
  | .hist r iii ssssss p => do let v ← getHist r iii ssssss p; chpDeliver m v
  | .prev p => do let v ← getPrev p; chpDeliver m v
  | .prevn iii p => do let v ← getPrevn iii p; chpDeliver m v

/-- The CHP record at the cursor, as the decoder registers have it read (`44_chimp.md` R194). -/
def DecHalf.cRecord (d : DecHalf) : CRecord :=
  decodeC d.c.first d.c.log2w.toNat (64 - d.c.slz.toNat) d.bs.unread

/-- `CHP.DEC` (`44_chimp.md` R194): the record at the cursor is fetched and decoded. -/
def chpDecode (m : Config.Impl) : DecM Response := fun d => getC m d.cRecord d

/-- Row `CHP.DEC`: the decoder operation `DEC.VAL` selects under `D.codec = 3`, as a command (log 4). -/
def execChpDec (s : State) : Host.Outcome State Fault Refusal := .next (runDec (chpDecode s.impl) s)

end Sys2Proof.Machine
end

