-- ==== Sys2Proof/Machine/Precision.lean ====
section
/-! DEFINITION. The exact arithmetic of the erasure unit: the helpers of `43_erasure.md` R152, the precision
search `Profile` (R153, R154, R168), `DSCALE` and the erase decision (R155, R156), and `Recover` (R165).
A non-negative rational is a numerator and a denominator, never rounded (log 10). -/

namespace Sys2Proof.Machine

/-- A non-negative rational `num / den`, `den` above 0. -/
structure Ratio where
  num : Nat
  den : Nat
deriving DecidableEq, Repr

/-- `2^k` as a rational, for an integer `k`. -/
def Ratio.pow2 (k : Int) : Ratio := if 0 ≤ k then ⟨2 ^ k.toNat, 1⟩ else ⟨1, 2 ^ (-k).toNat⟩

/-- `10^k` as a rational, for an integer `k`. -/
def Ratio.pow10 (k : Int) : Ratio := if 0 ≤ k then ⟨10 ^ k.toNat, 1⟩ else ⟨1, 10 ^ (-k).toNat⟩

/-- The product of two rationals. -/
def Ratio.mul (a b : Ratio) : Ratio := ⟨a.num * b.num, a.den * b.den⟩

/-- `a <= b` of two rationals. -/
def Ratio.le (a b : Ratio) : Bool := a.num * b.den ≤ b.num * a.den

/-- `RNE(q)`: the nearest integer, ties to even (`43_erasure.md` R152). -/
def Ratio.rne (q : Ratio) : Nat :=
  let fl := q.num / q.den
  let rem := q.num % q.den
  if q.den < 2 * rem ∨ (q.den = 2 * rem ∧ fl % 2 = 1) then fl + 1 else fl

/-- `CEIL(q)`: the least integer not less than `q` (`43_erasure.md` R152). -/
def Ratio.ceil (q : Ratio) : Nat := (q.num + (q.den - 1)) / q.den

/-- The largest `k` at most `fuel` with `10^k <= n`, for `n >= 1`. -/
def log10UpTo : Nat → Nat → Nat
  | 0, _ => 0
  | fuel + 1, n => if n < 10 then 0 else log10UpTo fuel (n / 10) + 1

/-- `floor(log10 n)` for `n >= 1`: its bound is `log2 n`, which is never less. -/
def log10Floor (n : Nat) : Nat := log10UpTo (Nat.log2 n) n

/-- The least `j` with `den <= num * 10^j`, at most `fuel`. -/
def scaleUpTo : Nat → Nat → Nat → Nat
  | 0, _, _ => 0
  | fuel + 1, num, den => if den ≤ num then 0 else scaleUpTo fuel (num * 10) den + 1

/-- `SP(q) = floor(log10 q)`, for `q > 0` (`43_erasure.md` R152). -/
def Ratio.sp (q : Ratio) : Int :=
  if q.den ≤ q.num then (log10Floor (q.num / q.den) : Int)
  else -(scaleUpTo (Nat.log2 q.den + 1) q.num q.den : Int)

/-- `DIGITS(n)`, for `n >= 1` (`43_erasure.md` R152). -/
def digits (n : Nat) : Nat := log10Floor n + 1

/-- `POW10(n)`, for `n >= 1`: whether `n` is a power of ten (`43_erasure.md` R152). -/
def isPow10 (n : Nat) : Bool := n == 10 ^ log10Floor n

/-- `floor(log2 q)`, for `q > 0`. -/
def Ratio.log2Floor (q : Ratio) : Int :=
  let k : Int := (Nat.log2 q.num : Int) - (Nat.log2 q.den : Int)
  if (Ratio.pow2 k).le q then k else k - 1

/-- `TOF64(q)`: the magnitude pattern of the double nearest to `q`, ties to the even mantissa
(`43_erasure.md` R152). -/
def Ratio.toF64 (q : Ratio) : Word :=
  if q.num = 0 then 0
  else
    let e0 : Int := max q.log2Floor (-1022)
    let m0 : Nat := (q.mul (Ratio.pow2 (52 - e0))).rne
    let m : Nat := if m0 = 2 ^ 53 then 2 ^ 52 else m0
    let e : Int := if m0 = 2 ^ 53 then e0 + 1 else e0
    if e > 1023 then 0x7FF0000000000000
    else BitVec.ofNat 64 ((e + 1022).toNat * 2 ^ 52 + m)

/-- `ABS(p)`: the exact magnitude of a NORMAL pattern (`43_erasure.md` R152). -/
def absRatio (p : Word) : Ratio :=
  (Ratio.mk (2 ^ 52 + mantField p) 1).mul (Ratio.pow2 ((expField p : Int) - 1075))

/-- `MAG(p)`: the 63-bit magnitude pattern (`43_erasure.md` R152). -/
def magField (p : Word) : Word := p &&& 0x7FFFFFFFFFFFFFFF

/-- `SIGN(p)`: the sign bit in place (`43_erasure.md` R152). -/
def signField (p : Word) : Word := p &&& 0x8000000000000000

/-- `N` of `Profile` at `i` decimal places: `RNE(a * 10^i)` (`43_erasure.md` R153). -/
def scaledInt (a : Ratio) (i : Nat) : Nat := Ratio.rne ⟨a.num * 10 ^ i, a.den⟩

/-- Whether `i` decimal places qualify: `N >= 1` and the double nearest to `N / 10^i` is the value
("verified by dividing back", `43_erasure.md` R153). -/
def qualifies (p : Word) (i : Nat) : Bool :=
  decide (1 ≤ scaledInt (absRatio p) i) &&
    decide (Ratio.toF64 ⟨scaledInt (absRatio p) i, 10 ^ i⟩ = magField p)

/-- `imax = max(0, 16 - SP(a))` (`43_erasure.md` R153). -/
def searchBound (p : Word) : Nat := (16 - (absRatio p).sp).toNat

/-- The least qualifying `i` from `i` on, among `count` of them. -/
def searchFrom (p : Word) : Nat → Nat → Option Nat
  | 0, _ => none
  | count + 1, i => if qualifies p i then some i else searchFrom p count (i + 1)

/-- `betaStar` of the decimal `N / 10^alpha`: 0 for a power of ten, else the digit count, at most `BETA_CAP`
(`43_erasure.md` R154). -/
def betaStarOf (n : Nat) : Nat := if isPow10 n then 0 else min (digits n) Config.betaCap

/-- `Profile(p)`: `(alpha, betaStar)` of a NORMAL pattern (`43_erasure.md` R153, R154). When no `i` qualifies
(PrecisionOverflow) the profile is `(imax, 17)` (R168). -/
def profile (p : Word) : Nat × Nat :=
  match searchFrom p (searchBound p + 1) 0 with
  | some i => (i, betaStarOf (scaledInt (absRatio p) i))
  | none => (searchBound p, Config.betaCap)

/-- `DSCALE(alpha)`: the least `k` with `2^k >= 10^alpha` (`43_erasure.md` R155). -/
def dscale (alpha : Nat) : Nat := if alpha = 0 then 0 else Nat.log2 (10 ^ alpha - 1) + 1

/-- `eraseBits`, a signed integer (`43_erasure.md` R155). -/
def eraseBits (p : Word) : Int :=
  52 - ((dscale (profile p).1 : Int) + (expField p : Int) - 1023)

/-- The erase decision for a NORMAL pattern (`43_erasure.md` R156). -/
def erases (p : Word) : Bool :=
  decide ((profile p).2 ≤ 15) && decide ((Config.eraseMin : Int) < eraseBits p) &&
    decide (eraseBits p ≤ 52) && decide (low p (eraseBits p).toNat ≠ 0)

/-- The erased pattern: the low `eraseBits` bits zero (`43_erasure.md` R156). -/
def erased (p : Word) : Word := p &&& ~~~ BitVec.ofNat 64 (2 ^ (eraseBits p).toNat - 1)

/-- `Recover(v, bs)`, for a NORMAL pattern `v` (`43_erasure.md` R165). -/
def recover (v : Word) (bs : BitVec 4) : Word :=
  let a := absRatio v
  let d : Ratio :=
    if bs = 0 then Ratio.pow10 (a.sp + 1)
    else
      let alpha : Int := (bs.toNat : Int) - a.sp - 1
      (Ratio.mk (a.mul (Ratio.pow10 alpha)).ceil 1).mul (Ratio.pow10 (-alpha))
  signField v ||| d.toF64

end Sys2Proof.Machine
end

