-- ==== Sys2Proof/Machine/Xor64.lean ====
section
/-! DEFINITION. The XOR64 engine (`42_xor64.md`): encoder and decoder rules over `E.X.*` and `D.X.*`, and the
table rows X64.ENC, X64.CLOSE and X64.DEC. -/

namespace Sys2Proof.Machine

/-! ## Encoder -/

/-- Writes the X64 encoder registers. -/
def setEncX (x : XorRegs) : EncM Unit := fun e => .ok () { e with x := x }

/-- `X.FIRST` (`42_xor64.md` R121). -/
def putFirst (m : Config.Impl) (v : Word) (x : XorRegs) : EncM Unit := do
  putBits m (BitVec.ofNat 64 (ctz v)) 7
  if ctz v < 64 then putBits m (shr v (ctz v + 1)) (63 - ctz v) else pure ()
  setEncX { x with first := false, sv := v }

/-- `X.SAME` (`42_xor64.md` R122). -/
def putSame (m : Config.Impl) : EncM Unit := putBits m 0b01 2

/-- `X.REUSE` in its two spellings (`42_xor64.md` R123, `30_encoding.md` R77). -/
def putReuse (m : Config.Impl) (xor : Word) (x : XorRegs) : EncM Unit :=
  let cb := 64 - x.slz.toNat - x.stz.toNat
  if cb + 2 > 64 then do
    putBits m 0b00 2
    putBits m (shr xor x.stz.toNat) cb
  else putBits m (shr xor x.stz.toNat) (cb + 2)

/-- `X.NEWS` (`42_xor64.md` R125). -/
def putNews (m : Config.Impl) (xor : Word) (lz tz cb : Nat) : EncM Unit := do
  putBits m (BitVec.ofNat 64 (256 + 16 * (lzIdx lz).toNat + cb % 16)) 9
  putBits m (shr xor (tz + 1)) (cb - 1)

/-- `X.NEWL` (`42_xor64.md` R126). -/
def putNewl (m : Config.Impl) (xor : Word) (lz tz cb : Nat) : EncM Unit := do
  putBits m (BitVec.ofNat 64 (1536 + 64 * (lzIdx lz).toNat + cb % 64)) 11
  putBits m (shr xor (tz + 1)) (cb - 1)

/-- A window change (`42_xor64.md` R124), with the last line of `X64.PUT`: `E.X.sv := v`. -/
def putWindow (m : Config.Impl) (v xor : Word) (lz tz : Nat) (x : XorRegs) : EncM Unit := do
  let cb := 64 - lz - tz
  if cb ≤ 16 then putNews m xor lz tz cb else putNewl m xor lz tz cb
  setEncX { x with sv := v, winv := true, slz := BitVec.ofNat 5 lz, stz := BitVec.ofNat 7 tz }

/-- Whether a non-zero XOR fits the announced window (`42_xor64.md` R120, R123). -/
def reusesWindow (x : XorRegs) (xor : Word) : Bool :=
  x.winv && decide (lzRound (clz xor) = x.slz.toNat) && decide (x.stz.toNat ≤ ctz xor)

/-- `X64.PUT(v)`: the record of `v`, tests in the order of `42_xor64.md` R120. -/
def x64Put (m : Config.Impl) (v : Word) : EncM Unit := fun e =>
  if e.x.first then putFirst m v e.x e
  else if e.x.sv ^^^ v = 0 then (do putSame m; setEncX { e.x with sv := v }) e
  else if reusesWindow e.x (e.x.sv ^^^ v) then
    (do putReuse m (e.x.sv ^^^ v) e.x; setEncX { e.x with sv := v }) e
  else putWindow m v (e.x.sv ^^^ v) (lzRound (clz (e.x.sv ^^^ v))) (ctz (e.x.sv ^^^ v)) e.x e

/-- `X64.ENC(v)` (`42_xor64.md` R120). -/
def x64Encode (m : Config.Impl) (v : Word) : EncM Unit := do
  markSent v
  x64Put m v

/-- `X64.CLOSE` (`42_xor64.md` R127): the sentinel as the next value, one `0` bit, flush. -/
def x64Finish (m : Config.Impl) : EncM Unit := do
  x64Put m Config.sentinel
  putBit m false
  flushSink

/-- Row `X64.ENC`: the encoder operation `ENC.VAL` selects under `E.codec = 1`, as a command (log 4). -/
def execX64Enc (v : Word) (s : State) : Host.Outcome State Fault Refusal :=
  .next (runEnc (do x64Encode s.impl v; pure .ok) s)

/-- Row `X64.CLOSE`: what `ENC.CLOSE` selects under `E.codec = 1`, as a command (log 4). -/
def execX64Close (s : State) : Host.Outcome State Fault Refusal :=
  .next (runEnc (do x64Finish s.impl; pure .ok) s)

/-! ## Decoder -/

/-- Writes the X64 decoder registers. -/
def setDecX (x : XorRegs) : DecM Unit := fun d => .ok () { d with x := x }

/-- Decode `X.FIRST` (`42_xor64.md` R131). -/
def getFirst (tz : BitVec 7) (p : Word) : DecM Word := do
  consume 7
  if tz.toNat > 64 then raise .malformedBlock
  else do
    if tz.toNat = 64 then pure () else consume (63 - tz.toNat)
    let v : Word := if tz.toNat = 64 then 0 else shl64 (shl64 p 1 ||| 1) tz.toNat
    let d ← get
    setDecX { d.x with first := false, sv := v }
    pure v

/-- Decode `X.SAME` (`42_xor64.md` R132). -/
def getSame : DecM Word := do
  consume 2
  let d ← get
  pure d.x.sv

/-- Decode `X.REUSE` (`42_xor64.md` R133). -/
def getReuse (p : Word) : DecM Word := do
  consume 2
  let d ← get
  if d.x.winv = false then raise .malformedBlock
  else do
    consume (64 - d.x.slz.toNat - d.x.stz.toNat)
    setDecX { d.x with sv := d.x.sv ^^^ shl64 p d.x.stz.toNat }
    pure (d.x.sv ^^^ shl64 p d.x.stz.toNat)

/-- The common part of a window-change record, after its header (`42_xor64.md` R134). -/
def getWindow (lz cb : Nat) (p : Word) : DecM Word :=
  if lz + cb > 64 then raise .malformedBlock
  else do
    let tz := 64 - lz - cb
    consume (cb - 1)
    let d ← get
    let v := d.x.sv ^^^ shl64 (shl64 p 1 ||| 1) tz
    setDecX { d.x with sv := v, winv := true, slz := BitVec.ofNat 5 lz, stz := BitVec.ofNat 7 tz }
    pure v

/-- Decode `X.NEWS` (`42_xor64.md` R135, R134). -/
def getNews (iii : BitVec 3) (cccc : BitVec 4) (p : Word) : DecM Word := do
  consume 2
  consume 7
  getWindow (lzVal iii) (newsCb cccc) p

/-- Decode `X.NEWL` (`42_xor64.md` R136, R134). -/
def getNewl (iii : BitVec 3) (cccccc : BitVec 6) (p : Word) : DecM Word := do
  consume 2
  consume 9
  getWindow (lzVal iii) (newlCb cccccc) p

/-- The decode rule of an X64 record. -/
def getX : XRecord → DecM Word
  | .first tz p => getFirst tz p
  | .same => getSame
  | .reuse p => getReuse p
  | .news iii cccc p => getNews iii cccc p
  | .newl iii cccccc p => getNewl iii cccccc p

/-- The X64 record at the cursor, as the decoder registers have it read (`42_xor64.md` R130). -/
def DecHalf.xRecord (d : DecHalf) : XRecord :=
  decodeX d.x.first (64 - d.x.slz.toNat - d.x.stz.toNat) d.bs.unread

/-- `X64.GET()`: the record at the cursor is fetched and decoded (`42_xor64.md` R130). -/
def x64Get : DecM Word := fun d => getX d.xRecord d

/-- The end of `X64.DEC` (`42_xor64.md` R130, R137): the sentinel ends the block. -/
def x64Deliver (v : Word) : DecM Response := fun d =>
  if v = Config.sentinel then .ok .endOfBlock { d with phase := .done } else .ok (.val v) d

/-- `X64.DEC` (`42_xor64.md` R130). -/
def x64Decode : DecM Response := do
  let v ← x64Get
  x64Deliver v

/-- Row `X64.DEC`: the decoder operation `DEC.VAL` selects under `D.codec = 1`, as a command (log 4). -/
def execX64Dec (s : State) : Host.Outcome State Fault Refusal := .next (runDec x64Decode s)

end Sys2Proof.Machine
end

