-- ==== Sys2Proof/Machine/Erasure.lean ====
section
/-! DEFINITION. The erasure unit (`43_erasure.md`): encoder and decoder rules over `E.R.*` and `D.R.*` around
the X64 engine, and the table rows ERA.ENC, ERA.CLOSE and ERA.DEC. -/

namespace Sys2Proof.Machine

/-! ## Encoder -/

/-- The control prefix of an erased value (`43_erasure.md` R157). -/
def putControl (m : Config.Impl) (betaStar : Nat) : EncM Unit := fun e =>
  if e.r.lbsv = true ∧ betaStar = e.r.lbs.toNat then putBits m 0 1 e
  else
    (do
      putBits m (BitVec.ofNat 64 (48 + betaStar)) 6
      fun e => .ok () { e with r := ⟨true, BitVec.ofNat 4 betaStar⟩ } : EncM Unit) e

/-- Control `10` and the pattern handed on as it is (`43_erasure.md` R158). -/
def putPlain (m : Config.Impl) (v : Word) : EncM Unit := do
  putBits m 0b10 2
  x64Encode m v

/-- `ERA.ENC(p)` (`43_erasure.md` R158). -/
def eraEncode (m : Config.Impl) (p : Word) : EncM Unit :=
  match classOf p with
  | .nan => putPlain m Config.sentinel
  | .zero => putPlain m p
  | .inf => putPlain m p
  | .subnormal => putPlain m p
  | .normal =>
    if erases p then do
      putControl m (profile p).2
      x64Encode m (erased p)
    else putPlain m p

/-- `ERA.CLOSE` (`43_erasure.md` R159). -/
def eraFinish (m : Config.Impl) : EncM Unit := do
  putBits m 0b10 2
  x64Finish m

/-- Row `ERA.ENC`: the encoder operation `ENC.VAL` selects under `E.codec = 2`, as a command (log 4). -/
def execEraEnc (v : Word) (s : State) : Host.Outcome State Fault Refusal :=
  .next (runEnc (do eraEncode s.impl v; pure .ok) s)

/-- Row `ERA.CLOSE`: what `ENC.CLOSE` selects under `E.codec = 2`, as a command (log 4). -/
def execEraClose (s : State) : Host.Outcome State Fault Refusal :=
  .next (runEnc (do eraFinish s.impl; pure .ok) s)

/-! ## Decoder -/

/-- `ERA.DEC` after the control prefix (`43_erasure.md` R161, R164 to R166): the X64 record, the sentinel
test, then recovery of an erased value. -/
def eraBody (wasErased : Bool) : DecM Response := do
  let v ← x64Get
  let d ← get
  if v = Config.sentinel then do
    set { d with phase := Phase.done }
    pure .endOfBlock
  else if wasErased = false then pure (.val v)
  else if classOf v ≠ .normal then raise .malformedBlock
  else pure (.val (recover v d.r.lbs))

/-- Control `0` (`43_erasure.md` R161, R162), with the record after it. -/
def getSameb : DecM Response := do
  consume 1
  let d ← get
  if d.r.lbsv = false then raise .malformedBlock else eraBody true

/-- Control `10` (`43_erasure.md` R161, R164), with the record after it. -/
def getPlain : DecM Response := do
  consume 1
  consume 1
  eraBody false

/-- Control `11` and its betaStar (`43_erasure.md` R161, R163), with the record after it. -/
def getNewb (bbbb : BitVec 4) : DecM Response := do
  consume 1
  consume 1
  consume 4
  let d ← get
  set { d with r := EraRegs.mk true bbbb }
  eraBody true

/-- The decode rule of a control prefix. -/
def getE : EPrefix → DecM Response
  | .sameb => getSameb
  | .plain => getPlain
  | .newb bbbb => getNewb bbbb

/-- `ERA.DEC` (`43_erasure.md` R161): the prefix at the cursor is fetched and decoded. -/
def eraDecode : DecM Response := fun d => getE (decodeE d.bs.unread) d

/-- Row `ERA.DEC`: the decoder operation `DEC.VAL` selects under `D.codec = 2`, as a command (log 4). -/
def execEraDec (s : State) : Host.Outcome State Fault Refusal := .next (runDec eraDecode s)

end Sys2Proof.Machine
end

