-- ==== Sys2Proof/Machine/Block.lean ====
section
/-! DEFINITION. The block-level commands (`45_block_and_system.md`): open, drive and close a block on each
half, and the whole-block commands COMPRESS and DECOMPRESS. -/

namespace Sys2Proof.Machine

/-! ## Encode half -/

/-- `ENC.OPEN codec` (`45_block_and_system.md` R210). -/
def execEncOpen (k : Codec) (s : State) : Host.Outcome State Fault Refusal :=
  .next { s with e := s.e.opened s.cfgLog2w k, resp := some .ok }

/-- One value under a codec (`45_block_and_system.md` R211); RAW has no encoder. -/
def encodeWith (m : Config.Impl) (k : Codec) (v : Word) : EncM Unit :=
  match k with
  | .raw => fun e => .error .contractViolation e
  | .x64 => x64Encode m v
  | .era => eraEncode m v
  | .chp => chpEncode m v

/-- The end of a block under a codec (`45_block_and_system.md` R211). -/
def finishWith (m : Config.Impl) (k : Codec) : EncM Unit :=
  match k with
  | .raw => fun e => .error .contractViolation e
  | .x64 => x64Finish m
  | .era => eraFinish m
  | .chp => chpFinish m

/-- `ENC.VAL v` (`45_block_and_system.md` R211). -/
def execEncVal (v : Word) (s : State) : Host.Outcome State Fault Refusal :=
  if s.e.codec = .raw then .next (s.refuseEnc .contractViolation)
  else if s.e.bs.sealed then .next (s.refuseEnc .contractViolation)
  else .next (runEnc (do encodeWith s.impl s.e.codec v; pure .ok) s)

/-- `ENC.CLOSE` (`45_block_and_system.md` R211). -/
def execEncClose (s : State) : Host.Outcome State Fault Refusal :=
  if s.e.codec = .raw then .next (s.refuseEnc .contractViolation)
  else if s.e.bs.sealed then .next (s.refuseEnc .contractViolation)
  else .next (runEnc (do finishWith s.impl s.e.codec; pure .ok) s)

/-- `ENC.VAL` for each value of a sequence, in order. -/
def encodeAll (m : Config.Impl) (k : Codec) : List Word → EncM Unit
  | [] => pure ()
  | v :: vs => do
    encodeWith m k v
    encodeAll m k vs

/-- The expansion of `COMPRESS` after `ENC.OPEN` (`45_block_and_system.md` R217): the values, the close, then
`BYTES`. -/
def compressBody (m : Config.Impl) (k : Codec) (data : List Word) : EncM Response := do
  encodeAll m k data
  finishWith m k
  let e ← get
  pure (.bytes e.bs.buf)

/-- `COMPRESS codec, values` (`45_block_and_system.md` R217). A refused step leaves the half as `ENC.OPEN`
leaves it, with the sticky flag. -/
def execCompress (k : Codec) (data : List Word) (s : State) : Host.Outcome State Fault Refusal :=
  if k = .raw then .next (s.refuseEnc .contractViolation)
  else .next (runEnc (compressBody s.impl k data) { s with e := s.e.opened s.cfgLog2w k })

/-! ## Decode half -/

/-- `DEC.OPEN codec` (`45_block_and_system.md` R212). -/
def execDecOpen (k : Codec) (s : State) : Host.Outcome State Fault Refusal :=
  .next { s with d := s.d.opened s.cfgLog2w k, resp := some .ok }

/-- `atfirst` of `DEC.VAL` (`45_block_and_system.md` R213). -/
def DecHalf.atFirst (d : DecHalf) : Bool := if d.codec = .chp then d.c.first else d.x.first

/-- `DEC.VAL` on the decode half, tests in the order of `45_block_and_system.md` R213: its response and what
it leaves. -/
def DecHalf.decVal (m : Config.Impl) (d : DecHalf) : Response × DecHalf :=
  match d.codec with
  | .raw => (.err .contractViolation, { d with cv := true })
  | .x64 => decValWith x64Decode d
  | .era => decValWith eraDecode d
  | .chp => decValWith (chpDecode m) d
where
  /-- `DEC.VAL` once the codec is known not to be RAW. -/
  decValWith (rule : DecM Response) (d : DecHalf) : Response × DecHalf :=
    match d.phase with
    | .fault => (.err d.err, d)
    | .done => (.endOfBlock, d)
    | .run =>
      if d.atFirst = true ∧ d.bs.avail = 0 then (.endOfBlock, { d with phase := .done })
      else runDecHalf rule d

/-- `DEC.VAL` (`45_block_and_system.md` R213). -/
def execDecVal (s : State) : Host.Outcome State Fault Refusal :=
  .next { s with d := (s.d.decVal s.impl).2, resp := some (s.d.decVal s.impl).1 }

/-- The loop of `DECOMPRESS` (`45_block_and_system.md` R218), at most `fuel` times round. -/
def decodeAll (m : Config.Impl) : Nat → DecHalf → List Word → Option (Response × DecHalf)
  | 0, _, _ => none
  | fuel + 1, d, out =>
    match d.decVal m with
    | (.val v, d) => decodeAll m fuel d (out ++ [v])
    | (.endOfBlock, d) => some (.vals out, d)
    | (r, d) => some (r, d)

/-- `DECOMPRESS codec, bytes` (`45_block_and_system.md` R218). At most `4 * len` values come out of a buffer
(`70_reset_and_hazards.md` R272), so one round more is enough and the fault is never raised (log 8). -/
def execDecompress (k : Codec) (data : List Byte) (s : State) : Host.Outcome State Fault Refusal :=
  if k = .raw then .next (s.refuseDec .contractViolation)
  else if sourceTooLong s.impl data then .next (s.refuseDec .overflow)
  else
    match decodeAll s.impl (4 * data.length + 1) ((s.d.loaded data).opened s.cfgLog2w k) [] with
    | some (r, d) => .next { s with d := d, resp := some r }
    | none => .fault .decompressBound

end Sys2Proof.Machine
end

