-- ==== Sys2Proof/Machine/Records.lean ====
section
/-! DEFINITION. The wire records as instructions of the decode half (`30_encoding.md`, `10_state.md` R29): what
`DEC.VAL` does at a record of each format, the record standing at the cursor with these operands. An ERA
prefix is executed with the X64 record after it (logs 4 and 7). -/

namespace Sys2Proof.Machine

/-- Record `X.FIRST` (`42_xor64.md` R131). -/
def execXFirst (tz : BitVec 7) (p : Word) (s : State) : Host.Outcome State Fault Refusal :=
  .next (runDec (do let v ← getFirst tz p; x64Deliver v) s)

/-- Record `X.SAME` (`42_xor64.md` R132). -/
def execXSame (s : State) : Host.Outcome State Fault Refusal :=
  .next (runDec (do let v ← getSame; x64Deliver v) s)

/-- Record `X.REUSE` (`42_xor64.md` R133). -/
def execXReuse (p : Word) (s : State) : Host.Outcome State Fault Refusal :=
  .next (runDec (do let v ← getReuse p; x64Deliver v) s)

/-- Record `X.NEWS` (`42_xor64.md` R135). -/
def execXNews (iii : BitVec 3) (cccc : BitVec 4) (p : Word) (s : State) : Host.Outcome State Fault Refusal :=
  .next (runDec (do let v ← getNews iii cccc p; x64Deliver v) s)

/-- Record `X.NEWL` (`42_xor64.md` R136). -/
def execXNewl (iii : BitVec 3) (cccccc : BitVec 6) (p : Word) (s : State) : Host.Outcome State Fault Refusal :=
  .next (runDec (do let v ← getNewl iii cccccc p; x64Deliver v) s)

/-- Prefix `E.SAMEB` and the record after it (`43_erasure.md` R161, R162). -/
def execESameb (s : State) : Host.Outcome State Fault Refusal := .next (runDec getSameb s)

/-- Prefix `E.PLAIN` and the record after it (`43_erasure.md` R161, R164). -/
def execEPlain (s : State) : Host.Outcome State Fault Refusal := .next (runDec getPlain s)

/-- Prefix `E.NEWB` and the record after it (`43_erasure.md` R161, R163). -/
def execENewb (bbbb : BitVec 4) (s : State) : Host.Outcome State Fault Refusal := .next (runDec (getNewb bbbb) s)

/-- Record `C.FIRST` (`44_chimp.md` R195). -/
def execCFirst (p : Word) (s : State) : Host.Outcome State Fault Refusal := .next (runDec (getCFirst p) s)

/-- Record `C.COPY` (`44_chimp.md` R196). -/
def execCCopy (r : Word) (s : State) : Host.Outcome State Fault Refusal :=
  .next (runDec (do let v ← getCopy r; chpDeliver s.impl v) s)

/-- Record `C.HIST` (`44_chimp.md` R198). -/
def execCHist (r : Word) (iii : BitVec 3) (ssssss : BitVec 6) (p : Word) (s : State) :
    Host.Outcome State Fault Refusal :=
  .next (runDec (do let v ← getHist r iii ssssss p; chpDeliver s.impl v) s)

/-- Record `C.PREV` (`44_chimp.md` R199). -/
def execCPrev (p : Word) (s : State) : Host.Outcome State Fault Refusal :=
  .next (runDec (do let v ← getPrev p; chpDeliver s.impl v) s)

/-- Record `C.PREVN` (`44_chimp.md` R200). -/
def execCPrevn (iii : BitVec 3) (p : Word) (s : State) : Host.Outcome State Fault Refusal :=
  .next (runDec (do let v ← getPrevn iii p; chpDeliver s.impl v) s)

end Sys2Proof.Machine
end

