-- ==== Sys2Proof/Machine/System.lean ====
section
/-! DEFINITION. The system commands (`45_block_and_system.md` R214 to R216). -/

namespace Sys2Proof.Machine

/-- `RESET` (`45_block_and_system.md` R215): every register at its reset value. The ports and the
implementation's parameters are no registers: the commands still on the port stay (log 3). -/
def execReset (s : State) : Host.Outcome State Fault Refusal :=
  .next { State.reset with impl := s.impl, port := s.port, resp := some .ok }

/-- `CFG.W n` (`45_block_and_system.md` R214); a refusal sets no sticky flag. -/
def execCfgW (n : BitVec 7) (s : State) : Host.Outcome State Fault Refusal :=
  if n.toNat > s.impl.log2wMax then .next (s.respond (.err .contractViolation))
  else .next { s with cfgLog2w := BitVec.ofNat 6 n.toNat, resp := some .ok }

/-- `STATUS` (`45_block_and_system.md` R216). -/
def execStatus (s : State) : Host.Outcome State Fault Refusal := .next (s.respond (.status s.statusWord))

end Sys2Proof.Machine
end

