-- ==== Sys2Proof/Machine/Dispatch.lean ====
section
/-! DEFINITION. The meaning of each instruction, one arm per constructor of Instr. -/

namespace Sys2Proof.Machine

-- The one dispatch from an instruction to its meaning.
def exec (i : Instr) (s : State) : Host.Outcome State Fault Refusal :=
  match i with
  | .reset => Sys2Proof.Machine.execReset s
  | .cfgW n => Sys2Proof.Machine.execCfgW n s
  | .status => Sys2Proof.Machine.execStatus s
  | .encOpen codec => Sys2Proof.Machine.execEncOpen codec s
  | .wbit b => Sys2Proof.Machine.execWbit b s
  | .wbits v n => Sys2Proof.Machine.execWbits v n s
  | .flush => Sys2Proof.Machine.execFlush s
  | .bytes => Sys2Proof.Machine.execBytes s
  | .encVal v => Sys2Proof.Machine.execEncVal v s
  | .encClose => Sys2Proof.Machine.execEncClose s
  | .load data => Sys2Proof.Machine.execLoad data s
  | .decOpen codec => Sys2Proof.Machine.execDecOpen codec s
  | .rbit => Sys2Proof.Machine.execRbit s
  | .rbits n => Sys2Proof.Machine.execRbits n s
  | .decVal => Sys2Proof.Machine.execDecVal s
  | .compress codec data => Sys2Proof.Machine.execCompress codec data s
  | .decompress codec data => Sys2Proof.Machine.execDecompress codec data s
  | .x64Enc v => Sys2Proof.Machine.execX64Enc v s
  | .eraEnc v => Sys2Proof.Machine.execEraEnc v s
  | .chpEnc v => Sys2Proof.Machine.execChpEnc v s
  | .x64Close => Sys2Proof.Machine.execX64Close s
  | .eraClose => Sys2Proof.Machine.execEraClose s
  | .chpClose => Sys2Proof.Machine.execChpClose s
  | .x64Dec => Sys2Proof.Machine.execX64Dec s
  | .eraDec => Sys2Proof.Machine.execEraDec s
  | .chpDec => Sys2Proof.Machine.execChpDec s
  | .xFirst tz p => Sys2Proof.Machine.execXFirst tz p s
  | .xSame => Sys2Proof.Machine.execXSame s
  | .xReuse p => Sys2Proof.Machine.execXReuse p s
  | .xNews iii cccc p => Sys2Proof.Machine.execXNews iii cccc p s
  | .xNewl iii cccccc p => Sys2Proof.Machine.execXNewl iii cccccc p s
  | .eSameb => Sys2Proof.Machine.execESameb s
  | .ePlain => Sys2Proof.Machine.execEPlain s
  | .eNewb bbbb => Sys2Proof.Machine.execENewb bbbb s
  | .cFirst p => Sys2Proof.Machine.execCFirst p s
  | .cCopy r => Sys2Proof.Machine.execCCopy r s
  | .cHist r iii ssssss p => Sys2Proof.Machine.execCHist r iii ssssss p s
  | .cPrev p => Sys2Proof.Machine.execCPrev p s
  | .cPrevn iii p => Sys2Proof.Machine.execCPrevn iii p s

end Sys2Proof.Machine
end

