-- ==== Sys2Proof/Machine/Step.lean ====
section
/-! DEFINITION. One step of the machine: one host command (`00_scope.md` R13, `20_memory.md` R59). -/

namespace Sys2Proof.Machine

/-- One step. With no command on the port the block waits (`70_reset_and_hazards.md` R260, log 1). Else the first
command is taken off the port and executed; a reserved `op` answers `Err(ContractViolation)` and changes no
register and no sticky flag (`30_encoding.md` R87). -/
def step (s : State) : Host.Outcome State Fault Refusal :=
  match s.port with
  | [] => .next s
  | w :: rest =>
    match decodeCommand w with
    | .ok i => exec i { s with port := rest }
    | .error _ => .next ({ s with port := rest }.respond (.err .contractViolation))

/-- `s` with the command record of a table row's word first on the port, where the next step takes it
(log 1). -/
def State.withFetchWord (s : State) (nbits w : Nat) : State :=
  { s with port := Command.ofBits (w % 2 ^ nbits) :: s.port }

end Sys2Proof.Machine
end

