-- ==== Sys2Proof/Safety.lean ====
section
/-! DEFINITION. What claims say about the machine: the invariants of the spec's registers, what a command
sequence answers, when a sink has room and for which record, which CHP records decode to
what, and the two states of the decode half a record leaves. -/

namespace Sys2Proof.Machine

/-! ## Invariants -/

/-- The window parameters in their range: `LOG2W_MAX` admits the reset value 7 and is at most 53, and no
`LOG2W` register is above it (`00_scope.md` R6, `10_state.md` R36). -/
abbrev State.ParamInv (s : State) : Prop :=
  7 ≤ s.impl.log2wMax ∧ s.impl.log2wMax ≤ 53 ∧ s.cfgLog2w.toNat ≤ s.impl.log2wMax ∧
    s.e.c.log2w.toNat ≤ s.impl.log2wMax ∧ s.d.c.log2w.toNat ≤ s.impl.log2wMax

/-- The partial byte holds only its filled bits, so it is 0 on a byte boundary (`10_state.md` R22). -/
abbrev BitSink.AccInv (k : BitSink) : Prop := k.acc.toNat % 2 ^ (8 - k.woff.toNat) = 0

/-- The sink invariant: the partial byte, a sealed sink on a byte boundary, and the capacity
(`10_state.md` R22, `41_bitstream.md` R102). -/
abbrev State.SinkInv (s : State) : Prop :=
  s.e.bs.AccInv ∧ (s.e.bs.sealed = true → s.e.bs.woff = 0) ∧
    ∀ cap ∈ s.impl.sinkCap, s.e.bs.bitLen ≤ 8 * cap

/-- The cursor stays in the source, and the source in its capacity (`10_state.md` R28, R29). -/
abbrev State.CursorInv (s : State) : Prop :=
  s.d.bs.pos ≤ 8 * s.d.bs.buf.length ∧ ∀ cap ∈ s.impl.srcCap, s.d.bs.buf.length ≤ cap

/-- An announced X64 window: a canonical leading count, and at least one bit (`10_state.md` R24). -/
abbrev XorRegs.WindowInv (x : XorRegs) : Prop :=
  x.winv = true → x.slz.toNat ∈ Config.lzSet ∧ x.slz.toNat + x.stz.toNat ≤ 63

/-- The X64 windows of both halves (`10_state.md` R24, R31). -/
abbrev State.WindowInv (s : State) : Prop := s.e.x.WindowInv ∧ s.d.x.WindowInv

/-- The CHP leading counts of both halves: canonical, or 65 (`10_state.md` R26, R33). -/
abbrev State.ChpWindowInv (s : State) : Prop :=
  (s.e.c.slz = Config.noWindow ∨ s.e.c.slz.toNat ∈ Config.lzSet) ∧
    (s.d.c.slz = Config.noWindow ∨ s.d.c.slz.toNat ∈ Config.lzSet)

/-- `D.err` is 0 but in FAULT, where it holds the code of a decode fault, and a RAW decode half is DONE
(`10_state.md` R30, `60_exceptions.md` R230, `45_block_and_system.md` R212). -/
abbrev State.PhaseInv (s : State) : Prop :=
  (s.d.phase ≠ .fault → s.d.err = .none) ∧
    (s.d.phase = .fault → s.d.err = .endOfStream ∨ s.d.err = .malformedBlock ∨ s.d.err = .overflow) ∧
    (s.d.codec = .raw → s.d.phase = .done)

/-- The rings and the index table keep their canonical form. -/
abbrev State.MemoryInv (s : State) : Prop :=
  Memory.wf 0 s.e.c.ring = true ∧ Memory.wf false s.e.c.tblv = true ∧ Memory.wf 0 s.e.c.tbl = true ∧
    Memory.wf 0 s.d.c.ring = true

/-- Before the first value of a CHP block the table is invalid and the counter 0; after it, a valid table
entry names a position already written, and while that position is in the window its slot holds a pattern
with the entry's key (`10_state.md` R26, `44_chimp.md` R184). -/
def ChpEncRegs.HistoryInv (c : ChpEncRegs) : Prop :=
  (c.first = true → c.index = 0 ∧ ∀ key, Memory.read false c.tblv key = false) ∧
    ∀ key, Memory.read false c.tblv key = true →
      Memory.read 0 c.tbl key ≤ c.index ∧
        (c.index - Memory.read 0 c.tbl key < windowSize c.log2w →
          keyOf c.log2w (c.slotValue (c.slot (Memory.read 0 c.tbl key))) = key)

/-- Every register the spec gives a reset value has it; ring and table contents are left out, which the spec
leaves unspecified (`10_state.md` R38). -/
def State.AtReset (s : State) : Prop :=
  s.cfgLog2w = 7 ∧
    s.e.bs.buf = [] ∧ s.e.bs.acc = 0 ∧ s.e.bs.woff = 0 ∧ s.e.bs.sealed = false ∧
    s.d.bs.buf = [] ∧ s.d.bs.pos = 0 ∧
    s.e.codec = .raw ∧ s.d.codec = .raw ∧ s.d.phase = .done ∧ s.d.err = .none ∧
    s.e.status.cv = false ∧ s.e.status.sent = false ∧ s.e.status.ovf = false ∧ s.d.cv = false ∧
    s.e.x.first = true ∧ s.e.x.sv = 0 ∧ s.e.x.winv = false ∧ s.e.x.slz = 0 ∧ s.e.x.stz = 0 ∧
    s.d.x.first = true ∧ s.d.x.sv = 0 ∧ s.d.x.winv = false ∧ s.d.x.slz = 0 ∧ s.d.x.stz = 0 ∧
    s.e.r.lbsv = false ∧ s.e.r.lbs = 0 ∧ s.d.r.lbsv = false ∧ s.d.r.lbs = 0 ∧
    s.e.c.log2w = 7 ∧ s.d.c.log2w = 7 ∧ s.e.c.first = true ∧ s.d.c.first = true ∧
    s.e.c.index = 0 ∧ s.d.c.index = 0 ∧ (∀ key, Memory.read false s.e.c.tblv key = false) ∧
    s.e.c.slz = 65 ∧ s.d.c.slz = 65

/-! ## Command sequences -/

/-- The responses of a sequence of instructions run one after another, and the state they leave; nothing
where one stops the machine. -/
def issue : List Instr → State → Option (List (Option Response) × State)
  | [], s => some ([], s)
  | i :: is, s =>
    match exec i s with
    | .next s =>
      match issue is s with
      | some (rs, s') => some (s.resp :: rs, s')
      | none => none
    | .fault _ => none
    | .refused _ => none

/-! ## Room in the sink, what a command is turned away with -/

/-- The sink takes `n` more bits: it is not sealed and they pass no capacity (`41_bitstream.md` R100, R101). -/
abbrev State.Room (s : State) (n : Nat) : Prop :=
  s.e.bs.sealed = false ∧ ∀ cap ∈ s.impl.sinkCap, s.e.bs.bitLen + n ≤ 8 * cap

/-- The sink is open, and `n` more bits pass its capacity (`45_block_and_system.md` R211, `60_exceptions.md`
R248). -/
abbrev State.NoRoom (s : State) (n : Nat) : Prop :=
  s.e.bs.sealed = false ∧ ∃ cap ∈ s.impl.sinkCap, 8 * cap < s.e.bs.bitLen + n

/-- The sink `k` is the sink `k0` with `more` appended, as open as it was (`41_bitstream.md` R107). -/
abbrev BitSink.Extends (k k0 : BitSink) (more : List Bool) : Prop :=
  k.bits = k0.bits ++ more ∧ k.sealed = k0.sealed ∧ k.AccInv

/-- The `w`-bit numeral of `n`, most significant bit first (`20_memory.md` R52). -/
def natBits (n w : Nat) : List Bool := (List.range w).map fun k => n.testBit (w - 1 - k)

/-- `v[hi:lo]` as a bit string, bit `hi` first; empty when `hi < lo` (`00_scope.md` R7). -/
def bitSlice (v : Word) (hi lo : Nat) : List Bool :=
  (List.range (hi + 1 - lo)).map fun k => v.getLsbD (hi - k)

/-- The zero bits that pad a string of `n` bits to a byte boundary (`41_bitstream.md` R102). -/
def padding (n : Nat) : List Bool := List.replicate ((8 - n % 8) % 8) false

/-- The sink `k` is a sealed sink with the bit string `bits` and no partial byte (`41_bitstream.md` R102). -/
abbrev BitSink.Sealed (k : BitSink) (bits : List Bool) : Prop :=
  k.bits = bits ∧ k.sealed = true ∧ k.woff = 0 ∧ k.acc = 0

/-- A ContractViolation of the encode half: the flag, the response, nothing else (`60_exceptions.md` R237). -/
def State.encCv (s : State) : State :=
  { s with
    e := { s.e with status := { s.e.status with cv := true } }
    resp := some (.err .contractViolation) }

/-- An Overflow of the encode half (`60_exceptions.md` R237, R248). -/
def State.encOvf (s : State) : State :=
  { s with e := { s.e with status := { s.e.status with ovf := true } }, resp := some (.err .overflow) }

/-- A ContractViolation of the decode half (`60_exceptions.md` R237). -/
def State.decCv (s : State) : State :=
  { s with d := { s.d with cv := true }, resp := some (.err .contractViolation) }

/-! ## Encoding -/

/-- `E.STATUS` after a data value was given to an engine (`70_reset_and_hazards.md` R266). -/
def EncStatus.saw (st : EncStatus) (v : Word) : EncStatus :=
  { st with sent := st.sent || decide (v = Config.sentinel) }

/-- The next value is a steady-state X64 value whose XOR with the last is not 0 (`42_xor64.md` R120). -/
abbrev State.XChanges (s : State) (v : Word) : Prop := s.e.x.first = false ∧ s.e.x.sv ^^^ v ≠ 0

/-- The length in bits of the record the X64 encoder writes for `v` (`42_xor64.md` R120 to R126, R138). -/
def XorRegs.putLength (x : XorRegs) (v : Word) : Nat :=
  let lz := lzRound (clz (x.sv ^^^ v))
  let tz := ctz (x.sv ^^^ v)
  let cb := 64 - lz - tz
  if x.first = true then 7 + (63 - ctz v)
  else if x.sv ^^^ v = 0 then 2
  else if x.winv = true ∧ lz = x.slz.toNat ∧ x.stz.toNat ≤ tz then 2 + (64 - x.slz.toNat - x.stz.toNat)
  else (if cb ≤ 16 then 9 else 11) + (cb - 1)

/-- `c'` is `c` with `v` stored at position `p`: the counter, the ring slot `p mod W`, and the index-table
entry of `v`'s key; every other slot and entry reads as before (`44_chimp.md` R182, R189). -/
abbrev ChpEncRegs.Stored (c c' : ChpEncRegs) (p : Nat) (v : Word) : Prop :=
  c'.log2w = c.log2w ∧ c'.first = false ∧ c'.index = p ∧
    (∀ i, Memory.read 0 c'.ring i = if i = p % 2 ^ c.log2w.toNat then v else Memory.read 0 c.ring i) ∧
    (∀ key, Memory.read false c'.tblv key =
      if key = v.toNat % 2 ^ (7 + c.log2w.toNat) then true else Memory.read false c.tblv key) ∧
    ∀ key, Memory.read 0 c'.tbl key =
      if key = v.toNat % 2 ^ (7 + c.log2w.toNat) then p else Memory.read 0 c.tbl key

/-- `c'` is `c` with `v` stored at position `p`, in the decoder: no table (`44_chimp.md` R195, R201). -/
abbrev ChpDecRegs.Stored (c c' : ChpDecRegs) (p : Nat) (v : Word) : Prop :=
  c'.log2w = c.log2w ∧ c'.first = false ∧ c'.index = p ∧
    ∀ i, Memory.read 0 c'.ring i = if i = p % 2 ^ c.log2w.toNat then v else Memory.read 0 c.ring i

/-- The index table holds a position of `v`'s key that is in the window, `cand` (`44_chimp.md` R183). -/
abbrev ChpEncRegs.Candidate (c : ChpEncRegs) (v : Word) (cand : Nat) : Prop :=
  Memory.read false c.tblv (v.toNat % 2 ^ (7 + c.log2w.toNat)) = true ∧
    Memory.read 0 c.tbl (v.toNat % 2 ^ (7 + c.log2w.toNat)) = cand ∧ c.index - cand < 2 ^ c.log2w.toNat

/-- The reference the selector takes for `v` is slot `ref`, XOR `xor`, by a history match (`hist`) or as the
previous value (`44_chimp.md` R183). -/
def ChpEncRegs.Selects (c : ChpEncRegs) (v : Word) (hist : Bool) (ref : Nat) (xor : Word) : Prop :=
  xor = Memory.read 0 c.ring ref ^^^ v ∧
    if hist then ∃ cand, c.Candidate v cand ∧ ref = cand % 2 ^ c.log2w.toNat ∧ ctz xor > 6 + c.log2w.toNat
    else ref = c.index % 2 ^ c.log2w.toNat ∧
      ∀ cand, c.Candidate v cand →
        ctz (v ^^^ Memory.read 0 c.ring (cand % 2 ^ c.log2w.toNat)) ≤ 6 + c.log2w.toNat

/-- The record the CHP encoder writes for `v` is `n` bits long (`44_chimp.md` R182 to R188, R202). -/
def ChpEncRegs.PutLength (c : ChpEncRegs) (v : Word) (n : Nat) : Prop :=
  c.first = true ∧ n = 64 ∨
    c.first = false ∧ ∃ hist ref xor, c.Selects v hist ref xor ∧
      n = if xor = 0 then c.log2w.toNat + 2
        else if hist then c.log2w.toNat + 11 + (64 - lzRound (clz xor) - ctz xor)
        else (if lzRound (clz xor) = c.slz.toNat then 2 else 5) + (64 - lzRound (clz xor))

/-- A CHP block is being written and its next value is a steady-state one: the registers in range, the
counter able to count (`44_chimp.md` R181, `45_block_and_system.md` R211). -/
abbrev State.ChpSteady (s : State) : Prop :=
  s.e.codec = .chp ∧ s.e.c.first = false ∧ s.e.c.log2w.toNat ≤ 53 ∧ s.MemoryInv ∧ s.e.bs.AccInv ∧
    ∀ b ∈ s.impl.idxBits, s.e.c.index ≠ 2 ^ b - 1

/-- The condition under which the erasure unit erases a NORMAL pattern, with `eb` its `eraseBits`
(`43_erasure.md` R155, R156). -/
abbrev ErasureTaken (p : Word) (eb : Int) : Prop :=
  eb = 52 - ((dscale (profile p).1 : Int) + (expField p : Int) - 1023) ∧
    (profile p).2 ≤ 15 ∧ 4 < eb ∧ eb ≤ 52 ∧ p.toNat % 2 ^ eb.toNat ≠ 0

/-- What the X64 encoder makes of the pattern `v` after the sink was brought to `k`: the state of an
`ENC.VAL v` in X64 mode there, with the codec register as it was (`43_erasure.md` R150 stage 5, R158). -/
abbrev State.HandsOn (s : State) (k : BitSink) (r : EraRegs) (v : Word) (t : State) : Prop :=
  ∃ u, exec (.encVal v) { s with e := { s.e with bs := k, r := r, codec := .x64 } } = .next u ∧
    u.resp = some .ok ∧ t = { u with e := { u.e with codec := s.e.codec } }

/-! ## Decoding -/

/-- A block of codec `k` is being decoded, at its first record (`first`) or later, with `bits` unread; the
empty-buffer case of a first record does not apply (`45_block_and_system.md` R213). -/
abbrev State.Decoding (s : State) (k : Codec) (first : Bool) (bits : List Bool) : Prop :=
  s.d.codec = k ∧ s.d.phase = .run ∧ s.d.atFirst = first ∧ s.d.bs.unread = bits ∧
    (first = true → bits ≠ [])

/-- The state after a decode rule that raised with the decode half left at `d` (`60_exceptions.md` R236). -/
def State.raised (s : State) (d : DecHalf) (c : ErrCode) : State :=
  { s with d := { d with phase := .fault, err := c }, resp := some (.err c) }

/-- The state after a decode rule that left the decode half `d` and the pattern `v`: the sentinel ends the
block, any other pattern is the value (`42_xor64.md` R130, R137). -/
def State.delivered (s : State) (d : DecHalf) (v : Word) : State :=
  if v = Config.sentinel then { s with d := { d with phase := .done }, resp := some .endOfBlock }
  else { s with d := d, resp := some (.val v) }

/-- The instruction `i` meets a whole `C.COPY` or `C.HIST` record of `n` bits that names a live slot and decodes
to `v`: the pattern in the slot, for `C.HIST` with `sig` bits `p` XORed in above `tz = 64 - lz - sig`
(`44_chimp.md` R196 to R198). -/
def State.MatchRecord (s : State) (i : Instr) (n : Nat) (v : Word) : Prop :=
  ∃ (r : Word) (iii : BitVec 3) (ssssss : BitVec 6) (p : Word) (rest : List Bool),
    r.toNat < 2 ^ s.d.c.log2w.toNat ∧ r.toNat ≤ s.d.c.index ∧
    (i ∈ [.decVal, .chpDec, .cCopy r] ∧ n = 2 + s.d.c.log2w.toNat ∧
        v = Memory.read 0 s.d.c.ring r.toNat ∧
        s.Decoding .chp false ([false, false] ++ natBits r.toNat s.d.c.log2w.toNat ++ rest) ∨
      i ∈ [.decVal, .chpDec, .cHist r iii ssssss p] ∧ n = 11 + s.d.c.log2w.toNat + ssssss.toNat ∧
        0 < ssssss.toNat ∧ lzVal iii + ssssss.toNat ≤ 64 ∧ p.toNat < 2 ^ ssssss.toNat ∧
        (v ^^^ Memory.read 0 s.d.c.ring r.toNat).toNat = p.toNat * 2 ^ (64 - lzVal iii - ssssss.toNat) ∧
        s.Decoding .chp false
          ([false, true] ++ natBits r.toNat s.d.c.log2w.toNat ++ natBits iii.toNat 3 ++
            natBits ssssss.toNat 6 ++ natBits p.toNat ssssss.toNat ++ rest))

/-- The instruction `i` meets a whole `C.PREV` or `C.PREVN` record of `n` bits, for `C.PREV` with a count
announced, that decodes to `v`: the previous pattern with `64 - slz` bits `p` XORed in, `slz` the announced count
or the one the record announces (`44_chimp.md` R199, R200). -/
def State.PrevRecord (s : State) (i : Instr) (n : Nat) (slz : BitVec 7) (v : Word) : Prop :=
  ∃ (iii : BitVec 3) (p : Word) (rest : List Bool),
    p.toNat < 2 ^ (64 - slz.toNat) ∧
    v = Memory.read 0 s.d.c.ring (s.d.c.index % 2 ^ s.d.c.log2w.toNat) ^^^ p ∧
    (i ∈ [.decVal, .chpDec, .cPrev p] ∧ n = 2 + (64 - slz.toNat) ∧ slz = s.d.c.slz ∧ slz ≠ 65 ∧
        s.Decoding .chp false ([true, false] ++ natBits p.toNat (64 - slz.toNat) ++ rest) ∨
      i ∈ [.decVal, .chpDec, .cPrevn iii p] ∧ n = 5 + (64 - slz.toNat) ∧ slz.toNat = lzVal iii ∧
        s.Decoding .chp false
          ([true, true] ++ natBits iii.toNat 3 ++ natBits p.toNat (64 - slz.toNat) ++ rest))

/-- The state a CHP record of `n` bits leaves that decoded to `v` with the announced count `slz`: the sentinel
ends the block with no history update, any other pattern is stored and is the value (`44_chimp.md` R194,
R201). -/
def State.ChpAnswers (s : State) (n : Nat) (slz : BitVec 7) (v : Word) (t : State) : Prop :=
  if v = Config.sentinel then
    t = { s with
      d := { s.d.advance n with phase := .done, c := { s.d.c with slz := slz } }
      resp := some .endOfBlock }
  else
    ∃ c, s.d.c.Stored c (s.d.c.index + 1) v ∧ c.slz = slz ∧
      t = { s with d := { s.d.advance n with c := c }, resp := some (.val v) }

/-- The bit at bit address `a` of a byte sequence (`20_memory.md` R51). -/
def bitAt (buf : List Byte) (a : Nat) : Bool := (buf.getD (a / 8) 0).getLsbD (7 - a % 8)

end Sys2Proof.Machine

namespace Sys2Proof

/-- The instructions of the encode half (`30_encoding.md` R71, column half). -/
def Instr.isEncode : Instr → Bool
  | .encOpen _ | .wbit _ | .wbits _ _ | .flush | .bytes | .encVal _ | .encClose | .compress _ _ => true
  | .x64Enc _ | .eraEnc _ | .chpEnc _ | .x64Close | .eraClose | .chpClose => true
  | _ => false

/-- The instructions of the decode half (`30_encoding.md` R71, column half; the wire records are its). -/
def Instr.isDecode : Instr → Bool
  | .load _ | .decOpen _ | .rbit | .rbits _ | .decVal | .decompress _ _ | .x64Dec | .eraDec | .chpDec => true
  | .xFirst _ _ | .xSame | .xReuse _ | .xNews _ _ _ | .xNewl _ _ _ => true
  | .eSameb | .ePlain | .eNewb _ => true
  | .cFirst _ | .cCopy _ | .cHist _ _ _ _ | .cPrev _ | .cPrevn _ _ => true
  | _ => false

end Sys2Proof
end

