-- ==== Sys2Proof/Certificates/Slice0/Obligations.lean ====
section
/-! DEFINITION. The statements about the machine, after the numbered rules of the spec. A statement gives the
next state of an instruction as an update of the state before it: what the update does not name is unchanged,
which is the instruction's frame. -/

open Sys2Proof Sys2Proof.Machine

/-! ## System commands and the step -/

/-- `RESET`, in every state, answers `Ok` and leaves every register at its value in the table of `10_state.md`
R38; power-on does the same (`45_block_and_system.md` R215). Ring and table contents, which the table leaves
unspecified, are not named. -/
def Obligations.ResetPutsEveryRegisterAtItsValue : Prop :=
  State.reset.AtReset ∧
    ∀ s : State, ∃ t, exec .reset s = .next t ∧ t.AtReset ∧ t.resp = some .ok

/-- `CFG.W n` sets `CFG.LOG2W`, or is refused above `LOG2W_MAX`, with no sticky flag; the value takes effect at
the next OPEN with codec CHP, and no latched `L` changes before (`45_block_and_system.md` R214). -/
def Obligations.CfgWSetsTheWindowOfLaterBlocks : Prop :=
  ∀ (s : State) (n : BitVec 7), s.impl.log2wMax ≤ 53 →
    (s.impl.log2wMax < n.toNat →
      exec (.cfgW n) s = .next { s with resp := some (.err .contractViolation) }) ∧
    (n.toNat ≤ s.impl.log2wMax →
      ∃ w : BitVec 6, w.toNat = n.toNat ∧
        exec (.cfgW n) s = .next { s with cfgLog2w := w, resp := some .ok } ∧
        (∃ t, exec (.encOpen .chp) { s with cfgLog2w := w, resp := some .ok } = .next t ∧ t.e.c.log2w = w) ∧
        ∃ t, exec (.decOpen .chp) { s with cfgLog2w := w, resp := some .ok } = .next t ∧ t.d.c.log2w = w)

/-- `STATUS` answers the word of `45_block_and_system.md` R216, given here as the sum of its fields at their
places, and changes no state. A codec, a phase and an error code stand in it as their numbers, which are written
out (`30_encoding.md` R72, `10_state.md` R30, `60_exceptions.md` R231). -/
def Obligations.StatusReadsEveryField : Prop :=
  (Codec.raw.code = 0 ∧ Codec.x64.code = 1 ∧ Codec.era.code = 2 ∧ Codec.chp.code = 3) ∧
  (Phase.run.code = 0 ∧ Phase.done.code = 1 ∧ Phase.fault.code = 2) ∧
  (ErrCode.none.code = 0 ∧ ErrCode.endOfStream.code = 1 ∧ ErrCode.malformedBlock.code = 2 ∧
    ErrCode.precisionOverflow.code = 3 ∧ ErrCode.contractViolation.code = 4 ∧ ErrCode.overflow.code = 5) ∧
  ∀ s : State, ∃ w : Word,
    exec .status s = .next { s with resp := some (.status w) } ∧
      w.toNat =
        s.e.status.cv.toNat + 2 * s.e.status.sent.toNat + 4 * s.e.status.ovf.toNat + 2 ^ 8 * s.d.cv.toNat +
          2 ^ 16 * s.e.codec.code.toNat + 2 ^ 18 * s.d.codec.code.toNat + 2 ^ 20 * s.d.phase.code.toNat +
          2 ^ 22 * s.d.err.code.toNat + 2 ^ 25 * s.e.bs.sealed.toNat + 2 ^ 32 * s.cfgLog2w.toNat

/-- A reserved `op` answers `Err(ContractViolation)`; no register and no sticky flag changes
(`30_encoding.md` R87). -/
def Obligations.ReservedCommandsAreRefused : Prop :=
  ∀ (s : State) (w : Command) (rest : List Command), s.port = w :: rest →
    w.op.toNat ∉ [0x01, 0x02, 0x03, 0x08, 0x09, 0x0A, 0x0B, 0x0C, 0x0D, 0x0E, 0x10, 0x11, 0x12, 0x13, 0x14, 0x18,
      0x19] →
    step s = .next { s with port := rest, resp := some (.err .contractViolation) }

/-- A step takes the first command off the port and executes what it decodes to, a well-formed instruction
(`20_memory.md` R59, `30_encoding.md` R70). That the port is a list in the state, that an empty one lets a step
pass, and where `withFetchWord` puts a word are the model's own (log 1). -/
def Obligations.StepRunsTheDecodedCommand : Prop :=
  (∀ (s : State) (w : Command) (rest : List Command) (i : Instr), s.port = w :: rest →
      decode .port (.command w) = .ok i →
      i.wellFormed .port = true ∧ step s = exec i { s with port := rest }) ∧
    (∀ s : State, s.port = [] → step s = .next s) ∧
    ∀ (s : State) (nbits w : Nat) (i : Instr), decodeTableWord nbits w = some i →
      step (s.withFetchWord nbits w) = exec i s

/-- Words written out from the encoding tables (`30_encoding.md` R71, R75, R78, R79) decode to the instructions
they stand for; a response is written with the `kind` of R73, an `Err` with its error code. -/
def Obligations.WrittenOutWordsDecode : Prop :=
  (∀ (b : Bool) (v : Word) (data : List Byte) (vals : List Word) (c : ErrCode),
    Response.ok.kind = 0 ∧ (Response.bit b).kind = 1 ∧ (Response.val v).kind = 2 ∧ (Response.bytes data).kind = 3 ∧
      (Response.vals vals).kind = 4 ∧ Response.endOfBlock.kind = 5 ∧ (Response.status v).kind = 6 ∧
      (Response.err c).kind = 7 ∧ (Response.err c).code = c.code) ∧
  decode .port (.command ⟨0x02, 0, 9, false, 0, [], []⟩) = .ok (.cfgW 9) ∧
    decode .port (.command ⟨0x0A, 0, 12, false, 0x3FF, [], []⟩) = .ok (.wbits 0x3FF 12) ∧
    decode .port (.command ⟨0x11, 3, 0, false, 0, [], []⟩) = .ok (.decOpen .chp) ∧
    decode (.dispatch .era .x64) (.command ⟨0x0D, 0, 0, false, 5, [], []⟩) = .ok (.eraEnc 5) ∧
    decode (.xSteady 12) (.record ([false, false] ++ [true, true, true, true] ++ List.replicate 8 false)) =
      .ok (.xReuse 0xF00) ∧
    decode (.xSteady 0)
      (.record [true, false, false, true, false, false, false, true, false, true]) = .ok (.xNews 2 2 1) ∧
    decode .eraPrefix (.record [true, true, false, false, true, true]) = .ok (.eNewb 3) ∧
    decode (.cSteady 7 0)
      (.record ([false, true] ++ List.replicate 7 false ++ [false, false, true] ++
        [false, false, false, true, true, false] ++ [false, false, false, true, true, true])) =
      .ok (.cHist 0 1 6 7)

/-- Every instruction answers with a next state and a response, from every state: nothing stops the machine and
every loop ends, that of `DECOMPRESS` among them (`70_reset_and_hazards.md` R272, `60_exceptions.md` R230). -/
def Obligations.EveryInstructionAnswers : Prop :=
  ∀ (i : Instr) (s : State), ∃ t r, exec i s = .next t ∧ t.resp = some r

/-! ## Arithmetic -/

/-- The arithmetic primitives are the functions of `00_scope.md` R8. -/
def Obligations.PrimitivesMeetTheirDefinitions : Prop :=
  (∀ (a b : Word) (i : Nat), i < 64 →
      (a ^^^ b).getLsbD i = (a.getLsbD i != b.getLsbD i) ∧ (a &&& b).getLsbD i = (a.getLsbD i && b.getLsbD i) ∧
        (a ||| b).getLsbD i = (a.getLsbD i || b.getLsbD i) ∧ (~~~a).getLsbD i = !a.getLsbD i) ∧
    (∀ (a : Word) (k : Nat), (shr a k).toNat = a.toNat / 2 ^ k ∧ (shl64 a k).toNat = a.toNat * 2 ^ k % 2 ^ 64) ∧
    (∀ (a : Word) (n : Nat), n ≤ 64 → (low a n).toNat = a.toNat % 2 ^ n) ∧
    (clz 0 = 64 ∧ ctz 0 = 64) ∧
    (∀ a : Word, a ≠ 0 →
      clz a + Nat.log2 a.toNat = 63 ∧ 2 ^ ctz a ∣ a.toNat ∧ ¬ 2 ^ (ctz a + 1) ∣ a.toNat) ∧
    Config.lzSet = [0, 8, 12, 16, 18, 20, 22, 24] ∧
    (∀ n ≤ 64, lzRound n ∈ Config.lzSet ∧ lzRound n ≤ n ∧ ∀ z ∈ Config.lzSet, z ≤ n → z ≤ lzRound n) ∧
    (∀ z ∈ Config.lzSet, Config.lzSet[(lzIdx z).toNat]? = some z) ∧
    ∀ i : BitVec 3, Config.lzSet[i.toNat]? = some (lzVal i) ∧ lzIdx (lzVal i) = i

/-! ## The sink -/

/-- `WBIT b`: a sealed sink refuses it, a full sink refuses it, else one bit is appended
(`41_bitstream.md` R100, R107). -/
def Obligations.WbitAppendsOneBit : Prop :=
  ∀ (s : State) (b : Bool), s.e.bs.AccInv →
    (s.e.bs.sealed = true → exec (.wbit b) s = .next s.encCv) ∧
      (s.e.bs.sealed = false → (∃ cap ∈ s.impl.sinkCap, 8 * cap < s.e.bs.bitLen + 1) →
        exec (.wbit b) s = .next s.encOvf) ∧
      (s.Room 1 → ∃ k, k.Extends s.e.bs [b] ∧
        exec (.wbit b) s = .next { s with e := { s.e with bs := k }, resp := some .ok })

/-- `WBITS v, n`: refused above 64 bits, then on a sealed sink, then on a full one; else the bits `v[n-1:0]` are
appended, all or none, whatever `v[63:n]` holds (`41_bitstream.md` R101). -/
def Obligations.WbitsAppendsTheLowBits : Prop :=
  ∀ (s : State) (v : Word) (n : BitVec 7), s.e.bs.AccInv →
    (64 < n.toNat → exec (.wbits v n) s = .next s.encCv) ∧
      (s.e.bs.sealed = true → exec (.wbits v n) s = .next s.encCv) ∧
      (n.toNat ≤ 64 → s.e.bs.sealed = false → (∃ cap ∈ s.impl.sinkCap, 8 * cap < s.e.bs.bitLen + n.toNat) →
        exec (.wbits v n) s = .next s.encOvf) ∧
      (n.toNat ≤ 64 → s.Room n.toNat →
        ∃ k, k.Extends s.e.bs ((List.range n.toNat).map fun j => v.getLsbD (n.toNat - 1 - j)) ∧
          exec (.wbits v n) s = .next { s with e := { s.e with bs := k }, resp := some .ok })

/-- `FLUSH` pads with zero bits to the byte boundary and seals; on a sealed sink it does nothing; after it the
two writes are refused (`41_bitstream.md` R102). -/
def Obligations.FlushPadsAndSeals : Prop :=
  ∀ s : State, s.e.bs.AccInv →
    (s.e.bs.sealed = true → exec .flush s = .next { s with resp := some .ok }) ∧
      (s.e.bs.sealed = false → ∃ k, k.Sealed (s.e.bs.bits ++ padding s.e.bs.bitLen) ∧
        exec .flush s = .next { s with e := { s.e with bs := k }, resp := some .ok }) ∧
      ∃ t, exec .flush s = .next t ∧
        ∀ (b : Bool) (v : Word) (n : BitVec 7),
          exec (.wbit b) t = .next t.encCv ∧ exec (.wbits v n) t = .next t.encCv

/-- `BYTES` answers the bytes of a sealed sink and changes no state; on an open sink it is refused
(`41_bitstream.md` R103). -/
def Obligations.BytesNeedsTheSeal : Prop :=
  ∀ s : State,
    (s.e.bs.sealed = true → exec .bytes s = .next { s with resp := some (.bytes s.e.bs.buf) }) ∧
      (s.e.bs.sealed = false → exec .bytes s = .next s.encCv)

/-- The four laws of the write side (`41_bitstream.md` R108): a `WBITS` is its `WBIT`s; it may be cut anywhere;
`FLUSH` rounds the length up to whole bytes with zeros; accepted writes concatenate. -/
def Obligations.LawsOfTheWriteSide : Prop :=
  (∀ (s : State) (v : Word) (n : BitVec 7), s.e.bs.AccInv → n.toNat ≤ 64 → s.Room n.toNat →
      ∃ rs t, issue ((List.range n.toNat).map fun j => .wbit (v.getLsbD (n.toNat - 1 - j))) s = some (rs, t) ∧
        exec (.wbits v n) s = .next { t with resp := some .ok }) ∧
    (∀ (s : State) (v : Word) (a b : BitVec 7), s.e.bs.AccInv → a.toNat + b.toNat ≤ 64 →
      s.Room (a.toNat + b.toNat) →
      ∃ rs t, issue [.wbits (shr v b.toNat) a, .wbits v b] s = some (rs, t) ∧
        exec (.wbits v (a + b)) s = .next t) ∧
    (∀ s : State, s.e.bs.AccInv → s.e.bs.sealed = false →
      ∃ t, exec .flush s = .next t ∧ t.e.bs.buf.length = (s.e.bs.bitLen + 7) / 8 ∧
        bytesBits t.e.bs.buf = s.e.bs.bits ++ List.replicate (8 * t.e.bs.buf.length - s.e.bs.bitLen) false) ∧
    ∀ (ws : List (Word × BitVec 7)) (s t : State) (rs : List (Option Response)), s.e.bs.AccInv →
      issue (ws.map fun w => .wbits w.1 w.2) s = some (rs, t) → (∀ r ∈ rs, r = some .ok) →
      t.e.bs.bits = s.e.bs.bits ++ ws.flatMap fun w => natBits (w.1.toNat % 2 ^ w.2.toNat) w.2.toNat

/-- No instruction but the OPENs of a block, `COMPRESS` and `RESET` changes a bit already written: the bit
string of the sink only grows (`41_bitstream.md` R107, `20_memory.md` R56). -/
def Obligations.SinkIsAppendOnly : Prop :=
  ∀ (i : Instr) (s t : State), s.e.bs.AccInv → exec i s = .next t →
    i ≠ .reset → (∀ k, i ≠ .encOpen k) → (∀ k vs, i ≠ .compress k vs) →
    ∃ more, t.e.bs.bits = s.e.bs.bits ++ more

/-! ## The source -/

/-- `LOAD` replaces the source, puts the cursor at 0 and leaves the decode half in DONE, its decoder registers
as they are; a sequence over `SRC_CAP` is refused and nothing changes (`41_bitstream.md` R104). -/
def Obligations.LoadReplacesTheSource : Prop :=
  ∀ (s : State) (data : List Byte),
    ((∃ cap ∈ s.impl.srcCap, cap < data.length) →
        exec (.load data) s = .next { s with resp := some (.err .overflow) }) ∧
      ((∀ cap ∈ s.impl.srcCap, data.length ≤ cap) →
        exec (.load data) s = .next { s with
          d := { s.d with bs := ⟨data, 0⟩, phase := .done, err := .none }
          resp := some .ok })

/-- `RBIT` answers the bit at the cursor and moves past it; with no bit left it answers `Err(EndOfStream)` and
changes nothing (`41_bitstream.md` R105). -/
def Obligations.RbitReadsTheNextBit : Prop :=
  ∀ s : State,
    (8 * s.d.bs.buf.length ≤ s.d.bs.pos → exec .rbit s = .next { s with resp := some (.err .endOfStream) }) ∧
      (s.d.bs.pos < 8 * s.d.bs.buf.length →
        exec .rbit s = .next { s with
          d := { s.d with bs := { s.d.bs with pos := s.d.bs.pos + 1 } }
          resp := some (.bit (bitAt s.d.bs.buf s.d.bs.pos)) })

/-- `RBITS n` is refused above 64, answers `Err(EndOfStream)` and consumes nothing where fewer than `n` bits are
left, else answers the number the next `n` bits spell, first bit most significant, and moves past them
(`41_bitstream.md` R106; what a read does inside `DEC.VAL` is stated with the records). -/
def Obligations.RbitsReadsANumeral : Prop :=
  ∀ (s : State) (n : BitVec 7),
    (64 < n.toNat → exec (.rbits n) s = .next s.decCv) ∧
      (n.toNat ≤ 64 → s.d.bs.pos ≤ 8 * s.d.bs.buf.length →
        (8 * s.d.bs.buf.length < s.d.bs.pos + n.toNat →
          exec (.rbits n) s = .next { s with resp := some (.err .endOfStream) }) ∧
        (s.d.bs.pos + n.toNat ≤ 8 * s.d.bs.buf.length →
          ∃ v : Word,
            v.toNat = ∑ j ∈ Finset.range n.toNat,
              (bitAt s.d.bs.buf (s.d.bs.pos + j)).toNat * 2 ^ (n.toNat - 1 - j) ∧
            exec (.rbits n) s = .next { s with
              d := { s.d with bs := { s.d.bs with pos := s.d.bs.pos + n.toNat } }
              resp := some (.val v) }))

/-- What the sink took the source gives back (`41_bitstream.md` R109): after accepted writes on an empty open
sink, `FLUSH` and `BYTES`, a `LOAD` of those bytes, which the source takes, and reads of the same widths answer the
low bits of what was written, and what is left is fewer than eight zero bits. -/
def Obligations.SourceReturnsWhatTheSinkTook : Prop :=
  ∀ (ws : List (Word × BitVec 7)) (s t : State) (rs : List (Option Response)),
    s.e.bs.AccInv → s.e.bs.bits = [] → s.e.bs.sealed = false →
    issue (ws.map fun w => .wbits w.1 w.2) s = some (rs, t) → (∀ r ∈ rs, r = some .ok) →
    ∃ d u, issue [.flush, .bytes] t = some ([some .ok, some (.bytes d)], u) ∧
      ((∀ cap ∈ s.impl.srcCap, d.length ≤ cap) →
        ∃ r, issue (.load d :: ws.map fun w => .rbits w.2) u =
            some (some .ok :: ws.map fun w => some (.val (low w.1 w.2.toNat)), r) ∧
          r.d.bs.unread.length < 8 ∧ ∀ b ∈ r.d.bs.unread, b = false)

/-! ## Opening a block and driving it -/

/-- An OPEN begins a block in every state. `ENC.OPEN`: the encode half at its reset values, the codec and for CHP
the latched window aside; ring and table positions keep their contents, every valid bit is 0
(`45_block_and_system.md` R210). `DEC.OPEN`: source, cursor and ring are not touched, the decoder registers are at
their reset values, the phase is RUN, or DONE for RAW (R212). -/
def Obligations.OpenStartsABlock : Prop :=
  ∀ (s : State) (k : Codec),
    (∃ tblv, (∀ key, Memory.read false tblv key = false) ∧
      exec (.encOpen k) s = .next { s with
        e := {
          bs := ⟨[], 0, 0, false⟩
          codec := k
          x := ⟨true, 0, false, 0, 0⟩
          r := ⟨false, 0⟩
          c := ⟨if k = .chp then s.cfgLog2w else s.e.c.log2w, true, s.e.c.ring, 0, tblv, s.e.c.tbl, 65⟩
          status := ⟨false, false, false⟩ }
        resp := some .ok }) ∧
    exec (.decOpen k) s = .next { s with
      d := {
        bs := s.d.bs
        codec := k
        phase := if k = .raw then .done else .run
        err := .none
        x := ⟨true, 0, false, 0, 0⟩
        r := ⟨false, 0⟩
        c := ⟨if k = .chp then s.cfgLog2w else s.d.c.log2w, true, s.d.c.ring, 0, 65⟩
        cv := false }
      resp := some .ok }

/-- `ENC.VAL` and `ENC.CLOSE` are refused with codec RAW and on a sealed sink, in CHP also when the position
counter cannot count; else they do what the row their codec selects does (`45_block_and_system.md` R211). So does
`DEC.VAL` where it reads a record (R213). -/
def Obligations.CodecsSelectTheirUnit : Prop :=
  ∀ (s : State) (v : Word),
    (s.e.codec = .raw ∨ s.e.bs.sealed = true →
      exec (.encVal v) s = .next s.encCv ∧ exec .encClose s = .next s.encCv) ∧
    (s.e.codec = .chp → s.e.bs.sealed = false → s.e.c.first = false →
      (∃ b ∈ s.impl.idxBits, s.e.c.index = 2 ^ b - 1) →
      exec (.encVal v) s = .next s.encOvf ∧ exec .encClose s = .next s.encOvf) ∧
    (s.e.bs.sealed = false → ∀ i j, i = .encVal v ∨ i = .encClose →
      dispatchCommand s.e.codec s.d.codec i = .ok j → exec i s = exec j s) ∧
    (s.d.phase = .run → (s.d.atFirst = true → 0 < s.d.bs.avail) → ∀ j,
      dispatchCommand s.e.codec s.d.codec .decVal = .ok j → exec .decVal s = exec j s)

/-- Where `DEC.VAL` reads nothing (`45_block_and_system.md` R213): refused with codec RAW; in FAULT the sticky
error again; in DONE `End` again; at the first record of an empty source `End`, and the phase is DONE. -/
def Obligations.DecValAnswersWithoutReading : Prop :=
  ∀ s : State,
    (s.d.codec = .raw → exec .decVal s = .next s.decCv) ∧
      (s.d.codec ≠ .raw →
        (s.d.phase = .fault → exec .decVal s = .next { s with resp := some (.err s.d.err) }) ∧
          (s.d.phase = .done → exec .decVal s = .next { s with resp := some .endOfBlock }) ∧
          (s.d.phase = .run → s.d.atFirst = true → s.d.bs.avail = 0 →
            exec .decVal s = .next { s with d := { s.d with phase := .done }, resp := some .endOfBlock }))

/-- A command of the encode half is accepted whole or refused whole: the response is `Ok` and no refusal flag
changes, or the state is the old one but for the response and the one sticky flag (`60_exceptions.md` R237,
`45_block_and_system.md` R211). That the dispatch rows `X64.ENC` to `CHP.CLOSE` are commands of their own, and
answer so in every state, also under a codec that does not select them, is the model's choice (log 4). -/
def Obligations.EncodeCommandsAreAtomic : Prop :=
  ∀ (s : State) (v : Word) (b : Bool) (n : BitVec 7) (i : Instr),
    i ∈ [.wbit b, .wbits v n, .flush, .encVal v, .encClose, .x64Enc v, .eraEnc v, .chpEnc v, .x64Close, .eraClose,
      .chpClose] →
    ∃ t, exec i s = .next t ∧
      (t.resp = some .ok ∧ t.e.status.cv = s.e.status.cv ∧ t.e.status.ovf = s.e.status.ovf ∨
        t = s.encCv ∨ t = s.encOvf)

/-! ## The XOR64 encoder -/

/-- `X.FIRST` (`42_xor64.md` R121): the first value of a block is sent as its trailing-zero count in 7 bits and the
bits `v[63:tz+1]`; a record that does not fit under `SINK_CAP` is refused whole, with Overflow
(`45_block_and_system.md` R211). -/
def Obligations.XorFirstValueIsEmitted : Prop :=
  ∀ (s : State) (v : Word) (i : Instr), i ∈ [.encVal v, .x64Enc v] →
    s.e.codec = .x64 → s.e.x.first = true → s.e.bs.AccInv →
    (s.Room (7 + (63 - ctz v)) →
      ∃ k, k.Extends s.e.bs (natBits (ctz v) 7 ++ bitSlice v 63 (ctz v + 1)) ∧
        exec i s = .next { s with
          e := { s.e with
            bs := k
            x := { s.e.x with first := false, sv := v }
            status := s.e.status.saw v }
          resp := some .ok }) ∧
    (s.NoRoom (7 + (63 - ctz v)) → exec i s = .next s.encOvf)

/-- `X.SAME` and `X.REUSE` (`42_xor64.md` R122, R123): a value equal to the last one is sent as `01`, and no codec
register changes; a XOR that fits the announced window is sent as `00` and the bits `xor[63-slz:stz]`, the same
bits in both spellings of the encoder (`30_encoding.md` R77), and the window registers do not change. A record that
does not fit under `SINK_CAP` is refused whole, with Overflow (`45_block_and_system.md` R211). -/
def Obligations.XorRepeatsAndReusesAreEmitted : Prop :=
  ∀ (s : State) (v : Word) (i : Instr), i ∈ [.encVal v, .x64Enc v] →
    s.e.codec = .x64 → s.e.x.first = false → s.e.bs.AccInv →
    (s.e.x.sv = v →
      (s.Room 2 → ∃ k, k.Extends s.e.bs [false, true] ∧
        exec i s = .next { s with
          e := { s.e with bs := k, status := s.e.status.saw v }
          resp := some .ok }) ∧
      (s.NoRoom 2 → exec i s = .next s.encOvf)) ∧
    (s.e.x.sv ^^^ v ≠ 0 → s.e.x.WindowInv → s.e.x.winv = true →
      lzRound (clz (s.e.x.sv ^^^ v)) = s.e.x.slz.toNat → s.e.x.stz.toNat ≤ ctz (s.e.x.sv ^^^ v) →
      (s.Room (66 - s.e.x.slz.toNat - s.e.x.stz.toNat) →
        ∃ k, k.Extends s.e.bs
            ([false, false] ++ bitSlice (s.e.x.sv ^^^ v) (63 - s.e.x.slz.toNat) s.e.x.stz.toNat) ∧
          exec i s = .next { s with
            e := { s.e with bs := k, x := { s.e.x with sv := v }, status := s.e.status.saw v }
            resp := some .ok }) ∧
      (s.NoRoom (66 - s.e.x.slz.toNat - s.e.x.stz.toNat) → exec i s = .next s.encOvf))

/-- A window change (`42_xor64.md` R124 to R126): with `lz` the rounded leading count of the XOR, `tz` its trailing
count and `cb = 64 - lz - tz`, the record is `10 iii cccc` for `cb <= 16` and `11 iii cccccc` above, then
`xor[63-lz:tz+1]`; the window registers take `lz` and `tz`. A record that does not fit under `SINK_CAP` is refused
whole, with Overflow (`45_block_and_system.md` R211). -/
def Obligations.XorWindowChangeIsEmitted : Prop :=
  ∀ (s : State) (v : Word) (i : Instr) (lz tz cb : Nat), i ∈ [.encVal v, .x64Enc v] →
    s.e.codec = .x64 → s.XChanges v → s.e.bs.AccInv →
    lz = lzRound (clz (s.e.x.sv ^^^ v)) → tz = ctz (s.e.x.sv ^^^ v) → cb = 64 - lz - tz →
    ¬ (s.e.x.winv = true ∧ lz = s.e.x.slz.toNat ∧ s.e.x.stz.toNat ≤ tz) →
    (s.Room ((if cb ≤ 16 then 9 else 11) + (cb - 1)) →
      ∃ k slz stz, slz.toNat = lz ∧ stz.toNat = tz ∧
        k.Extends s.e.bs
          ((if cb ≤ 16 then [true, false] ++ natBits (lzIdx lz).toNat 3 ++ natBits (cb % 16) 4
            else [true, true] ++ natBits (lzIdx lz).toNat 3 ++ natBits (cb % 64) 6) ++
            bitSlice (s.e.x.sv ^^^ v) (63 - lz) (tz + 1)) ∧
        exec i s = .next { s with
          e := { s.e with
            bs := k
            x := ⟨false, v, true, slz, stz⟩
            status := s.e.status.saw v }
          resp := some .ok }) ∧
    (s.NoRoom ((if cb ≤ 16 then 9 else 11) + (cb - 1)) → exec i s = .next s.encOvf)

/-- `X64.CLOSE` (`42_xor64.md` R127): the sentinel as the next value, one `0` bit, then padding and the seal; the
close itself does not set `SENT`. A close whose record and bit do not fit under `SINK_CAP` is refused whole, with
Overflow (`45_block_and_system.md` R211). -/
def Obligations.XorCloseEndsTheBlock : Prop :=
  ∀ (s : State) (i : Instr), i ∈ [.encClose, .x64Close] →
    s.e.codec = .x64 → s.e.bs.AccInv →
    (s.Room (s.e.x.putLength Config.sentinel + 1) →
      ∃ u k, exec (.encVal Config.sentinel) s = .next u ∧ u.resp = some .ok ∧
        k.Sealed (u.e.bs.bits ++ [false] ++ padding (u.e.bs.bitLen + 1)) ∧
        exec i s = .next { u with e := { u.e with bs := k, status := s.e.status }, resp := some .ok }) ∧
    (s.NoRoom (s.e.x.putLength Config.sentinel + 1) → exec i s = .next s.encOvf)

/-! ## The XOR64 decoder -/

/-- `X.FIRST` decoded (`42_xor64.md` R131, R130): the 7-bit count, then `63 - tz` bits `p`; the pattern is
`(2p+1) * 2^tz`, or 0 for a count of 64. -/
def Obligations.XorFirstValueIsDecoded : Prop :=
  ∀ (s : State) (tz : BitVec 7) (p v : Word) (rest : List Bool) (i : Instr),
    i ∈ [.decVal, .x64Dec, .xFirst tz p] → tz.toNat ≤ 64 → p.toNat < 2 ^ (63 - tz.toNat) →
    s.Decoding .x64 true (natBits tz.toNat 7 ++ natBits p.toNat (63 - tz.toNat) ++ rest) →
    v.toNat = (if tz.toNat = 64 then 0 else (2 * p.toNat + 1) * 2 ^ tz.toNat) →
    exec i s = .next (s.delivered
      { s.d.advance (7 + (63 - tz.toNat)) with x := { s.d.x with first := false, sv := v } } v)

/-- `X.SAME` decoded (`42_xor64.md` R132): the stored pattern again; no register of the engine changes. `X.REUSE`
decoded (R133): `cb = 64 - slz - stz` bits `p`, put back at `stz` and XORed into the stored pattern; the window
registers do not change. -/
def Obligations.XorRepeatsAndReusesAreDecoded : Prop :=
  ∀ (s : State) (rest : List Bool),
    (∀ i ∈ [.decVal, .x64Dec, .xSame], s.Decoding .x64 false ([false, true] ++ rest) →
      exec i s = .next (s.delivered (s.d.advance 2) s.d.x.sv)) ∧
    ∀ (p v : Word), ∀ i ∈ [.decVal, .x64Dec, .xReuse p],
      s.d.x.winv = true → s.d.x.WindowInv → p.toNat < 2 ^ (64 - s.d.x.slz.toNat - s.d.x.stz.toNat) →
      s.Decoding .x64 false
        ([false, false] ++ natBits p.toNat (64 - s.d.x.slz.toNat - s.d.x.stz.toNat) ++ rest) →
      (s.d.x.sv ^^^ v).toNat = p.toNat * 2 ^ s.d.x.stz.toNat →
      exec i s = .next (s.delivered
        { s.d.advance (66 - s.d.x.slz.toNat - s.d.x.stz.toNat) with x := { s.d.x with sv := v } } v)

/-- `X.NEWS` and `X.NEWL` decoded (`42_xor64.md` R134 to R136): with `lz` the canonical count of the index and
`cb` the announced width, a field of 0 standing for 16 or 64, the window `(2p+1) * 2^tz` of `cb` bits is XORed
into the stored pattern, and `lz` and `tz = 64 - lz - cb` are the window registers. -/
def Obligations.XorWindowChangeIsDecoded : Prop :=
  ∀ (s : State) (iii : BitVec 3) (cccc : BitVec 4) (cccccc : BitVec 6) (p v : Word) (cb : Nat)
    (rest : List Bool) (i : Instr),
    (i ∈ [.decVal, .x64Dec, .xNews iii cccc p] ∧ cb = (if cccc.toNat = 0 then 16 else cccc.toNat) ∧
        s.Decoding .x64 false
          ([true, false] ++ natBits iii.toNat 3 ++ natBits cccc.toNat 4 ++ natBits p.toNat (cb - 1) ++ rest) ∨
      i ∈ [.decVal, .x64Dec, .xNewl iii cccccc p] ∧ cb = (if cccccc.toNat = 0 then 64 else cccccc.toNat) ∧
        s.Decoding .x64 false
          ([true, true] ++ natBits iii.toNat 3 ++ natBits cccccc.toNat 6 ++ natBits p.toNat (cb - 1) ++ rest)) →
    lzVal iii + cb ≤ 64 → p.toNat < 2 ^ (cb - 1) →
    (s.d.x.sv ^^^ v).toNat = (2 * p.toNat + 1) * 2 ^ (64 - lzVal iii - cb) →
    ∃ slz stz n, slz.toNat = lzVal iii ∧ stz.toNat = 64 - lzVal iii - cb ∧
      s.d.bs.unread.drop n = rest ∧ n + rest.length = s.d.bs.unread.length ∧
      exec i s = .next (s.delivered { s.d.advance n with x := ⟨false, v, true, slz, stz⟩ } v)

/-- What makes an X64 record fault, and the state the fault leaves (`42_xor64.md` R131, R133, R134;
`60_exceptions.md` R232, R236, R238, R239; causes 1 to 3 of R233): each field is read before it is tested and
every test comes before the payload; the fields read stay consumed and no register of the engine changes. -/
def Obligations.XorRecordsFault : Prop :=
  ∀ (s : State) (tz : BitVec 7) (p : Word) (iii : BitVec 3) (cccc : BitVec 4) (cccccc : BitVec 6) (cb : Nat)
    (rest : List Bool),
    (∀ i ∈ [.decVal, .x64Dec, .xFirst tz p],
      (s.Decoding .x64 true rest → rest.length < 7 → exec i s = .next (s.raised s.d .endOfStream)) ∧
        (s.Decoding .x64 true (natBits tz.toNat 7 ++ rest) →
          (64 < tz.toNat → exec i s = .next (s.raised (s.d.advance 7) .malformedBlock)) ∧
            (tz.toNat ≤ 64 → rest.length < 63 - tz.toNat →
              exec i s = .next (s.raised (s.d.advance 7) .endOfStream)))) ∧
    (∀ i ∈ [.decVal, .x64Dec, .xSame, .xReuse p, .xNews iii cccc p, .xNewl iii cccccc p],
      s.Decoding .x64 false rest → rest.length < 2 → exec i s = .next (s.raised s.d .endOfStream)) ∧
    (∀ i ∈ [.decVal, .x64Dec, .xReuse p], s.Decoding .x64 false ([false, false] ++ rest) →
      (s.d.x.winv = false → exec i s = .next (s.raised (s.d.advance 2) .malformedBlock)) ∧
        (s.d.x.winv = true → rest.length < 64 - s.d.x.slz.toNat - s.d.x.stz.toNat →
          exec i s = .next (s.raised (s.d.advance 2) .endOfStream))) ∧
    (∀ i ∈ [.decVal, .x64Dec, .xNews iii cccc p],
      (s.Decoding .x64 false ([true, false] ++ rest) → rest.length < 7 →
          exec i s = .next (s.raised (s.d.advance 2) .endOfStream)) ∧
        (s.Decoding .x64 false ([true, false] ++ natBits iii.toNat 3 ++ natBits cccc.toNat 4 ++ rest) →
          cb = (if cccc.toNat = 0 then 16 else cccc.toNat) →
          (64 < lzVal iii + cb → exec i s = .next (s.raised (s.d.advance 9) .malformedBlock)) ∧
            (lzVal iii + cb ≤ 64 → rest.length < cb - 1 →
              exec i s = .next (s.raised (s.d.advance 9) .endOfStream)))) ∧
    ∀ i ∈ [.decVal, .x64Dec, .xNewl iii cccccc p],
      (s.Decoding .x64 false ([true, true] ++ rest) → rest.length < 9 →
          exec i s = .next (s.raised (s.d.advance 2) .endOfStream)) ∧
        (s.Decoding .x64 false ([true, true] ++ natBits iii.toNat 3 ++ natBits cccccc.toNat 6 ++ rest) →
          cb = (if cccccc.toNat = 0 then 64 else cccccc.toNat) →
          (64 < lzVal iii + cb → exec i s = .next (s.raised (s.d.advance 11) .malformedBlock)) ∧
            (lzVal iii + cb ≤ 64 → rest.length < cb - 1 →
              exec i s = .next (s.raised (s.d.advance 11) .endOfStream)))

/-! ## The erasure unit -/

/-- The exact-arithmetic helpers are the functions of `43_erasure.md` R152, and `DSCALE(alpha)` is the least `k`
with `2^k >= 10^alpha` (R155); `num / den` is the rational a numerator and a denominator stand for. -/
def Obligations.ExactHelpersMeetTheirDefinitions : Prop :=
  (∀ p : Word, classOf p = .normal →
      0 < (absRatio p).den ∧
      ((absRatio p).num / (absRatio p).den : ℚ) =
        ((2 ^ 52 + p.toNat % 2 ^ 52 : ℕ) : ℚ) * (2 : ℚ) ^ (((p.toNat / 2 ^ 52 % 2 ^ 11 : ℕ) : ℤ) - 1075)) ∧
    (∀ alpha : Nat, 10 ^ alpha ≤ 2 ^ dscale alpha ∧ ∀ k, 10 ^ alpha ≤ 2 ^ k → dscale alpha ≤ k) ∧
    (∀ p : Word, (magField p).toNat = p.toNat % 2 ^ 63 ∧ signField p = p &&& 0x8000000000000000) ∧
    (∀ q : Ratio, 0 < q.num → 0 < q.den →
      (10 : ℚ) ^ q.sp ≤ q.num / q.den ∧ (q.num / q.den : ℚ) < 10 ^ (q.sp + 1)) ∧
    (∀ q : Ratio, 0 < q.den →
      |(q.rne : ℚ) - q.num / q.den| ≤ 1 / 2 ∧
        (|(q.rne : ℚ) - q.num / q.den| = 1 / 2 → q.rne % 2 = 0) ∧
        (q.num / q.den : ℚ) ≤ q.ceil ∧ (q.ceil : ℚ) < q.num / q.den + 1) ∧
    (∀ n : Nat, 1 ≤ n →
      10 ^ (digits n - 1) ≤ n ∧ n < 10 ^ digits n ∧ (isPow10 n = true ↔ ∃ k, n = 10 ^ k)) ∧
    (∀ q : Ratio, 0 < q.den →
      (q.num = 0 → q.toF64 = 0) ∧
        (0 < q.num → ∃ (e l : ℤ) (m : Nat),
          (2 : ℚ) ^ l ≤ q.num / q.den ∧ (q.num / q.den : ℚ) < 2 ^ (l + 1) ∧ e = max l (-1022) ∧
          |(m : ℚ) - q.num / q.den * 2 ^ (52 - e)| ≤ 1 / 2 ∧
          (|(m : ℚ) - q.num / q.den * 2 ^ (52 - e)| = 1 / 2 → m % 2 = 0) ∧
          (m = 2 ^ 53 → (1023 < e + 1 → q.toF64 = 0x7FF0000000000000) ∧
            (e + 1 ≤ 1023 → (q.toF64.toNat : ℤ) = (e + 1 + 1022) * 2 ^ 52 + 2 ^ 52)) ∧
          (m ≠ 2 ^ 53 → (1023 < e → q.toF64 = 0x7FF0000000000000) ∧
            (e ≤ 1023 → (q.toF64.toNat : ℤ) = (e + 1022) * 2 ^ 52 + m))))

/-- `Profile` (`43_erasure.md` R153, R154, R168): `alpha` is the least number of places `i`, at most
`max(0, 16 - SP(a))`, whose decimal `RNE(a * 10^i) / 10^i` is not 0 and rounds to the value; `betaStar` is 0 for
a power of ten, else the digit count, at most 17; with no such `i` the profile is `(imax, 17)`. -/
def Obligations.ProfileIsTheLeastDecimal : Prop :=
  ∀ (p : Word) (imax : Nat) (n : Nat → Nat), classOf p = .normal →
    (imax : ℤ) = max 0 (16 - (absRatio p).sp) →
    (∀ i, n i = Ratio.rne ⟨(absRatio p).num * 10 ^ i, (absRatio p).den⟩) →
    (∀ i ≤ imax, (1 ≤ n i ∧ Ratio.toF64 ⟨n i, 10 ^ i⟩ = magField p) →
      (∀ j < i, ¬ (1 ≤ n j ∧ Ratio.toF64 ⟨n j, 10 ^ j⟩ = magField p)) →
      (profile p).1 = i ∧ (profile p).2 = if isPow10 (n i) then 0 else min (digits (n i)) 17) ∧
    ((∀ i ≤ imax, ¬ (1 ≤ n i ∧ Ratio.toF64 ⟨n i, 10 ^ i⟩ = magField p)) → profile p = (imax, 17))

/-- Erasure correctness (`43_erasure.md` R167): every NORMAL pattern the unit erases is recovered bit for bit from
its erased pattern and its betaStar, and the erased pattern is NORMAL. -/
def Obligations.ErasedValuesAreRecovered : Prop :=
  ∀ (p : Word) (eb : ℤ), classOf p = .normal → ErasureTaken p eb →
    classOf (p &&& ~~~ BitVec.ofNat 64 (2 ^ eb.toNat - 1)) = .normal ∧
      recover (p &&& ~~~ BitVec.ofNat 64 (2 ^ eb.toNat - 1)) (BitVec.ofNat 4 (profile p).2) = p

/-- `ERA.ENC` of a value that is not erased (`43_erasure.md` R151, R158): control `10`, then the X64 record of the
pattern, of the sentinel for a NaN; `lastBetaStar` stays. Control and record that do not fit under `SINK_CAP` are
refused whole, with Overflow (`45_block_and_system.md` R211). -/
def Obligations.PlainValuesGoUnderControlTen : Prop :=
  ∀ (s : State) (p q : Word) (i : Instr), i ∈ [.encVal p, .eraEnc p] →
    s.e.codec = .era → s.e.bs.AccInv → (classOf p = .normal → ∀ eb, ¬ ErasureTaken p eb) →
    q = (if classOf p = .nan then Config.sentinel else p) →
    (s.Room (2 + s.e.x.putLength q) →
      ∃ k t, k.Extends s.e.bs [true, false] ∧ s.HandsOn k s.e.r q t ∧ exec i s = .next t) ∧
    (s.NoRoom (2 + s.e.x.putLength q) → exec i s = .next s.encOvf)

/-- `ERA.ENC` of a value that is erased (`43_erasure.md` R157, R158): control `0` when its betaStar is the last one
announced in the block, else `11` and the betaStar, which is the last one from then on; then the X64 record of the
pattern with its low `eraseBits` bits zero. Control and record that do not fit under `SINK_CAP` are refused whole,
with Overflow (`45_block_and_system.md` R211). -/
def Obligations.ErasedValuesAnnounceTheirDigits : Prop :=
  ∀ (s : State) (p q : Word) (eb : ℤ) (n : Nat) (i : Instr), i ∈ [.encVal p, .eraEnc p] →
    s.e.codec = .era → s.e.bs.AccInv → classOf p = .normal → ErasureTaken p eb →
    q = p &&& ~~~ BitVec.ofNat 64 (2 ^ eb.toNat - 1) →
    n = (if s.e.r.lbsv = true ∧ (profile p).2 = s.e.r.lbs.toNat then 1 else 6) + s.e.x.putLength q →
    (s.Room n → ∃ k r t,
      (s.e.r.lbsv = true ∧ (profile p).2 = s.e.r.lbs.toNat → r = s.e.r ∧ k.Extends s.e.bs [false]) ∧
      (¬ (s.e.r.lbsv = true ∧ (profile p).2 = s.e.r.lbs.toNat) →
        r.lbsv = true ∧ r.lbs.toNat = (profile p).2 ∧
          k.Extends s.e.bs ([true, true] ++ natBits (profile p).2 4)) ∧
      s.HandsOn k r q t ∧ exec i s = .next t) ∧
    (s.NoRoom n → exec i s = .next s.encOvf)

/-- `ERA.CLOSE` (`43_erasure.md` R159): control `10`, then the close of the X64 engine; a close that does not fit
under `SINK_CAP` is refused whole, with Overflow (`45_block_and_system.md` R211). -/
def Obligations.ErasureCloseEndsTheBlock : Prop :=
  ∀ (s : State) (i : Instr), i ∈ [.encClose, .eraClose] →
    s.e.codec = .era → s.e.bs.AccInv →
    (s.Room (2 + s.e.x.putLength Config.sentinel + 1) →
      ∃ k u, k.Extends s.e.bs [true, false] ∧
        exec .encClose { s with e := { s.e with bs := k, codec := .x64 } } = .next u ∧ u.resp = some .ok ∧
        exec i s = .next { u with e := { u.e with codec := .era } }) ∧
    (s.NoRoom (2 + s.e.x.putLength Config.sentinel + 1) → exec i s = .next s.encOvf)

/-- The ERA prefixes decoded (`43_erasure.md` R161 to R166): the X64 record after the prefix is decoded as in an
X64 block. Under `E.PLAIN` its answer is the answer. Under `E.SAMEB` and `E.NEWB` a pattern `v` it gives is answered
as `Recover(v, lastBetaStar)` when NORMAL, else it is malformed (cause 5 of `60_exceptions.md` R233); an end of
block or a fault of the record stays what it is. `E.NEWB` announces its betaStar before the record is read. -/
def Obligations.ErasurePrefixesAreDecoded : Prop :=
  ∀ (s : State) (first : Bool) (bbbb : BitVec 4) (r : EraRegs) (pre rest : List Bool) (i : Instr),
    (first = true → rest ≠ []) → s.Decoding .era first (pre ++ rest) →
    (i ∈ [.decVal, .eraDec, .ePlain] → pre = [true, false] →
      ∃ u, exec .decVal { s with d := { s.d.advance 2 with codec := .x64 } } = .next u ∧
        exec i s = .next { u with d := { u.d with codec := .era } }) ∧
    (i ∈ [.decVal, .eraDec, .eSameb] ∧ pre = [false] ∧ s.d.r.lbsv = true ∧ r = s.d.r ∨
      i ∈ [.decVal, .eraDec, .eNewb bbbb] ∧ pre = [true, true] ++ natBits bbbb.toNat 4 ∧ r = ⟨true, bbbb⟩ →
      ∃ u, exec .decVal { s with d := { s.d.advance pre.length with codec := .x64, r := r } } = .next u ∧
        ((∀ v, u.resp ≠ some (.val v)) → exec i s = .next { u with d := { u.d with codec := .era } }) ∧
        ∀ v, u.resp = some (.val v) →
          (classOf v = .normal →
            exec i s = .next { u with
              d := { u.d with codec := .era }
              resp := some (.val (recover v r.lbs)) }) ∧
          (classOf v ≠ .normal →
            exec i s = .next (u.raised { u.d with codec := .era } .malformedBlock)))

/-- What makes an ERA prefix fault, and the state the fault leaves (`43_erasure.md` R161 to R163;
`60_exceptions.md` R238, R239; cause 4 of R233): a prefix cut short, control `0` with no betaStar announced, and
a prefix with no bit after it at the first record, where `E.NEWB` has written its registers. -/
def Obligations.ErasurePrefixesFault : Prop :=
  ∀ (s : State) (first : Bool) (bbbb : BitVec 4) (rest : List Bool),
    (∀ i ∈ [.decVal, .eraDec, .eSameb, .ePlain, .eNewb bbbb], s.Decoding .era first [] →
      exec i s = .next (s.raised s.d .endOfStream)) ∧
    (∀ i ∈ [.decVal, .eraDec, .eSameb], s.Decoding .era first ([false] ++ rest) →
      (s.d.r.lbsv = false → exec i s = .next (s.raised (s.d.advance 1) .malformedBlock)) ∧
        (s.d.r.lbsv = true → first = true → rest = [] →
          exec i s = .next (s.raised (s.d.advance 1) .endOfStream))) ∧
    (∀ i ∈ [.decVal, .eraDec, .ePlain, .eNewb bbbb], s.Decoding .era first [true] →
      exec i s = .next (s.raised (s.d.advance 1) .endOfStream)) ∧
    (∀ i ∈ [.decVal, .eraDec, .ePlain], s.Decoding .era true [true, false] →
      exec i s = .next (s.raised (s.d.advance 2) .endOfStream)) ∧
    ∀ i ∈ [.decVal, .eraDec, .eNewb bbbb],
      (s.Decoding .era first ([true, true] ++ rest) → rest.length < 4 →
          exec i s = .next (s.raised (s.d.advance 2) .endOfStream)) ∧
        (s.Decoding .era true ([true, true] ++ natBits bbbb.toNat 4) →
          exec i s = .next (s.raised { s.d.advance 6 with r := ⟨true, bbbb⟩ } .endOfStream))

/-! ## The history-indexed encoder -/

/-- `C.FIRST` (`44_chimp.md` R182): the first value of a block is sent as its 64 bits and seeds ring slot 0 and the
table entry of its key; the announced count stays. A record that does not fit under `SINK_CAP` is refused whole,
with Overflow (`45_block_and_system.md` R211). -/
def Obligations.HistoryFirstValueIsEmitted : Prop :=
  ∀ (s : State) (v : Word) (i : Instr), i ∈ [.encVal v, .chpEnc v] →
    s.e.codec = .chp → s.e.c.first = true → s.MemoryInv → s.e.bs.AccInv →
    (s.Room 64 →
      ∃ k c, k.Extends s.e.bs (natBits v.toNat 64) ∧ s.e.c.Stored c 0 v ∧ c.slz = s.e.c.slz ∧
        exec i s = .next { s with
          e := { s.e with bs := k, c := c, status := s.e.status.saw v }
          resp := some .ok }) ∧
    (s.NoRoom 64 → exec i s = .next s.encOvf)

/-- `C.COPY` and `C.HIST` (`44_chimp.md` R183, R185, R186, R189). A value equal to its reference is sent as `00`
and the slot number. A value that differs from an accepted history match is sent as `01`, the slot number, the
leading-count index, the width `sig = 64 - lz - tz` and the bits `xor[63-lz:tz]`. In both the announced count
becomes 65 and the history takes the value. A record that does not fit under `SINK_CAP` is refused whole, with
Overflow (`45_block_and_system.md` R211). -/
def Obligations.HistoryMatchesAreEmitted : Prop :=
  ∀ (s : State) (v xor : Word) (hist : Bool) (ref lz tz n : Nat) (i : Instr), i ∈ [.encVal v, .chpEnc v] →
    s.ChpSteady → s.e.c.Selects v hist ref xor → lz = lzRound (clz xor) → tz = ctz xor →
    xor = 0 ∨ hist = true →
    n = (if xor = 0 then s.e.c.log2w.toNat + 2 else s.e.c.log2w.toNat + 11 + (64 - lz - tz)) →
    (s.Room n →
      ∃ k c, k.Extends s.e.bs
          (if xor = 0 then [false, false] ++ natBits ref s.e.c.log2w.toNat
            else [false, true] ++ natBits ref s.e.c.log2w.toNat ++ natBits (lzIdx lz).toNat 3 ++
              natBits (64 - lz - tz) 6 ++ bitSlice xor (63 - lz) tz) ∧
        s.e.c.Stored c (s.e.c.index + 1) v ∧ c.slz = 65 ∧
        exec i s = .next { s with
          e := { s.e with bs := k, c := c, status := s.e.status.saw v }
          resp := some .ok }) ∧
    (s.NoRoom n → exec i s = .next s.encOvf)

/-- `C.PREV` and `C.PREVN` (`44_chimp.md` R183, R187 to R189): with the previous value as reference and a XOR that
is not 0, the record is `10` when the rounded leading count is the announced one, else `11` and the count's index,
which is announced; then `xor[63-lz:0]`. A record that does not fit under `SINK_CAP` is refused whole, with
Overflow (`45_block_and_system.md` R211). -/
def Obligations.HistoryPreviousIsEmitted : Prop :=
  ∀ (s : State) (v xor : Word) (ref lz n : Nat) (i : Instr), i ∈ [.encVal v, .chpEnc v] →
    s.ChpSteady → s.e.c.Selects v false ref xor → xor ≠ 0 → lz = lzRound (clz xor) →
    n = (if lz = s.e.c.slz.toNat then 2 else 5) + (64 - lz) →
    (s.Room n →
      ∃ k c, k.Extends s.e.bs
          ((if lz = s.e.c.slz.toNat then [true, false] else [true, true] ++ natBits (lzIdx lz).toNat 3) ++
            bitSlice xor (63 - lz) 0) ∧
        s.e.c.Stored c (s.e.c.index + 1) v ∧ c.slz.toNat = lz ∧
        exec i s = .next { s with
          e := { s.e with bs := k, c := c, status := s.e.status.saw v }
          resp := some .ok }) ∧
    (s.NoRoom n → exec i s = .next s.encOvf)

/-- `CHP.CLOSE` (`44_chimp.md` R190): the sentinel as the next value, then padding and the seal, with no extra bit;
the close itself does not set `SENT`. A close whose record does not fit under `SINK_CAP` is refused whole, with
Overflow (`45_block_and_system.md` R211). -/
def Obligations.HistoryCloseEndsTheBlock : Prop :=
  ∀ (s : State) (n : Nat) (i : Instr), i ∈ [.encClose, .chpClose] →
    s.e.codec = .chp → s.e.c.log2w.toNat ≤ 53 → s.e.bs.AccInv →
    (s.e.c.first = false → ∀ b ∈ s.impl.idxBits, s.e.c.index ≠ 2 ^ b - 1) →
    s.e.c.PutLength Config.sentinel n →
    (s.Room n →
      ∃ u k, exec (.encVal Config.sentinel) s = .next u ∧ u.resp = some .ok ∧
        k.Sealed (u.e.bs.bits ++ padding u.e.bs.bitLen) ∧
        exec i s = .next { u with e := { u.e with bs := k, status := s.e.status }, resp := some .ok }) ∧
    (s.NoRoom n → exec i s = .next s.encOvf)

/-! ## The history-indexed decoder -/

/-- `C.FIRST` decoded (`44_chimp.md` R195): 64 bits; the sentinel ends an empty block, any other pattern is the
value at position 0. -/
def Obligations.HistoryFirstValueIsDecoded : Prop :=
  ∀ (s : State) (p : Word) (rest : List Bool) (i : Instr), i ∈ [.decVal, .chpDec, .cFirst p] →
    s.Decoding .chp true (natBits p.toNat 64 ++ rest) → Memory.wf 0 s.d.c.ring = true →
    (p = Config.sentinel →
      exec i s = .next { s with
        d := { s.d.advance 64 with phase := .done, c := { s.d.c with first := false } }
        resp := some .endOfBlock }) ∧
    (p ≠ Config.sentinel →
      ∃ c, s.d.c.Stored c 0 p ∧ c.slz = s.d.c.slz ∧
        exec i s = .next { s with d := { s.d.advance 64 with c := c }, resp := some (.val p) })

/-- `C.COPY` and `C.HIST` decoded (`44_chimp.md` R196, R198, R201): the pattern in the named live slot, for
`C.HIST` with `sig` bits `p` XORed in above `tz = 64 - lz - sig`; the announced count becomes 65. The sentinel ends
the block also where the position counter cannot count. -/
def Obligations.HistoryMatchIsDecoded : Prop :=
  ∀ (s : State) (i : Instr) (n : Nat) (v : Word), s.MatchRecord i n v → Memory.wf 0 s.d.c.ring = true →
    (v ≠ Config.sentinel → ∀ b ∈ s.impl.idxBits, s.d.c.index ≠ 2 ^ b - 1) →
    ∃ t, s.ChpAnswers n 65 v t ∧ exec i s = .next t

/-- `C.PREV` and `C.PREVN` decoded (`44_chimp.md` R199 to R201): the previous pattern with `64 - slz` bits XORed
in, the count being the announced one or the one the record announces. The sentinel ends the block also where the
position counter cannot count. -/
def Obligations.HistoryPreviousIsDecoded : Prop :=
  ∀ (s : State) (i : Instr) (n : Nat) (slz : BitVec 7) (v : Word), s.PrevRecord i n slz v →
    Memory.wf 0 s.d.c.ring = true →
    (v ≠ Config.sentinel → ∀ b ∈ s.impl.idxBits, s.d.c.index ≠ 2 ^ b - 1) →
    ∃ t, s.ChpAnswers n slz v t ∧ exec i s = .next t

/-- What makes a CHP record fault, and the state the fault leaves (`44_chimp.md` R196 to R201;
`60_exceptions.md` R238, R239, R248; causes 6 to 9 of R233): a header cut short, a slot that is not live, a width of
0 or beyond the pattern, no announced count, a payload cut short, after which `C.PREVN` keeps its count; and, where
the position counter cannot count, a whole record whose pattern is not the sentinel, with Overflow. -/
def Obligations.HistoryRecordsFault : Prop :=
  ∀ (s : State) (r : Word) (iii : BitVec 3) (ssssss : BitVec 6) (p : Word) (rest : List Bool),
    (∀ i ∈ [.decVal, .chpDec, .cFirst p], s.Decoding .chp true rest → rest.length < 64 →
      exec i s = .next (s.raised s.d .endOfStream)) ∧
    (∀ i ∈ [.decVal, .chpDec, .cCopy r, .cHist r iii ssssss p, .cPrev p, .cPrevn iii p],
      s.Decoding .chp false rest → rest.length < 2 → exec i s = .next (s.raised s.d .endOfStream)) ∧
    (∀ i ∈ [.decVal, .chpDec, .cCopy r],
      (s.Decoding .chp false ([false, false] ++ rest) → rest.length < s.d.c.log2w.toNat →
          exec i s = .next (s.raised (s.d.advance 2) .endOfStream)) ∧
        (s.Decoding .chp false ([false, false] ++ natBits r.toNat s.d.c.log2w.toNat ++ rest) →
          r.toNat < 2 ^ s.d.c.log2w.toNat → s.d.c.index < r.toNat →
          exec i s = .next (s.raised (s.d.advance (2 + s.d.c.log2w.toNat)) .malformedBlock))) ∧
    (∀ i ∈ [.decVal, .chpDec, .cHist r iii ssssss p],
      (s.Decoding .chp false ([false, true] ++ rest) → rest.length < s.d.c.log2w.toNat + 9 →
          exec i s = .next (s.raised (s.d.advance 2) .endOfStream)) ∧
        (s.Decoding .chp false ([false, true] ++ natBits r.toNat s.d.c.log2w.toNat ++ natBits iii.toNat 3 ++
            natBits ssssss.toNat 6 ++ rest) →
          r.toNat < 2 ^ s.d.c.log2w.toNat →
          (s.d.c.index < r.toNat ∨ ssssss.toNat = 0 ∨ 64 < lzVal iii + ssssss.toNat →
              exec i s = .next (s.raised (s.d.advance (11 + s.d.c.log2w.toNat)) .malformedBlock)) ∧
            (r.toNat ≤ s.d.c.index → lzVal iii + ssssss.toNat ≤ 64 → rest.length < ssssss.toNat →
              exec i s = .next (s.raised (s.d.advance (11 + s.d.c.log2w.toNat)) .endOfStream)))) ∧
    (∀ i ∈ [.decVal, .chpDec, .cPrev p], s.Decoding .chp false ([true, false] ++ rest) →
      (s.d.c.slz = 65 → exec i s = .next (s.raised (s.d.advance 2) .malformedBlock)) ∧
        (s.d.c.slz ≠ 65 → rest.length < 64 - s.d.c.slz.toNat →
          exec i s = .next (s.raised (s.d.advance 2) .endOfStream))) ∧
    (∀ (i : Instr) (n : Nat) (slz : BitVec 7) (v : Word),
      s.MatchRecord i n v ∧ slz = 65 ∨ s.PrevRecord i n slz v → v ≠ Config.sentinel →
      (∃ b ∈ s.impl.idxBits, s.d.c.index = 2 ^ b - 1) →
      exec i s = .next (s.raised { s.d.advance n with c := { s.d.c with slz := slz } } .overflow)) ∧
    ∀ i ∈ [.decVal, .chpDec, .cPrevn iii p],
      (s.Decoding .chp false ([true, true] ++ rest) → rest.length < 3 →
          exec i s = .next (s.raised (s.d.advance 2) .endOfStream)) ∧
        (s.Decoding .chp false ([true, true] ++ natBits iii.toNat 3 ++ rest) → rest.length < 64 - lzVal iii →
          ∃ slz, slz.toNat = lzVal iii ∧
            exec i s = .next (s.raised { s.d.advance 5 with c := { s.d.c with slz := slz } } .endOfStream))

/-! ## Whole blocks -/

/-- `COMPRESS` is its expansion (`45_block_and_system.md` R217): with RAW it is refused; where every command of
`ENC.OPEN`, the `ENC.VAL`s, `ENC.CLOSE` and `BYTES` is accepted it leaves what they leave and answers their bytes;
where one is refused it answers `Err(Overflow)` and leaves the half as `ENC.OPEN` does, with `OVF`. -/
def Obligations.CompressIsItsExpansion : Prop :=
  ∀ (s : State) (k : Codec) (data : List Word), s.ParamInv →
    (k = .raw → exec (.compress k data) s = .next s.encCv) ∧
    (k ≠ .raw → ∃ rs t,
      issue (.encOpen k :: (data.map .encVal ++ [.encClose, .bytes])) s = some (rs, t) ∧
        ((∀ r ∈ rs, ∀ c, r ≠ some (.err c)) →
          exec (.compress k data) s = .next t ∧ t.resp = some (.bytes t.e.bs.buf)) ∧
        ((∃ r ∈ rs, ∃ c, r = some (.err c)) →
          ∃ u, exec (.encOpen k) s = .next u ∧ exec (.compress k data) s = .next u.encOvf) ∧
        (s.impl.sinkCap = none → s.impl.idxBits = none → ∀ r ∈ rs, ∀ c, r ≠ some (.err c)))

/-- `DECOMPRESS` is its expansion (`45_block_and_system.md` R218): refused with RAW, and when the bytes pass
`SRC_CAP`; else `LOAD`, `DEC.OPEN` and `DEC.VAL`s until `End` or an error, which come; it answers the values, or
the error and no values. -/
def Obligations.DecompressIsItsExpansion : Prop :=
  ∀ (s : State) (k : Codec) (data : List Byte),
    (k = .raw → exec (.decompress k data) s = .next s.decCv) ∧
    (k ≠ .raw → (∃ cap ∈ s.impl.srcCap, cap < data.length) →
      exec (.decompress k data) s = .next { s with resp := some (.err .overflow) }) ∧
    (k ≠ .raw → (∀ cap ∈ s.impl.srcCap, data.length ≤ cap) →
      ∃ (vs : List Word) (last : Response) (t : State),
        issue (.load data :: .decOpen k :: List.replicate (vs.length + 1) .decVal) s =
            some (some .ok :: some .ok :: (vs.map fun v => some (.val v)) ++ [some last], t) ∧
          (last = .endOfBlock ∧ exec (.decompress k data) s = .next { t with resp := some (.vals vs) } ∨
            ∃ c, last = .err c ∧ exec (.decompress k data) s = .next { t with resp := some (.err c) }))

/-- The round trip of X64 (`42_xor64.md` R139): a block of values none of which is the sentinel decodes to
those values, on any machine whose source takes the bytes. -/
def Obligations.XorBlocksRoundTrip : Prop :=
  ∀ (s t s' : State) (vs : List Word) (d : List Byte), Config.sentinel ∉ vs →
    exec (.compress .x64 vs) s = .next t → t.resp = some (.bytes d) → (∀ cap ∈ s'.impl.srcCap, d.length ≤ cap) →
    ∃ u, exec (.decompress .x64 d) s' = .next u ∧ u.resp = some (.vals vs)

/-- The round trip of ERA (`43_erasure.md` R169): a block of values none of which is a NaN decodes to those
values, on any machine whose source takes the bytes. -/
def Obligations.ErasureBlocksRoundTrip : Prop :=
  ∀ (s t s' : State) (vs : List Word) (d : List Byte), (∀ v ∈ vs, classOf v ≠ .nan) →
    exec (.compress .era vs) s = .next t → t.resp = some (.bytes d) → (∀ cap ∈ s'.impl.srcCap, d.length ≤ cap) →
    ∃ u, exec (.decompress .era d) s' = .next u ∧ u.resp = some (.vals vs)

/-- The round trip of CHP (`44_chimp.md` R203): with the same window on both sides, a block of values none of
which is the sentinel decodes to those values, on any machine whose source takes the bytes and whose position
counter counts the values. -/
def Obligations.HistoryBlocksRoundTrip : Prop :=
  ∀ (s t s' : State) (vs : List Word) (d : List Byte), Config.sentinel ∉ vs →
    s.ParamInv → s.MemoryInv → s'.MemoryInv → s'.cfgLog2w = s.cfgLog2w →
    exec (.compress .chp vs) s = .next t → t.resp = some (.bytes d) →
    (∀ cap ∈ s'.impl.srcCap, d.length ≤ cap) → (∀ b ∈ s'.impl.idxBits, vs.length ≤ 2 ^ b) →
    ∃ u, exec (.decompress .chp d) s' = .next u ∧ u.resp = some (.vals vs)

/-- Blocks are independent (`70_reset_and_hazards.md` R270): what a whole-block command answers depends on its
operands, the configured window and the implementation alone; no register, no ring slot and no table entry an
earlier block left, nor any the reset leaves unspecified (`10_state.md` R38), shows in it. -/
def Obligations.BlocksAreIndependent : Prop :=
  ∀ (s s' t t' : State) (i : Instr), s.MemoryInv → s'.MemoryInv →
    s.impl = s'.impl → s.cfgLog2w = s'.cfgLog2w →
    (∃ k vs, i = .compress k vs) ∨ (∃ k data, i = .decompress k data) →
    exec i s = .next t → exec i s' = .next t' → t.resp = t'.resp

/-! ## Whole-machine rules -/

/-- No register of one half is read or written by an instruction of the other half (`10_state.md` R20): whatever
the other half holds, it stays and the result is the same. -/
def Obligations.HalvesAreIndependent : Prop :=
  ∀ (i : Instr) (s t : State), exec i s = .next t →
    (i.isEncode = true → t.d = s.d ∧ t.cfgLog2w = s.cfgLog2w ∧
      ∀ d, exec i { s with d := d } = .next { t with d := d }) ∧
    (i.isDecode = true → t.e = s.e ∧ t.cfgLog2w = s.cfgLog2w ∧
      ∀ e, exec i { s with e := e } = .next { t with e := e })

/-- FAULT is left only by `DEC.OPEN`, `LOAD`, `RESET`, and `DECOMPRESS`, which is a `LOAD` and a `DEC.OPEN`
(`60_exceptions.md` R240); in it no other command changes the sticky error code (R241). -/
def Obligations.FaultIsLeftOnlyByAFreshStart : Prop :=
  ∀ (s t : State), s.d.phase = .fault → step s = .next t →
    (∃ w rest, s.port = w :: rest ∧ (decodeCommand w = .ok .reset ∨
      (∃ k, decodeCommand w = .ok (.decOpen k)) ∨ (∃ data, decodeCommand w = .ok (.load data)) ∨
      ∃ k data, decodeCommand w = .ok (.decompress k data))) ∨
    t.d.phase = .fault ∧ t.d.err = s.d.err ∧ t.d.bs.buf = s.d.bs.buf

/-- The sticky flags are cleared only by the OPEN command of their half, by the whole-block commands, which open,
and by `RESET` (`60_exceptions.md` R237, `10_state.md` R27). -/
def Obligations.StickyFlagsStay : Prop :=
  ∀ (i : Instr) (s t : State), exec i s = .next t → i ≠ .reset →
    ((∀ k, i ≠ .encOpen k) → (∀ k vs, i ≠ .compress k vs) →
      (s.e.status.cv = true → t.e.status.cv = true) ∧ (s.e.status.sent = true → t.e.status.sent = true) ∧
        (s.e.status.ovf = true → t.e.status.ovf = true)) ∧
    ((∀ k, i ≠ .decOpen k) → (∀ k data, i ≠ .decompress k data) → s.d.cv = true → t.d.cv = true)

/-! ## Invariants -/

/-- The machine after power-on meets every invariant. -/
def Obligations.ResetMeetsEveryInvariant : Prop :=
  State.reset.ParamInv ∧ State.reset.SinkInv ∧ State.reset.CursorInv ∧ State.reset.WindowInv ∧
    State.reset.ChpWindowInv ∧ State.reset.PhaseInv ∧ State.reset.MemoryInv ∧ State.reset.e.c.HistoryInv

/-- Every step keeps the window parameters in range, the cursor inside its source, the error code at 0 outside
FAULT (`10_state.md` R28, R30, R36), and the sink's invariant: the unfilled bits of the partial byte are 0, a
sealed sink ends on a byte boundary, the capacity is not passed (R22). -/
def Obligations.StepKeepsControlCursorAndSink : Prop :=
  ∀ s t : State, s.ParamInv ∧ s.CursorInv ∧ s.PhaseInv ∧ s.SinkInv → step s = .next t →
    t.ParamInv ∧ t.CursorInv ∧ t.PhaseInv ∧ t.SinkInv

/-- Every step keeps the announced windows canonical: in X64 a member of `LZSET` with at least one bit between
the counts (`10_state.md` R24, `42_xor64.md` R128), in CHP 65 or a member of `LZSET` (`44_chimp.md` R191). -/
def Obligations.StepKeepsTheWindows : Prop :=
  ∀ s t : State, s.WindowInv ∧ s.ChpWindowInv → step s = .next t → t.WindowInv ∧ t.ChpWindowInv

/-- Every step keeps the rings and the table canonical, and the encoder's history true: a valid table entry in
the window names a slot that holds a pattern of the entry's key (`10_state.md` R26, `44_chimp.md` R184). -/
def Obligations.StepKeepsTheHistory : Prop :=
  ∀ s t : State, s.MemoryInv ∧ s.e.c.HistoryInv → step s = .next t → t.MemoryInv ∧ t.e.c.HistoryInv

/-! ## Encodings -/

/-- Decoding reads back every encoding: for every instruction well formed in a context, each operand at every
value its field admits; a record is read back whatever bits follow it, and is as long as `30_encoding.md` R84
says. -/
def Obligations.DecodeReadsBackEveryEncoding : Prop :=
  ∀ (c : Context) (i : Instr), i.wellFormed c = true →
    (∀ w, encode c i = .command w → decode c (.command w) = .ok i) ∧
      ∀ bits, encode c i = .record bits →
        bits.length = recordLength c i ∧ ∀ rest, decode c (.record (bits ++ rest)) = .ok i
end

