-- ==== Sys2Proof/Laws/Bits.lean ====
section
/-! SUPPORT. Bit strings: lengths, the numerals they spell, how fields and bytes append. -/

namespace Sys2Proof.Machine

/-! ## The bits of a number -/

@[simp] theorem bitsOf_length {w : Nat} (v : BitVec w) (n : Nat) : (bitsOf v n).length = n := by
  induction n with
  | zero => rfl
  | succ n ih => simp [bitsOf, ih]

@[simp] theorem natBits_length (n w : Nat) : (natBits n w).length = w := by simp [natBits]

@[simp] theorem natBits_zero (n : Nat) : natBits n 0 = [] := rfl

theorem natBits_succ (n w : Nat) : natBits n (w + 1) = n.testBit w :: natBits n w := by
  unfold natBits
  rw [List.range_succ_eq_map, List.map_cons, List.map_map]
  simp only [Nat.add_sub_cancel, Nat.sub_zero, List.cons.injEq, true_and]
  apply List.map_congr_left
  intro k hk
  simp only [Function.comp_apply, Nat.succ_eq_add_one]
  congr 1
  omega

/-- A bit pattern's bits are its number's. -/
theorem bitsOf_eq_natBits {w : Nat} (v : BitVec w) (n : Nat) : bitsOf v n = natBits v.toNat n := by
  induction n with
  | zero => rfl
  | succ n ih => rw [bitsOf, natBits_succ, ih]; rfl

/-- Only the low bits of a number count. -/
theorem natBits_congr {a b w : Nat} (h : a % 2 ^ w = b % 2 ^ w) : natBits a w = natBits b w := by
  unfold natBits
  apply List.map_congr_left
  intro k hk
  have hk : k < w := List.mem_range.1 hk
  have ha := Nat.testBit_mod_two_pow a w (w - 1 - k)
  have hb := Nat.testBit_mod_two_pow b w (w - 1 - k)
  have hlt : w - 1 - k < w := by omega
  simp only [hlt, decide_true, Bool.true_and] at ha hb
  rw [← ha, ← hb, h]

/-- A field is the field of its high part followed by that of its low part. -/
theorem natBits_append (n a b : Nat) : natBits n (a + b) = natBits (n / 2 ^ b) a ++ natBits n b := by
  induction a with
  | zero => simp
  | succ a ih =>
    rw [Nat.add_right_comm, natBits_succ, ih, natBits_succ, List.cons_append]
    congr 1
    rw [Nat.testBit_div_two_pow]

/-- A field below its width has zeros above. -/
theorem natBits_of_lt {n w a : Nat} (h : n < 2 ^ w) : natBits n (a + w) = List.replicate a false ++ natBits n w := by
  rw [natBits_append, Nat.div_eq_of_lt h]
  congr 1
  unfold natBits
  apply List.ext_getElem <;> simp

/-- A slice of a pattern is the numeral of the shifted pattern. -/
theorem bitSlice_eq_natBits (v : Word) (hi lo : Nat) :
    bitSlice v hi lo = natBits (v.toNat / 2 ^ lo) (hi + 1 - lo) := by
  unfold bitSlice natBits
  apply List.map_congr_left
  intro k hk
  have hk : k < hi + 1 - lo := List.mem_range.1 hk
  rw [Nat.testBit_div_two_pow, show hi + 1 - lo - 1 - k + lo = hi - k by omega]
  rfl

@[simp] theorem bitSlice_length (v : Word) (hi lo : Nat) : (bitSlice v hi lo).length = hi + 1 - lo := by
  simp [bitSlice]

/-- The bits of a list of single-bit tests, as `WBITS` names them. -/
theorem map_getLsbD_eq_natBits (v : Word) (n : Nat) :
    ((List.range n).map fun j => v.getLsbD (n - 1 - j)) = natBits v.toNat n := rfl

/-! ## The number a bit string spells -/

theorem numeral_lt (n : Nat) (l : List Bool) : numeral n l < 2 ^ n := by
  induction n generalizing l with
  | zero => simp [numeral]
  | succ n ih =>
    cases l with
    | nil => simp [numeral]
    | cons b l =>
      have := ih l
      rw [numeral, Nat.pow_succ]
      split <;> omega

/-- The numeral of a field's own bits is the field. -/
theorem numeral_natBits_append (n w : Nat) (rest : List Bool) : numeral w (natBits n w ++ rest) = n % 2 ^ w := by
  induction w with
  | zero => simp [numeral, Nat.mod_one]
  | succ w ih =>
    rw [natBits_succ, List.cons_append, numeral, ih, Nat.mod_pow_succ, ← Nat.toNat_testBit, Nat.add_comm]
    cases n.testBit w <;> simp

theorem numeral_natBits (n w : Nat) : numeral w (natBits n w) = n % 2 ^ w := by
  simpa using numeral_natBits_append n w []

/-- A bit string of a field's length is the field of its numeral. -/
theorem natBits_numeral {n : Nat} {l : List Bool} (h : l.length = n) : natBits (numeral n l) n = l := by
  induction n generalizing l with
  | zero => simp [List.length_eq_zero_iff.1 h]
  | succ n ih =>
    match l, h with
    | b :: l, h =>
      have hl : l.length = n := by simpa using h
      have hlt := numeral_lt n l
      rw [natBits_succ, numeral]
      congr 1
      · cases b
        · simp only [Bool.false_eq_true, if_false, Nat.zero_add]
          exact Nat.testBit_lt_two_pow hlt
        · simp only [if_true]
          rw [Nat.testBit_two_pow_add_eq, Nat.testBit_lt_two_pow hlt]; rfl
      · rw [← ih hl]
        apply natBits_congr
        cases b <;> simp [ih hl]

theorem numeral_append_left {n : Nat} {l : List Bool} (h : n ≤ l.length) (rest : List Bool) :
    numeral n (l ++ rest) = numeral n l := by
  induction n generalizing l with
  | zero => simp [numeral]
  | succ n ih =>
    match l, h with
    | b :: l, h => rw [List.cons_append, numeral, numeral, ih (by simpa using h)]

theorem numeral_take (n : Nat) (l : List Bool) : numeral n (l.take n) = numeral n l := by
  induction n generalizing l with
  | zero => simp [numeral]
  | succ n ih =>
    cases l with
    | nil => rfl
    | cons b l => rw [List.take_succ_cons, numeral, numeral, ih]

/-! ## Fields -/

/-- A field whose bits stand at the head is read back. -/
theorem field_natBits_append {w n : Nat} (v : BitVec w) (h : v.toNat < 2 ^ n) (rest : List Bool) :
    field w n (natBits v.toNat n ++ rest) = v := by
  rw [field, numeral_natBits_append, Nat.mod_eq_of_lt h, BitVec.ofNat_toNat, BitVec.setWidth_eq]

/-- A field of a register's own width is read back. -/
theorem field_natBits_full {w : Nat} (v : BitVec w) (rest : List Bool) :
    field w w (natBits v.toNat w ++ rest) = v := field_natBits_append v v.isLt rest

theorem field_toNat {w n : Nat} (h : n ≤ w) (bits : List Bool) : (field w n bits).toNat = numeral n bits := by
  rw [field, BitVec.toNat_ofNat]
  exact Nat.mod_eq_of_lt ((numeral_lt n bits).trans_le (Nat.pow_le_pow_right (by omega) h))

/-! ## Bytes -/

@[simp] theorem bytesBits_length (l : List Byte) : (bytesBits l).length = 8 * l.length := by
  induction l with
  | nil => rfl
  | cons b l ih => simp [bytesBits, ih]; omega

@[simp] theorem bytesBits_append (l m : List Byte) : bytesBits (l ++ m) = bytesBits l ++ bytesBits m := by
  induction l with
  | nil => rfl
  | cons b l ih => simp [bytesBits, ih]

@[simp] theorem bytesBits_singleton (b : Byte) : bytesBits [b] = bitsOf b 8 := by simp [bytesBits]

/-- Bit number `a` of a byte sequence is bit `7 - a mod 8` of byte `a div 8` (`20_memory.md` R51). -/
theorem bytesBits_getElem? (l : List Byte) (a : Nat) (h : a < 8 * l.length) :
    (bytesBits l)[a]? = some (bitAt l a) := by
  induction l generalizing a with
  | nil => simp at h
  | cons b l ih =>
    rw [bytesBits]
    by_cases ha : a < 8
    · rw [List.getElem?_append_left (by simpa using ha)]
      unfold bitAt
      rw [Nat.div_eq_of_lt ha, Nat.mod_eq_of_lt ha]
      simp only [bitsOf, List.getD_cons_zero]
      interval_cases a <;> rfl
    · rw [List.getElem?_append_right (by simpa using ha), bitsOf_length, ih (a - 8) (by simp at h; omega)]
      unfold bitAt
      rw [show a / 8 = (a - 8) / 8 + 1 by omega, show a % 8 = (a - 8) % 8 by omega, List.getD_cons_succ]

/-- The unread bits of a source are as many as it has available. -/
@[simp] theorem BitSource.unread_length (k : BitSource) : k.unread.length = k.avail := by
  simp [BitSource.unread, BitSource.avail]

end Sys2Proof.Machine
end

