-- ==== Sys2Proof/Laws/Arith.lean ====
section
/-! SUPPORT. The arithmetic primitives: counts, the canonical leading-zero set, shifts as numbers. -/

namespace Sys2Proof.Machine

/-! ## Shifts -/

theorem shr_toNat (a : Word) (k : Nat) : (shr a k).toNat = a.toNat / 2 ^ k := by
  rw [shr, BitVec.toNat_ushiftRight, Nat.shiftRight_eq_div_pow]

theorem shl64_toNat (a : Word) (k : Nat) : (shl64 a k).toNat = a.toNat * 2 ^ k % 2 ^ 64 := by
  rw [shl64, BitVec.toNat_shiftLeft, Nat.shiftLeft_eq]

/-- `(p << 1) OR 1` is `2p + 1`. -/
theorem shl64_one_or_one_toNat (p : Word) (h : p.toNat < 2 ^ 63) : (shl64 p 1 ||| 1).toNat = 2 * p.toNat + 1 := by
  rw [BitVec.toNat_or, shl64_toNat, Nat.pow_one, Nat.mod_eq_of_lt (by omega), Nat.mul_comm]
  show 2 * p.toNat ||| 1 = _
  have := Nat.two_pow_add_eq_or_of_lt (i := 1) (b := 1) (by norm_num) p.toNat
  simpa using this.symm

/-! ## Counts -/

@[simp] theorem clz_zero : clz 0 = 64 := rfl

theorem clz_of_ne_zero {a : Word} (h : a ≠ 0) : clz a = 63 - Nat.log2 a.toNat := if_neg h

theorem toNat_ne_zero {a : Word} (h : a ≠ 0) : a.toNat ≠ 0 := fun e => h (BitVec.eq_of_toNat_eq e)

theorem log2_lt_64 {a : Word} (h : a ≠ 0) : Nat.log2 a.toNat < 64 :=
  (Nat.log2_lt (toNat_ne_zero h)).2 a.isLt

theorem clz_add_log2 {a : Word} (h : a ≠ 0) : clz a + Nat.log2 a.toNat = 63 := by
  have := log2_lt_64 h
  rw [clz_of_ne_zero h]; omega

theorem clz_le {a : Word} (h : a ≠ 0) : clz a ≤ 63 := by
  have := clz_add_log2 h; omega

theorem lt_two_pow_clz (a : Word) : a.toNat < 2 ^ (64 - clz a) := by
  by_cases h : a = 0
  · subst h; simp
  · have := clz_add_log2 h
    rw [show 64 - clz a = Nat.log2 a.toNat + 1 by omega]
    exact Nat.lt_log2_self

theorem ctzUpTo_le (fuel n : Nat) : ctzUpTo fuel n ≤ fuel := by
  induction fuel generalizing n with
  | zero => exact Nat.le_refl _
  | succ fuel ih =>
    rw [ctzUpTo]; split
    · omega
    · have := ih (n / 2); omega

theorem ctzUpTo_dvd (fuel n : Nat) : 2 ^ ctzUpTo fuel n ∣ n := by
  induction fuel generalizing n with
  | zero => simp [ctzUpTo]
  | succ fuel ih =>
    rw [ctzUpTo]; split
    · simp
    · obtain ⟨c, hc⟩ := ih (n / 2)
      exact ⟨c, by rw [Nat.pow_succ, Nat.mul_right_comm, ← hc]; omega⟩

theorem ctzUpTo_not_dvd (fuel n : Nat) (h0 : n ≠ 0) (h : n < 2 ^ fuel) : ¬ 2 ^ (ctzUpTo fuel n + 1) ∣ n := by
  induction fuel generalizing n with
  | zero => omega
  | succ fuel ih =>
    rw [ctzUpTo]; split
    · rw [Nat.zero_add, Nat.pow_one]; omega
    · intro ⟨c, hc⟩
      rw [Nat.pow_succ] at h
      refine ih (n / 2) (by omega) (by omega) ⟨c, ?_⟩
      rw [Nat.pow_succ, Nat.mul_right_comm] at hc
      omega

@[simp] theorem ctz_zero : ctz 0 = 64 := by decide

theorem ctz_dvd (a : Word) : 2 ^ ctz a ∣ a.toNat := ctzUpTo_dvd 64 a.toNat

theorem ctz_not_dvd {a : Word} (h : a ≠ 0) : ¬ 2 ^ (ctz a + 1) ∣ a.toNat :=
  ctzUpTo_not_dvd 64 a.toNat (toNat_ne_zero h) a.isLt

theorem ctz_le_64 (a : Word) : ctz a ≤ 64 := ctzUpTo_le 64 a.toNat

theorem clz_add_ctz {a : Word} (h : a ≠ 0) : clz a + ctz a ≤ 63 := by
  have hd := Nat.le_of_dvd (Nat.pos_of_ne_zero (toNat_ne_zero h)) (ctz_dvd a)
  have := (Nat.le_log2 (toNat_ne_zero h)).2 hd
  have := clz_add_log2 h
  omega

theorem ctz_lt_64 {a : Word} (h : a ≠ 0) : ctz a < 64 := by
  have := clz_add_ctz h; omega

theorem ctz_eq_64 {a : Word} (h : ctz a = 64) : a = 0 := by
  by_contra hne
  have := ctz_lt_64 hne
  omega

/-- The bit at the trailing-zero count is set: what is left out of a window is a 1 (`30_encoding.md` R76). -/
theorem ctz_odd {a : Word} (h : a ≠ 0) : a.toNat / 2 ^ ctz a % 2 = 1 := by
  obtain ⟨c, hc⟩ := ctz_dvd a
  have hn := ctz_not_dvd h
  rw [hc, Nat.mul_div_cancel_left _ (Nat.two_pow_pos _)]
  by_contra hc2
  refine hn ⟨c / 2, ?_⟩
  rw [Nat.pow_succ, Nat.mul_assoc, show 2 * (c / 2) = c by omega]
  exact hc

/-- A number is its window, with the implicit bit back in place (`30_encoding.md` R76). -/
theorem window_restored {a : Word} (h : a ≠ 0) :
    (2 * (a.toNat / 2 ^ (ctz a + 1)) + 1) * 2 ^ ctz a = a.toNat := by
  have ho := ctz_odd h
  have h2 : a.toNat / 2 ^ (ctz a + 1) = a.toNat / 2 ^ ctz a / 2 := by
    rw [Nat.pow_succ, Nat.div_div_eq_div_mul]
  rw [h2, show 2 * (a.toNat / 2 ^ ctz a / 2) + 1 = a.toNat / 2 ^ ctz a by omega]
  exact Nat.div_mul_cancel (ctz_dvd a)

/-! ## The canonical leading-zero set -/

theorem lzRound_le (n : Nat) : lzRound n ≤ n := by
  unfold lzRound
  repeat' split
  all_goals omega

theorem lzRound_mem (n : Nat) : lzRound n ∈ Config.lzSet := by
  unfold lzRound
  repeat' split
  all_goals decide

theorem lzRound_greatest {n z : Nat} (hz : z ∈ Config.lzSet) (h : z ≤ n) : z ≤ lzRound n := by
  have hz' : z = 0 ∨ z = 8 ∨ z = 12 ∨ z = 16 ∨ z = 18 ∨ z = 20 ∨ z = 22 ∨ z = 24 := by
    simpa [Config.lzSet] using hz
  unfold lzRound
  repeat' split
  all_goals omega

theorem le_24_of_mem_lzSet {z : Nat} (h : z ∈ Config.lzSet) : z ≤ 24 := by
  revert z; decide

theorem lzRound_le_24 (n : Nat) : lzRound n ≤ 24 := le_24_of_mem_lzSet (lzRound_mem n)

theorem lzVal_lzIdx {z : Nat} (h : z ∈ Config.lzSet) : lzVal (lzIdx z) = z := by
  revert z; decide

theorem lzIdx_lzVal (i : BitVec 3) : lzIdx (lzVal i) = i := by
  revert i; decide

theorem lzVal_mem (i : BitVec 3) : lzVal i ∈ Config.lzSet := by
  revert i; decide

theorem lzVal_le_24 (i : BitVec 3) : lzVal i ≤ 24 := le_24_of_mem_lzSet (lzVal_mem i)

/-- The rounded leading count and the trailing count of a pattern that is not 0 leave a bit between them. -/
theorem lzRound_clz_add_ctz {a : Word} (h : a ≠ 0) : lzRound (clz a) + ctz a ≤ 63 := by
  have := clz_add_ctz h
  have := lzRound_le (clz a)
  omega

/-- A pattern fits below its rounded leading count. -/
theorem lt_two_pow_lzRound (a : Word) : a.toNat < 2 ^ (64 - lzRound (clz a)) :=
  (lt_two_pow_clz a).trans_le (Nat.pow_le_pow_right (by omega) (by have := lzRound_le (clz a); omega))

end Sys2Proof.Machine
end

