-- ==== Sys2Proof/Laws/Memory.lean ====
section
/-! SUPPORT. The sparse store: its canonical form, read after write, and that a write keeps the form. -/

namespace Sys2Proof.Machine

variable {α : Type} [DecidableEq α]

omit [DecidableEq α] in
@[simp] theorem Memory.read_nil (dflt : α) (key : Nat) : Memory.read dflt [] key = dflt := rfl

@[simp] theorem Memory.wf_nil (dflt : α) : Memory.wf dflt [] = true := rfl

theorem Memory.wfFrom_cons {dflt : α} {lo k : Nat} {v : α} {m : Memory α} :
    Memory.wfFrom dflt lo ((k, v) :: m) = true ↔ lo ≤ k ∧ v ≠ dflt ∧ Memory.wfFrom dflt (k + 1) m = true := by
  simp [Memory.wfFrom, and_assoc]

theorem Memory.wfFrom_mono {dflt : α} {lo hi : Nat} {m : Memory α} (h : lo ≤ hi)
    (hm : Memory.wfFrom dflt hi m = true) : Memory.wfFrom dflt lo m = true := by
  cases m with
  | nil => rfl
  | cons e m =>
    obtain ⟨k, v⟩ := e
    rw [Memory.wfFrom_cons] at hm ⊢
    exact ⟨h.trans hm.1, hm.2⟩

/-- Below its lower bound a canonical store reads the default. -/
theorem Memory.read_of_lt {dflt : α} {lo key : Nat} {m : Memory α} (hm : Memory.wfFrom dflt lo m = true)
    (h : key < lo) : Memory.read dflt m key = dflt := by
  induction m generalizing lo with
  | nil => rfl
  | cons e m ih =>
    obtain ⟨k, v⟩ := e
    rw [Memory.wfFrom_cons] at hm
    rw [Memory.read, if_neg (by omega)]
    exact ih hm.2.2 (by omega)

theorem Memory.wfFrom_write {dflt : α} {lo key : Nat} {m : Memory α} (val : α)
    (hm : Memory.wfFrom dflt lo m = true) (h : lo ≤ key) :
    Memory.wfFrom dflt lo (Memory.write dflt m key val) = true := by
  induction m generalizing lo with
  | nil =>
    rw [Memory.write]
    split
    · rfl
    · exact Memory.wfFrom_cons.2 ⟨h, ‹_›, rfl⟩
  | cons e m ih =>
    obtain ⟨k, v⟩ := e
    obtain ⟨hk, hv, hm⟩ := Memory.wfFrom_cons.1 hm
    rw [Memory.write]
    split
    · split
      · exact Memory.wfFrom_cons.2 ⟨hk, hv, hm⟩
      · exact Memory.wfFrom_cons.2 ⟨h, ‹_›, Memory.wfFrom_cons.2 ⟨by omega, hv, hm⟩⟩
    · split
      · split
        · exact Memory.wfFrom_mono (by omega) hm
        · exact Memory.wfFrom_cons.2 ⟨h, ‹_›, Memory.wfFrom_mono (by omega) hm⟩
      · exact Memory.wfFrom_cons.2 ⟨hk, hv, ih hm (by omega)⟩

/-- A write keeps the canonical form. -/
theorem Memory.wf_write {dflt : α} {m : Memory α} (key : Nat) (val : α) (hm : Memory.wf dflt m = true) :
    Memory.wf dflt (Memory.write dflt m key val) = true := Memory.wfFrom_write val hm (Nat.zero_le _)

theorem Memory.read_write_from {dflt : α} {lo : Nat} {m : Memory α} (key : Nat) (val : α) (other : Nat)
    (hm : Memory.wfFrom dflt lo m = true) :
    Memory.read dflt (Memory.write dflt m key val) other = if other = key then val else Memory.read dflt m other := by
  induction m generalizing lo with
  | nil =>
    rw [Memory.write]
    split
    · split <;> simp_all
    · simp [Memory.read, eq_comm]
  | cons e m ih =>
    obtain ⟨k, v⟩ := e
    obtain ⟨hk, hv, hm⟩ := Memory.wfFrom_cons.1 hm
    rw [Memory.write]
    split
    · split
      · split
        · subst_vars
          rw [Memory.read, if_neg (by omega)]
          exact Memory.read_of_lt hm (by omega)
        · rfl
      · simp [Memory.read, eq_comm]
    · split
      · subst_vars
        split
        · split
          · subst_vars; exact Memory.read_of_lt hm (by omega)
          · rw [Memory.read, if_neg (fun e => by omega)]
        · rw [Memory.read, Memory.read]
          by_cases ho : other = k <;> simp [ho, eq_comm]
      · rw [Memory.read, Memory.read, ih hm]
        by_cases ho : k = other
        · subst ho; rw [if_pos rfl, if_pos rfl, if_neg (by omega)]
        · simp [ho]

/-- Read after write: the value written at its key, every other key as before. -/
theorem Memory.read_write {dflt : α} {m : Memory α} (key : Nat) (val : α) (other : Nat)
    (hm : Memory.wf dflt m = true) :
    Memory.read dflt (Memory.write dflt m key val) other = if other = key then val else Memory.read dflt m other :=
  Memory.read_write_from key val other hm

/-- Canonical stores that read alike everywhere are equal. -/
theorem Memory.eq_of_read {dflt : α} {lo : Nat} {m n : Memory α} (hm : Memory.wfFrom dflt lo m = true)
    (hn : Memory.wfFrom dflt lo n = true) (h : ∀ key, Memory.read dflt m key = Memory.read dflt n key) : m = n := by
  induction m generalizing lo n with
  | nil =>
    match n, hn with
    | [], _ => rfl
    | (k, v) :: n, hn =>
      have := h k
      rw [Memory.wfFrom_cons] at hn
      simp [Memory.read] at this
      exact absurd this.symm hn.2.1
  | cons e m ih =>
    obtain ⟨k, v⟩ := e
    obtain ⟨hk, hv, hm'⟩ := Memory.wfFrom_cons.1 hm
    match n, hn with
    | [], _ =>
      have := h k
      simp [Memory.read] at this
      exact absurd this hv
    | (k', v') :: n, hn =>
      obtain ⟨hk', hv', hn'⟩ := Memory.wfFrom_cons.1 hn
      have hkk : k = k' := by
        by_contra hne
        rcases Nat.lt_or_gt_of_ne hne with hlt | hlt
        · have := h k
          rw [Memory.read, if_pos rfl, Memory.read, if_neg (Ne.symm hne), Memory.read_of_lt hn' (by omega)] at this
          exact hv this
        · have := h k'
          rw [Memory.read, if_neg hne, Memory.read_of_lt hm' (by omega), Memory.read, if_pos rfl] at this
          exact hv' this.symm
      subst hkk
      have hvv : v = v' := by simpa [Memory.read] using h k
      subst hvv
      congr 1
      refine ih hm' hn' fun key => ?_
      by_cases hkey : k = key
      · rw [Memory.read_of_lt hm' (by omega), Memory.read_of_lt hn' (by omega)]
      · simpa [Memory.read, hkey] using h key

end Sys2Proof.Machine
end

