-- ==== Sys2Proof/Laws/Run.lean ====
section
/-! SUPPORT. Running micro-operation sequences: what a sequence does after its first operation, and what the
machine makes of the result. -/

namespace Sys2Proof.Machine

section
variable {ε σ α β : Type}

@[simp] theorem run_pure (a : α) (s : σ) : (pure a : EStateM ε σ α) s = .ok a s := rfl
@[simp] theorem run_get (s : σ) : (get : EStateM ε σ σ) s = .ok s s := rfl
@[simp] theorem run_set (s t : σ) : (set t : EStateM ε σ PUnit) s = .ok ⟨⟩ t := rfl

/-- After an accepted operation the rest runs on what it left. -/
theorem bind_ok {m : EStateM ε σ α} {s t : σ} {a : α} (h : m s = .ok a t) (f : α → EStateM ε σ β) :
    (m >>= f) s = f a t := by
  show EStateM.bind m f s = _
  simp [EStateM.bind, h]

/-- After an operation that raised nothing more runs. -/
theorem bind_error {m : EStateM ε σ α} {s t : σ} {c : ε} (h : m s = .error c t) (f : α → EStateM ε σ β) :
    (m >>= f) s = .error c t := by
  show EStateM.bind m f s = _
  simp [EStateM.bind, h]

/-- What a sequence of two does, from what the first does. -/
theorem bind_cases {m : EStateM ε σ α} {f : α → EStateM ε σ β} {s : σ} {r : EStateM.Result ε σ β}
    (h : (m >>= f) s = r) :
    (∃ a t, m s = .ok a t ∧ f a t = r) ∨ ∃ c t, m s = .error c t ∧ r = .error c t := by
  cases hm : m s with
  | ok a t => exact .inl ⟨a, t, rfl, by rw [← h, bind_ok hm]⟩
  | error c t => exact .inr ⟨c, t, rfl, by rw [← h, bind_error hm]⟩

/-- An accepted sequence of two is two accepted operations. -/
theorem bind_eq_ok {m : EStateM ε σ α} {f : α → EStateM ε σ β} {s t : σ} {b : β}
    (h : (m >>= f) s = .ok b t) : ∃ a u, m s = .ok a u ∧ f a u = .ok b t := by
  rcases bind_cases h with h | ⟨c, u, -, h⟩
  · exact h
  · cases h

end

/-! ## Encode half -/

theorem runEnc_ok {m : EncM Response} {s : State} {r : Response} {e : EncHalf} (h : m s.e = .ok r e) :
    runEnc m s = { s with e := e, resp := some r } := by
  simp [runEnc, h]

theorem runEnc_error {m : EncM Response} {s : State} {c : ErrCode} {e : EncHalf} (h : m s.e = .error c e) :
    runEnc m s = s.refuseEnc c := by
  simp [runEnc, h]

/-- An encode-half command either commits what its sequence left, or is refused. -/
theorem runEnc_cases (m : EncM Response) (s : State) :
    (∃ r e, m s.e = .ok r e ∧ runEnc m s = { s with e := e, resp := some r }) ∨
      ∃ c e, m s.e = .error c e ∧ runEnc m s = s.refuseEnc c := by
  cases h : m s.e with
  | ok r e => exact .inl ⟨r, e, rfl, runEnc_ok h⟩
  | error c e => exact .inr ⟨c, e, rfl, runEnc_error h⟩

/-- A unit sequence followed by the response `Ok`. -/
theorem then_ok {m : EncM Unit} {e e' : EncHalf} (h : m e = .ok () e') :
    (do m; pure Response.ok : EncM Response) e = .ok .ok e' := by
  rw [bind_ok h]; rfl

theorem then_ok_error {m : EncM Unit} {e e' : EncHalf} {c : ErrCode} (h : m e = .error c e') :
    (do m; pure Response.ok : EncM Response) e = .error c e' := bind_error h _

/-! ## Decode half -/

theorem runDecHalf_ok {m : DecM Response} {d d' : DecHalf} {r : Response} (h : m d = .ok r d') :
    runDecHalf m d = (r, d') := by
  simp [runDecHalf, h]

theorem runDecHalf_error {m : DecM Response} {d d' : DecHalf} {c : ErrCode} (h : m d = .error c d') :
    runDecHalf m d = (.err c, d'.raiseEntry c) := by
  simp [runDecHalf, h]

theorem runDec_ok {m : DecM Response} {s : State} {r : Response} {d : DecHalf} (h : m s.d = .ok r d) :
    runDec m s = { s with d := d, resp := some r } := by
  simp [runDec, runDecHalf_ok h]

theorem runDec_error {m : DecM Response} {s : State} {c : ErrCode} {d : DecHalf} (h : m s.d = .error c d) :
    runDec m s = s.raised d c := by
  simp [runDec, runDecHalf_error h, State.raised, DecHalf.raiseEntry]

end Sys2Proof.Machine
end

