-- ==== Sys2Proof/Laws/State.lean ====
section
/-! SUPPORT. One lemma per field per named update of the state and of its halves. -/

namespace Sys2Proof.Machine

/-! ## Responses and refusals -/

@[simp] theorem State.respond_impl (s : State) (r : Response) : (s.respond r).impl = s.impl := rfl
@[simp] theorem State.respond_cfgLog2w (s : State) (r : Response) : (s.respond r).cfgLog2w = s.cfgLog2w := rfl
@[simp] theorem State.respond_e (s : State) (r : Response) : (s.respond r).e = s.e := rfl
@[simp] theorem State.respond_d (s : State) (r : Response) : (s.respond r).d = s.d := rfl
@[simp] theorem State.respond_port (s : State) (r : Response) : (s.respond r).port = s.port := rfl
@[simp] theorem State.respond_resp (s : State) (r : Response) : (s.respond r).resp = some r := rfl

@[simp] theorem State.refuseEnc_contractViolation (s : State) : s.refuseEnc .contractViolation = s.encCv := rfl
@[simp] theorem State.refuseEnc_overflow (s : State) : s.refuseEnc .overflow = s.encOvf := rfl

@[simp] theorem State.refuseDec_contractViolation (s : State) : s.refuseDec .contractViolation = s.decCv := by
  simp [State.refuseDec, State.decCv]

@[simp] theorem State.refuseDec_overflow (s : State) : s.refuseDec .overflow = s.respond (.err .overflow) := by
  simp [State.refuseDec, State.respond]

@[simp] theorem State.refuseEnc_impl (s : State) (c : ErrCode) : (s.refuseEnc c).impl = s.impl := rfl
@[simp] theorem State.refuseEnc_cfgLog2w (s : State) (c : ErrCode) : (s.refuseEnc c).cfgLog2w = s.cfgLog2w := rfl
@[simp] theorem State.refuseEnc_d (s : State) (c : ErrCode) : (s.refuseEnc c).d = s.d := rfl
@[simp] theorem State.refuseEnc_port (s : State) (c : ErrCode) : (s.refuseEnc c).port = s.port := rfl
@[simp] theorem State.refuseEnc_resp (s : State) (c : ErrCode) : (s.refuseEnc c).resp = some (.err c) := rfl
@[simp] theorem State.refuseEnc_e (s : State) (c : ErrCode) :
    (s.refuseEnc c).e = { s.e with status := s.e.status.stick c } := rfl

@[simp] theorem State.refuseDec_impl (s : State) (c : ErrCode) : (s.refuseDec c).impl = s.impl := rfl
@[simp] theorem State.refuseDec_cfgLog2w (s : State) (c : ErrCode) : (s.refuseDec c).cfgLog2w = s.cfgLog2w := rfl
@[simp] theorem State.refuseDec_e (s : State) (c : ErrCode) : (s.refuseDec c).e = s.e := rfl
@[simp] theorem State.refuseDec_port (s : State) (c : ErrCode) : (s.refuseDec c).port = s.port := rfl
@[simp] theorem State.refuseDec_resp (s : State) (c : ErrCode) : (s.refuseDec c).resp = some (.err c) := rfl
@[simp] theorem State.refuseDec_d (s : State) (c : ErrCode) :
    (s.refuseDec c).d = { s.d with cv := s.d.cv || decide (c = .contractViolation) } := rfl

/-! ## The decode half -/

@[simp] theorem DecHalf.raiseEntry_bs (d : DecHalf) (c : ErrCode) : (d.raiseEntry c).bs = d.bs := rfl
@[simp] theorem DecHalf.raiseEntry_codec (d : DecHalf) (c : ErrCode) : (d.raiseEntry c).codec = d.codec := rfl
@[simp] theorem DecHalf.raiseEntry_phase (d : DecHalf) (c : ErrCode) : (d.raiseEntry c).phase = .fault := rfl
@[simp] theorem DecHalf.raiseEntry_err (d : DecHalf) (c : ErrCode) : (d.raiseEntry c).err = c := rfl
@[simp] theorem DecHalf.raiseEntry_x (d : DecHalf) (c : ErrCode) : (d.raiseEntry c).x = d.x := rfl
@[simp] theorem DecHalf.raiseEntry_r (d : DecHalf) (c : ErrCode) : (d.raiseEntry c).r = d.r := rfl
@[simp] theorem DecHalf.raiseEntry_c (d : DecHalf) (c : ErrCode) : (d.raiseEntry c).c = d.c := rfl
@[simp] theorem DecHalf.raiseEntry_cv (d : DecHalf) (c : ErrCode) : (d.raiseEntry c).cv = d.cv := rfl

@[simp] theorem DecHalf.advance_buf (d : DecHalf) (n : Nat) : (d.advance n).bs.buf = d.bs.buf := rfl
@[simp] theorem DecHalf.advance_pos (d : DecHalf) (n : Nat) : (d.advance n).bs.pos = d.bs.pos + n := rfl
@[simp] theorem DecHalf.advance_codec (d : DecHalf) (n : Nat) : (d.advance n).codec = d.codec := rfl
@[simp] theorem DecHalf.advance_phase (d : DecHalf) (n : Nat) : (d.advance n).phase = d.phase := rfl
@[simp] theorem DecHalf.advance_err (d : DecHalf) (n : Nat) : (d.advance n).err = d.err := rfl
@[simp] theorem DecHalf.advance_x (d : DecHalf) (n : Nat) : (d.advance n).x = d.x := rfl
@[simp] theorem DecHalf.advance_r (d : DecHalf) (n : Nat) : (d.advance n).r = d.r := rfl
@[simp] theorem DecHalf.advance_c (d : DecHalf) (n : Nat) : (d.advance n).c = d.c := rfl
@[simp] theorem DecHalf.advance_cv (d : DecHalf) (n : Nat) : (d.advance n).cv = d.cv := rfl
@[simp] theorem DecHalf.advance_zero (d : DecHalf) : d.advance 0 = d := rfl

theorem DecHalf.advance_advance (d : DecHalf) (m n : Nat) : (d.advance m).advance n = d.advance (m + n) := by
  simp [DecHalf.advance, Nat.add_assoc]

@[simp] theorem DecHalf.loaded_buf (d : DecHalf) (l : List Byte) : (d.loaded l).bs.buf = l := rfl
@[simp] theorem DecHalf.loaded_pos (d : DecHalf) (l : List Byte) : (d.loaded l).bs.pos = 0 := rfl
@[simp] theorem DecHalf.loaded_codec (d : DecHalf) (l : List Byte) : (d.loaded l).codec = d.codec := rfl
@[simp] theorem DecHalf.loaded_phase (d : DecHalf) (l : List Byte) : (d.loaded l).phase = .done := rfl
@[simp] theorem DecHalf.loaded_err (d : DecHalf) (l : List Byte) : (d.loaded l).err = .none := rfl
@[simp] theorem DecHalf.loaded_x (d : DecHalf) (l : List Byte) : (d.loaded l).x = d.x := rfl
@[simp] theorem DecHalf.loaded_r (d : DecHalf) (l : List Byte) : (d.loaded l).r = d.r := rfl
@[simp] theorem DecHalf.loaded_c (d : DecHalf) (l : List Byte) : (d.loaded l).c = d.c := rfl
@[simp] theorem DecHalf.loaded_cv (d : DecHalf) (l : List Byte) : (d.loaded l).cv = d.cv := rfl

@[simp] theorem DecHalf.opened_bs (d : DecHalf) (w : BitVec 6) (k : Codec) : (d.opened w k).bs = d.bs := rfl
@[simp] theorem DecHalf.opened_codec (d : DecHalf) (w : BitVec 6) (k : Codec) : (d.opened w k).codec = k := rfl
@[simp] theorem DecHalf.opened_phase (d : DecHalf) (w : BitVec 6) (k : Codec) :
    (d.opened w k).phase = if k = .raw then .done else .run := rfl
@[simp] theorem DecHalf.opened_err (d : DecHalf) (w : BitVec 6) (k : Codec) : (d.opened w k).err = .none := rfl
@[simp] theorem DecHalf.opened_x (d : DecHalf) (w : BitVec 6) (k : Codec) : (d.opened w k).x = XorRegs.reset := rfl
@[simp] theorem DecHalf.opened_r (d : DecHalf) (w : BitVec 6) (k : Codec) : (d.opened w k).r = EraRegs.reset := rfl
@[simp] theorem DecHalf.opened_ring (d : DecHalf) (w : BitVec 6) (k : Codec) : (d.opened w k).c.ring = d.c.ring := rfl
@[simp] theorem DecHalf.opened_c_first (d : DecHalf) (w : BitVec 6) (k : Codec) : (d.opened w k).c.first = true := rfl
@[simp] theorem DecHalf.opened_c_index (d : DecHalf) (w : BitVec 6) (k : Codec) : (d.opened w k).c.index = 0 := rfl
@[simp] theorem DecHalf.opened_c_slz (d : DecHalf) (w : BitVec 6) (k : Codec) :
    (d.opened w k).c.slz = Config.noWindow := rfl
@[simp] theorem DecHalf.opened_c_log2w (d : DecHalf) (w : BitVec 6) (k : Codec) :
    (d.opened w k).c.log2w = if k = .chp then w else d.c.log2w := rfl
@[simp] theorem DecHalf.opened_cv (d : DecHalf) (w : BitVec 6) (k : Codec) : (d.opened w k).cv = false := rfl

/-! ## The encode half -/

@[simp] theorem EncHalf.opened_bs (e : EncHalf) (w : BitVec 6) (k : Codec) : (e.opened w k).bs = BitSink.reset := rfl
@[simp] theorem EncHalf.opened_codec (e : EncHalf) (w : BitVec 6) (k : Codec) : (e.opened w k).codec = k := rfl
@[simp] theorem EncHalf.opened_x (e : EncHalf) (w : BitVec 6) (k : Codec) : (e.opened w k).x = XorRegs.reset := rfl
@[simp] theorem EncHalf.opened_r (e : EncHalf) (w : BitVec 6) (k : Codec) : (e.opened w k).r = EraRegs.reset := rfl
@[simp] theorem EncHalf.opened_status (e : EncHalf) (w : BitVec 6) (k : Codec) :
    (e.opened w k).status = EncStatus.reset := rfl
@[simp] theorem EncHalf.opened_ring (e : EncHalf) (w : BitVec 6) (k : Codec) : (e.opened w k).c.ring = e.c.ring := rfl
@[simp] theorem EncHalf.opened_tblv (e : EncHalf) (w : BitVec 6) (k : Codec) : (e.opened w k).c.tblv = [] := rfl
@[simp] theorem EncHalf.opened_tbl (e : EncHalf) (w : BitVec 6) (k : Codec) : (e.opened w k).c.tbl = e.c.tbl := rfl
@[simp] theorem EncHalf.opened_c_first (e : EncHalf) (w : BitVec 6) (k : Codec) : (e.opened w k).c.first = true := rfl
@[simp] theorem EncHalf.opened_c_index (e : EncHalf) (w : BitVec 6) (k : Codec) : (e.opened w k).c.index = 0 := rfl
@[simp] theorem EncHalf.opened_c_slz (e : EncHalf) (w : BitVec 6) (k : Codec) :
    (e.opened w k).c.slz = Config.noWindow := rfl
@[simp] theorem EncHalf.opened_c_log2w (e : EncHalf) (w : BitVec 6) (k : Codec) :
    (e.opened w k).c.log2w = if k = .chp then w else e.c.log2w := rfl

/-! ## The history -/

@[simp] theorem ChpEncRegs.store_log2w (c : ChpEncRegs) (p : Nat) (v : Word) : (c.store p v).log2w = c.log2w := rfl
@[simp] theorem ChpEncRegs.store_first (c : ChpEncRegs) (p : Nat) (v : Word) : (c.store p v).first = c.first := rfl
@[simp] theorem ChpEncRegs.store_index (c : ChpEncRegs) (p : Nat) (v : Word) : (c.store p v).index = p := rfl
@[simp] theorem ChpEncRegs.store_slz (c : ChpEncRegs) (p : Nat) (v : Word) : (c.store p v).slz = c.slz := rfl
@[simp] theorem ChpDecRegs.store_log2w (c : ChpDecRegs) (p : Nat) (v : Word) : (c.store p v).log2w = c.log2w := rfl
@[simp] theorem ChpDecRegs.store_first (c : ChpDecRegs) (p : Nat) (v : Word) : (c.store p v).first = c.first := rfl
@[simp] theorem ChpDecRegs.store_index (c : ChpDecRegs) (p : Nat) (v : Word) : (c.store p v).index = p := rfl
@[simp] theorem ChpDecRegs.store_slz (c : ChpDecRegs) (p : Nat) (v : Word) : (c.store p v).slz = c.slz := rfl

end Sys2Proof.Machine
end

