-- ==== Sys2Proof/Laws/Source.lean ====
section
/-! SUPPORT. The source: what a read consumes, what stands after it. -/

namespace Sys2Proof.Machine

@[simp] theorem DecHalf.advance_unread (d : DecHalf) (n : Nat) :
    (d.advance n).bs.unread = d.bs.unread.drop n := by
  simp [BitSource.unread, DecHalf.advance, List.drop_drop]

@[simp] theorem DecHalf.advance_avail (d : DecHalf) (n : Nat) : (d.advance n).bs.avail = d.bs.avail - n := by
  simp [BitSource.avail, DecHalf.advance]; omega

/-- A read that the source can serve. -/
theorem consume_ok {n : Nat} {d : DecHalf} (h : n ≤ d.bs.avail) : consume n d = .ok () (d.advance n) := by
  unfold consume
  rw [if_neg (by omega)]; rfl

/-- A read that runs out: EndOfStream, and nothing is consumed. -/
theorem consume_error {n : Nat} {d : DecHalf} (h : d.bs.avail < n) : consume n d = .error .endOfStream d := by
  unfold consume
  rw [if_pos h]

@[simp] theorem raise_run {α : Type} (c : ErrCode) (d : DecHalf) : (raise c : DecM α) d = .error c d := rfl

/-- Everything a read can do. -/
theorem consume_cases (n : Nat) (d : DecHalf) :
    n ≤ d.bs.avail ∧ consume n d = .ok () (d.advance n) ∨
      d.bs.avail < n ∧ consume n d = .error .endOfStream d := by
  rcases Nat.lt_or_ge d.bs.avail n with h | h
  · exact .inr ⟨h, consume_error h⟩
  · exact .inl ⟨h, consume_ok h⟩

theorem BitSource.avail_of_unread {k : BitSource} {l : List Bool} (h : k.unread = l) : k.avail = l.length := by
  rw [← h, BitSource.unread_length]

/-- The unread bit at an offset is the bit of the buffer at the cursor and that offset. -/
theorem BitSource.unread_getElem? (k : BitSource) (j : Nat) (h : k.pos + j < 8 * k.buf.length) :
    k.unread[j]? = some (bitAt k.buf (k.pos + j)) := by
  rw [BitSource.unread, List.getElem?_drop, bytesBits_getElem? _ _ h]

end Sys2Proof.Machine
end

