-- ==== Sys2Proof/Laws/DecodeRules.lean ====
section
/-! SUPPORT. What every decode rule keeps, said once, whether it answers or raises: the codec and the source, the
cursor inside it, the announced windows, the ring's form; and how much it consumes when it answers. -/

namespace Sys2Proof.Machine

/-- What a decode rule does to the half: everything it keeps. -/
structure DecKeeps (d d' : DecHalf) : Prop where
  codec : d'.codec = d.codec
  cv : d'.cv = d.cv
  err : d'.err = d.err
  phase : d'.phase = d.phase ∨ d'.phase = .done
  buf : d'.bs.buf = d.bs.buf
  pos : d.bs.pos ≤ d'.bs.pos
  cursor : d.bs.pos ≤ 8 * d.bs.buf.length → d'.bs.pos ≤ 8 * d'.bs.buf.length
  window : d.x.WindowInv → d'.x.WindowInv
  log2w : d'.c.log2w = d.c.log2w
  slz : (d.c.slz = Config.noWindow ∨ d.c.slz.toNat ∈ Config.lzSet) →
    d'.c.slz = Config.noWindow ∨ d'.c.slz.toNat ∈ Config.lzSet
  ring : Memory.wf 0 d.c.ring = true → Memory.wf 0 d'.c.ring = true

theorem DecKeeps.refl (d : DecHalf) : DecKeeps d d :=
  ⟨rfl, rfl, rfl, .inl rfl, rfl, Nat.le_refl _, id, id, rfl, id, id⟩

theorem DecKeeps.trans {d1 d2 d3 : DecHalf} (h : DecKeeps d1 d2) (k : DecKeeps d2 d3) : DecKeeps d1 d3 where
  codec := k.codec.trans h.codec
  cv := k.cv.trans h.cv
  err := k.err.trans h.err
  phase := by
    rcases k.phase with k | k
    · rw [k]; exact h.phase
    · exact .inr k
  buf := k.buf.trans h.buf
  pos := h.pos.trans k.pos
  cursor := k.cursor ∘ h.cursor
  window := k.window ∘ h.window
  log2w := k.log2w.trans h.log2w
  slz := k.slz ∘ h.slz
  ring := k.ring ∘ h.ring

/-- The codes a decode rule can raise (`60_exceptions.md` R230). -/
def ErrCode.isFault : ErrCode → Bool
  | .endOfStream | .malformedBlock | .overflow => true
  | _ => false

/-- A decode rule that from the half `d` keeps all this, consumes at least `n` bits when it answers, and raises
fault codes only. -/
structure DecM.GoodAt {α : Type} (n : Nat) (x : DecM α) (d : DecHalf) : Prop where
  ok : ∀ {a d'}, x d = .ok a d' → DecKeeps d d' ∧ d.bs.pos + n ≤ d'.bs.pos
  error : ∀ {c d'}, x d = .error c d' → DecKeeps d d' ∧ c.isFault = true

theorem DecM.GoodAt.bind {α β : Type} {m n : Nat} {x : DecM α} {f : α → DecM β} {d : DecHalf}
    (hx : DecM.GoodAt m x d) (hf : ∀ a d', x d = .ok a d' → DecM.GoodAt n (f a) d') :
    DecM.GoodAt (m + n) (x >>= f) d where
  ok h := by
    obtain ⟨a, u, h1, h2⟩ := bind_eq_ok h
    obtain ⟨k1, p1⟩ := hx.ok h1
    obtain ⟨k2, p2⟩ := (hf a u h1).ok h2
    exact ⟨k1.trans k2, by omega⟩
  error h := by
    rcases bind_cases h with ⟨a, u, h1, h2⟩ | ⟨c, u, h1, h2⟩
    · obtain ⟨k2, hc⟩ := (hf a u h1).error h2
      exact ⟨(hx.ok h1).1.trans k2, hc⟩
    · injection h2 with h2 h3; subst h2; subst h3; exact hx.error h1

theorem DecM.GoodAt.mono {α : Type} {m n : Nat} {x : DecM α} {d : DecHalf} (hx : DecM.GoodAt m x d) (h : n ≤ m) :
    DecM.GoodAt n x d :=
  ⟨fun h' => ⟨(hx.ok h').1, by have := (hx.ok h').2; omega⟩, hx.error⟩

theorem DecM.GoodAt.pure {α : Type} (a : α) (d : DecHalf) : DecM.GoodAt 0 (pure a : DecM α) d :=
  ⟨fun h => by cases h; exact ⟨DecKeeps.refl _, Nat.le_refl _⟩, fun h => by cases h⟩

theorem DecM.GoodAt.raise {α : Type} {n : Nat} {c : ErrCode} (h : c.isFault = true) (d : DecHalf) :
    DecM.GoodAt n (raise c : DecM α) d :=
  ⟨fun h' => (by rw [raise_run] at h'; cases h'),
    fun h' => (by rw [raise_run] at h'; cases h'; exact ⟨DecKeeps.refl _, h⟩)⟩

theorem DecM.GoodAt.ite {α : Type} {n : Nat} {p : Prop} [Decidable p] {x y : DecM α} {d : DecHalf}
    (hx : p → DecM.GoodAt n x d) (hy : ¬ p → DecM.GoodAt n y d) : DecM.GoodAt n (if p then x else y) d := by
  by_cases h : p
  · rw [if_pos h]; exact hx h
  · rw [if_neg h]; exact hy h

/-- A rule that looks at the half first. -/
theorem DecM.GoodAt.get {β : Type} {n : Nat} {f : DecHalf → DecM β} {d : DecHalf} (h : DecM.GoodAt n (f d) d) :
    DecM.GoodAt n (MonadState.get >>= f) d :=
  ⟨fun h' => h.ok (by rw [bind_ok (run_get d)] at h'; exact h'),
    fun h' => h.error (by rw [bind_ok (run_get d)] at h'; exact h')⟩

/-- A rule that writes the half first. -/
theorem DecM.GoodAt.set {β : Type} {n : Nat} {f : PUnit → DecM β} {d e : DecHalf} (he : DecKeeps d e)
    (h : DecM.GoodAt n (f ⟨⟩) e) : DecM.GoodAt n (MonadStateOf.set e >>= f) d where
  ok h' := by
    rw [bind_ok (run_set d e)] at h'
    have := h.ok h'
    exact ⟨he.trans this.1, by have := he.pos; omega⟩
  error h' := by
    rw [bind_ok (run_set d e)] at h'
    have := h.error h'
    exact ⟨he.trans this.1, this.2⟩

/-- A rule that reads first: the rest runs from the advanced cursor. -/
theorem DecM.GoodAt.read {β : Type} {m n : Nat} {f : Unit → DecM β} {d : DecHalf}
    (h : m ≤ d.bs.avail → DecM.GoodAt n (f ()) (d.advance m)) : DecM.GoodAt (m + n) (consume m >>= f) d := by
  refine DecM.GoodAt.bind ⟨fun h' => ?_, fun h' => ?_⟩ fun a d' h' => ?_
  · rcases consume_cases m d with ⟨hm, hc⟩ | ⟨hm, hc⟩ <;> rw [hc] at h' <;> cases h'
    refine ⟨⟨rfl, rfl, rfl, .inl rfl, rfl, Nat.le_add_right _ _, fun hp => ?_, id, rfl, id, id⟩, Nat.le_refl _⟩
    show d.bs.pos + m ≤ 8 * d.bs.buf.length
    unfold BitSource.avail at hm
    omega
  · rcases consume_cases m d with ⟨hm, hc⟩ | ⟨hm, hc⟩ <;> rw [hc] at h' <;> cases h'
    exact ⟨DecKeeps.refl _, rfl⟩
  · rcases consume_cases m d with ⟨hm, hc⟩ | ⟨hm, hc⟩ <;> rw [hc] at h' <;> cases h'
    exact h hm

theorem DecKeeps.ofX (d : DecHalf) (x : XorRegs) (h : d.x.WindowInv → x.WindowInv) : DecKeeps d { d with x := x } :=
  ⟨rfl, rfl, rfl, .inl rfl, rfl, Nat.le_refl _, id, h, rfl, id, id⟩

theorem DecKeeps.ofDone (d : DecHalf) : DecKeeps d { d with phase := .done } :=
  ⟨rfl, rfl, rfl, .inr rfl, rfl, Nat.le_refl _, id, id, rfl, id, id⟩

theorem DecKeeps.ofR (d : DecHalf) (r : EraRegs) : DecKeeps d { d with r := r } :=
  ⟨rfl, rfl, rfl, .inl rfl, rfl, Nat.le_refl _, id, id, rfl, id, id⟩

theorem DecKeeps.ofC (d : DecHalf) (c : ChpDecRegs) (hl : c.log2w = d.c.log2w)
    (hs : (d.c.slz = Config.noWindow ∨ d.c.slz.toNat ∈ Config.lzSet) →
      c.slz = Config.noWindow ∨ c.slz.toNat ∈ Config.lzSet)
    (hr : Memory.wf 0 d.c.ring = true → Memory.wf 0 c.ring = true) : DecKeeps d { d with c := c } :=
  ⟨rfl, rfl, rfl, .inl rfl, rfl, Nat.le_refl _, id, id, hl, hs, hr⟩

/-! ## XOR64 -/

theorem setDecX_good {β : Type} {n : Nat} {x : XorRegs} {f : Unit → DecM β} {d : DecHalf}
    (hx : d.x.WindowInv → x.WindowInv) (h : DecM.GoodAt n (f ()) { d with x := x }) :
    DecM.GoodAt n (setDecX x >>= f) d where
  ok h' := by
    rw [bind_ok (show setDecX x d = .ok () { d with x := x } from rfl)] at h'
    have := h.ok h'
    exact ⟨(DecKeeps.ofX d x hx).trans this.1, this.2⟩
  error h' := by
    rw [bind_ok (show setDecX x d = .ok () { d with x := x } from rfl)] at h'
    have := h.error h'
    exact ⟨(DecKeeps.ofX d x hx).trans this.1, this.2⟩

theorem getFirst_good (tz : BitVec 7) (p : Word) (d : DecHalf) : DecM.GoodAt 2 (getFirst tz p) d := by
  refine DecM.GoodAt.mono (m := 7 + 0) (DecM.GoodAt.read fun _ => ?_) (by omega)
  refine DecM.GoodAt.ite (fun _ => DecM.GoodAt.raise rfl _) fun _ => ?_
  have hrest : ∀ (v : Word) (d : DecHalf), DecM.GoodAt 0 (do
      let d ← get
      setDecX { d.x with first := false, sv := v }
      pure v : DecM Word) d := fun v d =>
    DecM.GoodAt.get (setDecX_good id (DecM.GoodAt.pure v _))
  by_cases h : tz.toNat = 64
  · simp only [h, if_true]
    exact hrest _ _
  · simp only [h, if_false]
    exact DecM.GoodAt.mono (DecM.GoodAt.read fun _ => hrest _ _) (Nat.zero_le _)

theorem getSame_good (d : DecHalf) : DecM.GoodAt 2 getSame d :=
  DecM.GoodAt.read (n := 0) fun _ => DecM.GoodAt.get (DecM.GoodAt.pure _ _)

theorem getReuse_good (p : Word) (d : DecHalf) : DecM.GoodAt 2 (getReuse p) d := by
  refine DecM.GoodAt.read (n := 0) fun _ => DecM.GoodAt.get ?_
  refine DecM.GoodAt.ite (fun _ => DecM.GoodAt.raise rfl _) fun _ => ?_
  exact DecM.GoodAt.mono (DecM.GoodAt.read fun _ => setDecX_good id (DecM.GoodAt.pure _ _)) (Nat.zero_le _)

theorem getWindow_good {lz cb : Nat} (p : Word) (d : DecHalf) (hz : lz ∈ Config.lzSet) (hb : 1 ≤ cb) :
    DecM.GoodAt 0 (getWindow lz cb p) d := by
  unfold getWindow
  refine DecM.GoodAt.ite (fun _ => DecM.GoodAt.raise rfl _) fun h => ?_
  refine DecM.GoodAt.mono (DecM.GoodAt.read fun _ => DecM.GoodAt.get
    (setDecX_good (fun _ _ => ?_) (DecM.GoodAt.pure _ _))) (Nat.zero_le _)
  have h24 := le_24_of_mem_lzSet hz
  have h1 : (BitVec.ofNat 5 lz).toNat = lz := by simp; omega
  have h2 : (BitVec.ofNat 7 (64 - lz - cb)).toNat = 64 - lz - cb := by simp; omega
  simp only [h1, h2]
  exact ⟨hz, by omega⟩

theorem newsCb_pos (cccc : BitVec 4) : 1 ≤ newsCb cccc := by revert cccc; decide
theorem newlCb_pos (cccccc : BitVec 6) : 1 ≤ newlCb cccccc := by revert cccccc; decide

theorem getNews_good (iii : BitVec 3) (cccc : BitVec 4) (p : Word) (d : DecHalf) :
    DecM.GoodAt 2 (getNews iii cccc p) d :=
  DecM.GoodAt.read (n := 0) fun _ => DecM.GoodAt.mono
    (DecM.GoodAt.read fun _ => getWindow_good p _ (lzVal_mem iii) (newsCb_pos cccc)) (Nat.zero_le _)

theorem getNewl_good (iii : BitVec 3) (cccccc : BitVec 6) (p : Word) (d : DecHalf) :
    DecM.GoodAt 2 (getNewl iii cccccc p) d :=
  DecM.GoodAt.read (n := 0) fun _ => DecM.GoodAt.mono
    (DecM.GoodAt.read fun _ => getWindow_good p _ (lzVal_mem iii) (newlCb_pos cccccc)) (Nat.zero_le _)

theorem getX_good (r : XRecord) (d : DecHalf) : DecM.GoodAt 2 (getX r) d := by
  cases r
  · exact getFirst_good ..
  · exact getSame_good d
  · exact getReuse_good ..
  · exact getNews_good ..
  · exact getNewl_good ..

theorem x64Get_good (d : DecHalf) : DecM.GoodAt 2 x64Get d :=
  ⟨fun h => (getX_good d.xRecord d).ok h, fun h => (getX_good d.xRecord d).error h⟩

theorem x64Deliver_good (v : Word) (d : DecHalf) : DecM.GoodAt 0 (x64Deliver v) d := by
  refine ⟨fun h => ?_, fun h => ?_⟩ <;> unfold x64Deliver at h <;> split_ifs at h <;> cases h
  · exact ⟨DecKeeps.ofDone d, Nat.le_refl _⟩
  · exact ⟨DecKeeps.refl d, Nat.le_refl _⟩

theorem x64Decode_good (d : DecHalf) : DecM.GoodAt 2 x64Decode d :=
  (x64Get_good d).bind (n := 0) fun v d' _ => x64Deliver_good v d'

/-! ## Erasure -/

theorem eraBody_good (erased : Bool) (d : DecHalf) : DecM.GoodAt 2 (eraBody erased) d := by
  refine (x64Get_good d).bind (n := 0) fun v d' _ => DecM.GoodAt.get ?_
  refine DecM.GoodAt.ite (fun _ => DecM.GoodAt.set (DecKeeps.ofDone d') (DecM.GoodAt.pure _ _)) fun _ => ?_
  refine DecM.GoodAt.ite (fun _ => DecM.GoodAt.pure _ _) fun _ => ?_
  exact DecM.GoodAt.ite (fun _ => DecM.GoodAt.raise rfl _) fun _ => DecM.GoodAt.pure _ _

theorem getE_good (e : EPrefix) (d : DecHalf) : DecM.GoodAt 2 (getE e) d := by
  cases e
  · refine DecM.GoodAt.mono (DecM.GoodAt.read (n := 2) fun _ => DecM.GoodAt.get ?_) (Nat.le_add_left _ _)
    exact DecM.GoodAt.ite (fun _ => DecM.GoodAt.raise rfl _) fun _ => eraBody_good _ _
  · exact DecM.GoodAt.mono (DecM.GoodAt.read fun _ => DecM.GoodAt.read fun _ => eraBody_good _ _) (by omega)
  · refine DecM.GoodAt.mono (DecM.GoodAt.read fun _ => DecM.GoodAt.read fun _ => DecM.GoodAt.read fun _ =>
      DecM.GoodAt.get (DecM.GoodAt.set (DecKeeps.ofR _ _) (eraBody_good _ _))) (by omega)

theorem eraDecode_good (d : DecHalf) : DecM.GoodAt 2 eraDecode d :=
  ⟨fun h => (getE_good (decodeE d.bs.unread) d).ok h, fun h => (getE_good (decodeE d.bs.unread) d).error h⟩

/-! ## The history -/

theorem setDecC_good {β : Type} {n : Nat} {c : ChpDecRegs} {f : Unit → DecM β} {d : DecHalf}
    (hc : DecKeeps d { d with c := c }) (h : DecM.GoodAt n (f ()) { d with c := c }) :
    DecM.GoodAt n (setDecC c >>= f) d where
  ok h' := by
    rw [bind_ok (show setDecC c d = .ok () { d with c := c } from rfl)] at h'
    have := h.ok h'
    exact ⟨hc.trans this.1, this.2⟩
  error h' := by
    rw [bind_ok (show setDecC c d = .ok () { d with c := c } from rfl)] at h'
    have := h.error h'
    exact ⟨hc.trans this.1, this.2⟩

theorem getCopy_good (r : Word) (d : DecHalf) : DecM.GoodAt 2 (getCopy r) d := by
  refine DecM.GoodAt.get (DecM.GoodAt.read (n := 0) fun _ => DecM.GoodAt.mono (DecM.GoodAt.read (n := 0) fun _ => ?_)
    (Nat.zero_le _))
  refine DecM.GoodAt.ite (fun _ => DecM.GoodAt.raise rfl _) fun _ => ?_
  exact setDecC_good (DecKeeps.ofC _ _ rfl (fun _ => .inl rfl) id) (DecM.GoodAt.pure _ _)

theorem getHist_good (r : Word) (iii : BitVec 3) (ssssss : BitVec 6) (p : Word) (d : DecHalf) :
    DecM.GoodAt 2 (getHist r iii ssssss p) d := by
  refine DecM.GoodAt.get (DecM.GoodAt.read (n := 0) fun _ => DecM.GoodAt.mono (DecM.GoodAt.read (n := 0) fun _ => ?_)
    (Nat.zero_le _))
  refine DecM.GoodAt.ite (fun _ => DecM.GoodAt.raise rfl _) fun _ => ?_
  refine DecM.GoodAt.ite (fun _ => DecM.GoodAt.raise rfl _) fun _ => ?_
  refine DecM.GoodAt.ite (fun _ => DecM.GoodAt.raise rfl _) fun _ => ?_
  exact DecM.GoodAt.mono (DecM.GoodAt.read fun _ => setDecC_good (DecKeeps.ofC _ _ rfl (fun _ => .inl rfl) id)
    (DecM.GoodAt.pure _ _)) (Nat.zero_le _)

theorem getPrev_good (p : Word) (d : DecHalf) : DecM.GoodAt 2 (getPrev p) d := by
  refine DecM.GoodAt.get (DecM.GoodAt.read (n := 0) fun _ => ?_)
  refine DecM.GoodAt.ite (fun _ => DecM.GoodAt.raise rfl _) fun _ => ?_
  exact DecM.GoodAt.mono (DecM.GoodAt.read fun _ => DecM.GoodAt.pure _ _) (Nat.zero_le _)

theorem lzVal_slz (iii : BitVec 3) : (BitVec.ofNat 7 (lzVal iii)).toNat = lzVal iii := by
  have := lzVal_le_24 iii
  simp; omega

theorem getPrevn_good (iii : BitVec 3) (p : Word) (d : DecHalf) : DecM.GoodAt 2 (getPrevn iii p) d := by
  refine DecM.GoodAt.get (DecM.GoodAt.read (n := 0) fun _ => DecM.GoodAt.mono (DecM.GoodAt.read (n := 0) fun _ => ?_)
    (Nat.zero_le _))
  refine setDecC_good (DecKeeps.ofC _ _ rfl (fun _ => .inr (by rw [lzVal_slz]; exact lzVal_mem iii)) id) ?_
  exact DecM.GoodAt.mono (DecM.GoodAt.read fun _ => DecM.GoodAt.pure _ _) (Nat.zero_le _)

theorem chpDeliver_good (m : Config.Impl) (v : Word) (d : DecHalf) : DecM.GoodAt 0 (chpDeliver m v) d := by
  refine ⟨fun h => ?_, fun h => ?_⟩ <;> unfold chpDeliver at h <;> split_ifs at h <;> cases h
  · exact ⟨DecKeeps.ofDone d, Nat.le_refl _⟩
  · exact ⟨DecKeeps.ofC d _ rfl id fun h => Memory.wf_write _ _ h, Nat.le_refl _⟩
  · exact ⟨DecKeeps.refl d, rfl⟩

theorem getCFirst_good (p : Word) (d : DecHalf) : DecM.GoodAt 2 (getCFirst p) d := by
  refine DecM.GoodAt.mono (DecM.GoodAt.read (n := 0) fun _ => DecM.GoodAt.get ?_) (by omega)
  refine DecM.GoodAt.ite (fun _ => DecM.GoodAt.set ?_ (DecM.GoodAt.pure _ _)) fun _ =>
    DecM.GoodAt.set ?_ (DecM.GoodAt.pure _ _)
  · exact ⟨rfl, rfl, rfl, .inr rfl, rfl, Nat.le_refl _, id, id, rfl, id, id⟩
  · exact DecKeeps.ofC _ _ rfl id fun h => Memory.wf_write _ _ h

theorem getC_good (m : Config.Impl) (r : CRecord) (d : DecHalf) : DecM.GoodAt 2 (getC m r) d := by
  cases r
  · exact getCFirst_good ..
  · exact (getCopy_good ..).bind (n := 0) fun v d' _ => chpDeliver_good m v d'
  · exact (getHist_good ..).bind (n := 0) fun v d' _ => chpDeliver_good m v d'
  · exact (getPrev_good ..).bind (n := 0) fun v d' _ => chpDeliver_good m v d'
  · exact (getPrevn_good ..).bind (n := 0) fun v d' _ => chpDeliver_good m v d'

theorem chpDecode_good (m : Config.Impl) (d : DecHalf) : DecM.GoodAt 2 (chpDecode m) d :=
  ⟨fun h => (getC_good m d.cRecord d).ok h, fun h => (getC_good m d.cRecord d).error h⟩

/-! ## The machine -/

/-- The whole of what a decode rule can do as a step: it answers, or enters FAULT with a fault code. -/
theorem runDec_good {n : Nat} {x : DecM Response} {s : State} (hx : DecM.GoodAt n x s.d) :
    (∃ r d, x s.d = .ok r d ∧ DecKeeps s.d d ∧ s.d.bs.pos + n ≤ d.bs.pos ∧
        runDec x s = { s with d := d, resp := some r }) ∨
      ∃ c d, x s.d = .error c d ∧ DecKeeps s.d d ∧ c.isFault = true ∧ runDec x s = s.raised d c := by
  cases h : x s.d with
  | ok r d => exact .inl ⟨r, d, rfl, (hx.ok h).1, (hx.ok h).2, runDec_ok h⟩
  | error c d => exact .inr ⟨c, d, rfl, (hx.error h).1, (hx.error h).2, runDec_error h⟩

end Sys2Proof.Machine
end

