-- ==== Sys2Proof/Laws/Sink.lean ====
section
/-! SUPPORT. The sink: what a write appends, when it is accepted and when it does not fit, and what a flush
leaves. -/

namespace Sys2Proof.Machine

/-! ## Appending bits -/

theorem BitSink.bits_length (k : BitSink) : k.bits.length = k.bitLen := by
  have := k.woff.isLt
  simp [BitSink.bits, BitSink.bitLen]
  omega

theorem BitSink.Extends.refl {k : BitSink} (h : k.AccInv) : k.Extends k [] := ⟨by simp, rfl, h⟩

theorem BitSink.Extends.trans {k1 k2 k3 : BitSink} {l m : List Bool} (h1 : k2.Extends k1 l)
    (h2 : k3.Extends k2 m) : k3.Extends k1 (l ++ m) :=
  ⟨by rw [h2.1, h1.1, List.append_assoc], h2.2.1.trans h1.2.1, h2.2.2⟩

theorem BitSink.Extends.bitLen {k k0 : BitSink} {l : List Bool} (h : k.Extends k0 l) :
    k.bitLen = k0.bitLen + l.length := by
  rw [← BitSink.bits_length, ← BitSink.bits_length, h.1, List.length_append]

/-- The partial byte after one more bit: seven or fewer bits filled before. -/
theorem acc_push : ∀ (acc : Byte) (w : BitVec 3) (b : Bool), acc.toNat % 2 ^ (8 - w.toNat) = 0 →
    (bitsOf (acc ||| ((if b then 1 else 0 : Byte) <<< (7 - w.toNat))) 8).take (w.toNat + 1) =
        (bitsOf acc 8).take w.toNat ++ [b] ∧
      (acc ||| ((if b then 1 else 0 : Byte) <<< (7 - w.toNat))).toNat % 2 ^ (7 - w.toNat) = 0 := by
  decide +kernel

theorem BitSink.push_extends {k : BitSink} (h : k.AccInv) (b : Bool) : (k.push b).Extends k [b] := by
  obtain ⟨h1, h2⟩ := acc_push k.acc k.woff b h
  unfold BitSink.push
  by_cases hw : k.woff = 7
  · have hw' : k.woff.toNat = 7 := by rw [hw]; rfl
    simp only [hw, if_true]
    refine ⟨?_, rfl, by simp [BitSink.AccInv]⟩
    rw [hw', List.take_of_length_le (by simp)] at h1
    simp only [BitSink.bits, hw', bytesBits_append, bytesBits_singleton]
    simpa using h1
  · have hlt : k.woff.toNat < 7 := by
      by_contra hge
      have h8 : k.woff.toNat < 8 := k.woff.isLt
      exact hw (BitVec.eq_of_toNat_eq (show k.woff.toNat = 7 by omega))
    have hs : (k.woff + 1).toNat = k.woff.toNat + 1 := by
      rw [BitVec.toNat_add]; show (k.woff.toNat + 1) % 8 = _; omega
    simp only [hw, if_false]
    refine ⟨?_, rfl, ?_⟩
    · simp only [BitSink.bits, hs, h1, List.append_assoc]
    · show _ % 2 ^ (8 - (k.woff + 1).toNat) = 0
      rw [hs, show 8 - (k.woff.toNat + 1) = 7 - k.woff.toNat by omega]
      exact h2

/-- `WBITS` appends the numeral of the low bits (`41_bitstream.md` R101, R108). -/
theorem BitSink.pushBits_extends {k : BitSink} (h : k.AccInv) (v : Word) (n : Nat) :
    (BitSink.pushBits v n k).Extends k (natBits v.toNat n) := by
  induction n generalizing k with
  | zero => exact BitSink.Extends.refl h
  | succ n ih =>
    rw [natBits_succ]
    exact (BitSink.push_extends h _).trans (ih (BitSink.push_extends h _).2.2)

/-- A write may be cut anywhere (`41_bitstream.md` R108). -/
theorem BitSink.pushBits_split (v : Word) (a b : Nat) (k : BitSink) :
    BitSink.pushBits v (a + b) k = BitSink.pushBits v b (BitSink.pushBits (shr v b) a k) := by
  induction a generalizing k with
  | zero => rw [Nat.zero_add]; rfl
  | succ a ih =>
    have hb : v.getLsbD (a + b) = (shr v b).getLsbD a := by simp [shr, Nat.add_comm]
    rw [Nat.add_right_comm, BitSink.pushBits, ih, BitSink.pushBits, hb]

/-! ## When a write is accepted -/

theorem sinkFull_eq_false {m : Config.Impl} {k : BitSink} {n : Nat} :
    sinkFull m k n = false ↔ ∀ cap ∈ m.sinkCap, k.bitLen + n ≤ 8 * cap := by
  unfold sinkFull
  cases m.sinkCap <;> simp

theorem sinkFull_eq_true {m : Config.Impl} {k : BitSink} {n : Nat} :
    sinkFull m k n = true ↔ ∃ cap ∈ m.sinkCap, 8 * cap < k.bitLen + n := by
  unfold sinkFull
  cases m.sinkCap <;> simp

/-- The sink `k` takes `n` more bits under the parameters `m`. -/
abbrev BitSink.Takes (m : Config.Impl) (k : BitSink) (n : Nat) : Prop :=
  k.sealed = false ∧ ∀ cap ∈ m.sinkCap, k.bitLen + n ≤ 8 * cap

theorem BitSink.Takes.mono {m : Config.Impl} {k : BitSink} {n n' : Nat} (h : k.Takes m n) (hn : n' ≤ n) :
    k.Takes m n' := ⟨h.1, fun cap hc => by have := h.2 cap hc; omega⟩

/-- What is left of the room after a write. -/
theorem BitSink.Takes.after {m : Config.Impl} {k k' : BitSink} {l : List Bool} {n : Nat} (h : k.Takes m (l.length + n))
    (hk : k'.Extends k l) : k'.Takes m n :=
  ⟨hk.2.1.trans h.1, fun cap hc => by have := h.2 cap hc; have := hk.bitLen; omega⟩

/-- An accepted `WBITS`. -/
theorem putBits_ok {m : Config.Impl} {v : Word} {n : Nat} {e : EncHalf} (hn : n ≤ 64) (h : e.bs.Takes m n) :
    putBits m v n e = .ok () { e with bs := BitSink.pushBits v n e.bs } := by
  unfold putBits
  rw [if_neg (by show ¬ 64 < n; omega), if_neg (by simp [h.1]), if_neg (by simp [sinkFull_eq_false.2 h.2])]

/-- An accepted `WBITS`, by the bits it appends. -/
theorem putBits_extends {m : Config.Impl} {n : Nat} {e : EncHalf} (v : Word) (hn : n ≤ 64) (ha : e.bs.AccInv)
    (h : e.bs.Takes m n) :
    ∃ k, putBits m v n e = .ok () { e with bs := k } ∧ k.Extends e.bs (natBits v.toNat n) :=
  ⟨_, putBits_ok hn h, BitSink.pushBits_extends ha v n⟩

theorem putBit_ok {m : Config.Impl} {b : Bool} {e : EncHalf} (h : e.bs.Takes m 1) :
    putBit m b e = .ok () { e with bs := e.bs.push b } := by
  unfold putBit
  rw [if_neg (by simp [h.1]), if_neg (by simp [sinkFull_eq_false.2 h.2])]

/-- Everything a `WBITS` can do: it appends, or changes nothing. -/
theorem putBits_cases (m : Config.Impl) (v : Word) (n : Nat) (e : EncHalf) :
    (n ≤ 64 ∧ e.bs.Takes m n ∧ putBits m v n e = .ok () { e with bs := BitSink.pushBits v n e.bs }) ∨
      (64 < n ∨ e.bs.sealed = true) ∧ putBits m v n e = .error .contractViolation e ∨
      (n ≤ 64 ∧ e.bs.sealed = false ∧ ∃ cap ∈ m.sinkCap, 8 * cap < e.bs.bitLen + n) ∧
        putBits m v n e = .error .overflow e := by
  unfold putBits
  by_cases h1 : n > Config.nMax
  · exact .inr (.inl ⟨.inl h1, by rw [if_pos h1]⟩)
  have h1' : n ≤ 64 := Nat.le_of_not_lt h1
  rw [if_neg h1]
  by_cases h2 : e.bs.sealed = true
  · exact .inr (.inl ⟨.inr h2, by rw [if_pos h2]⟩)
  have h2' : e.bs.sealed = false := by simpa using h2
  rw [if_neg h2]
  by_cases h3 : sinkFull m e.bs n = true
  · exact .inr (.inr ⟨⟨h1', h2', sinkFull_eq_true.1 h3⟩, by rw [if_pos h3]⟩)
  · exact .inl ⟨h1', ⟨h2', sinkFull_eq_false.1 (by simpa using h3)⟩, by rw [if_neg h3]⟩

/-- Everything a `WBIT` can do. -/
theorem putBit_cases (m : Config.Impl) (b : Bool) (e : EncHalf) :
    (e.bs.Takes m 1 ∧ putBit m b e = .ok () { e with bs := e.bs.push b }) ∨
      e.bs.sealed = true ∧ putBit m b e = .error .contractViolation e ∨
      (e.bs.sealed = false ∧ ∃ cap ∈ m.sinkCap, 8 * cap < e.bs.bitLen + 1) ∧
        putBit m b e = .error .overflow e := by
  unfold putBit
  by_cases h2 : e.bs.sealed = true
  · exact .inr (.inl ⟨h2, by rw [if_pos h2]⟩)
  have h2' : e.bs.sealed = false := by simpa using h2
  rw [if_neg h2]
  by_cases h3 : sinkFull m e.bs 1 = true
  · exact .inr (.inr ⟨⟨h2', sinkFull_eq_true.1 h3⟩, by rw [if_pos h3]⟩)
  · exact .inl ⟨⟨h2', sinkFull_eq_false.1 (by simpa using h3)⟩, by rw [if_neg h3]⟩

/-! ## When a write does not fit -/

/-- The sink `k` is open and has no room for `n` more bits under the parameters `m`. -/
abbrev BitSink.Full (m : Config.Impl) (k : BitSink) (n : Nat) : Prop :=
  k.sealed = false ∧ ∃ cap ∈ m.sinkCap, 8 * cap < k.bitLen + n

/-- An open sink has room or has not. -/
theorem BitSink.takes_or_full {k : BitSink} (m : Config.Impl) (n : Nat) (h : k.sealed = false) :
    k.Takes m n ∨ k.Full m n := by
  by_cases hc : ∃ cap ∈ m.sinkCap, 8 * cap < k.bitLen + n
  · exact .inr ⟨h, hc⟩
  · exact .inl ⟨h, fun cap hm => Nat.le_of_not_lt fun hlt => hc ⟨cap, hm, hlt⟩⟩

/-- What was too much for a sink is too much after the part of it that was written. -/
theorem BitSink.Full.after {m : Config.Impl} {k k' : BitSink} {l : List Bool} {n : Nat} (h : k.Full m (l.length + n))
    (hk : k'.Extends k l) : k'.Full m n := by
  obtain ⟨hs, cap, hc, hlt⟩ := h
  exact ⟨hk.2.1.trans hs, cap, hc, by have := hk.bitLen; omega⟩

theorem putBits_full {m : Config.Impl} {n : Nat} {e : EncHalf} (v : Word) (hn : n ≤ 64) (h : e.bs.Full m n) :
    putBits m v n e = .error .overflow e := by
  unfold putBits
  rw [if_neg (by show ¬ 64 < n; omega), if_neg (by simp [h.1]), if_pos (sinkFull_eq_true.2 h.2)]

theorem putBit_full {m : Config.Impl} {e : EncHalf} (b : Bool) (h : e.bs.Full m 1) :
    putBit m b e = .error .overflow e := by
  unfold putBit
  rw [if_neg (by simp [h.1]), if_pos (sinkFull_eq_true.2 h.2)]

/-- A sequence that begins with a write overflows if what it writes does not fit: at that write, or after it. -/
theorem putBits_then_full {m : Config.Impl} {e : EncHalf} {a n : Nat} {α : Type} (v : Word) {f : Unit → EncM α}
    (ha : a ≤ 64) (hacc : e.bs.AccInv) (h : e.bs.Full m (a + n))
    (hf : ∀ k : BitSink, k.AccInv → k.Full m n → ∃ e', f () { e with bs := k } = .error .overflow e') :
    ∃ e', (putBits m v a >>= f) e = .error .overflow e' := by
  rcases BitSink.takes_or_full m a h.1 with ht | ht
  · obtain ⟨k, h1, x1⟩ := putBits_extends v ha hacc ht
    rw [bind_ok h1]
    exact hf k x1.2.2 (BitSink.Full.after (by simpa using h) x1)
  · exact ⟨e, bind_error (putBits_full v ha ht) _⟩

/-! ## Flush -/

theorem acc_flush : ∀ (acc : Byte) (w : BitVec 3), acc.toNat % 2 ^ (8 - w.toNat) = 0 →
    bitsOf acc 8 = (bitsOf acc 8).take w.toNat ++ List.replicate (8 - w.toNat) false := by
  decide +kernel

theorem BitSink.flushed_of_sealed {k : BitSink} (h : k.sealed = true) : k.flushed = k := if_pos h

/-- `FLUSH` of an open sink: zero bits up to the byte boundary, and the seal (`41_bitstream.md` R102). -/
theorem BitSink.flushed_sealed {k : BitSink} (h : k.AccInv) (hs : k.sealed = false) :
    k.flushed.Sealed (k.bits ++ padding k.bitLen) := by
  have hlt := k.woff.isLt
  unfold BitSink.flushed
  rw [if_neg (by simp [hs])]
  by_cases hw : k.woff = 0
  · have hacc : k.acc = 0 := by
      have : k.acc.toNat % 2 ^ 8 = 0 := by simpa [BitSink.AccInv, hw] using h
      exact BitVec.eq_of_toNat_eq (by simpa [Nat.mod_eq_of_lt k.acc.isLt] using this)
    rw [if_pos hw]
    refine ⟨?_, rfl, hw, hacc⟩
    simp [BitSink.bits, padding, BitSink.bitLen, hw]
  · have hpos : 0 < k.woff.toNat := Nat.pos_of_ne_zero fun e => hw (BitVec.eq_of_toNat_eq e)
    rw [if_neg hw]
    refine ⟨?_, rfl, rfl, rfl⟩
    have ha := acc_flush k.acc k.woff h
    simp only [BitSink.bits, bytesBits_append, bytesBits_singleton, padding, BitSink.bitLen]
    rw [show (8 - (8 * k.buf.length + k.woff.toNat) % 8) % 8 = 8 - k.woff.toNat by omega]
    simp only [List.append_assoc]
    rw [← ha]
    exact congrArg _ (List.append_nil _)

end Sys2Proof.Machine
end

