-- ==== Sys2Proof/Laws/Encode.lean ====
section
/-! SUPPORT. What every micro-operation sequence of the encode half keeps, said once: the codec and the refusal
flags, the form of the sink, the announced windows, the history. -/

namespace Sys2Proof.Machine

/-- What an accepted sequence of the encode half does to the half: everything it keeps. -/
structure EncKeeps (m : Config.Impl) (e e' : EncHalf) : Prop where
  codec : e'.codec = e.codec
  cv : e'.status.cv = e.status.cv
  ovf : e'.status.ovf = e.status.ovf
  sent : e.status.sent = true → e'.status.sent = true
  accInv : e.bs.AccInv → e'.bs.AccInv
  appends : e.bs.AccInv → ∃ more, e'.bs.bits = e.bs.bits ++ more
  sealedInv : (e.bs.sealed = true → e.bs.woff = 0) → e'.bs.sealed = true → e'.bs.woff = 0
  capacity : e.bs.AccInv → (∀ cap ∈ m.sinkCap, e.bs.bitLen ≤ 8 * cap) → ∀ cap ∈ m.sinkCap, e'.bs.bitLen ≤ 8 * cap
  window : e.x.WindowInv → e'.x.WindowInv
  log2w : e'.c.log2w = e.c.log2w
  slz : (e.c.slz = Config.noWindow ∨ e.c.slz.toNat ∈ Config.lzSet) →
    e'.c.slz = Config.noWindow ∨ e'.c.slz.toNat ∈ Config.lzSet
  memory : Memory.wf 0 e.c.ring = true ∧ Memory.wf false e.c.tblv = true ∧ Memory.wf 0 e.c.tbl = true →
    Memory.wf 0 e'.c.ring = true ∧ Memory.wf false e'.c.tblv = true ∧ Memory.wf 0 e'.c.tbl = true
  history : Memory.wf 0 e.c.ring = true ∧ Memory.wf false e.c.tblv = true ∧ Memory.wf 0 e.c.tbl = true →
    e.c.HistoryInv → e'.c.HistoryInv

theorem EncKeeps.refl (m : Config.Impl) (e : EncHalf) : EncKeeps m e e :=
  ⟨rfl, rfl, rfl, id, id, fun _ => ⟨[], by simp⟩, id, fun _ => id, id, rfl, id, id, fun _ => id⟩

theorem EncKeeps.trans {m : Config.Impl} {e1 e2 e3 : EncHalf} (h : EncKeeps m e1 e2) (k : EncKeeps m e2 e3) :
    EncKeeps m e1 e3 where
  codec := k.codec.trans h.codec
  cv := k.cv.trans h.cv
  ovf := k.ovf.trans h.ovf
  sent := k.sent ∘ h.sent
  accInv := k.accInv ∘ h.accInv
  appends ha := by
    obtain ⟨l, hl⟩ := h.appends ha
    obtain ⟨l', hl'⟩ := k.appends (h.accInv ha)
    exact ⟨l ++ l', by rw [hl', hl, List.append_assoc]⟩
  sealedInv := k.sealedInv ∘ h.sealedInv
  capacity ha hc := k.capacity (h.accInv ha) (h.capacity ha hc)
  window := k.window ∘ h.window
  log2w := k.log2w.trans h.log2w
  slz := k.slz ∘ h.slz
  memory := k.memory ∘ h.memory
  history hm hh := k.history (h.memory hm) (h.history hm hh)

/-- A sequence that from the half `e` keeps all this when accepted, and can only be turned away as a
ContractViolation or an Overflow. -/
structure EncM.GoodAt {α : Type} (m : Config.Impl) (x : EncM α) (e : EncHalf) : Prop where
  ok : ∀ {a e'}, x e = .ok a e' → EncKeeps m e e'
  error : ∀ {c e'}, x e = .error c e' → c = .contractViolation ∨ c = .overflow

/-- A sequence that does so from every half. -/
abbrev EncM.Good {α : Type} (m : Config.Impl) (x : EncM α) : Prop := ∀ e, EncM.GoodAt m x e

theorem EncM.Good.bind {α β : Type} {m : Config.Impl} {x : EncM α} {f : α → EncM β} (hx : EncM.Good m x)
    (hf : ∀ a, EncM.Good m (f a)) : EncM.Good m (x >>= f) := fun e =>
  { ok := fun h => by
      obtain ⟨a, u, h1, h2⟩ := bind_eq_ok h
      exact ((hx e).ok h1).trans ((hf a u).ok h2)
    error := fun h => by
      rcases bind_cases h with ⟨a, u, -, h2⟩ | ⟨c, u, h1, h2⟩
      · exact (hf a u).error h2
      · injection h2 with h2 h3; subst h2; exact (hx e).error h1 }

theorem EncM.Good.pure {α : Type} (m : Config.Impl) (a : α) : EncM.Good m (pure a) := fun e =>
  { ok := fun h => by cases h; exact EncKeeps.refl _ _
    error := fun h => by cases h }

theorem EncM.Good.refuse {α : Type} (m : Config.Impl) {c : ErrCode} (h : c = .contractViolation ∨ c = .overflow) :
    EncM.Good m (fun e => .error c e : EncM α) := fun e =>
  { ok := fun h' => by cases h'
    error := fun h' => by cases h'; exact h }

theorem EncM.GoodAt.ite {α : Type} {m : Config.Impl} {p : Prop} [Decidable p] {x y : EncM α} {e : EncHalf}
    (hx : p → EncM.GoodAt m x e) (hy : ¬ p → EncM.GoodAt m y e) :
    EncM.GoodAt m (fun e => if p then x e else y e) e := by
  by_cases h : p
  · simp only [if_pos h]; exact ⟨(hx h).ok, (hx h).error⟩
  · simp only [if_neg h]; exact ⟨(hy h).ok, (hy h).error⟩

theorem EncM.Good.ite {α : Type} {m : Config.Impl} {p : Prop} [Decidable p] {x y : EncM α}
    (hx : p → EncM.Good m x) (hy : ¬ p → EncM.Good m y) : EncM.Good m (if p then x else y) := by
  by_cases h : p
  · rw [if_pos h]; exact hx h
  · rw [if_neg h]; exact hy h

/-! ## The sink -/

/-- A sink that was extended within its capacity. -/
theorem EncKeeps.ofExtends {m : Config.Impl} {e : EncHalf} {k : BitSink} {n : Nat} (ht : e.bs.Takes m n)
    (hx : e.bs.AccInv → ∃ l : List Bool, l.length = n ∧ k.Extends e.bs l) (hs : k.sealed = e.bs.sealed) :
    EncKeeps m e { e with bs := k } where
  codec := rfl
  cv := rfl
  ovf := rfl
  sent := id
  accInv ha := by obtain ⟨l, -, h⟩ := hx ha; exact h.2.2
  appends ha := by obtain ⟨l, -, h⟩ := hx ha; exact ⟨l, h.1⟩
  sealedInv _ h := by simp [hs, ht.1] at h
  capacity ha _ cap hc := by
    obtain ⟨l, hl, h⟩ := hx ha
    have := h.bitLen; have := ht.2 cap hc
    show k.bitLen ≤ _
    omega
  window := id
  log2w := rfl
  slz := id
  memory := id
  history _ := id

theorem BitSink.push_sealed (k : BitSink) (b : Bool) : (k.push b).sealed = k.sealed := by
  unfold BitSink.push; split_ifs <;> rfl

theorem BitSink.pushBits_sealed (v : Word) (n : Nat) (k : BitSink) : (k.pushBits v n).sealed = k.sealed := by
  induction n generalizing k with
  | zero => rfl
  | succ n ih => rw [BitSink.pushBits, ih, BitSink.push_sealed]

theorem putBits_good (m : Config.Impl) (v : Word) (n : Nat) : EncM.Good m (putBits m v n) := fun e =>
  { ok := fun {a e'} h => by
      rcases putBits_cases m v n e with ⟨-, ht, h'⟩ | ⟨-, h'⟩ | ⟨-, h'⟩ <;> rw [h'] at h <;> cases h
      exact EncKeeps.ofExtends ht (fun ha => ⟨_, natBits_length _ _, BitSink.pushBits_extends ha v n⟩)
        (BitSink.pushBits_sealed v n _)
    error := fun {c e'} h => by
      rcases putBits_cases m v n e with ⟨-, ht, h'⟩ | ⟨-, h'⟩ | ⟨-, h'⟩ <;> rw [h'] at h <;> cases h <;> simp }

theorem putBit_good (m : Config.Impl) (b : Bool) : EncM.Good m (putBit m b) := fun e =>
  { ok := fun {a e'} h => by
      rcases putBit_cases m b e with ⟨ht, h'⟩ | ⟨-, h'⟩ | ⟨-, h'⟩ <;> rw [h'] at h <;> cases h
      exact EncKeeps.ofExtends ht (fun ha => ⟨_, rfl, BitSink.push_extends ha b⟩) (BitSink.push_sealed _ b)
    error := fun {c e'} h => by
      rcases putBit_cases m b e with ⟨ht, h'⟩ | ⟨-, h'⟩ | ⟨-, h'⟩ <;> rw [h'] at h <;> cases h <;> simp }

theorem padding_bitLen (n : Nat) : n + (padding n).length = 8 * ((n + 7) / 8) := by
  simp [padding]; omega

theorem flushSink_good (m : Config.Impl) : EncM.Good m flushSink := fun e =>
  { ok := fun {a e'} h => by
      cases h
      refine ⟨rfl, rfl, rfl, id, fun ha => ?_, fun ha => ?_, fun hs h => ?_, fun ha hc cap hcap => ?_, id, rfl, id, id,
        fun _ => id⟩
      · cases hs : e.bs.sealed with
        | true => rw [BitSink.flushed_of_sealed hs]; exact ha
        | false =>
          obtain ⟨-, -, hw, hacc⟩ := BitSink.flushed_sealed ha hs
          simp [BitSink.AccInv, hw, hacc]
      · cases hs : e.bs.sealed with
        | true => exact ⟨[], by rw [BitSink.flushed_of_sealed hs]; simp⟩
        | false => exact ⟨_, (BitSink.flushed_sealed ha hs).1⟩
      · show e.bs.flushed.woff = 0
        unfold BitSink.flushed
        split_ifs with h1 h2
        · exact hs h1
        · exact h2
        · rfl
      · show e.bs.flushed.bitLen ≤ _
        have hle := hc cap hcap
        cases hs : e.bs.sealed with
        | true => rw [BitSink.flushed_of_sealed hs]; exact hle
        | false =>
          have h := congrArg List.length (BitSink.flushed_sealed ha hs).1
          rw [List.length_append, BitSink.bits_length, BitSink.bits_length, padding_bitLen] at h
          omega
    error := fun h => by cases h }

theorem markSent_good (m : Config.Impl) (v : Word) : EncM.Good m (markSent v) := fun e =>
  { ok := fun {a e'} h => by
      cases h
      split_ifs
      · exact ⟨rfl, rfl, rfl, fun _ => rfl, id, fun _ => ⟨[], by simp⟩, id, fun _ => id, id, rfl, id, id, fun _ => id⟩
      · exact EncKeeps.refl _ _
    error := fun h => by cases h }

/-! ## XOR64 and erasure -/

/-- Writing X64 registers whose window is sound. -/
theorem setEncX_good (m : Config.Impl) (x : XorRegs) (e : EncHalf) (hx : e.x.WindowInv → x.WindowInv) :
    EncM.GoodAt m (setEncX x) e where
  ok h := by
    cases h
    exact ⟨rfl, rfl, rfl, id, id, fun _ => ⟨[], by simp⟩, id, fun _ => id, hx, rfl, id, id, fun _ => id⟩
  error h := by cases h

/-- Sequences that write the sink alone. -/
structure EncM.SinkOnly (m : Config.Impl) (x : EncM Unit) : Prop where
  good : EncM.Good m x
  regs : ∀ {e a e'}, x e = .ok a e' → e' = { e with bs := e'.bs }

theorem EncM.SinkOnly.bind {m : Config.Impl} {x y : EncM Unit} (hx : EncM.SinkOnly m x)
    (hy : EncM.SinkOnly m y) : EncM.SinkOnly m (do x; y) where
  good := hx.good.bind fun _ => hy.good
  regs h := by
    obtain ⟨a, u, h1, h2⟩ := bind_eq_ok h
    rw [hy.regs h2, hx.regs h1]

theorem EncM.SinkOnly.pure (m : Config.Impl) : EncM.SinkOnly m (pure ()) :=
  ⟨EncM.Good.pure m (), fun h => by cases h; rfl⟩

theorem EncM.SinkOnly.ite {m : Config.Impl} {p : Prop} [Decidable p] {x y : EncM Unit}
    (hx : EncM.SinkOnly m x) (hy : EncM.SinkOnly m y) : EncM.SinkOnly m (if p then x else y) := by
  by_cases h : p
  · rw [if_pos h]; exact hx
  · rw [if_neg h]; exact hy

theorem putBits_sinkOnly (m : Config.Impl) (v : Word) (n : Nat) : EncM.SinkOnly m (putBits m v n) where
  good := putBits_good m v n
  regs {e a e'} h := by
    rcases putBits_cases m v n e with ⟨-, -, h'⟩ | ⟨-, h'⟩ | ⟨-, h'⟩ <;> rw [h'] at h <;> cases h; rfl

/-- Sink writes, then X64 registers that stay sound. -/
theorem EncM.SinkOnly.thenX {m : Config.Impl} {x : EncM Unit} (hx : EncM.SinkOnly m x) (r : XorRegs) (e : EncHalf)
    (hr : e.x.WindowInv → r.WindowInv) : EncM.GoodAt m (do x; setEncX r) e where
  ok h := by
    obtain ⟨u, e1, h1, h2⟩ := bind_eq_ok h
    have hreg := hx.regs h1
    exact ((hx.good e).ok h1).trans ((setEncX_good m r e1 (by rw [hreg]; exact hr)).ok h2)
  error h := by
    rcases bind_cases h with ⟨a, u, -, h2⟩ | ⟨c, u, h1, h2⟩
    · cases h2
    · injection h2 with h2 h3; subst h2; exact (hx.good e).error h1

/-- The window of a XOR that is not 0 is sound. -/
theorem window_sound {xor : Word} (h : xor ≠ 0) (v : Word) (first : Bool) :
    XorRegs.WindowInv ⟨first, v, true, BitVec.ofNat 5 (lzRound (clz xor)), BitVec.ofNat 7 (ctz xor)⟩ := by
  intro _
  have h24 := lzRound_le_24 (clz xor)
  have h63 := lzRound_clz_add_ctz h
  have h1 : (BitVec.ofNat 5 (lzRound (clz xor))).toNat = lzRound (clz xor) := by simp; omega
  have h2 : (BitVec.ofNat 7 (ctz xor)).toNat = ctz xor := by simp; omega
  simp only [h1, h2]
  exact ⟨lzRound_mem _, h63⟩

theorem putFirst_good (m : Config.Impl) (v : Word) (e : EncHalf) : EncM.GoodAt m (putFirst m v e.x) e := by
  have h : putFirst m v e.x =
      ((do
          putBits m (BitVec.ofNat 64 (ctz v)) 7
          if ctz v < 64 then putBits m (shr v (ctz v + 1)) (63 - ctz v) else pure () : EncM Unit) >>=
        fun _ => setEncX { e.x with first := false, sv := v }) := by
    unfold putFirst; split_ifs <;> simp
  rw [h]
  exact ((putBits_sinkOnly ..).bind ((putBits_sinkOnly ..).ite (EncM.SinkOnly.pure m))).thenX _ e id

theorem putReuse_sinkOnly (m : Config.Impl) (xor : Word) (x : XorRegs) : EncM.SinkOnly m (putReuse m xor x) := by
  unfold putReuse
  exact ((putBits_sinkOnly ..).bind (putBits_sinkOnly ..)).ite (putBits_sinkOnly ..)

theorem putWindow_good (m : Config.Impl) (v : Word) {xor : Word} (h : xor ≠ 0) (e : EncHalf) :
    EncM.GoodAt m (putWindow m v xor (lzRound (clz xor)) (ctz xor) e.x) e := by
  unfold putWindow
  have hn : ∀ lz tz cb, EncM.SinkOnly m (putNews m xor lz tz cb) := fun _ _ _ =>
    (putBits_sinkOnly ..).bind (putBits_sinkOnly ..)
  have hl : ∀ lz tz cb, EncM.SinkOnly m (putNewl m xor lz tz cb) := fun _ _ _ =>
    (putBits_sinkOnly ..).bind (putBits_sinkOnly ..)
  simp only []
  split_ifs
  · exact (hn ..).thenX _ e fun _ => window_sound h v _
  · exact (hl ..).thenX _ e fun _ => window_sound h v _

theorem x64Put_good (m : Config.Impl) (v : Word) : EncM.Good m (x64Put m v) := fun e =>
  have key : EncM.GoodAt m (fun e' =>
      if e.x.first then putFirst m v e.x e'
      else if e.x.sv ^^^ v = 0 then (do putSame m; setEncX { e.x with sv := v }) e'
      else if reusesWindow e.x (e.x.sv ^^^ v) then
        (do putReuse m (e.x.sv ^^^ v) e.x; setEncX { e.x with sv := v }) e'
      else putWindow m v (e.x.sv ^^^ v) (lzRound (clz (e.x.sv ^^^ v))) (ctz (e.x.sv ^^^ v)) e.x e') e :=
    EncM.GoodAt.ite (fun _ => putFirst_good m v e) fun _ =>
      EncM.GoodAt.ite (fun _ => (putBits_sinkOnly ..).thenX _ e id) fun h =>
        EncM.GoodAt.ite (fun _ => (putReuse_sinkOnly ..).thenX _ e id) fun _ => putWindow_good m v h e
  ⟨key.ok, key.error⟩

theorem x64Encode_good (m : Config.Impl) (v : Word) : EncM.Good m (x64Encode m v) :=
  EncM.Good.bind (markSent_good m v) fun _ => x64Put_good m v

theorem x64Finish_good (m : Config.Impl) : EncM.Good m (x64Finish m) :=
  EncM.Good.bind (x64Put_good m _) fun _ => EncM.Good.bind (putBit_good m _) fun _ => flushSink_good m

theorem putControl_good (m : Config.Impl) (betaStar : Nat) : EncM.Good m (putControl m betaStar) := fun e =>
  have key : EncM.GoodAt m (fun e' =>
      if e.r.lbsv = true ∧ betaStar = e.r.lbs.toNat then putBits m 0 1 e'
      else (do putBits m (BitVec.ofNat 64 (48 + betaStar)) 6
               fun e => .ok () { e with r := ⟨true, BitVec.ofNat 4 betaStar⟩ } : EncM Unit) e') e :=
    EncM.GoodAt.ite (fun _ => putBits_good m _ _ e) fun _ =>
      EncM.Good.bind (putBits_good m _ _) (fun _ e =>
        { ok := fun h => by
            cases h
            exact ⟨rfl, rfl, rfl, id, id, fun _ => ⟨[], by simp⟩, id, fun _ => id, id, rfl, id, id, fun _ => id⟩
          error := fun h => by cases h }) e
  ⟨key.ok, key.error⟩

theorem putPlain_good (m : Config.Impl) (v : Word) : EncM.Good m (putPlain m v) :=
  EncM.Good.bind (putBits_good m _ _) fun _ => x64Encode_good m v

theorem eraEncode_good (m : Config.Impl) (p : Word) : EncM.Good m (eraEncode m p) := by
  unfold eraEncode
  split
  all_goals first
    | exact putPlain_good m _
    | exact EncM.Good.ite (fun _ => EncM.Good.bind (putControl_good m _) fun _ => x64Encode_good m _) fun _ => putPlain_good m _

theorem eraFinish_good (m : Config.Impl) : EncM.Good m (eraFinish m) :=
  EncM.Good.bind (putBits_good m _ _) fun _ => x64Finish_good m

/-! ## The history -/

theorem two_pow_toNat (l : BitVec 6) : windowSize l = 2 ^ l.toNat := rfl

/-- Storing a value keeps the history true. -/
theorem ChpEncRegs.store_history {c : ChpEncRegs} {p : Nat} (v : Word)
    (hm : Memory.wf 0 c.ring = true ∧ Memory.wf false c.tblv = true ∧ Memory.wf 0 c.tbl = true)
    (hf : c.first = false)
    (hp : ∀ key, Memory.read false c.tblv key = true → Memory.read 0 c.tbl key < p ∧
      (p - Memory.read 0 c.tbl key < windowSize c.log2w →
        keyOf c.log2w (c.slotValue (c.slot (Memory.read 0 c.tbl key))) = key)) :
    (c.store p v).HistoryInv := by
  obtain ⟨hr, hv, ht⟩ := hm
  refine ⟨fun h => ?_, fun key hk => ?_⟩
  · simp [hf] at h
  · simp only [ChpEncRegs.store, Memory.read_write _ _ _ hv, Memory.read_write _ _ _ ht] at hk ⊢
    by_cases hkey : key = keyOf c.log2w v
    · rw [if_pos hkey]
      refine ⟨Nat.le_refl _, fun _ => ?_⟩
      show keyOf c.log2w (Memory.read 0 (Memory.write 0 c.ring (c.slot p) v) (c.slot p)) = key
      rw [Memory.read_write _ _ _ hr, if_pos rfl, hkey]
    · rw [if_neg hkey] at hk ⊢
      obtain ⟨hlt, hin⟩ := hp key hk
      refine ⟨hlt.le, fun hw => ?_⟩
      have hne : c.slot (Memory.read 0 c.tbl key) ≠ c.slot p := by
        intro he
        have hd := (Nat.modEq_iff_dvd' hlt.le).1 he
        have := Nat.le_of_dvd (by omega) hd
        omega
      show keyOf c.log2w (Memory.read 0 (Memory.write 0 c.ring (c.slot p) v)
        (c.slot (Memory.read 0 c.tbl key))) = key
      rw [Memory.read_write _ _ _ hr, if_neg hne]
      exact hin hw

theorem ChpEncRegs.store_memory {c : ChpEncRegs} (p : Nat) (v : Word)
    (hm : Memory.wf 0 c.ring = true ∧ Memory.wf false c.tblv = true ∧ Memory.wf 0 c.tbl = true) :
    Memory.wf 0 (c.store p v).ring = true ∧ Memory.wf false (c.store p v).tblv = true ∧
      Memory.wf 0 (c.store p v).tbl = true :=
  ⟨Memory.wf_write _ _ hm.1, Memory.wf_write _ _ hm.2.1, Memory.wf_write _ _ hm.2.2⟩

/-- Writing the announced count alone. -/
theorem EncKeeps.ofSlz (m : Config.Impl) (e : EncHalf) (slz : BitVec 7)
    (h : slz = Config.noWindow ∨ slz.toNat ∈ Config.lzSet) : EncKeeps m e { e with c := { e.c with slz := slz } } :=
  ⟨rfl, rfl, rfl, id, id, fun _ => ⟨[], by simp⟩, id, fun _ => id, id, rfl, fun _ => h, id, fun _ h => h⟩

/-- A sequence of sink writes and announced counts: all that a CHP record does before the history update. -/
structure EncM.RecordOnly (m : Config.Impl) (x : EncM Unit) (e : EncHalf) : Prop where
  good : EncM.GoodAt m x e
  regs : ∀ {a e'}, x e = .ok a e' → e' = { e with bs := e'.bs, c := { e.c with slz := e'.c.slz } }

theorem lzRound_slz (a : Word) : (BitVec.ofNat 7 (lzRound (clz a))).toNat ∈ Config.lzSet := by
  have := lzRound_le_24 (clz a)
  rw [BitVec.toNat_ofNat, Nat.mod_eq_of_lt (by omega)]
  exact lzRound_mem _

/-- Sink writes, then an announced count. -/
theorem EncM.SinkOnly.thenSlz {m : Config.Impl} {x : EncM Unit} (hx : EncM.SinkOnly m x) (slz : BitVec 7)
    (e : EncHalf) (h : slz = Config.noWindow ∨ slz.toNat ∈ Config.lzSet) :
    EncM.RecordOnly m (do x; setEncC { e.c with slz := slz }) e where
  good :=
    { ok := fun h' => by
        obtain ⟨u, e1, h1, h2⟩ := bind_eq_ok h'
        have hreg := hx.regs h1
        cases h2
        refine ((hx.good e).ok h1).trans ?_
        have : e.c = e1.c := by rw [hreg]
        rw [this]
        exact EncKeeps.ofSlz m e1 slz h
      error := fun h' => by
        rcases bind_cases h' with ⟨a, u, -, h2⟩ | ⟨c, u, h1, h2⟩
        · cases h2
        · injection h2 with h2 h3; subst h2; exact (hx.good e).error h1 }
  regs h' := by
    obtain ⟨u, e1, h1, h2⟩ := bind_eq_ok h'
    have hreg := hx.regs h1
    cases h2
    rw [hreg]

theorem EncM.SinkOnly.record {m : Config.Impl} {x : EncM Unit} (hx : EncM.SinkOnly m x) (e : EncHalf) :
    EncM.RecordOnly m x e :=
  ⟨hx.good e, fun h => by rw [hx.regs h]⟩

theorem putPrevn_record (m : Config.Impl) (xor : Word) (e : EncHalf) :
    EncM.RecordOnly m (putPrevn m e.c xor) e := by
  have hs : EncM.SinkOnly m (do
      putBits m (BitVec.ofNat 64 (24 + (lzIdx (lzRound (clz xor))).toNat)) 5
      putBits m xor (64 - lzRound (clz xor))) := (putBits_sinkOnly ..).bind (putBits_sinkOnly ..)
  have hrun : putPrevn m e.c xor e = (do
      putBits m (BitVec.ofNat 64 (24 + (lzIdx (lzRound (clz xor))).toNat)) 5
      putBits m xor (64 - lzRound (clz xor)) : EncM Unit)
        { e with c := { e.c with slz := BitVec.ofNat 7 (lzRound (clz xor)) } } := rfl
  refine ⟨⟨fun h => ?_, fun h => ?_⟩, fun h => ?_⟩ <;> rw [hrun] at h
  · exact (EncKeeps.ofSlz m e _ (.inr (lzRound_slz xor))).trans ((hs.good _).ok h)
  · exact (hs.good _).error h
  · rw [hs.regs h]

theorem putCRecord_record (m : Config.Impl) (v : Word) (e : EncHalf) :
    EncM.RecordOnly m (putCRecord m v e.c) e := by
  unfold putCRecord
  split_ifs
  · exact (putBits_sinkOnly ..).thenSlz _ e (.inl rfl)
  · have h : ∀ ref xor, putHist m e.c ref xor =
        ((do
            putBits m (BitVec.ofNat 64 (512 * (windowSize e.c.log2w + ref) +
              64 * (lzIdx (lzRound (clz xor))).toNat + (64 - lzRound (clz xor) - ctz xor))) (e.c.log2w.toNat + 11)
            putBits m (shr xor (ctz xor)) (64 - lzRound (clz xor) - ctz xor) : EncM Unit) >>=
          fun _ => setEncC { e.c with slz := Config.noWindow }) := by simp [putHist]
    rw [h]
    exact ((putBits_sinkOnly ..).bind (putBits_sinkOnly ..)).thenSlz _ e (.inl rfl)
  · exact ((putBits_sinkOnly ..).bind (putBits_sinkOnly ..)).record e
  · exact putPrevn_record m _ e

theorem putCFirst_good (m : Config.Impl) (v : Word) (e : EncHalf) (hfirst : e.c.first = true) :
    EncM.GoodAt m (putCFirst m v e.c) e where
  ok h := by
    obtain ⟨u, e1, h1, h2⟩ := bind_eq_ok h
    have hreg := (putBits_sinkOnly m v 64).regs h1
    cases h2
    refine ((putBits_good m v 64 e).ok h1).trans ?_
    have hc : e.c = e1.c := by rw [hreg]
    rw [hc] at hfirst ⊢
    refine ⟨rfl, rfl, rfl, id, id, fun _ => ⟨[], by simp⟩, id, fun _ => id, id, rfl, id, ChpEncRegs.store_memory 0 v,
      fun hm hh => ChpEncRegs.store_history (c := { e1.c with first := false }) v hm rfl fun key hk => ?_⟩
    exact absurd hk (by simp [(hh.1 hfirst).2 key])
  error h := by
    rcases bind_cases h with ⟨a, u, -, h2⟩ | ⟨c, u, h1, h2⟩
    · cases h2
    · injection h2 with h2 h3; subst h2; exact (putBits_good m v 64 e).error h1

theorem updateHistory_good (m : Config.Impl) (v : Word) (e : EncHalf) (hf : e.c.first = false) :
    EncM.GoodAt m (updateHistory v) e where
  ok h := by
    cases h
    refine ⟨rfl, rfl, rfl, id, id, fun _ => ⟨[], by simp⟩, id, fun _ => id, id, rfl, id, ChpEncRegs.store_memory _ v,
      fun hm hh => ChpEncRegs.store_history v hm hf fun key hk => ?_⟩
    obtain ⟨h1, h2⟩ := hh.2 key hk
    exact ⟨by omega, fun hw => h2 (by omega)⟩
  error h := by cases h

theorem chpPut_good (m : Config.Impl) (v : Word) : EncM.Good m (chpPut m v) := fun e =>
  have key : EncM.GoodAt m (fun e' =>
      if e.bs.sealed then .error .contractViolation e'
      else if e.c.first then putCFirst m v e.c e'
      else if indexFull m e.c.index then .error .overflow e'
      else (do putCRecord m v e.c; updateHistory v) e') e :=
    EncM.GoodAt.ite (fun _ => EncM.Good.refuse m (.inl rfl) e) fun _ =>
      EncM.GoodAt.ite (fun h => putCFirst_good m v e h) fun hf =>
        EncM.GoodAt.ite (fun _ => EncM.Good.refuse m (.inr rfl) e) fun _ =>
          { ok := fun h => by
              obtain ⟨u, e1, h1, h2⟩ := bind_eq_ok h
              have hr := putCRecord_record m v e
              refine (hr.good.ok h1).trans ((updateHistory_good m v e1 ?_).ok h2)
              rw [hr.regs h1]; simpa using hf
            error := fun h => by
              rcases bind_cases h with ⟨a, u, -, h2⟩ | ⟨c, u, h1, h2⟩
              · cases h2
              · injection h2 with h2 h3; subst h2; exact (putCRecord_record m v e).good.error h1 }
  ⟨key.ok, key.error⟩

theorem chpEncode_good (m : Config.Impl) (v : Word) : EncM.Good m (chpEncode m v) :=
  EncM.Good.bind (markSent_good m v) fun _ => chpPut_good m v

theorem chpFinish_good (m : Config.Impl) : EncM.Good m (chpFinish m) :=
  EncM.Good.bind (chpPut_good m _) fun _ => flushSink_good m

/-! ## Whole blocks -/

theorem encodeWith_good (m : Config.Impl) (k : Codec) (v : Word) : EncM.Good m (encodeWith m k v) := by
  cases k
  · exact EncM.Good.refuse m (.inl rfl)
  · exact x64Encode_good m v
  · exact eraEncode_good m v
  · exact chpEncode_good m v

theorem finishWith_good (m : Config.Impl) (k : Codec) : EncM.Good m (finishWith m k) := by
  cases k
  · exact EncM.Good.refuse m (.inl rfl)
  · exact x64Finish_good m
  · exact eraFinish_good m
  · exact chpFinish_good m

theorem encodeAll_good (m : Config.Impl) (k : Codec) (data : List Word) : EncM.Good m (encodeAll m k data) := by
  induction data with
  | nil => exact EncM.Good.pure m ()
  | cons v vs ih => exact EncM.Good.bind (encodeWith_good m k v) fun _ => ih

theorem compressBody_good (m : Config.Impl) (k : Codec) (data : List Word) :
    EncM.Good m (compressBody m k data) :=
  EncM.Good.bind (encodeAll_good m k data) fun _ => EncM.Good.bind (finishWith_good m k) fun _ e =>
    { ok := fun h => by cases h; exact EncKeeps.refl _ _
      error := fun h => by cases h }

/-- The whole of what an encode-half command can do: everything above is kept and it answers its response, or the
state is the old one but for the sticky flag and the response. -/
theorem runEnc_good {m : Config.Impl} {x : EncM Response} (hx : EncM.Good m x) (s : State) :
    (∃ r e, x s.e = .ok r e ∧ EncKeeps m s.e e ∧ runEnc x s = { s with e := e, resp := some r }) ∨
      runEnc x s = s.encCv ∨ runEnc x s = s.encOvf := by
  rcases runEnc_cases x s with ⟨r, e, h, h'⟩ | ⟨c, e, h, h'⟩
  · exact .inl ⟨r, e, h, (hx s.e).ok h, h'⟩
  · rcases (hx s.e).error h with rfl | rfl
    · exact .inr (.inl h')
    · exact .inr (.inr h')

end Sys2Proof.Machine
end

