-- ==== Sys2Proof/Laws/Exec.lean ====
section
/-! SUPPORT. What an instruction can do, by its kind: the commands of the encode half are one atomic sequence,
the records of the decode half one decode rule; `DEC.VAL` in its five cases; the loop of `DECOMPRESS`. -/

namespace Sys2Proof.Machine

/-! ## Encode half -/

/-- A refused command is a sequence that refuses at once. -/
theorem refuseEnc_eq_runEnc (s : State) (c : ErrCode) :
    s.refuseEnc c = runEnc (fun e => .error c e) s := rfl

/-- A unit sequence that answers `Ok` is good when the sequence is. -/
theorem EncM.Good.answers {m : Config.Impl} {x : EncM Unit} (hx : EncM.Good m x) (r : Response) :
    EncM.Good m (do x; Pure.pure r : EncM Response) := EncM.Good.bind hx fun _ => EncM.Good.pure m r

/-- What `ENC.VAL` and `ENC.CLOSE` share: two refusals, then the selected unit. -/
def guarded (x : Codec → EncM Unit) : EncM Response := fun e =>
  if e.codec = .raw then .error .contractViolation e
  else if e.bs.sealed then .error .contractViolation e
  else (do x e.codec; pure Response.ok : EncM Response) e

theorem guarded_good {m : Config.Impl} {x : Codec → EncM Unit} (hx : ∀ k, EncM.Good m (x k)) :
    EncM.Good m (guarded x) := fun e =>
  have key : EncM.GoodAt m (fun e' =>
      if e.codec = .raw then .error .contractViolation e'
      else if e.bs.sealed then .error .contractViolation e'
      else (do x e.codec; pure Response.ok : EncM Response) e') e :=
    EncM.GoodAt.ite (fun _ => EncM.Good.refuse m (.inl rfl) e) fun _ =>
      EncM.GoodAt.ite (fun _ => EncM.Good.refuse m (.inl rfl) e) fun _ => (hx e.codec).answers .ok e
  ⟨key.ok, key.error⟩

theorem execEncVal_eq (v : Word) (s : State) :
    execEncVal v s = .next (runEnc (guarded fun k => encodeWith s.impl k v) s) := by
  unfold execEncVal
  by_cases h1 : s.e.codec = .raw
  · rw [if_pos h1, refuseEnc_eq_runEnc]
    simp [runEnc, guarded, h1]
  rw [if_neg h1]
  by_cases h2 : s.e.bs.sealed = true
  · rw [if_pos h2, refuseEnc_eq_runEnc]
    simp [runEnc, guarded, h1, h2]
  · rw [if_neg h2]
    simp [runEnc, guarded, h1, h2]

theorem execEncClose_eq (s : State) :
    execEncClose s = .next (runEnc (guarded fun k => finishWith s.impl k) s) := by
  unfold execEncClose
  by_cases h1 : s.e.codec = .raw
  · rw [if_pos h1, refuseEnc_eq_runEnc]
    simp [runEnc, guarded, h1]
  rw [if_neg h1]
  by_cases h2 : s.e.bs.sealed = true
  · rw [if_pos h2, refuseEnc_eq_runEnc]
    simp [runEnc, guarded, h1, h2]
  · rw [if_neg h2]
    simp [runEnc, guarded, h1, h2]

/-- `BYTES` as a sequence. -/
theorem execBytes_eq (s : State) :
    execBytes s = .next (runEnc (fun e =>
      if e.bs.sealed then .ok (.bytes e.bs.buf) e else .error .contractViolation e) s) := by
  unfold execBytes
  by_cases h : s.e.bs.sealed = true
  · rw [if_pos h]; simp [runEnc, h, State.respond]
  · rw [if_neg h, refuseEnc_eq_runEnc]; simp [runEnc, h]

theorem bytes_good (m : Config.Impl) : EncM.Good m (fun e =>
    if e.bs.sealed then .ok (.bytes e.bs.buf) e else .error .contractViolation e : EncM Response) := fun e =>
  { ok := fun h => by
      split_ifs at h; cases h; exact EncKeeps.refl _ _
    error := fun h => by
      split_ifs at h; cases h; exact .inl rfl }

/-- Every command of the encode half but `ENC.OPEN` and `COMPRESS` is one atomic sequence over the half. -/
theorem exec_encode (i : Instr) (m : Config.Impl) (hi : i.isEncode = true) :
    (∃ k, i = .encOpen k) ∨ (∃ k vs, i = .compress k vs) ∨
      ∃ x : EncM Response, EncM.Good m x ∧ ∀ s : State, s.impl = m → exec i s = .next (runEnc x s) := by
  cases i with
  | encOpen k => exact .inl ⟨k, rfl⟩
  | compress k vs => exact .inr (.inl ⟨k, vs, rfl⟩)
  | wbit b => exact .inr (.inr ⟨_, (putBit_good m b).answers .ok, fun s hs => by rw [← hs]; rfl⟩)
  | wbits v n => exact .inr (.inr ⟨_, (putBits_good m v n.toNat).answers .ok, fun s hs => by rw [← hs]; rfl⟩)
  | flush => exact .inr (.inr ⟨_, (flushSink_good m).answers .ok, fun s hs => rfl⟩)
  | bytes => exact .inr (.inr ⟨_, bytes_good m, fun s hs => execBytes_eq s⟩)
  | encVal v =>
    exact .inr (.inr ⟨_, guarded_good fun k => encodeWith_good m k v, fun s hs => by rw [← hs]; exact execEncVal_eq v s⟩)
  | encClose =>
    exact .inr (.inr ⟨_, guarded_good fun k => finishWith_good m k, fun s hs => by rw [← hs]; exact execEncClose_eq s⟩)
  | x64Enc v => exact .inr (.inr ⟨_, (x64Encode_good m v).answers .ok, fun s hs => by rw [← hs]; rfl⟩)
  | eraEnc v => exact .inr (.inr ⟨_, (eraEncode_good m v).answers .ok, fun s hs => by rw [← hs]; rfl⟩)
  | chpEnc v => exact .inr (.inr ⟨_, (chpEncode_good m v).answers .ok, fun s hs => by rw [← hs]; rfl⟩)
  | x64Close => exact .inr (.inr ⟨_, (x64Finish_good m).answers .ok, fun s hs => by rw [← hs]; rfl⟩)
  | eraClose => exact .inr (.inr ⟨_, (eraFinish_good m).answers .ok, fun s hs => by rw [← hs]; rfl⟩)
  | chpClose => exact .inr (.inr ⟨_, (chpFinish_good m).answers .ok, fun s hs => by rw [← hs]; rfl⟩)
  | _ => cases hi

/-! ## Decode half -/

/-- The dispatch rows of the decode half and the wire records are one decode rule each. -/
theorem exec_record (i : Instr) (m : Config.Impl) (hi : i.isDecode = true) :
    (∃ data, i = .load data) ∨ (∃ k, i = .decOpen k) ∨ i = .rbit ∨ (∃ n, i = .rbits n) ∨ i = .decVal ∨
      (∃ k data, i = .decompress k data) ∨
      ∃ x : DecM Response, (∀ d, DecM.GoodAt 2 x d) ∧ ∀ s : State, s.impl = m → exec i s = .next (runDec x s) := by
  have deliver : ∀ {x : DecM Word}, (∀ d, DecM.GoodAt 2 x d) →
      ∀ d, DecM.GoodAt 2 (do let v ← x; x64Deliver v : DecM Response) d := fun h d =>
    (h d).bind (n := 0) fun v d' _ => x64Deliver_good v d'
  cases i with
  | load data => exact .inl ⟨data, rfl⟩
  | decOpen k => exact .inr (.inl ⟨k, rfl⟩)
  | rbit => exact .inr (.inr (.inl rfl))
  | rbits n => exact .inr (.inr (.inr (.inl ⟨n, rfl⟩)))
  | decVal => exact .inr (.inr (.inr (.inr (.inl rfl))))
  | decompress k data => exact .inr (.inr (.inr (.inr (.inr (.inl ⟨k, data, rfl⟩)))))
  | x64Dec => exact .inr (.inr (.inr (.inr (.inr (.inr ⟨_, x64Decode_good, fun s hs => rfl⟩)))))
  | eraDec => exact .inr (.inr (.inr (.inr (.inr (.inr ⟨_, eraDecode_good, fun s hs => rfl⟩)))))
  | chpDec =>
    exact .inr (.inr (.inr (.inr (.inr (.inr ⟨_, chpDecode_good m, fun s hs => by rw [← hs]; rfl⟩)))))
  | xFirst tz p => exact .inr (.inr (.inr (.inr (.inr (.inr ⟨_, deliver (getFirst_good tz p), fun s hs => rfl⟩)))))
  | xSame => exact .inr (.inr (.inr (.inr (.inr (.inr ⟨_, deliver getSame_good, fun s hs => rfl⟩)))))
  | xReuse p => exact .inr (.inr (.inr (.inr (.inr (.inr ⟨_, deliver (getReuse_good p), fun s hs => rfl⟩)))))
  | xNews a b p => exact .inr (.inr (.inr (.inr (.inr (.inr ⟨_, deliver (getNews_good a b p), fun s hs => rfl⟩)))))
  | xNewl a b p => exact .inr (.inr (.inr (.inr (.inr (.inr ⟨_, deliver (getNewl_good a b p), fun s hs => rfl⟩)))))
  | eSameb => exact .inr (.inr (.inr (.inr (.inr (.inr ⟨_, getE_good .sameb, fun s hs => rfl⟩)))))
  | ePlain => exact .inr (.inr (.inr (.inr (.inr (.inr ⟨_, getE_good .plain, fun s hs => rfl⟩)))))
  | eNewb b => exact .inr (.inr (.inr (.inr (.inr (.inr ⟨_, getE_good (.newb b), fun s hs => rfl⟩)))))
  | cFirst p => exact .inr (.inr (.inr (.inr (.inr (.inr ⟨_, getC_good m (.first p), fun s hs => rfl⟩)))))
  | cCopy r =>
    exact .inr (.inr (.inr (.inr (.inr (.inr ⟨_, getC_good m (.copy r), fun s hs => by rw [← hs]; rfl⟩)))))
  | cHist r a b p =>
    exact .inr (.inr (.inr (.inr (.inr (.inr ⟨_, getC_good m (.hist r a b p), fun s hs => by rw [← hs]; rfl⟩)))))
  | cPrev p =>
    exact .inr (.inr (.inr (.inr (.inr (.inr ⟨_, getC_good m (.prev p), fun s hs => by rw [← hs]; rfl⟩)))))
  | cPrevn a p =>
    exact .inr (.inr (.inr (.inr (.inr (.inr ⟨_, getC_good m (.prevn a p), fun s hs => by rw [← hs]; rfl⟩)))))
  | _ => cases hi

/-- The decode rule `DEC.VAL` runs under a codec. -/
def ruleOf (m : Config.Impl) : Codec → DecM Response
  | .raw => raise .contractViolation
  | .x64 => x64Decode
  | .era => eraDecode
  | .chp => chpDecode m

theorem ruleOf_good (m : Config.Impl) (k : Codec) (hk : k ≠ .raw) (d : DecHalf) : DecM.GoodAt 2 (ruleOf m k) d := by
  cases k
  · exact absurd rfl hk
  · exact x64Decode_good d
  · exact eraDecode_good d
  · exact chpDecode_good m d

theorem decVal_raw (m : Config.Impl) {d : DecHalf} (h : d.codec = .raw) :
    d.decVal m = (.err .contractViolation, { d with cv := true }) := by
  unfold DecHalf.decVal; rw [h]

theorem decVal_of_ne_raw (m : Config.Impl) {d : DecHalf} (h : d.codec ≠ .raw) :
    d.decVal m = DecHalf.decVal.decValWith (ruleOf m d.codec) d := by
  unfold DecHalf.decVal
  cases hk : d.codec with
  | raw => exact absurd hk h
  | x64 => rfl
  | era => rfl
  | chp => rfl

theorem decVal_fault (m : Config.Impl) {d : DecHalf} (h : d.codec ≠ .raw) (hp : d.phase = .fault) :
    d.decVal m = (.err d.err, d) := by
  rw [decVal_of_ne_raw m h, DecHalf.decVal.decValWith, hp]

theorem decVal_done (m : Config.Impl) {d : DecHalf} (h : d.codec ≠ .raw) (hp : d.phase = .done) :
    d.decVal m = (.endOfBlock, d) := by
  rw [decVal_of_ne_raw m h, DecHalf.decVal.decValWith, hp]

theorem decVal_empty (m : Config.Impl) {d : DecHalf} (h : d.codec ≠ .raw) (hp : d.phase = .run)
    (he : d.atFirst = true ∧ d.bs.avail = 0) : d.decVal m = (.endOfBlock, { d with phase := .done }) := by
  rw [decVal_of_ne_raw m h, DecHalf.decVal.decValWith, hp]
  exact if_pos he

theorem decVal_run (m : Config.Impl) {d : DecHalf} (h : d.codec ≠ .raw) (hp : d.phase = .run)
    (he : ¬ (d.atFirst = true ∧ d.bs.avail = 0)) : d.decVal m = runDecHalf (ruleOf m d.codec) d := by
  rw [decVal_of_ne_raw m h, DecHalf.decVal.decValWith, hp]
  exact if_neg he

/-- Everything a decode rule can do to the half, as `DEC.VAL` runs it. -/
theorem runDecHalf_cases {n : Nat} {x : DecM Response} {d : DecHalf} (hx : DecM.GoodAt n x d) :
    (∃ r d', runDecHalf x d = (r, d') ∧ x d = .ok r d' ∧ DecKeeps d d' ∧ d.bs.pos + n ≤ d'.bs.pos) ∨
      ∃ c d', runDecHalf x d = (.err c, d'.raiseEntry c) ∧ DecKeeps d d' ∧ c.isFault = true := by
  cases h : x d with
  | ok r d' => exact .inl ⟨r, d', runDecHalf_ok h, rfl, hx.ok h⟩
  | error c d' => exact .inr ⟨c, d', runDecHalf_error h, hx.error h⟩

/-- Everything `DEC.VAL` can do (`45_block_and_system.md` R213), its cases in the rule's order. -/
theorem decVal_cases (m : Config.Impl) (d : DecHalf) :
    (d.codec = .raw ∧ d.decVal m = (.err .contractViolation, { d with cv := true })) ∨
      (d.codec ≠ .raw ∧ d.phase = .fault ∧ d.decVal m = (.err d.err, d)) ∨
      (d.codec ≠ .raw ∧ d.phase = .done ∧ d.decVal m = (.endOfBlock, d)) ∨
      (d.codec ≠ .raw ∧ d.phase = .run ∧ d.decVal m = (.endOfBlock, { d with phase := .done })) ∨
      (d.codec ≠ .raw ∧ d.phase = .run ∧ d.decVal m = runDecHalf (ruleOf m d.codec) d) := by
  by_cases h : d.codec = .raw
  · exact .inl ⟨h, decVal_raw m h⟩
  cases hp : d.phase with
  | fault => exact .inr (.inl ⟨h, rfl, decVal_fault m h hp⟩)
  | done => exact .inr (.inr (.inl ⟨h, rfl, decVal_done m h hp⟩))
  | run =>
    by_cases he : d.atFirst = true ∧ d.bs.avail = 0
    · exact .inr (.inr (.inr (.inl ⟨h, rfl, decVal_empty m h hp he⟩)))
    · exact .inr (.inr (.inr (.inr ⟨h, rfl, decVal_run m h hp he⟩)))

/-- One round of `DECOMPRESS` that gives a value. -/
theorem decodeAll_val {m : Config.Impl} {fuel : Nat} {d d' : DecHalf} {out : List Word} {v : Word}
    (h : d.decVal m = (.val v, d')) : decodeAll m (fuel + 1) d out = decodeAll m fuel d' (out ++ [v]) := by
  show (match d.decVal m with
    | (.val v, d) => decodeAll m fuel d (out ++ [v])
    | (.endOfBlock, d) => some (.vals out, d)
    | (r, d) => some (r, d)) = _
  rw [h]

/-- The round of `DECOMPRESS` that ends the block. -/
theorem decodeAll_end {m : Config.Impl} {fuel : Nat} {d d' : DecHalf} {out : List Word}
    (h : d.decVal m = (.endOfBlock, d')) : decodeAll m (fuel + 1) d out = some (.vals out, d') := by
  show (match d.decVal m with
    | (.val v, d) => decodeAll m fuel d (out ++ [v])
    | (.endOfBlock, d) => some (.vals out, d)
    | (r, d) => some (r, d)) = _
  rw [h]

/-- The round of `DECOMPRESS` that ends in an error. -/
theorem decodeAll_err {m : Config.Impl} {fuel : Nat} {d d' : DecHalf} {out : List Word} {c : ErrCode}
    (h : d.decVal m = (.err c, d')) : decodeAll m (fuel + 1) d out = some (.err c, d') := by
  show (match d.decVal m with
    | (.val v, d) => decodeAll m fuel d (out ++ [v])
    | (.endOfBlock, d) => some (.vals out, d)
    | (r, d) => some (r, d)) = _
  rw [h]

/-- A decode rule's answers are a value or the end of the block. -/
theorem x64Deliver_resp {v : Word} {d d' : DecHalf} {r : Response} (h : x64Deliver v d = .ok r d') :
    r = .endOfBlock ∨ ∃ v, r = .val v := by
  unfold x64Deliver at h
  split_ifs at h <;> cases h
  · exact .inl rfl
  · exact .inr ⟨v, rfl⟩

theorem eraBody_resp {erased : Bool} {d d' : DecHalf} {r : Response} (h : eraBody erased d = .ok r d') :
    r = .endOfBlock ∨ ∃ v, r = .val v := by
  obtain ⟨v, d1, -, h⟩ := bind_eq_ok h
  rw [bind_ok (run_get d1)] at h
  split_ifs at h
  · rw [bind_ok (run_set _ _)] at h; cases h; exact .inl rfl
  · cases h; exact .inr ⟨v, rfl⟩
  · cases h
  · cases h; exact .inr ⟨_, rfl⟩

theorem chpDeliver_resp {m : Config.Impl} {v : Word} {d d' : DecHalf} {r : Response}
    (h : chpDeliver m v d = .ok r d') : r = .endOfBlock ∨ ∃ v, r = .val v := by
  unfold chpDeliver at h
  split_ifs at h <;> cases h
  · exact .inl rfl
  · exact .inr ⟨v, rfl⟩

theorem getE_resp {e : EPrefix} {d d' : DecHalf} {r : Response} (h : getE e d = .ok r d') :
    r = .endOfBlock ∨ ∃ v, r = .val v := by
  cases e
  · obtain ⟨u, d1, -, h⟩ := bind_eq_ok h
    rw [bind_ok (run_get d1)] at h
    split_ifs at h
    · cases h
    · exact eraBody_resp h
  · obtain ⟨u, d1, -, h⟩ := bind_eq_ok h
    obtain ⟨u, d2, -, h⟩ := bind_eq_ok h
    exact eraBody_resp h
  · obtain ⟨u, d1, -, h⟩ := bind_eq_ok h
    obtain ⟨u, d2, -, h⟩ := bind_eq_ok h
    obtain ⟨u, d3, -, h⟩ := bind_eq_ok h
    rw [bind_ok (run_get d3), bind_ok (run_set _ _)] at h
    exact eraBody_resp h

theorem getC_resp {m : Config.Impl} {x : CRecord} {d d' : DecHalf} {r : Response} (h : getC m x d = .ok r d') :
    r = .endOfBlock ∨ ∃ v, r = .val v := by
  cases x
  · obtain ⟨u, d1, -, h⟩ := bind_eq_ok h
    rw [bind_ok (run_get d1)] at h
    split_ifs at h
    · rw [bind_ok (run_set _ _)] at h; cases h; exact .inl rfl
    · rw [bind_ok (run_set _ _)] at h; cases h; exact .inr ⟨_, rfl⟩
  all_goals
    obtain ⟨u, d1, -, h⟩ := bind_eq_ok h
    exact chpDeliver_resp h

theorem ruleOf_resp {m : Config.Impl} {k : Codec} {d d' : DecHalf} {r : Response} (h : ruleOf m k d = .ok r d') :
    r = .endOfBlock ∨ ∃ v, r = .val v := by
  cases k
  · cases h
  · obtain ⟨v, d1, -, h⟩ := bind_eq_ok h
    exact x64Deliver_resp h
  · exact getE_resp (e := decodeE d.bs.unread) h
  · exact getC_resp (x := d.cRecord) h

/-- One `DEC.VAL` of a half whose codec is not RAW: a value, for at least two bits; the end of the block; or an
error. -/
theorem decVal_answers (m : Config.Impl) {d : DecHalf} (hk : d.codec ≠ .raw) :
    (∃ v d', d.decVal m = (.val v, d') ∧ DecKeeps d d' ∧ d.bs.pos + 2 ≤ d'.bs.pos) ∨
      (∃ d', d.decVal m = (.endOfBlock, d')) ∨ ∃ c d', d.decVal m = (.err c, d') := by
  rcases decVal_cases m d with ⟨hr, -⟩ | ⟨-, -, h⟩ | ⟨-, -, h⟩ | ⟨-, -, h⟩ | ⟨hk, -, h⟩
  · exact absurd hr hk
  · exact .inr (.inr ⟨_, _, h⟩)
  · exact .inr (.inl ⟨_, h⟩)
  · exact .inr (.inl ⟨_, h⟩)
  · rcases runDecHalf_cases (ruleOf_good m _ hk d) with ⟨r, d', h', hok, hkeep, hpos⟩ | ⟨c, d', h', -⟩
    · rcases ruleOf_resp hok with rfl | ⟨v, rfl⟩
      · exact .inr (.inl ⟨d', h.trans h'⟩)
      · exact .inl ⟨v, d', h.trans h', hkeep, hpos⟩
    · exact .inr (.inr ⟨c, _, h.trans h'⟩)

/-- The loop of `DECOMPRESS` ends within its bound: each value took at least two bits
(`70_reset_and_hazards.md` R272). -/
theorem decodeAll_isSome (m : Config.Impl) (fuel : Nat) (d : DecHalf) (out : List Word) (hk : d.codec ≠ .raw)
    (hp : d.bs.pos ≤ 8 * d.bs.buf.length) (hf : 8 * d.bs.buf.length < d.bs.pos + 2 * fuel) :
    ∃ r d', decodeAll m fuel d out = some (r, d') := by
  induction fuel generalizing d out with
  | zero => omega
  | succ fuel ih =>
    rcases decVal_answers m hk with ⟨v, d', h, hkeep, hpos⟩ | ⟨d', h⟩ | ⟨c, d', h⟩
    · rw [decodeAll_val h]
      exact ih d' _ (by rw [hkeep.codec]; exact hk) (hkeep.cursor hp) (by rw [hkeep.buf]; omega)
    · exact ⟨_, _, decodeAll_end h⟩
    · exact ⟨_, _, decodeAll_err h⟩

/-- The bound `DECOMPRESS` gives its loop is enough. -/
theorem decompress_isSome (m : Config.Impl) (d : DecHalf) (w : BitVec 6) (k : Codec) (data : List Byte)
    (hk : k ≠ .raw) :
    ∃ r d', decodeAll m (4 * data.length + 1) ((d.loaded data).opened w k) [] = some (r, d') :=
  decodeAll_isSome m _ _ _ hk (Nat.zero_le _) (by
    show 8 * data.length < 0 + 2 * (4 * data.length + 1)
    omega)

/-- An accepted `ENC.VAL` (`45_block_and_system.md` R211). -/
theorem exec_encVal_ok {s : State} {v : Word} {e : EncHalf} (hk : s.e.codec ≠ .raw) (hs : s.e.bs.sealed = false)
    (h : encodeWith s.impl s.e.codec v s.e = .ok () e) :
    exec (.encVal v) s = .next { s with e := e, resp := some .ok } := by
  show execEncVal v s = _
  unfold execEncVal
  rw [if_neg hk, if_neg (by simp [hs]), runEnc_ok (then_ok h)]

/-- An accepted `ENC.CLOSE` (`45_block_and_system.md` R211). -/
theorem exec_encClose_ok {s : State} {e : EncHalf} (hk : s.e.codec ≠ .raw) (hs : s.e.bs.sealed = false)
    (h : finishWith s.impl s.e.codec s.e = .ok () e) :
    exec .encClose s = .next { s with e := e, resp := some .ok } := by
  show execEncClose s = _
  unfold execEncClose
  rw [if_neg hk, if_neg (by simp [hs]), runEnc_ok (then_ok h)]

/-- An `ENC.VAL` that its codec's rule refuses (`45_block_and_system.md` R211). -/
theorem exec_encVal_error {s : State} {v : Word} {e : EncHalf} {c : ErrCode} (hk : s.e.codec ≠ .raw)
    (hs : s.e.bs.sealed = false) (h : encodeWith s.impl s.e.codec v s.e = .error c e) :
    exec (.encVal v) s = .next (s.refuseEnc c) := by
  show execEncVal v s = _
  unfold execEncVal
  rw [if_neg hk, if_neg (by simp [hs]), runEnc_error (then_ok_error h)]

/-- An `ENC.CLOSE` that its codec's rule refuses (`45_block_and_system.md` R211). -/
theorem exec_encClose_error {s : State} {e : EncHalf} {c : ErrCode} (hk : s.e.codec ≠ .raw)
    (hs : s.e.bs.sealed = false) (h : finishWith s.impl s.e.codec s.e = .error c e) :
    exec .encClose s = .next (s.refuseEnc c) := by
  show execEncClose s = _
  unfold execEncClose
  rw [if_neg hk, if_neg (by simp [hs]), runEnc_error (then_ok_error h)]

end Sys2Proof.Machine
end

