-- ==== Sys2Proof/Laws/Records.lean ====
section
/-! SUPPORT. `DEC.VAL`, the dispatch rows and the record itself do the same where the record stands at the
cursor; and what each record's rule answers. -/

namespace Sys2Proof.Machine

/-- `DEC.VAL` where it reads a record (`45_block_and_system.md` R213). -/
theorem exec_decVal_run {s : State} (hk : s.d.codec ≠ .raw) (hp : s.d.phase = .run)
    (he : ¬ (s.d.atFirst = true ∧ s.d.bs.avail = 0)) :
    exec .decVal s = .next (runDec (ruleOf s.impl s.d.codec) s) := by
  show execDecVal s = _
  unfold execDecVal
  rw [decVal_run s.impl hk hp he]; rfl

/-- A block is at a record, whose bits are the unread ones. -/
theorem State.Decoding.reads {s : State} {k : Codec} {first : Bool} {bits : List Bool}
    (h : s.Decoding k first bits) : ¬ (s.d.atFirst = true ∧ s.d.bs.avail = 0) := by
  rintro ⟨h1, h2⟩
  have := h.2.2.2.2 (h.2.2.1.symm.trans h1)
  rw [← h.2.2.2.1] at this
  exact this (List.length_eq_zero_iff.1 (by rw [BitSource.unread_length, h2]))

theorem State.Decoding.avail {s : State} {k : Codec} {first : Bool} {bits : List Bool}
    (h : s.Decoding k first bits) : s.d.bs.avail = bits.length := BitSource.avail_of_unread h.2.2.2.1

/-- The X64 record at the cursor, three ways (`42_xor64.md` R130). -/
theorem exec_xRecord {s : State} {first : Bool} {bits : List Bool} {i : Instr} (rec : XRecord)
    (hi : i ∈ [.decVal, .x64Dec, rec.toInstr]) (h : s.Decoding .x64 first bits) (hr : s.d.xRecord = rec) :
    exec i s = .next (runDec (do let v ← getX rec; x64Deliver v) s) := by
  have hx : runDec x64Decode s = runDec (do let v ← getX rec; x64Deliver v) s := by
    have : x64Decode s.d = (do let v ← getX rec; x64Deliver v : DecM Response) s.d := by
      subst hr; rfl
    simp [runDec, runDecHalf, this]
  simp only [List.mem_cons, List.not_mem_nil, or_false] at hi
  rcases hi with rfl | rfl | rfl
  · rw [exec_decVal_run (by simp [h.1]) h.2.1 h.reads, h.1]
    exact congrArg _ hx
  · exact congrArg _ hx
  · cases rec <;> rfl

/-- The ERA prefix at the cursor, three ways (`43_erasure.md` R161). -/
theorem exec_ePrefix {s : State} {first : Bool} {bits : List Bool} {i : Instr} (pre : EPrefix)
    (hi : i ∈ [.decVal, .eraDec, pre.toInstr]) (h : s.Decoding .era first bits) (hr : decodeE s.d.bs.unread = pre) :
    exec i s = .next (runDec (getE pre) s) := by
  have hx : runDec eraDecode s = runDec (getE pre) s := by
    have : eraDecode s.d = getE pre s.d := by subst hr; rfl
    simp [runDec, runDecHalf, this]
  simp only [List.mem_cons, List.not_mem_nil, or_false] at hi
  rcases hi with rfl | rfl | rfl
  · rw [exec_decVal_run (by simp [h.1]) h.2.1 h.reads, h.1]
    exact congrArg _ hx
  · exact congrArg _ hx
  · cases pre <;> rfl

/-- The CHP record at the cursor, three ways (`44_chimp.md` R194). -/
theorem exec_cRecord {s : State} {first : Bool} {bits : List Bool} {i : Instr} (rec : CRecord)
    (hi : i ∈ [.decVal, .chpDec, rec.toInstr]) (h : s.Decoding .chp first bits) (hr : s.d.cRecord = rec) :
    exec i s = .next (runDec (getC s.impl rec) s) := by
  have hx : runDec (chpDecode s.impl) s = runDec (getC s.impl rec) s := by
    have : chpDecode s.impl s.d = getC s.impl rec s.d := by subst hr; rfl
    simp [runDec, runDecHalf, this]
  simp only [List.mem_cons, List.not_mem_nil, or_false] at hi
  rcases hi with rfl | rfl | rfl
  · rw [exec_decVal_run (by simp [h.1]) h.2.1 h.reads, h.1]
    exact congrArg _ hx
  · exact congrArg _ hx
  · cases rec <;> rfl

/-- Where the record at the cursor need not be whole: `DEC.VAL` and the dispatch row run the record the unread
bits begin, the record row its own. -/
theorem exec_xRecord_any {s : State} {first : Bool} {bits : List Bool} {i : Instr} (rec : XRecord)
    (hi : i ∈ [.decVal, .x64Dec, rec.toInstr]) (h : s.Decoding .x64 first bits) :
    ∃ rec', (rec' = decodeX s.d.x.first (64 - s.d.x.slz.toNat - s.d.x.stz.toNat) bits ∨ rec' = rec) ∧
      exec i s = .next (runDec (do let v ← getX rec'; x64Deliver v) s) := by
  have hx : s.d.xRecord = decodeX s.d.x.first (64 - s.d.x.slz.toNat - s.d.x.stz.toNat) bits := by
    rw [← h.2.2.2.1]; rfl
  simp only [List.mem_cons, List.not_mem_nil, or_false] at hi
  rcases hi with rfl | rfl | rfl
  · exact ⟨_, .inl hx, exec_xRecord s.d.xRecord (by simp) h rfl⟩
  · exact ⟨_, .inl hx, exec_xRecord s.d.xRecord (by simp) h rfl⟩
  · exact ⟨rec, .inr rfl, by cases rec <;> rfl⟩

theorem exec_ePrefix_any {s : State} {first : Bool} {bits : List Bool} {i : Instr} (pre : EPrefix)
    (hi : i ∈ [.decVal, .eraDec, pre.toInstr]) (h : s.Decoding .era first bits) :
    ∃ pre', (pre' = decodeE bits ∨ pre' = pre) ∧ exec i s = .next (runDec (getE pre') s) := by
  have hx : decodeE s.d.bs.unread = decodeE bits := by rw [h.2.2.2.1]
  simp only [List.mem_cons, List.not_mem_nil, or_false] at hi
  rcases hi with rfl | rfl | rfl
  · exact ⟨_, .inl hx, exec_ePrefix (decodeE s.d.bs.unread) (by simp) h rfl⟩
  · exact ⟨_, .inl hx, exec_ePrefix (decodeE s.d.bs.unread) (by simp) h rfl⟩
  · exact ⟨pre, .inr rfl, by cases pre <;> rfl⟩

theorem exec_cRecord_any {s : State} {first : Bool} {bits : List Bool} {i : Instr} (rec : CRecord)
    (hi : i ∈ [.decVal, .chpDec, rec.toInstr]) (h : s.Decoding .chp first bits) :
    ∃ rec', (rec' = decodeC s.d.c.first s.d.c.log2w.toNat (64 - s.d.c.slz.toNat) bits ∨ rec' = rec) ∧
      exec i s = .next (runDec (getC s.impl rec') s) := by
  have hx : s.d.cRecord = decodeC s.d.c.first s.d.c.log2w.toNat (64 - s.d.c.slz.toNat) bits := by
    rw [← h.2.2.2.1]; rfl
  simp only [List.mem_cons, List.not_mem_nil, or_false] at hi
  rcases hi with rfl | rfl | rfl
  · exact ⟨_, .inl hx, exec_cRecord s.d.cRecord (by simp) h rfl⟩
  · exact ⟨_, .inl hx, exec_cRecord s.d.cRecord (by simp) h rfl⟩
  · exact ⟨rec, .inr rfl, by cases rec <;> rfl⟩

theorem State.Decoding.x_first {s : State} {f : Bool} {bits : List Bool} (h : s.Decoding .x64 f bits) :
    s.d.x.first = f := by
  have := h.2.2.1; unfold DecHalf.atFirst at this; rw [h.1] at this; simpa using this

theorem State.Decoding.era_first {s : State} {f : Bool} {bits : List Bool} (h : s.Decoding .era f bits) :
    s.d.x.first = f := by
  have := h.2.2.1; unfold DecHalf.atFirst at this; rw [h.1] at this; simpa using this

theorem State.Decoding.c_first {s : State} {f : Bool} {bits : List Bool} (h : s.Decoding .chp f bits) :
    s.d.c.first = f := by
  have := h.2.2.1; unfold DecHalf.atFirst at this; rw [h.1] at this; simpa using this

/-- A decoded pattern delivered (`42_xor64.md` R137). -/
theorem runDec_x64Deliver {m : DecM Word} {s : State} {v : Word} {d : DecHalf} (h : m s.d = .ok v d) :
    runDec (do let v ← m; x64Deliver v) s = s.delivered d v := by
  unfold State.delivered
  split
  · next hv =>
    rw [runDec_ok (r := .endOfBlock) (d := { d with phase := .done })]
    rw [bind_ok h]; unfold x64Deliver; rw [if_pos hv]
  · next hv =>
    rw [runDec_ok (r := .val v) (d := d)]
    rw [bind_ok h]; unfold x64Deliver; rw [if_neg hv]

theorem runDec_raised {m : DecM Word} {f : Word → DecM Response} {s : State} {c : ErrCode} {d : DecHalf}
    (h : m s.d = .error c d) : runDec (m >>= f) s = s.raised d c := runDec_error (bind_error h _)

end Sys2Proof.Machine
end

