-- ==== Sys2Proof/Laws/XorDecode.lean ====
section
/-! SUPPORT. The X64 decoder: what record stands at the head of a bit string, and what each record's rule does,
complete or cut short. -/

namespace Sys2Proof.Machine

/-! ## The record at the head of a bit string -/

theorem drop_natBits (n a : Nat) (rest : List Bool) : (natBits n a ++ rest).drop a = rest :=
  List.drop_left' (natBits_length n _)

theorem decodeX_first (cb : Nat) (tz : BitVec 7) (rest : List Bool) :
    decodeX true cb (natBits tz.toNat 7 ++ rest) = .first tz (field 64 (firstWidth tz) rest) := by
  unfold decodeX
  rw [if_pos rfl, field_natBits_full, drop_natBits]

theorem decodeX_same (cb : Nat) (rest : List Bool) : decodeX false cb ([false, true] ++ rest) = .same := rfl

theorem decodeX_reuse (cb : Nat) (rest : List Bool) :
    decodeX false cb ([false, false] ++ rest) = .reuse (field 64 cb rest) := rfl

theorem decodeX_news' (cb : Nat) (rest : List Bool) :
    decodeX false cb ([true, false] ++ rest) =
      .news (field 3 3 rest) (field 4 4 (rest.drop 3))
        (field 64 (windowWidth (field 3 3 rest) (newsCb (field 4 4 (rest.drop 3)))) (rest.drop 7)) := rfl

theorem decodeX_newl' (cb : Nat) (rest : List Bool) :
    decodeX false cb ([true, true] ++ rest) =
      .newl (field 3 3 rest) (field 6 6 (rest.drop 3))
        (field 64 (windowWidth (field 3 3 rest) (newlCb (field 6 6 (rest.drop 3)))) (rest.drop 9)) := rfl

theorem decodeX_news (cb : Nat) (iii : BitVec 3) (cccc : BitVec 4) (rest : List Bool) :
    decodeX false cb ([true, false] ++ (natBits iii.toNat 3 ++ (natBits cccc.toNat 4 ++ rest))) =
      .news iii cccc (field 64 (windowWidth iii (newsCb cccc)) rest) := by
  rw [decodeX_news', field_natBits_full, drop_natBits, field_natBits_full, ← List.append_assoc,
    List.drop_left' (by simp)]

theorem decodeX_newl (cb : Nat) (iii : BitVec 3) (cccccc : BitVec 6) (rest : List Bool) :
    decodeX false cb ([true, true] ++ (natBits iii.toNat 3 ++ (natBits cccccc.toNat 6 ++ rest))) =
      .newl iii cccccc (field 64 (windowWidth iii (newlCb cccccc)) rest) := by
  rw [decodeX_newl', field_natBits_full, drop_natBits, field_natBits_full, ← List.append_assoc,
    List.drop_left' (by simp)]

/-! ## The shape of a record cut short -/

theorem decodeX_first_shape (cb : Nat) (bits : List Bool) : ∃ tz p, decodeX true cb bits = .first tz p :=
  ⟨_, _, if_pos rfl⟩

/-! ## The rules -/

@[simp] theorem setDecX_ok (x : XorRegs) (d : DecHalf) : setDecX x d = .ok () { d with x := x } := rfl

theorem shl64_toNat_of_lt {p : Word} {n k : Nat} (hp : p.toNat < 2 ^ n) (h : n + k ≤ 64) :
    (shl64 p k).toNat = p.toNat * 2 ^ k := by
  rw [shl64_toNat, Nat.mod_eq_of_lt]
  calc _ < 2 ^ n * 2 ^ k := Nat.mul_lt_mul_of_pos_right hp (Nat.two_pow_pos _)
    _ ≤ 2 ^ 64 := by rw [← Nat.pow_add]; exact Nat.pow_le_pow_right (by omega) h

theorem window_toNat {p : Word} {n k : Nat} (hp : p.toNat < 2 ^ n) (h : n + 1 + k ≤ 64) :
    (shl64 (shl64 p 1 ||| 1) k).toNat = (2 * p.toNat + 1) * 2 ^ k := by
  have h63 : p.toNat < 2 ^ 63 := hp.trans_le (Nat.pow_le_pow_right (by omega) (by omega))
  have h1 := shl64_one_or_one_toNat p h63
  have h2 : (shl64 p 1 ||| 1).toNat < 2 ^ (n + 1) := by rw [h1, Nat.pow_succ]; omega
  rw [shl64_toNat_of_lt h2 h, h1]

theorem xor_eq_of_xor_toNat {a b c : Word} (h : (a ^^^ c).toNat = b.toNat) : a ^^^ b = c := by
  have : b = a ^^^ c := BitVec.eq_of_toNat_eq h.symm
  rw [this, ← BitVec.xor_assoc, BitVec.xor_self, BitVec.zero_xor]

/-- `X.FIRST` complete (`42_xor64.md` R131). -/
theorem getFirst_ok {d : DecHalf} {tz : BitVec 7} {p v : Word} (htz : tz.toNat ≤ 64)
    (hp : p.toNat < 2 ^ (63 - tz.toNat)) (hav : 7 + (63 - tz.toNat) ≤ d.bs.avail)
    (hv : v.toNat = if tz.toNat = 64 then 0 else (2 * p.toNat + 1) * 2 ^ tz.toNat) :
    getFirst tz p d =
      .ok v { d.advance (7 + (63 - tz.toNat)) with x := { d.x with first := false, sv := v } } := by
  unfold getFirst
  rw [bind_ok (consume_ok (by omega)), if_neg (by omega)]
  by_cases h64 : tz.toNat = 64
  · have : v = 0 := by apply BitVec.eq_of_toNat_eq; rw [hv, if_pos h64]; rfl
    simp only [if_pos h64]
    rw [bind_ok (run_get _), h64, this]; rfl
  · simp only [if_neg h64]
    rw [bind_ok (consume_ok (by simp; omega)), bind_ok (run_get _)]
    have : shl64 (shl64 p 1 ||| 1) tz.toNat = v := by
      apply BitVec.eq_of_toNat_eq
      rw [window_toNat hp (by omega), hv, if_neg h64]
    rw [this, DecHalf.advance_advance]; rfl

theorem getFirst_noHeader {d : DecHalf} (tz : BitVec 7) (p : Word) (h : d.bs.avail < 7) :
    getFirst tz p d = .error .endOfStream d := by
  unfold getFirst; rw [bind_error (consume_error h)]

theorem getFirst_malformed {d : DecHalf} {tz : BitVec 7} (p : Word) (h : 7 ≤ d.bs.avail) (htz : 64 < tz.toNat) :
    getFirst tz p d = .error .malformedBlock (d.advance 7) := by
  unfold getFirst; rw [bind_ok (consume_ok h), if_pos htz]; rfl

theorem getFirst_noPayload {d : DecHalf} {tz : BitVec 7} (p : Word) (h : 7 ≤ d.bs.avail) (htz : tz.toNat ≤ 64)
    (hav : d.bs.avail < 7 + (63 - tz.toNat)) : getFirst tz p d = .error .endOfStream (d.advance 7) := by
  unfold getFirst
  rw [bind_ok (consume_ok h), if_neg (by omega), if_neg (by omega)]
  exact bind_error (consume_error (by simp; omega)) _

/-- `X.SAME` (`42_xor64.md` R132). -/
theorem getSame_ok {d : DecHalf} (h : 2 ≤ d.bs.avail) : getSame d = .ok d.x.sv (d.advance 2) := by
  unfold getSame; rw [bind_ok (consume_ok h), bind_ok (run_get _)]; rfl

/-- A record without its two flag bits. -/
theorem getX_noFlag {d : DecHalf} (rec : XRecord) (hr : ∀ tz p, rec ≠ .first tz p) (h : d.bs.avail < 2) :
    getX rec d = .error .endOfStream d := by
  cases rec with
  | first tz p => exact absurd rfl (hr tz p)
  | same => exact bind_error (consume_error h) _
  | reuse p => exact bind_error (consume_error h) _
  | news iii cccc p => exact bind_error (consume_error h) _
  | newl iii cccccc p => exact bind_error (consume_error h) _

/-- `X.REUSE` complete (`42_xor64.md` R133). -/
theorem getReuse_ok {d : DecHalf} {p v : Word} (hw : d.x.winv = true)
    (hW : d.x.slz.toNat + d.x.stz.toNat ≤ 64) (hp : p.toNat < 2 ^ (64 - d.x.slz.toNat - d.x.stz.toNat))
    (hav : 66 - d.x.slz.toNat - d.x.stz.toNat ≤ d.bs.avail)
    (hv : (d.x.sv ^^^ v).toNat = p.toNat * 2 ^ d.x.stz.toNat) :
    getReuse p d =
      .ok v { d.advance (66 - d.x.slz.toNat - d.x.stz.toNat) with x := { d.x with sv := v } } := by
  have hv' : d.x.sv ^^^ shl64 p d.x.stz.toNat = v :=
    xor_eq_of_xor_toNat (by rw [hv, shl64_toNat_of_lt hp (by omega)])
  unfold getReuse
  rw [bind_ok (consume_ok (by omega)), bind_ok (run_get _), if_neg (by simp [hw])]
  rw [bind_ok (consume_ok (by simp; omega))]
  simp only [DecHalf.advance_x]
  rw [DecHalf.advance_advance, hv',
    show 2 + (64 - d.x.slz.toNat - d.x.stz.toNat) = 66 - d.x.slz.toNat - d.x.stz.toNat by omega]
  rfl

theorem getReuse_malformed {d : DecHalf} (p : Word) (h : 2 ≤ d.bs.avail) (hw : d.x.winv = false) :
    getReuse p d = .error .malformedBlock (d.advance 2) := by
  unfold getReuse
  rw [bind_ok (consume_ok h), bind_ok (run_get _), if_pos (by simp [hw])]; rfl

theorem getReuse_noPayload {d : DecHalf} (p : Word) (h : 2 ≤ d.bs.avail) (hw : d.x.winv = true)
    (hav : d.bs.avail < 2 + (64 - d.x.slz.toNat - d.x.stz.toNat)) :
    getReuse p d = .error .endOfStream (d.advance 2) := by
  unfold getReuse
  rw [bind_ok (consume_ok h), bind_ok (run_get _), if_neg (by simp [hw])]
  exact bind_error (consume_error (by simp; omega)) _

/-- A window change after its header, complete (`42_xor64.md` R134). -/
theorem getWindow_ok {d : DecHalf} {lz cb : Nat} {p v : Word} (hcb : 1 ≤ cb) (hlz : lz + cb ≤ 64)
    (hp : p.toNat < 2 ^ (cb - 1)) (hav : cb - 1 ≤ d.bs.avail)
    (hv : (d.x.sv ^^^ v).toNat = (2 * p.toNat + 1) * 2 ^ (64 - lz - cb)) :
    getWindow lz cb p d = .ok v { d.advance (cb - 1) with
      x := { d.x with sv := v, winv := true, slz := BitVec.ofNat 5 lz, stz := BitVec.ofNat 7 (64 - lz - cb) } } := by
  have hv' : d.x.sv ^^^ shl64 (shl64 p 1 ||| 1) (64 - lz - cb) = v :=
    xor_eq_of_xor_toNat (by rw [hv, window_toNat hp (by omega)])
  unfold getWindow
  rw [if_neg (by omega)]
  show (do consume (cb - 1); _ : DecM Word) d = _
  rw [bind_ok (consume_ok hav), bind_ok (run_get _)]
  simp only [DecHalf.advance_x, hv']
  rfl

theorem getWindow_malformed {d : DecHalf} {lz cb : Nat} (p : Word) (h : 64 < lz + cb) :
    getWindow lz cb p d = .error .malformedBlock d := by
  unfold getWindow; rw [if_pos h]; rfl

theorem getWindow_noPayload {d : DecHalf} {lz cb : Nat} (p : Word) (hlz : lz + cb ≤ 64)
    (hav : d.bs.avail < cb - 1) : getWindow lz cb p d = .error .endOfStream d := by
  unfold getWindow
  rw [if_neg (by omega)]
  exact bind_error (consume_error hav) _

/-- The header of a window change. -/
theorem getNews_header {d : DecHalf} (iii : BitVec 3) (cccc : BitVec 4) (p : Word) (h : 9 ≤ d.bs.avail) :
    getNews iii cccc p d = getWindow (lzVal iii) (newsCb cccc) p (d.advance 9) := by
  unfold getNews
  rw [bind_ok (consume_ok (by omega)), bind_ok (consume_ok (by simp; omega)), DecHalf.advance_advance]

theorem getNewl_header {d : DecHalf} (iii : BitVec 3) (cccccc : BitVec 6) (p : Word) (h : 11 ≤ d.bs.avail) :
    getNewl iii cccccc p d = getWindow (lzVal iii) (newlCb cccccc) p (d.advance 11) := by
  unfold getNewl
  rw [bind_ok (consume_ok (by omega)), bind_ok (consume_ok (by simp; omega)), DecHalf.advance_advance]

theorem getNews_noHeader {d : DecHalf} (iii : BitVec 3) (cccc : BitVec 4) (p : Word) (h2 : 2 ≤ d.bs.avail)
    (h : d.bs.avail < 9) : getNews iii cccc p d = .error .endOfStream (d.advance 2) := by
  unfold getNews
  rw [bind_ok (consume_ok h2)]
  exact bind_error (consume_error (by simp; omega)) _

theorem getNewl_noHeader {d : DecHalf} (iii : BitVec 3) (cccccc : BitVec 6) (p : Word) (h2 : 2 ≤ d.bs.avail)
    (h : d.bs.avail < 11) : getNewl iii cccccc p d = .error .endOfStream (d.advance 2) := by
  unfold getNewl
  rw [bind_ok (consume_ok h2)]
  exact bind_error (consume_error (by simp; omega)) _

theorem newsCb_eq (cccc : BitVec 4) : newsCb cccc = if cccc.toNat = 0 then 16 else cccc.toNat := by
  revert cccc; decide

theorem newlCb_eq (cccccc : BitVec 6) : newlCb cccccc = if cccccc.toNat = 0 then 64 else cccccc.toNat := by
  revert cccccc; decide

end Sys2Proof.Machine
end

