-- ==== Sys2Proof/Laws/ChimpDecode.lean ====
section
/-! SUPPORT. The history-indexed decoder: what record stands at the head of a bit string, and what each record's
rule does, complete or cut short. -/

namespace Sys2Proof.Machine

/-! ## The record at the head of a bit string -/

theorem decodeC_first (l n : Nat) (bits : List Bool) : decodeC true l n bits = .first (field 64 64 bits) := rfl

theorem decodeC_copy (l n : Nat) (rest : List Bool) :
    decodeC false l n ([false, false] ++ rest) = .copy (field 64 l rest) := rfl

theorem decodeC_prev (l n : Nat) (rest : List Bool) :
    decodeC false l n ([true, false] ++ rest) = .prev (field 64 n rest) := rfl

theorem decodeC_prevn' (l n : Nat) (rest : List Bool) :
    decodeC false l n ([true, true] ++ rest) =
      .prevn (field 3 3 rest) (field 64 (prevnWidth (field 3 3 rest)) (rest.drop 3)) := rfl

theorem decodeC_prevn (l n : Nat) (iii : BitVec 3) (rest : List Bool) :
    decodeC false l n ([true, true] ++ (natBits iii.toNat 3 ++ rest)) =
      .prevn iii (field 64 (prevnWidth iii) rest) := by
  rw [decodeC_prevn', field_natBits_full, drop_natBits]

theorem decodeC_hist' (l n : Nat) (rest : List Bool) :
    ∃ r iii ssssss p, decodeC false l n ([false, true] ++ rest) = .hist r iii ssssss p := ⟨_, _, _, _, rfl⟩

theorem decodeC_hist (l n : Nat) {r : Word} (hr : r.toNat < 2 ^ l) (iii : BitVec 3) (ssssss : BitVec 6)
    (rest : List Bool) :
    decodeC false l n
        ([false, true] ++ (natBits r.toNat l ++ (natBits iii.toNat 3 ++ (natBits ssssss.toNat 6 ++ rest)))) =
      .hist r iii ssssss (field 64 (histWidth iii ssssss) rest) := by
  have h (rest' : List Bool) : decodeC false l n ([false, true] ++ rest') =
      .hist (field 64 l rest') (field 3 3 (rest'.drop l)) (field 6 6 (rest'.drop (3 + l)))
        (field 64 (histWidth (field 3 3 (rest'.drop l)) (field 6 6 (rest'.drop (3 + l)))) (rest'.drop (9 + l))) := by
    have hd : ∀ k, ([false, true] ++ rest').drop (2 + k) = rest'.drop k := fun k => by
      rw [Nat.add_comm]; rfl
    have h2 : ([false, true] ++ rest').drop 2 = rest' := rfl
    have h5 : ([false, true] ++ rest').drop (5 + l) = rest'.drop (3 + l) := by
      rw [show 5 + l = 2 + (3 + l) by omega, hd]
    have h11 : ([false, true] ++ rest').drop (11 + l) = rest'.drop (9 + l) := by
      rw [show 11 + l = 2 + (9 + l) by omega, hd]
    have hf : field 2 2 ([false, true] ++ rest') = 0b01#2 := rfl
    unfold decodeC
    rw [if_neg (by simp), hf, if_neg (by decide), if_pos rfl, h2, hd, h5, h11]
  have e1 : (natBits r.toNat l ++ (natBits iii.toNat 3 ++ (natBits ssssss.toNat 6 ++ rest))).drop (3 + l) =
      natBits ssssss.toNat 6 ++ rest := by
    rw [← List.append_assoc, List.drop_left' (by simp; omega)]
  have e2 : (natBits r.toNat l ++ (natBits iii.toNat 3 ++ (natBits ssssss.toNat 6 ++ rest))).drop (9 + l) = rest := by
    rw [← List.append_assoc, ← List.append_assoc, List.drop_left' (by simp; omega)]
  rw [h, field_natBits_append r hr, drop_natBits, e1, e2, field_natBits_full, field_natBits_full]

/-! ## The rules -/

@[simp] theorem setDecC_ok (c : ChpDecRegs) (d : DecHalf) : setDecC c d = .ok () { d with c := c } := rfl

/-- The decoder's history after a value, read back (`44_chimp.md` R195, R201). -/
theorem ChpDecRegs.store_stored {c : ChpDecRegs} (p : Nat) (v : Word) (h : Memory.wf 0 c.ring = true)
    (hf : c.first = false) : c.Stored (c.store p v) p v :=
  ⟨rfl, hf, rfl, fun _ => Memory.read_write _ _ _ h⟩

theorem getCFirst_noPayload {d : DecHalf} (p : Word) (h : d.bs.avail < 64) :
    getCFirst p d = .error .endOfStream d := by
  unfold getCFirst; rw [bind_error (consume_error h)]

theorem getCFirst_end {d : DecHalf} (h : 64 ≤ d.bs.avail) : getCFirst Config.sentinel d =
    .ok .endOfBlock { d.advance 64 with phase := .done, c := { d.c with first := false } } := by
  unfold getCFirst; rw [bind_ok (consume_ok h), bind_ok (run_get _), if_pos rfl]; rfl

theorem getCFirst_val {d : DecHalf} {p : Word} (h : 64 ≤ d.bs.avail) (hp : p ≠ Config.sentinel) : getCFirst p d =
    .ok (.val p) { d.advance 64 with c := ({ d.c with first := false } : ChpDecRegs).store 0 p } := by
  unfold getCFirst; rw [bind_ok (consume_ok h), bind_ok (run_get _), if_neg hp]; rfl

/-- A record without its two flag bits. -/
theorem getC_noFlag {m : Config.Impl} {d : DecHalf} (rec : CRecord) (hr : ∀ p, rec ≠ .first p) (h : d.bs.avail < 2) :
    getC m rec d = .error .endOfStream d := by
  cases rec with
  | first p => exact absurd rfl (hr p)
  | copy r => exact bind_error ((bind_ok (run_get d) _).trans (bind_error (consume_error h) _)) _
  | hist r iii ssssss p => exact bind_error ((bind_ok (run_get d) _).trans (bind_error (consume_error h) _)) _
  | prev p => exact bind_error ((bind_ok (run_get d) _).trans (bind_error (consume_error h) _)) _
  | prevn iii p => exact bind_error ((bind_ok (run_get d) _).trans (bind_error (consume_error h) _)) _

/-- `C.COPY` (`44_chimp.md` R196). -/
theorem getCopy_ok {d : DecHalf} {r : Word} (h : 2 + d.c.log2w.toNat ≤ d.bs.avail) (hr : r.toNat ≤ d.c.index) :
    getCopy r d = .ok (d.c.slotValue r.toNat)
      { d.advance (2 + d.c.log2w.toNat) with c := { d.c with slz := Config.noWindow } } := by
  unfold getCopy
  rw [bind_ok (run_get _), bind_ok (consume_ok (by omega)), bind_ok (consume_ok (by simp; omega)),
    if_neg (by omega), DecHalf.advance_advance]
  rfl

theorem getCopy_noSlot {d : DecHalf} (r : Word) (h2 : 2 ≤ d.bs.avail) (h : d.bs.avail < 2 + d.c.log2w.toNat) :
    getCopy r d = .error .endOfStream (d.advance 2) := by
  unfold getCopy
  rw [bind_ok (run_get _), bind_ok (consume_ok h2)]
  exact bind_error (consume_error (by simp; omega)) _

theorem getCopy_malformed {d : DecHalf} {r : Word} (h : 2 + d.c.log2w.toNat ≤ d.bs.avail)
    (hr : d.c.index < r.toNat) : getCopy r d = .error .malformedBlock (d.advance (2 + d.c.log2w.toNat)) := by
  unfold getCopy
  rw [bind_ok (run_get _), bind_ok (consume_ok (by omega)), bind_ok (consume_ok (by simp; omega)),
    if_pos hr, DecHalf.advance_advance]
  rfl

/-- `C.HIST` after its header (`44_chimp.md` R198). -/
theorem getHist_header {d : DecHalf} (r : Word) (iii : BitVec 3) (ssssss : BitVec 6) (p : Word)
    (h : 11 + d.c.log2w.toNat ≤ d.bs.avail) :
    getHist r iii ssssss p d =
      (if r.toNat > d.c.index then raise .malformedBlock
      else if ssssss = 0 then raise .malformedBlock
      else if lzVal iii + ssssss.toNat > 64 then raise .malformedBlock
      else do
        consume ssssss.toNat
        setDecC { d.c with slz := Config.noWindow }
        pure (d.c.slotValue r.toNat ^^^ shl64 p (64 - lzVal iii - ssssss.toNat)) : DecM Word)
        (d.advance (11 + d.c.log2w.toNat)) := by
  unfold getHist
  rw [bind_ok (run_get _), bind_ok (consume_ok (by omega)), bind_ok (consume_ok (by simp; omega)),
    DecHalf.advance_advance, show 2 + (d.c.log2w.toNat + 9) = 11 + d.c.log2w.toNat by omega]

theorem getHist_noHeader {d : DecHalf} (r : Word) (iii : BitVec 3) (ssssss : BitVec 6) (p : Word)
    (h2 : 2 ≤ d.bs.avail) (h : d.bs.avail < 11 + d.c.log2w.toNat) :
    getHist r iii ssssss p d = .error .endOfStream (d.advance 2) := by
  unfold getHist
  rw [bind_ok (run_get _), bind_ok (consume_ok h2)]
  exact bind_error (consume_error (by simp; omega)) _

theorem getHist_malformed {d : DecHalf} {r : Word} {iii : BitVec 3} {ssssss : BitVec 6} (p : Word)
    (h : 11 + d.c.log2w.toNat ≤ d.bs.avail)
    (hm : d.c.index < r.toNat ∨ ssssss.toNat = 0 ∨ 64 < lzVal iii + ssssss.toNat) :
    getHist r iii ssssss p d = .error .malformedBlock (d.advance (11 + d.c.log2w.toNat)) := by
  rw [getHist_header r iii ssssss p h]
  by_cases h1 : d.c.index < r.toNat
  · rw [if_pos h1]; rfl
  rw [if_neg h1]
  by_cases h2 : ssssss = 0
  · rw [if_pos h2]; rfl
  rw [if_neg h2, if_pos]
  · rfl
  · have : ssssss.toNat ≠ 0 := fun e => h2 (BitVec.eq_of_toNat_eq e)
    omega

theorem getHist_noPayload {d : DecHalf} {r : Word} {iii : BitVec 3} {ssssss : BitVec 6} (p : Word)
    (h : 11 + d.c.log2w.toNat ≤ d.bs.avail) (hr : r.toNat ≤ d.c.index) (hl : lzVal iii + ssssss.toNat ≤ 64)
    (hp : d.bs.avail < 11 + d.c.log2w.toNat + ssssss.toNat) :
    getHist r iii ssssss p d = .error .endOfStream (d.advance (11 + d.c.log2w.toNat)) := by
  rw [getHist_header r iii ssssss p h, if_neg (by omega), if_neg (by rintro rfl; simp at hp; omega),
    if_neg (by omega)]
  exact bind_error (consume_error (by simp; omega)) _

theorem getHist_ok {d : DecHalf} {r : Word} {iii : BitVec 3} {ssssss : BitVec 6} {p v : Word}
    (h : 11 + d.c.log2w.toNat + ssssss.toNat ≤ d.bs.avail) (hr : r.toNat ≤ d.c.index) (hs : 0 < ssssss.toNat)
    (hl : lzVal iii + ssssss.toNat ≤ 64) (hp : p.toNat < 2 ^ ssssss.toNat)
    (hv : (v ^^^ d.c.slotValue r.toNat).toNat = p.toNat * 2 ^ (64 - lzVal iii - ssssss.toNat)) :
    getHist r iii ssssss p d = .ok v
      { d.advance (11 + d.c.log2w.toNat + ssssss.toNat) with c := { d.c with slz := Config.noWindow } } := by
  have hv' : d.c.slotValue r.toNat ^^^ shl64 p (64 - lzVal iii - ssssss.toNat) = v :=
    xor_eq_of_xor_toNat (by rw [BitVec.xor_comm, hv, shl64_toNat_of_lt hp (by omega)])
  rw [getHist_header r iii ssssss p (by omega), if_neg (by omega), if_neg (by rintro rfl; simp at hs),
    if_neg (by omega), bind_ok (consume_ok (by simp; omega)), DecHalf.advance_advance, hv']
  rfl

/-- `C.PREV` (`44_chimp.md` R199). -/
theorem getPrev_ok {d : DecHalf} (p : Word) (hs : d.c.slz ≠ Config.noWindow)
    (h : 2 + (64 - d.c.slz.toNat) ≤ d.bs.avail) :
    getPrev p d = .ok (d.c.slotValue (d.c.slot d.c.index) ^^^ p) (d.advance (2 + (64 - d.c.slz.toNat))) := by
  unfold getPrev
  rw [bind_ok (run_get _), bind_ok (consume_ok (by omega)), if_neg hs, bind_ok (consume_ok (by simp; omega)),
    DecHalf.advance_advance]
  rfl

theorem getPrev_malformed {d : DecHalf} (p : Word) (h2 : 2 ≤ d.bs.avail) (hs : d.c.slz = Config.noWindow) :
    getPrev p d = .error .malformedBlock (d.advance 2) := by
  unfold getPrev
  rw [bind_ok (run_get _), bind_ok (consume_ok h2), if_pos hs]; rfl

theorem getPrev_noPayload {d : DecHalf} (p : Word) (h2 : 2 ≤ d.bs.avail) (hs : d.c.slz ≠ Config.noWindow)
    (h : d.bs.avail < 2 + (64 - d.c.slz.toNat)) : getPrev p d = .error .endOfStream (d.advance 2) := by
  unfold getPrev
  rw [bind_ok (run_get _), bind_ok (consume_ok h2), if_neg hs]
  exact bind_error (consume_error (by simp; omega)) _

/-- `C.PREVN` (`44_chimp.md` R200). -/
theorem getPrevn_ok {d : DecHalf} (iii : BitVec 3) (p : Word) (h : 5 + (64 - lzVal iii) ≤ d.bs.avail) :
    getPrevn iii p d = .ok (d.c.slotValue (d.c.slot d.c.index) ^^^ p)
      { d.advance (5 + (64 - lzVal iii)) with c := { d.c with slz := BitVec.ofNat 7 (lzVal iii) } } := by
  unfold getPrevn
  rw [bind_ok (run_get _), bind_ok (consume_ok (by omega)), bind_ok (consume_ok (by simp; omega)),
    bind_ok (setDecC_ok _ _), DecHalf.advance_advance]
  refine (bind_ok (consume_ok ?_) _).trans ?_
  · show _ ≤ (d.advance (2 + 3)).bs.avail
    simp; omega
  · rw [run_pure]
    simp [DecHalf.advance, Nat.add_assoc]

theorem getPrevn_noHeader {d : DecHalf} (iii : BitVec 3) (p : Word) (h2 : 2 ≤ d.bs.avail) (h : d.bs.avail < 5) :
    getPrevn iii p d = .error .endOfStream (d.advance 2) := by
  unfold getPrevn
  rw [bind_ok (run_get _), bind_ok (consume_ok h2)]
  exact bind_error (consume_error (by simp; omega)) _

theorem getPrevn_noPayload {d : DecHalf} (iii : BitVec 3) (p : Word) (h5 : 5 ≤ d.bs.avail)
    (h : d.bs.avail < 5 + (64 - lzVal iii)) : getPrevn iii p d =
      .error .endOfStream { d.advance 5 with c := { d.c with slz := BitVec.ofNat 7 (lzVal iii) } } := by
  unfold getPrevn
  rw [bind_ok (run_get _), bind_ok (consume_ok (by omega)), bind_ok (consume_ok (by simp; omega)),
    bind_ok (setDecC_ok _ _), DecHalf.advance_advance]
  refine (bind_error (consume_error ?_) _).trans rfl
  show (d.advance (2 + 3)).bs.avail < _
  simp; omega

end Sys2Proof.Machine
end

