-- ==== Sys2Proof/Laws/XorEncode.lean ====
section
/-! SUPPORT. What an accepted record of the X64 encoder appends, record by record, and that one without room
overflows. -/

namespace Sys2Proof.Machine

theorem markSent_ok (v : Word) (e : EncHalf) :
    markSent v e = .ok () { e with status := e.status.saw v } := by
  unfold markSent EncStatus.saw
  by_cases h : v = Config.sentinel <;> simp [h]

@[simp] theorem setEncX_ok (x : XorRegs) (e : EncHalf) : setEncX x e = .ok () { e with x := x } := rfl

/-- Two accepted writes, one after the other. -/
theorem putBits_two {m : Config.Impl} {e : EncHalf} {a b : Nat} (v w : Word) (ha : a ≤ 64) (hb : b ≤ 64)
    (hacc : e.bs.AccInv) (h : e.bs.Takes m (a + b)) :
    ∃ k, (do putBits m v a; putBits m w b : EncM Unit) e = .ok () { e with bs := k } ∧
      k.Extends e.bs (natBits v.toNat a ++ natBits w.toNat b) := by
  obtain ⟨k1, h1, x1⟩ := putBits_extends v ha hacc (h.mono (Nat.le_add_right a b))
  have ht : k1.Takes m b := BitSink.Takes.after (by simpa using h) x1
  obtain ⟨k2, h2, x2⟩ := putBits_extends (e := { e with bs := k1 }) w hb x1.2.2 ht
  exact ⟨k2, by rw [bind_ok h1, h2], x1.trans x2⟩

/-- `bitSlice` of what `SHR` moved down. -/
theorem natBits_shr (v : Word) (lo n hi : Nat) (h : n = hi + 1 - lo) :
    natBits (shr v lo).toNat n = bitSlice v hi lo := by
  rw [shr_toNat, bitSlice_eq_natBits, h]

/-- `X.FIRST` (`42_xor64.md` R121). -/
theorem putFirst_ok {m : Config.Impl} {e : EncHalf} (v : Word) (x : XorRegs) (hacc : e.bs.AccInv)
    (h : e.bs.Takes m (7 + (63 - ctz v))) :
    ∃ k, putFirst m v x e = .ok () { e with bs := k, x := { x with first := false, sv := v } } ∧
      k.Extends e.bs (natBits (ctz v) 7 ++ bitSlice v 63 (ctz v + 1)) := by
  have hc := ctz_le_64 v
  have hn : natBits (BitVec.ofNat 64 (ctz v)).toNat 7 = natBits (ctz v) 7 := by
    rw [BitVec.toNat_ofNat, Nat.mod_eq_of_lt (by omega)]
  obtain ⟨k1, h1, x1⟩ := putBits_extends (BitVec.ofNat 64 (ctz v)) (by omega : 7 ≤ 64) hacc (h.mono (by omega))
  rw [hn] at x1
  have ht : k1.Takes m (63 - ctz v) := BitSink.Takes.after (by simpa using h) x1
  obtain ⟨k2, h2, x2⟩ := putBits_extends (e := { e with bs := k1 }) (shr v (ctz v + 1)) (by omega) x1.2.2 ht
  rw [natBits_shr v (ctz v + 1) _ 63 (by omega)] at x2
  by_cases hv : ctz v < 64
  · refine ⟨k2, ?_, x1.trans x2⟩
    unfold putFirst
    rw [bind_ok h1, if_pos hv, bind_ok h2]; rfl
  · refine ⟨k1, ?_, ?_⟩
    · unfold putFirst
      rw [bind_ok h1, if_neg hv]; rfl
    · have : bitSlice v 63 (ctz v + 1) = [] := by
        rw [← List.length_eq_zero_iff, bitSlice_length]; omega
      rw [this, List.append_nil]; exact x1

/-- `X.SAME` (`42_xor64.md` R122). -/
theorem putSame_ok {m : Config.Impl} {e : EncHalf} (hacc : e.bs.AccInv) (h : e.bs.Takes m 2) :
    ∃ k, putSame m e = .ok () { e with bs := k } ∧ k.Extends e.bs [false, true] :=
  putBits_extends 0b01 (by omega) hacc h

/-- `X.REUSE`, in both spellings the same bits (`42_xor64.md` R123, `30_encoding.md` R77). -/
theorem putReuse_ok {m : Config.Impl} {e : EncHalf} {xor : Word} {x : XorRegs} (hacc : e.bs.AccInv)
    (hw : x.slz.toNat + x.stz.toNat ≤ 63) (hlt : xor.toNat < 2 ^ (64 - x.slz.toNat))
    (h : e.bs.Takes m (66 - x.slz.toNat - x.stz.toNat)) :
    ∃ k, putReuse m xor x e = .ok () { e with bs := k } ∧
      k.Extends e.bs ([false, false] ++ bitSlice xor (63 - x.slz.toNat) x.stz.toNat) := by
  have hs := natBits_shr xor x.stz.toNat (64 - x.slz.toNat - x.stz.toNat) (63 - x.slz.toNat) (by omega)
  unfold putReuse
  by_cases hc : 64 - x.slz.toNat - x.stz.toNat + 2 > 64
  · simp only [if_pos hc]
    obtain ⟨k, h1, x1⟩ := putBits_two (0b00 : Word) (shr xor x.stz.toNat) (by omega : 2 ≤ 64)
      (by omega : 64 - x.slz.toNat - x.stz.toNat ≤ 64) hacc (h.mono (by omega))
    rw [hs] at x1
    exact ⟨k, h1, x1⟩
  · simp only [if_neg hc]
    obtain ⟨k, h1, x1⟩ := putBits_extends (shr xor x.stz.toNat)
      (by omega : 64 - x.slz.toNat - x.stz.toNat + 2 ≤ 64) hacc (h.mono (by omega))
    refine ⟨k, h1, ?_⟩
    rw [Nat.add_comm _ 2, natBits_of_lt] at x1
    · rwa [hs] at x1
    · rw [shr_toNat, Nat.div_lt_iff_lt_mul (Nat.two_pow_pos _), ← Nat.pow_add]
      rwa [show 64 - x.slz.toNat - x.stz.toNat + x.stz.toNat = 64 - x.slz.toNat by omega]

/-- The header of `X.NEWS` (`42_xor64.md` R125). -/
theorem natBits_newsHeader (i : BitVec 3) (cb : Nat) :
    natBits (BitVec.ofNat 64 (256 + 16 * i.toNat + cb % 16)).toNat 9 =
      [true, false] ++ natBits i.toNat 3 ++ natBits (cb % 16) 4 := by
  have hi := i.isLt
  have hc : cb % 16 < 16 := Nat.mod_lt _ (by omega)
  rw [BitVec.toNat_ofNat, Nat.mod_eq_of_lt (by omega), natBits_append _ 5 4, natBits_append _ 2 3]
  rw [show (256 + 16 * i.toNat + cb % 16) / 2 ^ 4 / 2 ^ 3 = 2 by omega]
  congr 1
  · congr 1
    exact natBits_congr (by omega)
  · exact natBits_congr (by omega)

/-- The header of `X.NEWL` (`42_xor64.md` R126). -/
theorem natBits_newlHeader (i : BitVec 3) (cb : Nat) :
    natBits (BitVec.ofNat 64 (1536 + 64 * i.toNat + cb % 64)).toNat 11 =
      [true, true] ++ natBits i.toNat 3 ++ natBits (cb % 64) 6 := by
  have hi := i.isLt
  have hc : cb % 64 < 64 := Nat.mod_lt _ (by omega)
  rw [BitVec.toNat_ofNat, Nat.mod_eq_of_lt (by omega), natBits_append _ 5 6, natBits_append _ 2 3]
  rw [show (1536 + 64 * i.toNat + cb % 64) / 2 ^ 6 / 2 ^ 3 = 3 by omega]
  congr 1
  · congr 1
    exact natBits_congr (by omega)
  · exact natBits_congr (by omega)

/-- A window change (`42_xor64.md` R124 to R126). -/
theorem putWindow_ok {m : Config.Impl} {e : EncHalf} {v xor : Word} {lz tz : Nat} {x : XorRegs} (hacc : e.bs.AccInv)
    (hw : lz + tz ≤ 63)
    (h : e.bs.Takes m ((if 64 - lz - tz ≤ 16 then 9 else 11) + (64 - lz - tz - 1))) :
    ∃ k, putWindow m v xor lz tz x e = .ok () { e with
        bs := k, x := { x with sv := v, winv := true, slz := BitVec.ofNat 5 lz, stz := BitVec.ofNat 7 tz } } ∧
      k.Extends e.bs
        ((if 64 - lz - tz ≤ 16 then
            [true, false] ++ natBits (lzIdx lz).toNat 3 ++ natBits ((64 - lz - tz) % 16) 4
          else [true, true] ++ natBits (lzIdx lz).toNat 3 ++ natBits ((64 - lz - tz) % 64) 6) ++
          bitSlice xor (63 - lz) (tz + 1)) := by
  have hs := natBits_shr xor (tz + 1) (64 - lz - tz - 1) (63 - lz) (by omega)
  unfold putWindow
  by_cases hc : 64 - lz - tz ≤ 16
  · simp only [if_pos hc] at h ⊢
    obtain ⟨k, h1, x1⟩ := putBits_two (BitVec.ofNat 64 (256 + 16 * (lzIdx lz).toNat + (64 - lz - tz) % 16))
      (shr xor (tz + 1)) (by omega) (by omega) hacc h
    rw [natBits_newsHeader, hs] at x1
    exact ⟨k, by unfold putNews; rw [bind_ok h1]; rfl, x1⟩
  · simp only [if_neg hc] at h ⊢
    obtain ⟨k, h1, x1⟩ := putBits_two (BitVec.ofNat 64 (1536 + 64 * (lzIdx lz).toNat + (64 - lz - tz) % 64))
      (shr xor (tz + 1)) (by omega) (by omega) hacc h
    rw [natBits_newlHeader, hs] at x1
    exact ⟨k, by unfold putNewl; rw [bind_ok h1]; rfl, x1⟩

/-! ## Records that do not fit -/

theorem putBits_two_full {m : Config.Impl} {e : EncHalf} {a b : Nat} (v w : Word) (ha : a ≤ 64) (hb : b ≤ 64)
    (hacc : e.bs.AccInv) (h : e.bs.Full m (a + b)) :
    ∃ e', (do putBits m v a; putBits m w b : EncM Unit) e = .error .overflow e' :=
  putBits_then_full v ha hacc h fun _ _ h => ⟨_, putBits_full w hb h⟩

theorem putFirst_full {m : Config.Impl} {e : EncHalf} (v : Word) (x : XorRegs) (hacc : e.bs.AccInv)
    (h : e.bs.Full m (7 + (63 - ctz v))) : ∃ e', putFirst m v x e = .error .overflow e' := by
  have hc := ctz_le_64 v
  unfold putFirst
  by_cases hv : ctz v < 64
  · simp only [if_pos hv]
    exact putBits_then_full _ (by omega) hacc h fun _ _ h => ⟨_, bind_error (putBits_full _ (by omega) h) _⟩
  · rw [show 7 + (63 - ctz v) = 7 by omega] at h
    exact ⟨e, bind_error (putBits_full _ (by omega) h) _⟩

theorem putReuse_full {m : Config.Impl} {e : EncHalf} (xor : Word) (x : XorRegs) (hacc : e.bs.AccInv)
    (h : e.bs.Full m (2 + (64 - x.slz.toNat - x.stz.toNat))) : ∃ e', putReuse m xor x e = .error .overflow e' := by
  unfold putReuse
  by_cases hc : 64 - x.slz.toNat - x.stz.toNat + 2 > 64
  · simp only [if_pos hc]
    exact putBits_two_full _ _ (by omega) (by omega) hacc h
  · simp only [if_neg hc]
    exact ⟨e, putBits_full _ (by omega) (by rwa [Nat.add_comm])⟩

theorem putWindow_full {m : Config.Impl} {e : EncHalf} (v xor : Word) {lz tz : Nat} (x : XorRegs)
    (hacc : e.bs.AccInv)
    (h : e.bs.Full m ((if 64 - lz - tz ≤ 16 then 9 else 11) + (64 - lz - tz - 1))) :
    ∃ e', putWindow m v xor lz tz x e = .error .overflow e' := by
  unfold putWindow
  by_cases hc : 64 - lz - tz ≤ 16
  · simp only [if_pos hc] at h ⊢
    obtain ⟨e', he⟩ := putBits_two_full (BitVec.ofNat 64 (256 + 16 * (lzIdx lz).toNat + (64 - lz - tz) % 16))
      (shr xor (tz + 1)) (by omega) (by omega) hacc h
    exact ⟨e', bind_error he _⟩
  · simp only [if_neg hc] at h ⊢
    obtain ⟨e', he⟩ := putBits_two_full (BitVec.ofNat 64 (1536 + 64 * (lzIdx lz).toNat + (64 - lz - tz) % 64))
      (shr xor (tz + 1)) (by omega) (by omega) hacc h
    exact ⟨e', bind_error he _⟩

/-- The cases of `X64.PUT` (`42_xor64.md` R120). -/
theorem x64Put_first {m : Config.Impl} {v : Word} {e : EncHalf} (h : e.x.first = true) :
    x64Put m v e = putFirst m v e.x e := by
  unfold x64Put; rw [if_pos h]

theorem x64Put_same {m : Config.Impl} {v : Word} {e : EncHalf} (h : e.x.first = false) (hv : e.x.sv ^^^ v = 0) :
    x64Put m v e = (do putSame m; setEncX { e.x with sv := v } : EncM Unit) e := by
  unfold x64Put; rw [if_neg (by simp [h]), if_pos hv]

theorem x64Put_reuse {m : Config.Impl} {v : Word} {e : EncHalf} (h : e.x.first = false) (hv : e.x.sv ^^^ v ≠ 0)
    (hr : reusesWindow e.x (e.x.sv ^^^ v) = true) :
    x64Put m v e = (do putReuse m (e.x.sv ^^^ v) e.x; setEncX { e.x with sv := v } : EncM Unit) e := by
  unfold x64Put; rw [if_neg (by simp [h]), if_neg hv, if_pos hr]

theorem x64Put_window {m : Config.Impl} {v : Word} {e : EncHalf} (h : e.x.first = false) (hv : e.x.sv ^^^ v ≠ 0)
    (hr : ¬ reusesWindow e.x (e.x.sv ^^^ v) = true) :
    x64Put m v e =
      putWindow m v (e.x.sv ^^^ v) (lzRound (clz (e.x.sv ^^^ v))) (ctz (e.x.sv ^^^ v)) e.x e := by
  unfold x64Put; rw [if_neg (by simp [h]), if_neg hv, if_neg hr]

theorem reusesWindow_iff (x : XorRegs) (xor : Word) : reusesWindow x xor = true ↔
    x.winv = true ∧ lzRound (clz xor) = x.slz.toNat ∧ x.stz.toNat ≤ ctz xor := by
  simp [reusesWindow, and_assoc]

/-- The cases of the record length. -/
theorem XorRegs.putLength_first {x : XorRegs} {v : Word} (h : x.first = true) : x.putLength v = 7 + (63 - ctz v) := by
  simp [XorRegs.putLength, h]

theorem XorRegs.putLength_same {x : XorRegs} {v : Word} (h : x.first = false) (hv : x.sv ^^^ v = 0) :
    x.putLength v = 2 := by
  simp only [XorRegs.putLength, h, hv, if_true, if_neg Bool.false_ne_true]

theorem XorRegs.putLength_reuse {x : XorRegs} {v : Word} (h : x.first = false) (hv : x.sv ^^^ v ≠ 0)
    (hr : reusesWindow x (x.sv ^^^ v) = true) : x.putLength v = 2 + (64 - x.slz.toNat - x.stz.toNat) := by
  rw [XorRegs.putLength, if_neg (by simp [h]), if_neg hv, if_pos ((reusesWindow_iff _ _).1 hr)]

theorem XorRegs.putLength_window {x : XorRegs} {v : Word} (h : x.first = false) (hv : x.sv ^^^ v ≠ 0)
    (hr : ¬ reusesWindow x (x.sv ^^^ v) = true) : x.putLength v =
      (if 64 - lzRound (clz (x.sv ^^^ v)) - ctz (x.sv ^^^ v) ≤ 16 then 9 else 11) +
        (64 - lzRound (clz (x.sv ^^^ v)) - ctz (x.sv ^^^ v) - 1) := by
  rw [XorRegs.putLength, if_neg (by simp [h]), if_neg hv, if_neg (fun h => hr ((reusesWindow_iff _ _).2 h))]

end Sys2Proof.Machine
end

