-- ==== Sys2Proof/Laws/Relabel.lean ====
section
/-! SUPPORT. The record writers read neither the codec register nor the sticky flags, so they do the same under
another codec and other flags; and `X64.PUT` as a whole, with room for its record and without. -/

namespace Sys2Proof.Machine

/-- The half with another codec register and other sticky flags. -/
def EncHalf.relabel (e : EncHalf) (k : Codec) (st : EncStatus) : EncHalf := { e with codec := k, status := st }

@[simp] theorem EncHalf.relabel_bs (e : EncHalf) (k : Codec) (st : EncStatus) : (e.relabel k st).bs = e.bs := rfl
@[simp] theorem EncHalf.relabel_x (e : EncHalf) (k : Codec) (st : EncStatus) : (e.relabel k st).x = e.x := rfl
@[simp] theorem EncHalf.relabel_r (e : EncHalf) (k : Codec) (st : EncStatus) : (e.relabel k st).r = e.r := rfl
@[simp] theorem EncHalf.relabel_c (e : EncHalf) (k : Codec) (st : EncStatus) : (e.relabel k st).c = e.c := rfl
@[simp] theorem EncHalf.relabel_self (e : EncHalf) : e.relabel e.codec e.status = e := rfl
@[simp] theorem EncHalf.relabel_relabel (e : EncHalf) (k k' : Codec) (st st' : EncStatus) :
    (e.relabel k st).relabel k' st' = e.relabel k' st' := rfl

/-- A writer that reads and writes neither the codec register nor the flags. -/
structure EncM.Blind {α : Type} (x : EncM α) : Prop where
  ok : ∀ {e e' : EncHalf} {a : α}, x e = .ok a e' → ∀ k st, x (e.relabel k st) = .ok a (e'.relabel k st)
  error : ∀ {e e' : EncHalf} {c : ErrCode}, x e = .error c e' → ∀ k st,
    x (e.relabel k st) = .error c (e'.relabel k st)

theorem EncM.Blind.pure {α : Type} (a : α) : EncM.Blind (pure a) where
  ok h k st := by cases h; rfl
  error h := by cases h

theorem EncM.Blind.bind {α β : Type} {x : EncM α} {f : α → EncM β} (hx : EncM.Blind x)
    (hf : ∀ a, EncM.Blind (f a)) : EncM.Blind (x >>= f) where
  ok h k st := by
    obtain ⟨a, u, h1, h2⟩ := bind_eq_ok h
    rw [bind_ok (hx.ok h1 k st), (hf a).ok h2 k st]
  error h k st := by
    rcases bind_cases h with ⟨a, u, h1, h2⟩ | ⟨c, u, h1, h2⟩
    · rw [bind_ok (hx.ok h1 k st), (hf a).error h2 k st]
    · cases h2; rw [bind_error (hx.error h1 k st)]

theorem EncM.Blind.ite {α : Type} {p : Prop} [Decidable p] {x y : EncM α} (hx : EncM.Blind x) (hy : EncM.Blind y) :
    EncM.Blind (if p then x else y) := by
  by_cases h : p
  · rw [if_pos h]; exact hx
  · rw [if_neg h]; exact hy

theorem putBits_relabel (m : Config.Impl) (v : Word) (n : Nat) (e : EncHalf) (k : Codec) (st : EncStatus) :
    putBits m v n (e.relabel k st) =
      if n > Config.nMax then .error .contractViolation (e.relabel k st)
      else if e.bs.sealed then .error .contractViolation (e.relabel k st)
      else if sinkFull m e.bs n then .error .overflow (e.relabel k st)
      else .ok () ({ e with bs := BitSink.pushBits v n e.bs }.relabel k st) := rfl

theorem putBits_blind (m : Config.Impl) (v : Word) (n : Nat) : EncM.Blind (putBits m v n) where
  ok {e e' a} h k st := by
    rw [putBits_relabel]
    unfold putBits at h
    by_cases h1 : n > Config.nMax
    · rw [if_pos h1] at h; cases h
    by_cases h2 : e.bs.sealed = true
    · rw [if_neg h1, if_pos h2] at h; cases h
    by_cases h3 : sinkFull m e.bs n = true
    · rw [if_neg h1, if_neg h2, if_pos h3] at h; cases h
    rw [if_neg h1, if_neg h2, if_neg h3] at h ⊢
    cases h; rfl
  error {e e' c} h k st := by
    rw [putBits_relabel]
    unfold putBits at h
    by_cases h1 : n > Config.nMax
    · rw [if_pos h1] at h ⊢; cases h; rfl
    by_cases h2 : e.bs.sealed = true
    · rw [if_neg h1, if_pos h2] at h ⊢; cases h; rfl
    by_cases h3 : sinkFull m e.bs n = true
    · rw [if_neg h1, if_neg h2, if_pos h3] at h ⊢; cases h; rfl
    rw [if_neg h1, if_neg h2, if_neg h3] at h
    cases h

theorem putBit_relabel (m : Config.Impl) (b : Bool) (e : EncHalf) (k : Codec) (st : EncStatus) :
    putBit m b (e.relabel k st) =
      if e.bs.sealed then .error .contractViolation (e.relabel k st)
      else if sinkFull m e.bs 1 then .error .overflow (e.relabel k st)
      else .ok () ({ e with bs := e.bs.push b }.relabel k st) := rfl

theorem putBit_blind (m : Config.Impl) (b : Bool) : EncM.Blind (putBit m b) where
  ok {e e' a} h k st := by
    rw [putBit_relabel]
    unfold putBit at h
    by_cases h2 : e.bs.sealed = true
    · rw [if_pos h2] at h; cases h
    by_cases h3 : sinkFull m e.bs 1 = true
    · rw [if_neg h2, if_pos h3] at h; cases h
    rw [if_neg h2, if_neg h3] at h ⊢
    cases h; rfl
  error {e e' c} h k st := by
    rw [putBit_relabel]
    unfold putBit at h
    by_cases h2 : e.bs.sealed = true
    · rw [if_pos h2] at h ⊢; cases h; rfl
    by_cases h3 : sinkFull m e.bs 1 = true
    · rw [if_neg h2, if_pos h3] at h ⊢; cases h; rfl
    rw [if_neg h2, if_neg h3] at h
    cases h

theorem flushSink_blind : EncM.Blind flushSink where
  ok h k st := by cases h; rfl
  error h := by cases h

theorem setEncX_blind (x : XorRegs) : EncM.Blind (setEncX x) where
  ok h k st := by cases h; rfl
  error h := by cases h

theorem putFirst_blind (m : Config.Impl) (v : Word) (x : XorRegs) : EncM.Blind (putFirst m v x) := by
  have h : putFirst m v x =
      (putBits m (BitVec.ofNat 64 (ctz v)) 7 >>= fun _ =>
        (if ctz v < 64 then putBits m (shr v (ctz v + 1)) (63 - ctz v) else Pure.pure ()) >>= fun _ =>
          setEncX { x with first := false, sv := v }) := by
    unfold putFirst
    by_cases hv : ctz v < 64 <;> simp [hv]
  rw [h]
  exact (putBits_blind ..).bind fun _ =>
    ((putBits_blind ..).ite (EncM.Blind.pure _)).bind fun _ => setEncX_blind _

theorem putReuse_blind (m : Config.Impl) (xor : Word) (x : XorRegs) : EncM.Blind (putReuse m xor x) := by
  unfold putReuse
  exact ((putBits_blind ..).bind fun _ => putBits_blind ..).ite (putBits_blind ..)

theorem putWindow_blind (m : Config.Impl) (v xor : Word) (lz tz : Nat) (x : XorRegs) :
    EncM.Blind (putWindow m v xor lz tz x) := by
  have h : putWindow m v xor lz tz x =
      ((if 64 - lz - tz ≤ 16 then putNews m xor lz tz (64 - lz - tz) else putNewl m xor lz tz (64 - lz - tz)) >>=
        fun _ => setEncX { x with sv := v, winv := true, slz := BitVec.ofNat 5 lz, stz := BitVec.ofNat 7 tz }) := by
    unfold putWindow
    by_cases hc : 64 - lz - tz ≤ 16 <;> simp [hc]
  rw [h]
  exact (((putBits_blind ..).bind fun _ => putBits_blind ..).ite
    ((putBits_blind ..).bind fun _ => putBits_blind ..)).bind fun _ => setEncX_blind _

/-- `X64.PUT` on a half is one of its blind cases. -/
theorem x64Put_blind (m : Config.Impl) (v : Word) : EncM.Blind (x64Put m v) := by
  have key : ∀ e : EncHalf, ∃ y : EncM Unit, EncM.Blind y ∧ ∀ k st, x64Put m v (e.relabel k st) = y (e.relabel k st) := by
    intro e
    by_cases h1 : e.x.first = true
    · exact ⟨_, putFirst_blind m v e.x, fun k st => x64Put_first (e := e.relabel k st) h1⟩
    have h1' : e.x.first = false := by simpa using h1
    by_cases h2 : e.x.sv ^^^ v = 0
    · exact ⟨do putSame m; setEncX { e.x with sv := v }, (putBits_blind m 0b01 2).bind fun _ => setEncX_blind _,
        fun k st => x64Put_same (e := e.relabel k st) h1' h2⟩
    by_cases h3 : reusesWindow e.x (e.x.sv ^^^ v) = true
    · exact ⟨do putReuse m (e.x.sv ^^^ v) e.x; setEncX { e.x with sv := v },
        (putReuse_blind ..).bind fun _ => setEncX_blind _, fun k st =>
          x64Put_reuse (e := e.relabel k st) h1' h2 h3⟩
    exact ⟨putWindow m v (e.x.sv ^^^ v) (lzRound (clz (e.x.sv ^^^ v))) (ctz (e.x.sv ^^^ v)) e.x,
      putWindow_blind .., fun k st => x64Put_window (e := e.relabel k st) h1' h2 h3⟩
  refine ⟨fun {e e' a} h k st => ?_, fun {e e' c} h k st => ?_⟩ <;> obtain ⟨y, hy, he⟩ := key e <;>
    have h0 := he e.codec e.status <;> rw [EncHalf.relabel_self] at h0 <;> rw [he k st]
  · exact hy.ok (h0.symm.trans h) k st
  · exact hy.error (h0.symm.trans h) k st

/-- With room for its record, `X64.PUT` is accepted and appends that many bits. -/
theorem x64Put_ok {m : Config.Impl} {e : EncHalf} (v : Word) (hacc : e.bs.AccInv)
    (h : e.bs.Takes m (e.x.putLength v)) :
    ∃ k x l, x64Put m v e = .ok () { e with bs := k, x := x } ∧ k.Extends e.bs l ∧ l.length = e.x.putLength v := by
  by_cases h1 : e.x.first = true
  · have hlen := XorRegs.putLength_first (v := v) h1
    obtain ⟨k, hk, hx⟩ := putFirst_ok v e.x hacc (hlen ▸ h)
    refine ⟨k, _, _, (x64Put_first h1).trans hk, hx, ?_⟩
    rw [hlen, List.length_append, bitSlice_length, natBits_length]; omega
  have h1 : e.x.first = false := by simpa using h1
  by_cases h2 : e.x.sv ^^^ v = 0
  · have hlen := XorRegs.putLength_same h1 h2
    obtain ⟨k, hk, hx⟩ := putSame_ok hacc (hlen ▸ h)
    refine ⟨k, { e.x with sv := v }, _, ?_, hx, hlen.symm⟩
    rw [x64Put_same h1 h2, bind_ok hk]; rfl
  by_cases h3 : reusesWindow e.x (e.x.sv ^^^ v) = true
  · have hlen := XorRegs.putLength_reuse h1 h2 h3
    rw [hlen] at h ⊢
    have hp : ∃ k l, putReuse m (e.x.sv ^^^ v) e.x e = .ok () { e with bs := k } ∧ k.Extends e.bs l ∧
        l.length = 2 + (64 - e.x.slz.toNat - e.x.stz.toNat) := by
      unfold putReuse
      by_cases hc : 64 - e.x.slz.toNat - e.x.stz.toNat + 2 > 64
      · simp only [if_pos hc]
        obtain ⟨k, hk, hx⟩ := putBits_two (0b00 : Word) (shr (e.x.sv ^^^ v) e.x.stz.toNat) (by omega : 2 ≤ 64)
          (by omega : 64 - e.x.slz.toNat - e.x.stz.toNat ≤ 64) hacc h
        exact ⟨k, _, hk, hx, by simp⟩
      · simp only [if_neg hc]
        obtain ⟨k, hk, hx⟩ := putBits_extends (shr (e.x.sv ^^^ v) e.x.stz.toNat)
          (by omega : 64 - e.x.slz.toNat - e.x.stz.toNat + 2 ≤ 64) hacc (by rwa [Nat.add_comm])
        exact ⟨k, _, hk, hx, by simp; omega⟩
    obtain ⟨k, l, hk, hx, hl⟩ := hp
    refine ⟨k, { e.x with sv := v }, l, ?_, hx, hl⟩
    rw [x64Put_reuse h1 h2 h3, bind_ok hk]; rfl
  · have h63 := lzRound_clz_add_ctz h2
    have hlen := XorRegs.putLength_window h1 h2 h3
    obtain ⟨k, hk, hx⟩ := putWindow_ok (v := v) (xor := e.x.sv ^^^ v) (x := e.x) hacc h63 (hlen ▸ h)
    refine ⟨k, _, _, (x64Put_window h1 h2 h3).trans hk, hx, ?_⟩
    rw [hlen, List.length_append, bitSlice_length]
    split <;> simp <;> omega

/-- Without room for its record, `X64.PUT` overflows. -/
theorem x64Put_full {m : Config.Impl} {e : EncHalf} (v : Word) (hacc : e.bs.AccInv)
    (h : e.bs.Full m (e.x.putLength v)) : ∃ e', x64Put m v e = .error .overflow e' := by
  by_cases h1 : e.x.first = true
  · rw [x64Put_first h1]
    exact putFirst_full v e.x hacc (XorRegs.putLength_first h1 ▸ h)
  have h1 : e.x.first = false := by simpa using h1
  by_cases h2 : e.x.sv ^^^ v = 0
  · rw [x64Put_same h1 h2]
    exact ⟨e, bind_error (putBits_full _ (by omega) (XorRegs.putLength_same h1 h2 ▸ h)) _⟩
  by_cases h3 : reusesWindow e.x (e.x.sv ^^^ v) = true
  · rw [x64Put_reuse h1 h2 h3]
    obtain ⟨e', he⟩ := putReuse_full (e.x.sv ^^^ v) e.x hacc (XorRegs.putLength_reuse h1 h2 h3 ▸ h)
    exact ⟨e', bind_error he _⟩
  · rw [x64Put_window h1 h2 h3]
    exact putWindow_full v _ e.x hacc (XorRegs.putLength_window h1 h2 h3 ▸ h)

end Sys2Proof.Machine
end

