-- ==== Sys2Proof/Laws/ChimpEncode.lean ====
section
/-! SUPPORT. The history-indexed encoder: what the selector chooses, what an accepted record appends, that one
without room overflows, and what the history holds after a value. -/

namespace Sys2Proof.Machine

@[simp] theorem setEncC_ok (c : ChpEncRegs) (e : EncHalf) : setEncC c e = .ok () { e with c := c } := rfl

theorem keyOf_eq (l : BitVec 6) (v : Word) : keyOf l v = v.toNat % 2 ^ (7 + l.toNat) := by
  rw [keyOf, threshold, show 6 + l.toNat + 1 = 7 + l.toNat by omega]

/-- The history after a value, read back (`44_chimp.md` R182, R189). -/
theorem ChpEncRegs.store_stored {c : ChpEncRegs} (p : Nat) (v : Word) (h1 : Memory.wf 0 c.ring = true)
    (h2 : Memory.wf false c.tblv = true) (h3 : Memory.wf 0 c.tbl = true) (hf : c.first = false) :
    c.Stored (c.store p v) p v := by
  refine ⟨rfl, hf, rfl, fun i => ?_, fun key => ?_, fun key => ?_⟩
  · exact Memory.read_write _ _ _ h1
  · rw [← keyOf_eq]; exact Memory.read_write _ _ _ h2
  · rw [← keyOf_eq]; exact Memory.read_write _ _ _ h3

/-- The selector (`44_chimp.md` R183). -/
theorem ChpEncRegs.Selects.eq {c : ChpEncRegs} {v xor : Word} {hist : Bool} {ref : Nat}
    (h : c.Selects v hist ref xor) : c.hit v = hist ∧ c.refSlot v = ref ∧ c.refXor v = xor := by
  obtain ⟨hx, h⟩ := h
  have key : ∀ b, c.hit v = b → c.refSlot v = ref → c.hit v = b ∧ c.refSlot v = ref ∧ c.refXor v = xor :=
    fun b h1 h2 => ⟨h1, h2, by rw [ChpEncRegs.refXor, h2, hx]; rfl⟩
  have hxor : ∀ i, c.slotValue i ^^^ v = v ^^^ c.slotValue i := fun i => BitVec.xor_comm _ _
  cases hist with
  | true =>
    obtain ⟨cand, ⟨hv, hc, hw⟩, hr, ht⟩ := h
    rw [← keyOf_eq] at hv hc
    have hhit : c.hit v = true := by
      simp only [ChpEncRegs.hit, hv, hc, Bool.true_and, Bool.and_eq_true, decide_eq_true_eq]
      refine ⟨hw, ?_⟩
      rw [← hxor, show c.slotValue (c.slot cand) ^^^ v = xor by rw [hx, hr]; rfl]
      exact ht
    refine key _ hhit ?_
    rw [ChpEncRegs.refSlot, if_pos hhit, hc, hr]; rfl
  | false =>
    obtain ⟨hr, ht⟩ := h
    have hhit : c.hit v = false := by
      by_contra hne
      have hne : c.hit v = true := by simpa using hne
      simp only [ChpEncRegs.hit, Bool.and_eq_true, decide_eq_true_eq] at hne
      obtain ⟨⟨hv, hw⟩, h6⟩ := hne
      have := ht (Memory.read 0 c.tbl (keyOf c.log2w v)) ⟨by rw [← keyOf_eq]; exact hv, by rw [keyOf_eq], hw⟩
      exact absurd h6 (Nat.not_lt.2 this)
    refine key _ hhit ?_
    rw [ChpEncRegs.refSlot, if_neg (by simp [hhit]), hr]; rfl

/-! ## Records -/

/-- `C.FIRST` (`44_chimp.md` R182). -/
theorem putCFirst_ok {m : Config.Impl} {e : EncHalf} (v : Word) (c : ChpEncRegs) (ha : e.bs.AccInv)
    (h : e.bs.Takes m 64) :
    ∃ k, putCFirst m v c e = .ok () { e with bs := k, c := { c with first := false }.store 0 v } ∧
      k.Extends e.bs (natBits v.toNat 64) := by
  obtain ⟨k, h1, x1⟩ := putBits_extends v (by omega : 64 ≤ 64) ha h
  exact ⟨k, by unfold putCFirst; rw [bind_ok h1]; rfl, x1⟩

/-- `C.COPY` (`44_chimp.md` R185). -/
theorem putCopy_ok {m : Config.Impl} {e : EncHalf} {c : ChpEncRegs} {ref : Nat} (ha : e.bs.AccInv)
    (hl : c.log2w.toNat ≤ 53) (hr : ref < 2 ^ c.log2w.toNat) (h : e.bs.Takes m (c.log2w.toNat + 2)) :
    ∃ k, putCopy m c ref e = .ok () { e with bs := k, c := { c with slz := Config.noWindow } } ∧
      k.Extends e.bs ([false, false] ++ natBits ref c.log2w.toNat) := by
  obtain ⟨k, h1, x1⟩ := putBits_extends (BitVec.ofNat 64 ref) (by omega : c.log2w.toNat + 2 ≤ 64) ha h
  refine ⟨k, by unfold putCopy; rw [bind_ok h1]; rfl, ?_⟩
  have h64 : (2 : Nat) ^ c.log2w.toNat < 2 ^ 64 := Nat.pow_lt_pow_right (by omega) (by omega)
  rwa [BitVec.toNat_ofNat, Nat.mod_eq_of_lt (hr.trans h64), Nat.add_comm, natBits_of_lt hr] at x1

/-- The header of `C.HIST` (`44_chimp.md` R186). -/
theorem natBits_histHeader {l ref sig : Nat} (i : BitVec 3) (hl : l ≤ 53) (hr : ref < 2 ^ l) (hs : sig < 64) :
    natBits (BitVec.ofNat 64 (512 * (2 ^ l + ref) + 64 * i.toNat + sig)).toNat (l + 11) =
      [false, true] ++ natBits ref l ++ natBits i.toNat 3 ++ natBits sig 6 := by
  have hi := i.isLt
  have hp : 2 ^ l ≤ 2 ^ 53 := Nat.pow_le_pow_right (by omega) hl
  have hp' : (2 : Nat) ^ 53 = 9007199254740992 := by norm_num
  rw [BitVec.toNat_ofNat, Nat.mod_eq_of_lt (by omega), show l + 11 = 2 + l + 3 + 6 by omega,
    natBits_append _ (2 + l + 3) 6, natBits_append _ (2 + l) 3, natBits_append _ 2 l]
  have e1 : (512 * (2 ^ l + ref) + 64 * i.toNat + sig) / 2 ^ 6 / 2 ^ 3 = 2 ^ l + ref := by omega
  rw [e1]
  have e2 : (2 ^ l + ref) / 2 ^ l = 1 := by
    rw [Nat.add_div_left _ (Nat.two_pow_pos _), Nat.div_eq_of_lt hr]
  rw [e2]
  congr 1
  · congr 1
    · congr 1
      exact natBits_congr (by simp)
    · exact natBits_congr (by omega)
  · exact natBits_congr (by omega)

/-- `C.HIST` (`44_chimp.md` R186). -/
theorem putHist_ok {m : Config.Impl} {e : EncHalf} {c : ChpEncRegs} {ref : Nat} {xor : Word} (ha : e.bs.AccInv)
    (hl : c.log2w.toNat ≤ 53) (hr : ref < 2 ^ c.log2w.toNat) (hx : xor ≠ 0) (ht : 1 ≤ ctz xor)
    (h : e.bs.Takes m (c.log2w.toNat + 11 + (64 - lzRound (clz xor) - ctz xor))) :
    ∃ k, putHist m c ref xor e = .ok () { e with bs := k, c := { c with slz := Config.noWindow } } ∧
      k.Extends e.bs ([false, true] ++ natBits ref c.log2w.toNat ++ natBits (lzIdx (lzRound (clz xor))).toNat 3 ++
        natBits (64 - lzRound (clz xor) - ctz xor) 6 ++ bitSlice xor (63 - lzRound (clz xor)) (ctz xor)) := by
  have h63 := lzRound_clz_add_ctz hx
  obtain ⟨k, h1, x1⟩ := putBits_two
    (BitVec.ofNat 64 (512 * (windowSize c.log2w + ref) + 64 * (lzIdx (lzRound (clz xor))).toNat +
      (64 - lzRound (clz xor) - ctz xor)))
    (shr xor (ctz xor)) (by omega : c.log2w.toNat + 11 ≤ 64) (by omega : 64 - lzRound (clz xor) - ctz xor ≤ 64) ha h
  refine ⟨k, ?_, ?_⟩
  · have : putHist m c ref xor = ((do
        putBits m (BitVec.ofNat 64 (512 * (windowSize c.log2w + ref) + 64 * (lzIdx (lzRound (clz xor))).toNat +
          (64 - lzRound (clz xor) - ctz xor))) (c.log2w.toNat + 11)
        putBits m (shr xor (ctz xor)) (64 - lzRound (clz xor) - ctz xor) : EncM Unit) >>= fun _ =>
          setEncC { c with slz := Config.noWindow }) := by
      simp [putHist]
    rw [this, bind_ok h1]; rfl
  · rw [windowSize, natBits_histHeader _ hl hr (by omega),
      natBits_shr _ _ _ (63 - lzRound (clz xor)) (by omega)] at x1
    exact x1

theorem natBits_eq_bitSlice_zero (v : Word) (lz : Nat) (h : lz ≤ 63) : natBits v.toNat (64 - lz) = bitSlice v (63 - lz) 0 := by
  rw [bitSlice_eq_natBits, Nat.pow_zero, Nat.div_one]; congr 1; omega

/-- `C.PREV` (`44_chimp.md` R187). -/
theorem putPrev_ok {m : Config.Impl} {e : EncHalf} (xor : Word) (ha : e.bs.AccInv)
    (h : e.bs.Takes m (2 + (64 - lzRound (clz xor)))) :
    ∃ k, putPrev m xor e = .ok () { e with bs := k } ∧
      k.Extends e.bs ([true, false] ++ bitSlice xor (63 - lzRound (clz xor)) 0) := by
  have h24 := lzRound_le_24 (clz xor)
  obtain ⟨k, h1, x1⟩ := putBits_two (0b10 : Word) xor (by omega : 2 ≤ 64)
    (by omega : 64 - lzRound (clz xor) ≤ 64) ha h
  rw [natBits_eq_bitSlice_zero _ _ (by omega)] at x1
  exact ⟨k, h1, x1⟩

/-- `C.PREVN` (`44_chimp.md` R188). -/
theorem putPrevn_ok {m : Config.Impl} {e : EncHalf} (c : ChpEncRegs) (xor : Word) (ha : e.bs.AccInv)
    (h : e.bs.Takes m (5 + (64 - lzRound (clz xor)))) :
    ∃ k, putPrevn m c xor e =
        .ok () { e with bs := k, c := { c with slz := BitVec.ofNat 7 (lzRound (clz xor)) } } ∧
      k.Extends e.bs ([true, true] ++ natBits (lzIdx (lzRound (clz xor))).toNat 3 ++
        bitSlice xor (63 - lzRound (clz xor)) 0) := by
  have h24 := lzRound_le_24 (clz xor)
  obtain ⟨k, h1, x1⟩ := putBits_two
    (e := { e with c := { c with slz := BitVec.ofNat 7 (lzRound (clz xor)) } })
    (BitVec.ofNat 64 (24 + (lzIdx (lzRound (clz xor))).toNat)) xor (by omega : 5 ≤ 64)
    (by omega : 64 - lzRound (clz xor) ≤ 64) ha h
  refine ⟨k, ?_, ?_⟩
  · unfold putPrevn
    rw [bind_ok (setEncC_ok _ _)]; exact h1
  · rw [natBits_eq_bitSlice_zero _ _ (by omega)] at x1
    have hi := (lzIdx (lzRound (clz xor))).isLt
    rw [BitVec.toNat_ofNat, Nat.mod_eq_of_lt (by omega), natBits_append _ 2 3,
      show (24 + (lzIdx (lzRound (clz xor))).toNat) / 2 ^ 3 = 3 by omega,
      natBits_congr (show (24 + (lzIdx (lzRound (clz xor))).toNat) % 2 ^ 3 =
        (lzIdx (lzRound (clz xor))).toNat % 2 ^ 3 by omega)] at x1
    exact x1

/-! ## CHP.PUT -/

theorem indexFull_eq_false {m : Config.Impl} {n : Nat} (h : ∀ b ∈ m.idxBits, n ≠ 2 ^ b - 1) :
    indexFull m n = false := by
  unfold indexFull
  cases hb : m.idxBits with
  | none => rfl
  | some b => simpa using h b (by simp [hb])

theorem chpPut_first {m : Config.Impl} {v : Word} {e : EncHalf} (hs : e.bs.sealed = false) (h : e.c.first = true) :
    chpPut m v e = putCFirst m v e.c e := by
  unfold chpPut; rw [if_neg (by simp [hs]), if_pos h]

theorem chpPut_steady {m : Config.Impl} {v : Word} {e : EncHalf} (hs : e.bs.sealed = false) (h : e.c.first = false)
    (hi : ∀ b ∈ m.idxBits, e.c.index ≠ 2 ^ b - 1) :
    chpPut m v e = (do putCRecord m v e.c; updateHistory v : EncM Unit) e := by
  unfold chpPut
  rw [if_neg (by simp [hs]), if_neg (by simp [h]), if_neg (by simp [indexFull_eq_false hi])]

theorem chpPut_full {m : Config.Impl} {v : Word} {e : EncHalf} (hs : e.bs.sealed = false) (h : e.c.first = false)
    (hi : indexFull m e.c.index = true) : chpPut m v e = .error .overflow e := by
  unfold chpPut
  rw [if_neg (by simp [hs]), if_neg (by simp [h]), if_pos hi]

theorem chpPut_sealed {m : Config.Impl} {v : Word} {e : EncHalf} (hs : e.bs.sealed = true) :
    chpPut m v e = .error .contractViolation e := by
  unfold chpPut
  rw [if_pos hs]

theorem ChpEncRegs.refSlot_lt (c : ChpEncRegs) (v : Word) : c.refSlot v < 2 ^ c.log2w.toNat := by
  unfold ChpEncRegs.refSlot
  split <;> exact Nat.mod_lt _ (Nat.two_pow_pos _)

theorem ChpEncRegs.hit_ctz {c : ChpEncRegs} {v : Word} (h : c.hit v = true) : 6 + c.log2w.toNat < ctz (c.refXor v) := by
  have h' := h
  simp only [ChpEncRegs.hit, Bool.and_eq_true, decide_eq_true_eq] at h'
  rw [ChpEncRegs.refXor, ChpEncRegs.refSlot, if_pos h, BitVec.xor_comm]
  exact h'.2

/-- The length of the steady-state record of `v`, case by case as `putCRecord` writes it. -/
def ChpEncRegs.recordLength (c : ChpEncRegs) (v : Word) : Nat :=
  if c.refXor v = 0 then c.log2w.toNat + 2
  else if c.hit v then c.log2w.toNat + 11 + (64 - lzRound (clz (c.refXor v)) - ctz (c.refXor v))
  else (if lzRound (clz (c.refXor v)) = c.slz.toNat then 2 else 5) + (64 - lzRound (clz (c.refXor v)))

theorem ChpEncRegs.PutLength.eq {c : ChpEncRegs} {v : Word} {n : Nat} (h : c.PutLength v n) :
    n = if c.first then 64 else c.recordLength v := by
  rcases h with ⟨hf, hn⟩ | ⟨hf, hist, ref, xor, hsel, hn⟩
  · rw [hf, hn]; rfl
  · obtain ⟨h1, -, h3⟩ := hsel.eq
    rw [hf, hn, ChpEncRegs.recordLength, h1, h3]; rfl

/-- With room for it, a steady-state record is accepted, and is as long as it should be. -/
theorem putCRecord_ok {m : Config.Impl} {e : EncHalf} (v : Word) (ha : e.bs.AccInv) (hl : e.c.log2w.toNat ≤ 53)
    (h : e.bs.Takes m (e.c.recordLength v)) :
    ∃ k c l, putCRecord m v e.c e = .ok () { e with bs := k, c := c } ∧ k.Extends e.bs l ∧
      l.length = e.c.recordLength v := by
  have hr := e.c.refSlot_lt v
  have h24 := lzRound_le_24 (clz (e.c.refXor v))
  unfold ChpEncRegs.recordLength at h ⊢
  by_cases hx : e.c.refXor v = 0
  · rw [if_pos hx] at h ⊢
    obtain ⟨k, h1, x1⟩ := putCopy_ok (c := e.c) ha hl hr h
    exact ⟨k, _, _, by unfold putCRecord; rw [if_pos hx, h1], x1, by simp⟩
  rw [if_neg hx] at h ⊢
  by_cases hh : e.c.hit v = true
  · have h6 := e.c.hit_ctz hh
    have h63 := lzRound_clz_add_ctz hx
    rw [if_pos hh] at h ⊢
    obtain ⟨k, h1, x1⟩ := putHist_ok (c := e.c) ha hl hr hx (by omega) h
    exact ⟨k, _, _, by unfold putCRecord; rw [if_neg hx, if_pos hh, h1], x1, by simp; omega⟩
  rw [if_neg hh] at h ⊢
  by_cases hz : lzRound (clz (e.c.refXor v)) = e.c.slz.toNat
  · rw [if_pos hz] at h ⊢
    obtain ⟨k, h1, x1⟩ := putPrev_ok (m := m) (e.c.refXor v) ha h
    exact ⟨k, e.c, _, by unfold putCRecord; rw [if_neg hx, if_neg hh, if_pos hz, h1], x1, by simp; omega⟩
  · rw [if_neg hz] at h ⊢
    obtain ⟨k, h1, x1⟩ := putPrevn_ok (m := m) e.c (e.c.refXor v) ha h
    exact ⟨k, _, _, by unfold putCRecord; rw [if_neg hx, if_neg hh, if_neg hz, h1], x1, by simp; omega⟩

/-- Without room for it, a steady-state record overflows. -/
theorem putCRecord_full {m : Config.Impl} {e : EncHalf} (v : Word) (ha : e.bs.AccInv) (hl : e.c.log2w.toNat ≤ 53)
    (h : e.bs.Full m (e.c.recordLength v)) : ∃ e', putCRecord m v e.c e = .error .overflow e' := by
  have h24 := lzRound_le_24 (clz (e.c.refXor v))
  unfold ChpEncRegs.recordLength at h
  unfold putCRecord
  by_cases hx : e.c.refXor v = 0
  · rw [if_pos hx] at h ⊢
    exact ⟨e, bind_error (putBits_full _ (by omega) h) _⟩
  rw [if_neg hx] at h ⊢
  by_cases hh : e.c.hit v = true
  · rw [if_pos hh] at h ⊢
    exact putBits_then_full _ (by omega) ha h fun _ _ h => ⟨_, bind_error (putBits_full _ (by omega) h) _⟩
  rw [if_neg hh] at h ⊢
  by_cases hz : lzRound (clz (e.c.refXor v)) = e.c.slz.toNat
  · rw [if_pos hz] at h ⊢
    exact putBits_two_full _ _ (by omega) (by omega) ha h
  · rw [if_neg hz] at h ⊢
    unfold putPrevn
    rw [bind_ok (setEncC_ok _ _)]
    exact putBits_two_full (e := { e with c := _ }) _ _ (by omega) (by omega) ha h

/-- With room for its record, and a counter that can count, `CHP.PUT` is accepted. -/
theorem chpPut_ok {m : Config.Impl} {e : EncHalf} {n : Nat} (v : Word) (ha : e.bs.AccInv) (hl : e.c.log2w.toNat ≤ 53)
    (hn : e.c.PutLength v n) (h : e.bs.Takes m n)
    (hi : e.c.first = false → ∀ b ∈ m.idxBits, e.c.index ≠ 2 ^ b - 1) :
    ∃ k c l, chpPut m v e = .ok () { e with bs := k, c := c } ∧ k.Extends e.bs l ∧ l.length = n := by
  have hn := hn.eq
  by_cases hf : e.c.first = true
  · rw [if_pos hf] at hn
    obtain ⟨k, h1, x1⟩ := putCFirst_ok v e.c ha (hn ▸ h)
    exact ⟨k, _, _, (chpPut_first h.1 hf).trans h1, x1, by simp [hn]⟩
  · rw [if_neg hf] at hn
    have hf : e.c.first = false := by simpa using hf
    obtain ⟨k, c, l, h1, x1, hlen⟩ := putCRecord_ok v ha hl (hn ▸ h)
    refine ⟨k, c.store (c.index + 1) v, l, ?_, x1, hlen.trans hn.symm⟩
    rw [chpPut_steady h.1 hf (hi hf), bind_ok h1]; rfl

/-- Without room for its record, `CHP.PUT` overflows. -/
theorem chpPut_noRoom {m : Config.Impl} {e : EncHalf} {n : Nat} (v : Word) (ha : e.bs.AccInv)
    (hl : e.c.log2w.toNat ≤ 53) (hn : e.c.PutLength v n) (h : e.bs.Full m n) :
    ∃ e', chpPut m v e = .error .overflow e' := by
  have hn := hn.eq
  by_cases hf : e.c.first = true
  · rw [if_pos hf] at hn
    rw [chpPut_first h.1 hf]
    exact ⟨e, bind_error (putBits_full v (by omega) (hn ▸ h)) _⟩
  · rw [if_neg hf] at hn
    have hf : e.c.first = false := by simpa using hf
    by_cases hi : indexFull m e.c.index = true
    · exact ⟨e, chpPut_full h.1 hf hi⟩
    · obtain ⟨e', he⟩ := putCRecord_full v ha hl (hn ▸ h)
      unfold chpPut
      rw [if_neg (by simp [h.1]), if_neg (by simp [hf]), if_neg hi]
      exact ⟨e', bind_error he _⟩

theorem setEncC_blind (c : ChpEncRegs) : EncM.Blind (setEncC c) where
  ok h k st := by cases h; rfl
  error h := by cases h

theorem updateHistory_blind (v : Word) : EncM.Blind (updateHistory v) where
  ok h k st := by cases h; rfl
  error h := by cases h

theorem putCRecord_blind (m : Config.Impl) (v : Word) (c : ChpEncRegs) : EncM.Blind (putCRecord m v c) := by
  unfold putCRecord
  refine ((putBits_blind ..).bind fun _ => setEncC_blind _).ite (EncM.Blind.ite ?_ (EncM.Blind.ite ?_ ?_))
  · exact (putBits_blind ..).bind fun _ => (putBits_blind ..).bind fun _ => setEncC_blind _
  · exact (putBits_blind ..).bind fun _ => putBits_blind ..
  · exact (setEncC_blind _).bind fun _ => (putBits_blind ..).bind fun _ => putBits_blind ..

theorem chpPut_blind (m : Config.Impl) (v : Word) : EncM.Blind (chpPut m v) := by
  have key : ∀ e : EncHalf, ∃ y : EncM Unit, EncM.Blind y ∧
      ∀ k st, chpPut m v (e.relabel k st) = y (e.relabel k st) := by
    intro e
    by_cases h0 : e.bs.sealed = true
    · exact ⟨fun e => .error .contractViolation e, ⟨fun h => (by cases h), fun h k st => (by cases h; rfl)⟩,
        fun k st => chpPut_sealed (e := e.relabel k st) h0⟩
    have h0 : e.bs.sealed = false := by simpa using h0
    by_cases h1 : e.c.first = true
    · exact ⟨putCFirst m v e.c, (putBits_blind ..).bind fun _ => setEncC_blind _,
        fun k st => chpPut_first (e := e.relabel k st) h0 h1⟩
    have h1 : e.c.first = false := by simpa using h1
    by_cases h2 : indexFull m e.c.index = true
    · exact ⟨fun e => .error .overflow e, ⟨fun h => (by cases h), fun h k st => (by cases h; rfl)⟩,
        fun k st => chpPut_full (e := e.relabel k st) h0 h1 h2⟩
    · refine ⟨do putCRecord m v e.c; updateHistory v, (putCRecord_blind ..).bind fun _ => updateHistory_blind v,
        fun k st => ?_⟩
      show chpPut m v (e.relabel k st) = _
      unfold chpPut
      rw [if_neg (by simp [h0]), if_neg (by simp [h1]), if_neg (by exact h2)]; rfl
  refine ⟨fun {e e' a} h k st => ?_, fun {e e' c} h k st => ?_⟩ <;> obtain ⟨y, hy, he⟩ := key e <;>
    have h0 := he e.codec e.status <;> rw [EncHalf.relabel_self] at h0 <;> rw [he k st]
  · exact hy.ok (h0.symm.trans h) k st
  · exact hy.error (h0.symm.trans h) k st

end Sys2Proof.Machine
end

