-- ==== Sys2Proof/Laws/Erasure.lean ====
section
/-! SUPPORT. The control prefix of the erasure encoder: what it appends, and what a sequence that begins with it
does where it does not fit. -/

namespace Sys2Proof.Machine

/-- Control `0`, for the betaStar announced last (`43_erasure.md` R157). -/
theorem putControl_known {m : Config.Impl} {b : Nat} {e : EncHalf} (hb : e.r.lbsv = true ∧ b = e.r.lbs.toNat)
    (ha : e.bs.AccInv) (h : e.bs.Takes m 1) :
    ∃ k, putControl m b e = .ok () { e with bs := k } ∧ k.Extends e.bs [false] := by
  obtain ⟨k, h1, x1⟩ := putBits_extends (0 : Word) (by omega : 1 ≤ 64) ha h
  exact ⟨k, by unfold putControl; rw [if_pos hb]; exact h1, x1⟩

/-- Control `11` and a betaStar not announced last, which is so from then on (`43_erasure.md` R157). -/
theorem putControl_new {m : Config.Impl} {b : Nat} {e : EncHalf} (hb : ¬ (e.r.lbsv = true ∧ b = e.r.lbs.toNat))
    (h15 : b ≤ 15) (ha : e.bs.AccInv) (h : e.bs.Takes m 6) :
    ∃ k, putControl m b e = .ok () { e with bs := k, r := ⟨true, BitVec.ofNat 4 b⟩ } ∧
      k.Extends e.bs ([true, true] ++ natBits b 4) := by
  obtain ⟨k, h1, x1⟩ := putBits_extends (BitVec.ofNat 64 (48 + b)) (by omega : 6 ≤ 64) ha h
  rw [BitVec.toNat_ofNat, Nat.mod_eq_of_lt (by omega), natBits_append _ 2 4,
    show (48 + b) / 2 ^ 4 = 3 by omega, natBits_congr (show (48 + b) % 2 ^ 4 = b % 2 ^ 4 by omega)] at x1
  exact ⟨k, by unfold putControl; rw [if_neg hb]; exact bind_ok h1 _, x1⟩

/-- A sequence that begins with the control prefix overflows if what it writes does not fit. -/
theorem putControl_then_full {m : Config.Impl} {b n : Nat} {e : EncHalf} {α : Type} {f : Unit → EncM α}
    (ha : e.bs.AccInv)
    (h : e.bs.Full m ((if e.r.lbsv = true ∧ b = e.r.lbs.toNat then 1 else 6) + n))
    (hf : ∀ (k : BitSink) (r : EraRegs), k.AccInv → k.Full m n →
      ∃ e', f () { e with bs := k, r := r } = .error .overflow e') :
    ∃ e', (putControl m b >>= f) e = .error .overflow e' := by
  by_cases hb : e.r.lbsv = true ∧ b = e.r.lbs.toNat
  · have hc : putControl m b e = putBits m 0 1 e := by unfold putControl; rw [if_pos hb]
    rw [if_pos hb] at h
    rcases BitSink.takes_or_full m 1 h.1 with ht | ht
    · obtain ⟨k, h1, x1⟩ := putBits_extends (0 : Word) (by omega : 1 ≤ 64) ha ht
      rw [bind_ok (hc.trans h1)]
      exact hf k e.r x1.2.2 (BitSink.Full.after (by simpa using h) x1)
    · exact ⟨e, bind_error (hc.trans (putBits_full _ (by omega) ht)) _⟩
  · rw [if_neg hb] at h
    rcases BitSink.takes_or_full m 6 h.1 with ht | ht
    · obtain ⟨k, h1, x1⟩ := putBits_extends (BitVec.ofNat 64 (48 + b)) (by omega : 6 ≤ 64) ha ht
      have hc : putControl m b e = .ok () { e with bs := k, r := ⟨true, BitVec.ofNat 4 b⟩ } := by
        unfold putControl; rw [if_neg hb]; exact bind_ok h1 _
      rw [bind_ok hc]
      exact hf _ _ x1.2.2 (BitSink.Full.after (by simpa using h) x1)
    · have hc : putControl m b e = .error .overflow e := by
        unfold putControl; rw [if_neg hb]; exact bind_error (putBits_full _ (by omega) ht) _
      exact ⟨e, bind_error hc _⟩

end Sys2Proof.Machine
end

