-- ==== Sys2Proof/Laws/PerInstr.lean ====
section
/-! SUPPORT. Statements made for every instruction, one lemma a constructor: the bits an encoding writes are as
many as the record's length. -/

open Sys2Proof Sys2Proof.Machine

/-- A record's encoding has the length of the record (`30_encoding.md` R84). -/
def Sys2Proof.Laws.RecordLength.Statement (i : Instr) : Prop :=
  ∀ (c : Context) (bits : List Bool), encode c i = .record bits → bits.length = recordLength c i

theorem Sys2Proof.Laws.RecordLength.reset :
    Sys2Proof.Laws.RecordLength.Statement .reset := by
  intro c bits h
  cases h

theorem Sys2Proof.Laws.RecordLength.cfgW (n : BitVec 7) :
    Sys2Proof.Laws.RecordLength.Statement (.cfgW n) := by
  intro c bits h
  cases h

theorem Sys2Proof.Laws.RecordLength.status :
    Sys2Proof.Laws.RecordLength.Statement .status := by
  intro c bits h
  cases h

theorem Sys2Proof.Laws.RecordLength.encOpen (k : Codec) :
    Sys2Proof.Laws.RecordLength.Statement (.encOpen k) := by
  intro c bits h
  cases h

theorem Sys2Proof.Laws.RecordLength.wbit (b : Bool) :
    Sys2Proof.Laws.RecordLength.Statement (.wbit b) := by
  intro c bits h
  cases h

theorem Sys2Proof.Laws.RecordLength.wbits (v : Word) (n : BitVec 7) :
    Sys2Proof.Laws.RecordLength.Statement (.wbits v n) := by
  intro c bits h
  cases h

theorem Sys2Proof.Laws.RecordLength.flush :
    Sys2Proof.Laws.RecordLength.Statement .flush := by
  intro c bits h
  cases h

theorem Sys2Proof.Laws.RecordLength.bytes :
    Sys2Proof.Laws.RecordLength.Statement .bytes := by
  intro c bits h
  cases h

theorem Sys2Proof.Laws.RecordLength.encVal (v : Word) :
    Sys2Proof.Laws.RecordLength.Statement (.encVal v) := by
  intro c bits h
  cases h

theorem Sys2Proof.Laws.RecordLength.encClose :
    Sys2Proof.Laws.RecordLength.Statement .encClose := by
  intro c bits h
  cases h

theorem Sys2Proof.Laws.RecordLength.load (data : List Byte) :
    Sys2Proof.Laws.RecordLength.Statement (.load data) := by
  intro c bits h
  cases h

theorem Sys2Proof.Laws.RecordLength.decOpen (k : Codec) :
    Sys2Proof.Laws.RecordLength.Statement (.decOpen k) := by
  intro c bits h
  cases h

theorem Sys2Proof.Laws.RecordLength.rbit :
    Sys2Proof.Laws.RecordLength.Statement .rbit := by
  intro c bits h
  cases h

theorem Sys2Proof.Laws.RecordLength.rbits (n : BitVec 7) :
    Sys2Proof.Laws.RecordLength.Statement (.rbits n) := by
  intro c bits h
  cases h

theorem Sys2Proof.Laws.RecordLength.decVal :
    Sys2Proof.Laws.RecordLength.Statement .decVal := by
  intro c bits h
  cases h

theorem Sys2Proof.Laws.RecordLength.compress (k : Codec) (data : List Word) :
    Sys2Proof.Laws.RecordLength.Statement (.compress k data) := by
  intro c bits h
  cases h

theorem Sys2Proof.Laws.RecordLength.decompress (k : Codec) (data : List Byte) :
    Sys2Proof.Laws.RecordLength.Statement (.decompress k data) := by
  intro c bits h
  cases h

theorem Sys2Proof.Laws.RecordLength.x64Enc (v : Word) :
    Sys2Proof.Laws.RecordLength.Statement (.x64Enc v) := by
  intro c bits h
  cases h

theorem Sys2Proof.Laws.RecordLength.eraEnc (v : Word) :
    Sys2Proof.Laws.RecordLength.Statement (.eraEnc v) := by
  intro c bits h
  cases h

theorem Sys2Proof.Laws.RecordLength.chpEnc (v : Word) :
    Sys2Proof.Laws.RecordLength.Statement (.chpEnc v) := by
  intro c bits h
  cases h

theorem Sys2Proof.Laws.RecordLength.x64Close :
    Sys2Proof.Laws.RecordLength.Statement .x64Close := by
  intro c bits h
  cases h

theorem Sys2Proof.Laws.RecordLength.eraClose :
    Sys2Proof.Laws.RecordLength.Statement .eraClose := by
  intro c bits h
  cases h

theorem Sys2Proof.Laws.RecordLength.chpClose :
    Sys2Proof.Laws.RecordLength.Statement .chpClose := by
  intro c bits h
  cases h

theorem Sys2Proof.Laws.RecordLength.x64Dec :
    Sys2Proof.Laws.RecordLength.Statement .x64Dec := by
  intro c bits h
  cases h

theorem Sys2Proof.Laws.RecordLength.eraDec :
    Sys2Proof.Laws.RecordLength.Statement .eraDec := by
  intro c bits h
  cases h

theorem Sys2Proof.Laws.RecordLength.chpDec :
    Sys2Proof.Laws.RecordLength.Statement .chpDec := by
  intro c bits h
  cases h

theorem Sys2Proof.Laws.RecordLength.xFirst (tz : BitVec 7) (p : Word) :
    Sys2Proof.Laws.RecordLength.Statement (.xFirst tz p) := by
  intro c bits h
  cases h
  change _ = 7 + firstWidth tz
  rw [List.length_append, bitsOf_length, bitsOf_length]

theorem Sys2Proof.Laws.RecordLength.xSame :
    Sys2Proof.Laws.RecordLength.Statement .xSame := by
  intro c bits h
  cases h
  rfl

theorem Sys2Proof.Laws.RecordLength.xReuse (p : Word) :
    Sys2Proof.Laws.RecordLength.Statement (.xReuse p) := by
  intro c bits h
  cases h
  change _ = 2 + c.reuseWidth
  simp only [List.length_append, List.length_cons, List.length_nil, bitsOf_length]

theorem Sys2Proof.Laws.RecordLength.xNews (iii : BitVec 3) (cccc : BitVec 4) (p : Word) :
    Sys2Proof.Laws.RecordLength.Statement (.xNews iii cccc p) := by
  intro c bits h
  cases h
  change _ = 9 + windowWidth iii (newsCb cccc)
  simp only [List.length_append, List.length_cons, List.length_nil, bitsOf_length]

theorem Sys2Proof.Laws.RecordLength.xNewl (iii : BitVec 3) (cccccc : BitVec 6) (p : Word) :
    Sys2Proof.Laws.RecordLength.Statement (.xNewl iii cccccc p) := by
  intro c bits h
  cases h
  change _ = 11 + windowWidth iii (newlCb cccccc)
  simp only [List.length_append, List.length_cons, List.length_nil, bitsOf_length]

theorem Sys2Proof.Laws.RecordLength.eSameb :
    Sys2Proof.Laws.RecordLength.Statement .eSameb := by
  intro c bits h
  cases h
  rfl

theorem Sys2Proof.Laws.RecordLength.ePlain :
    Sys2Proof.Laws.RecordLength.Statement .ePlain := by
  intro c bits h
  cases h
  rfl

theorem Sys2Proof.Laws.RecordLength.eNewb (bbbb : BitVec 4) :
    Sys2Proof.Laws.RecordLength.Statement (.eNewb bbbb) := by
  intro c bits h
  cases h
  change _ = 6
  simp only [List.length_append, List.length_cons, List.length_nil, bitsOf_length]

theorem Sys2Proof.Laws.RecordLength.cFirst (p : Word) :
    Sys2Proof.Laws.RecordLength.Statement (.cFirst p) := by
  intro c bits h
  cases h
  change _ = 64
  exact bitsOf_length p 64

theorem Sys2Proof.Laws.RecordLength.cCopy (r : Word) :
    Sys2Proof.Laws.RecordLength.Statement (.cCopy r) := by
  intro c bits h
  cases h
  change _ = 2 + c.slotWidth
  simp only [List.length_append, List.length_cons, List.length_nil, bitsOf_length]

theorem Sys2Proof.Laws.RecordLength.cHist (r : Word) (iii : BitVec 3) (ssssss : BitVec 6) (p : Word) :
    Sys2Proof.Laws.RecordLength.Statement (.cHist r iii ssssss p) := by
  intro c bits h
  cases h
  change _ = 11 + c.slotWidth + histWidth iii ssssss
  simp only [List.length_append, List.length_cons, List.length_nil, bitsOf_length]
  omega

theorem Sys2Proof.Laws.RecordLength.cPrev (p : Word) :
    Sys2Proof.Laws.RecordLength.Statement (.cPrev p) := by
  intro c bits h
  cases h
  change _ = 2 + c.prevWidth
  simp only [List.length_append, List.length_cons, List.length_nil, bitsOf_length]

theorem Sys2Proof.Laws.RecordLength.cPrevn (iii : BitVec 3) (p : Word) :
    Sys2Proof.Laws.RecordLength.Statement (.cPrevn iii p) := by
  intro c bits h
  cases h
  change _ = 5 + prevnWidth iii
  simp only [List.length_append, List.length_cons, List.length_nil, bitsOf_length]
end

