-- ==== Sys2Proof/Tests/Slice0.lean ====
section
/-! SUPPORT. The model's own tests: the smoke test of WellFormed, one word decoded for every constructor, worked
values of `95_test_vectors.md`, and for each statement with hypotheses a concrete case that meets them. -/

open Sys2Proof Sys2Proof.Machine

namespace Sys2Proof.Tests

/-! ## Small states -/

/-- What an instruction answers and leaves. -/
def after (i : Instr) (s : State) : Option State :=
  match exec i s with
  | .next t => some t
  | .fault _ => none
  | .refused _ => none

/-- The response of an instruction. -/
def answer (i : Instr) (s : State) : Option Response :=
  match after i s with
  | some t => t.resp
  | none => none

/-- A machine encoding under a codec with the sink `bs`. -/
def encoding (k : Codec) (bs : BitSink) : State :=
  { State.reset with e := { EncHalf.reset with codec := k, bs := bs } }

/-- A machine encoding under X64 after a first value. -/
def encodingX (x : XorRegs) : State :=
  { State.reset with e := { EncHalf.reset with codec := .x64, x := x } }

/-- A machine encoding under CHP. -/
def encodingC (c : ChpEncRegs) : State :=
  { State.reset with e := { EncHalf.reset with codec := .chp, c := c } }

/-- A machine decoding a block from its start. -/
def decoding (k : Codec) (buf : List Byte) : State :=
  { State.reset with d := { DecHalf.reset with codec := k, phase := .run, bs := ⟨buf, 0⟩ } }

/-- A machine decoding under X64 or ERA with the given X64 registers. -/
def decodingX (k : Codec) (x : XorRegs) (buf : List Byte) : State :=
  { State.reset with d := { DecHalf.reset with codec := k, phase := .run, bs := ⟨buf, 0⟩, x := x } }

/-- A machine decoding under ERA after a betaStar was announced. -/
def decodingR (r : EraRegs) (x : XorRegs) (buf : List Byte) : State :=
  { State.reset with d := { DecHalf.reset with codec := .era, phase := .run, bs := ⟨buf, 0⟩, r := r, x := x } }

/-- A machine decoding under CHP with the given CHP registers. -/
def decodingC (c : ChpDecRegs) (buf : List Byte) : State :=
  { State.reset with d := { DecHalf.reset with codec := .chp, phase := .run, bs := ⟨buf, 0⟩, c := c } }

/-- A machine whose sink holds at most `cap` bytes. -/
def tight (cap : Nat) (bs : BitSink) : State :=
  { encoding .raw bs with impl := { Config.Impl.default with sinkCap := some cap } }

/-- A machine whose sink holds at most `cap` bytes, elsewhere as given. -/
def capped (cap : Nat) (s : State) : State := { s with impl := { Config.Impl.default with sinkCap := some cap } }

/-- A machine whose source holds at most `cap` bytes and whose position counter has `b` bits, elsewhere as given. -/
def bounded (cap b : Nat) (s : State) : State :=
  { s with impl := { Config.Impl.default with srcCap := some cap, idxBits := some b } }

/-- An open sink with two bytes and `w` more bits, three at least. -/
def sunk (w : BitVec 3) : BitSink := ⟨[0x66, 0x7F], 0xE0, w, false⟩

/-- X64 registers after a first value. -/
def seen (v : Word) : XorRegs := ⟨false, v, false, 0, 0⟩

/-- CHP encoder registers, window 2, after the values at positions 0 and 1. -/
def ring2 (v0 v1 : Word) : ChpEncRegs := (ChpEncRegs.store (ChpEncRegs.store
  { ChpEncRegs.reset with log2w := 1, first := false } 0 v0) 1 v1)

/-- CHP decoder registers, window 128, after the value 1.5. -/
def one15 : ChpDecRegs := { ChpDecRegs.reset with first := false, ring := [(0, 0x3FF8000000000000)] }

/-! ## WellFormed refuses what an encoding does not admit -/

theorem test_command_off_the_port :
    Instr.wellFormed .cFirst .reset = false ∧ Instr.wellFormed (.xSteady 3) (.cfgW 7) = false ∧
      Instr.wellFormed .eraPrefix .status = false ∧ Instr.wellFormed .cFirst (.encOpen .x64) = false ∧
      Instr.wellFormed .xFirst (.wbit true) = false ∧ Instr.wellFormed .cFirst (.wbits 0 1) = false ∧
      Instr.wellFormed .xFirst .flush = false ∧ Instr.wellFormed .xFirst .bytes = false ∧
      Instr.wellFormed (.dispatch .x64 .x64) (.encVal 0) = false ∧
      Instr.wellFormed (.dispatch .x64 .x64) .encClose = false ∧
      Instr.wellFormed .xFirst (.load []) = false ∧ Instr.wellFormed .xFirst (.decOpen .raw) = false ∧
      Instr.wellFormed .xFirst .rbit = false ∧ Instr.wellFormed .xFirst (.rbits 1) = false ∧
      Instr.wellFormed (.dispatch .x64 .x64) .decVal = false ∧
      Instr.wellFormed .xFirst (.compress .x64 []) = false ∧
      Instr.wellFormed .xFirst (.decompress .x64 []) = false := by decide

theorem test_dispatch_under_another_codec :
    Instr.wellFormed (.dispatch .era .x64) (.x64Enc 0) = false ∧
      Instr.wellFormed (.dispatch .chp .era) (.eraEnc 0) = false ∧
      Instr.wellFormed (.dispatch .x64 .chp) (.chpEnc 0) = false ∧
      Instr.wellFormed (.dispatch .era .x64) .x64Close = false ∧
      Instr.wellFormed (.dispatch .raw .era) .eraClose = false ∧
      Instr.wellFormed .port .chpClose = false ∧
      Instr.wellFormed (.dispatch .x64 .era) .x64Dec = false ∧
      Instr.wellFormed (.dispatch .era .chp) .eraDec = false ∧
      Instr.wellFormed (.dispatch .chp .raw) .chpDec = false := by decide

theorem test_x64_field_too_wide :
    Instr.wellFormed .xFirst (.xFirst 63 1) = false ∧ Instr.wellFormed .xFirst (.xFirst 65 1) = false ∧
      Instr.wellFormed .xFirst .xSame = false ∧ Instr.wellFormed (.xSteady 3) (.xReuse 8) = false ∧
      Instr.wellFormed (.xSteady 3) (.xNews 0 1 1) = false ∧
      Instr.wellFormed (.xSteady 3) (.xNewl 7 0 1) = false := by decide

theorem test_prefix_where_none_stands :
    Instr.wellFormed (.xSteady 3) .eSameb = false ∧ Instr.wellFormed .xFirst .ePlain = false ∧
      Instr.wellFormed .cFirst (.eNewb 3) = false := by decide

theorem test_chp_field_too_wide :
    Instr.wellFormed (.cSteady 7 0) (.cFirst 0) = false ∧ Instr.wellFormed (.cSteady 7 0) (.cCopy 128) = false ∧
      Instr.wellFormed (.cSteady 1 0) (.cHist 2 0 1 1) = false ∧
      Instr.wellFormed (.cSteady 1 0) (.cHist 1 0 1 2) = false ∧
      Instr.wellFormed (.cSteady 1 40) (.cPrev (BitVec.ofNat 64 (2 ^ 40))) = false ∧
      Instr.wellFormed (.cSteady 1 0) (.cPrevn 7 (BitVec.ofNat 64 (2 ^ 40))) = false := by decide

/-! ## One word for every constructor, from the tables of `30_encoding.md` -/

/-- Host commands (R71). Fields a row does not name are set too, and are not read. -/
theorem test_decode_commands :
    decode .port (.command ⟨0x01, 3, 9, true, 5, [1], [2]⟩) = .ok .reset ∧
      decode .port (.command ⟨0x02, 0, 54, false, 0, [], []⟩) = .ok (.cfgW 54) ∧
      decode .port (.command ⟨0x03, 0, 0, false, 0, [], []⟩) = .ok .status ∧
      decode .port (.command ⟨0x08, 1, 0, false, 0, [], []⟩) = .ok (.encOpen .x64) ∧
      decode .port (.command ⟨0x09, 0, 0, true, 0, [], []⟩) = .ok (.wbit true) ∧
      decode .port (.command ⟨0x0A, 0, 7, false, 0x33, [], []⟩) = .ok (.wbits 0x33 7) ∧
      decode .port (.command ⟨0x0B, 0, 0, false, 0, [], []⟩) = .ok .flush ∧
      decode .port (.command ⟨0x0C, 0, 0, false, 0, [], []⟩) = .ok .bytes ∧
      decode .port (.command ⟨0x0D, 0, 0, false, 0x3FF8000000000000, [], []⟩) =
        .ok (.encVal 0x3FF8000000000000) ∧
      decode .port (.command ⟨0x0E, 0, 0, false, 0, [], []⟩) = .ok .encClose ∧
      decode .port (.command ⟨0x10, 0, 0, false, 0, [0x66, 0x7F], []⟩) = .ok (.load [0x66, 0x7F]) ∧
      decode .port (.command ⟨0x11, 2, 0, false, 0, [], []⟩) = .ok (.decOpen .era) ∧
      decode .port (.command ⟨0x12, 0, 0, false, 0, [], []⟩) = .ok .rbit ∧
      decode .port (.command ⟨0x13, 0, 64, false, 0, [], []⟩) = .ok (.rbits 64) ∧
      decode .port (.command ⟨0x14, 0, 0, false, 0, [], []⟩) = .ok .decVal ∧
      decode .port (.command ⟨0x18, 3, 0, false, 0, [7], [0x1100]⟩) = .ok (.compress .chp [0x1100]) ∧
      decode .port (.command ⟨0x19, 0, 0, false, 0, [0x66], [7]⟩) = .ok (.decompress .raw [0x66]) ∧
      decode .port (.command ⟨0x1F, 0, 0, false, 0, [], []⟩) = .error .reservedOp := by
  refine ⟨?_, ?_, ?_, ?_, ?_, ?_, ?_, ?_, ?_, ?_, ?_, ?_, ?_, ?_, ?_, ?_, ?_, ?_⟩ <;> rfl

/-- The dispatch rows (R71): one word, three instructions. -/
theorem test_decode_dispatch :
    decode (.dispatch .x64 .raw) (.command ⟨0x0D, 0, 0, false, 9, [], []⟩) = .ok (.x64Enc 9) ∧
      decode (.dispatch .era .raw) (.command ⟨0x0D, 0, 0, false, 9, [], []⟩) = .ok (.eraEnc 9) ∧
      decode (.dispatch .chp .raw) (.command ⟨0x0D, 0, 0, false, 9, [], []⟩) = .ok (.chpEnc 9) ∧
      decode (.dispatch .x64 .raw) (.command ⟨0x0E, 0, 0, false, 0, [], []⟩) = .ok .x64Close ∧
      decode (.dispatch .era .raw) (.command ⟨0x0E, 0, 0, false, 0, [], []⟩) = .ok .eraClose ∧
      decode (.dispatch .chp .raw) (.command ⟨0x0E, 0, 0, false, 0, [], []⟩) = .ok .chpClose ∧
      decode (.dispatch .raw .x64) (.command ⟨0x14, 0, 0, false, 0, [], []⟩) = .ok .x64Dec ∧
      decode (.dispatch .raw .era) (.command ⟨0x14, 0, 0, false, 0, [], []⟩) = .ok .eraDec ∧
      decode (.dispatch .raw .chp) (.command ⟨0x14, 0, 0, false, 0, [], []⟩) = .ok .chpDec ∧
      decode (.dispatch .raw .chp) (.command ⟨0x0D, 0, 0, false, 9, [], []⟩) = .error .notDispatched := by
  refine ⟨?_, ?_, ?_, ?_, ?_, ?_, ?_, ?_, ?_, ?_⟩ <;> rfl

/-- The bits of a byte sequence, as a record. -/
def wire (buf : List Byte) : Encoding := .record (bytesBits buf)

/-- X64 records (R75), cut out of vectors X1, X4, X8 and X12. -/
theorem test_decode_x64_records :
    decode .xFirst (wire [0x66, 0x7F, 0xEC]) = .ok (.xFirst 51 0x3FF) ∧
      decode .xFirst (wire [0x81]) = .ok (.xFirst 64 0) ∧
      decode (.xSteady 64) (wire [0x40]) = .ok .xSame ∧
      decode (.xSteady 6) (wire [0b00101101]) = .ok (.xReuse 0b101101) ∧
      decode (.xSteady 64) (wire [0b10010001, 0b01000000]) = .ok (.xNews 2 2 1) ∧
      decode (.xSteady 64) (wire [0xC0, 0x10, 0, 0, 0, 0, 0, 0, 0, 0]) = .ok (.xNewl 0 0 0x4000000000000000) ∧
      decode (.xSteady 64) (wire [0xFC, 0x00, 0x00, 0x1F, 0xFF, 0xF0]) = .ok (.xNewl 7 32 0x7FFF) ∧
      decode (.xSteady 64) (.record [false]) = .error .truncated := by
  refine ⟨?_, ?_, ?_, ?_, ?_, ?_, ?_, ?_⟩ <;> rfl

/-- ERA prefixes (R78). -/
theorem test_decode_prefixes :
    decode .eraPrefix (wire [0x00]) = .ok .eSameb ∧ decode .eraPrefix (wire [0x80]) = .ok .ePlain ∧
      decode .eraPrefix (wire [0xCE]) = .ok (.eNewb 3) ∧
      decode .eraPrefix (.record [true]) = .error .truncated := by
  refine ⟨?_, ?_, ?_, ?_⟩ <;> rfl

/-- CHP records (R79), cut out of vectors H1, H4, F21. -/
theorem test_decode_chp_records :
    decode .cFirst (wire [0x40, 0x14, 0, 0, 0, 0, 0, 0]) = .ok (.cFirst 0x4014000000000000) ∧
      decode (.cSteady 7 0) (wire [0x02, 0x80]) = .ok (.cCopy 5) ∧
      decode (.cSteady 7 0) (wire [0x40, 0x11, 0x87]) = .ok (.cHist 0 1 6 7) ∧
      decode (.cSteady 7 40) (wire [0x80, 0x00, 0x00, 0x00, 0x01, 0x00]) = .ok (.cPrev 4) ∧
      decode (.cSteady 7 0) (wire [0xF8, 0x00, 0x00, 0x00, 0x00, 0x10]) = .ok (.cPrevn 7 2) ∧
      decode .cFirst (wire [0x40]) = .error .truncated := by
  refine ⟨?_, ?_, ?_, ?_, ?_, ?_⟩ <;> rfl

/-- The bits the encoder writes for three records of vectors X12, E3 and H1. -/
theorem test_encode_records :
    encode (.xSteady 64) (.xNewl 7 32 0x7FFF) =
        .record ([true, true] ++ [true, true, true] ++ [true, false, false, false, false, false] ++
          List.replicate 16 false ++ List.replicate 15 true) ∧
      encode .eraPrefix (.eNewb 3) = .record [true, true, false, false, true, true] ∧
      encode (.cSteady 7 0) (.cHist 0 1 6 7) = wire [0x40, 0x11, 0x87] := by
  refine ⟨?_, ?_, ?_⟩ <;> rfl

/-- A table word: the row's `op` alone, the operand bits 0, and with operand bits in the places of log 2. -/
theorem test_table_words :
    decodeTableWord 8 0x01 = some .reset ∧ decodeTableWord 8 0x0A = some (.wbits 0 0) ∧
      decodeTableWord 16 (0x0A + 7 * 2 ^ 7) = some (.wbits 0 7) ∧ decodeTableWord 8 0x1F = none := by
  refine ⟨?_, ?_, ?_, ?_⟩ <;> rfl

/-! ## One step each, on the worked values of `95_test_vectors.md` -/

/-- `RESET` from a machine that has worked. -/
theorem test_reset : after .reset (decodingX .era (seen 7) [0x66]) = some { State.reset with resp := some .ok } := by
  decide

/-- Y5, and P3 step 1. -/
theorem test_cfgW : answer (.cfgW 54) State.reset = some (.err .contractViolation) ∧
    (after (.cfgW 1) State.reset).map (·.cfgLog2w) = some 1 := by decide

/-- Y1, and the status word of P3 step 5. -/
theorem test_status : answer .status State.reset = some (.status 0x0000000700100000) ∧
    answer .status { State.reset with
      cfgLog2w := 1
      e := { EncHalf.reset with codec := .chp, bs := ⟨[], 0, 0, true⟩ }
      d := { DecHalf.reset with codec := .chp, phase := .fault, err := .endOfStream } } =
        some (.status 0x00000001026F0000) := by decide

/-- P1 step 2, from a machine whose sink is in use. -/
theorem test_encOpen : after (.encOpen .x64) (encoding .chp ⟨[0x66], 0x80, 1, true⟩) =
    some { encoding .x64 BitSink.reset with resp := some .ok } := by decide

/-- B3 and B11. -/
theorem test_wbit : (after (.wbit true) (encoding .raw BitSink.reset)).map (·.e.bs) = some ⟨[], 0x80, 1, false⟩ ∧
    answer (.wbit false) (encoding .raw ⟨[], 0, 0, true⟩) = some (.err .contractViolation) := by decide

/-- B1, the second write, and B9. -/
theorem test_wbits : (after (.wbits 0x3FF 12) (encoding .raw ⟨[], 0x66, 7, false⟩)).map (·.e.bs) =
      some ⟨[0x66, 0x7F], 0xE0, 3, false⟩ ∧
    (after (.wbits 0 65) State.reset).map (·.e.status.cv) = some true := by decide

/-- B2, and B4 with its eighth bit written. -/
theorem test_flush : (after .flush (encoding .raw ⟨[0x66, 0x7F], 0xE0, 3, false⟩)).map (·.e.bs) =
      some ⟨[0x66, 0x7F, 0xE0], 0, 0, true⟩ ∧
    (after .flush (encoding .raw ⟨[0xFF], 0, 0, false⟩)).map (·.e.bs) = some ⟨[0xFF], 0, 0, true⟩ := by decide

/-- P4 steps 8 and 4. -/
theorem test_bytes : answer .bytes (encoding .raw ⟨[0x66, 0x7F, 0xE0], 0, 0, true⟩) =
      some (.bytes [0x66, 0x7F, 0xE0]) ∧
    answer .bytes (encoding .raw ⟨[0x66, 0x7F], 0xE0, 3, false⟩) = some (.err .contractViolation) := by decide

/-- P1 step 3, and Y2. -/
theorem test_encVal : (after (.encVal 0x3FF8000000000000) (encoding .x64 BitSink.reset)).map (·.e.bs) =
      some ⟨[0x66, 0x7F], 0xE0, 3, false⟩ ∧
    (after (.encVal 0) State.reset).map (·.e.status.cv) = some true := by decide

/-- P1 step 6, and Y4. -/
theorem test_encClose :
    (after .encClose { encodingX ⟨false, 0x3FF4000000000000, true, 12, 50⟩ with
      e := { (encodingX ⟨false, 0x3FF4000000000000, true, 12, 50⟩).e with
        bs := ⟨[0x66, 0x7F, 0xEC], 0x8A, 7, false⟩ } }).map (·.e.bs) =
      some ⟨[0x66, 0x7F, 0xEC, 0x8B, 0x0E, 0x40, 0x08], 0, 0, true⟩ ∧
    answer .encClose (encoding .x64 ⟨[], 0, 0, true⟩) = some (.err .contractViolation) := by decide

/-- Y9: `LOAD` leaves the half in DONE. -/
theorem test_load : (after (.load [0x66, 0x7F]) (decoding .x64 [])).map (fun t => (t.d.bs, t.d.phase)) =
    some (⟨[0x66, 0x7F], 0⟩, .done) := by decide

/-- P2 step 3: the cursor stays. -/
theorem test_decOpen :
    (after (.decOpen .x64) { State.reset with d := { DecHalf.reset with bs := ⟨[0xA5, 0x66], 8⟩ } }).map
      (fun t => (t.d.bs.pos, t.d.phase, t.d.x.first)) = some (8, .run, true) := by decide

/-- B18, and B15. -/
theorem test_rbit : answer .rbit (decoding .raw [0x66, 0x7F, 0xE0]) = some (.bit false) ∧
    answer .rbit (decoding .raw []) = some (.err .endOfStream) := by decide

/-- B14, the first read, and B17. -/
theorem test_rbits : answer (.rbits 20) (decoding .raw [0x66, 0x7F, 0xE0]) = some (.val 0x667FE) ∧
    answer (.rbits 65) (decoding .raw [0x66]) = some (.err .contractViolation) := by decide

/-- P2 step 4, and Y3. -/
theorem test_decVal : answer .decVal (decoding .x64 [0x66, 0x7F, 0xEC]) = some (.val 0x3FF8000000000000) ∧
    answer .decVal State.reset = some (.err .contractViolation) := by decide

/-- X1, E2 and H1. -/
theorem test_compress :
    answer (.compress .x64 [0x3FF8000000000000, 0x3FF8000000000000, 0x3FF4000000000000]) State.reset =
      some (.bytes [0x66, 0x7F, 0xEC, 0x8B, 0x0E, 0x40, 0x08]) ∧
    answer (.compress .era [0x3FB999999999999A, 0x3FC999999999999A, 0x3FD3333333333333]) State.reset =
      some (.bytes [0xC1, 0xA1, 0xFD, 0xC6, 0x2A, 0xE0, 0x74, 0x35, 0x00, 0x80]) ∧
    answer (.compress .chp [0x4014000000000000, 0x4008000000000000, 0x4014000000000000]) State.reset =
      some (.bytes [0x40, 0x14, 0, 0, 0, 0, 0, 0, 0x40, 0x11, 0x87, 0x40, 0x91, 0x87, 0x41, 0x03, 0x8F, 0xFB]) := by
  decide +kernel

/-- X2, E4 and H3: the blocks of no value. -/
theorem test_compress_nothing :
    answer (.compress .x64 []) State.reset = some (.bytes [0x66, 0xFF, 0xE0]) ∧
      answer (.compress .era []) State.reset = some (.bytes [0x99, 0xBF, 0xF8]) ∧
      answer (.compress .chp []) State.reset = some (.bytes [0x7F, 0xF8, 0, 0, 0, 0, 0, 0]) := by
  decide +kernel

/-- X8, E2 and H8 read back. -/
theorem test_decompress :
    answer (.decompress .x64
        [0x81, 0x80, 0x20, 0, 0, 0, 0, 0, 0, 0, 0x1F, 0xFF, 0, 0, 0, 0, 0, 0, 0x20]) State.reset =
      some (.vals [0, 0x8000000000000001]) ∧
    answer (.decompress .era [0xC1, 0xA1, 0xFD, 0xC6, 0x2A, 0xE0, 0x74, 0x35, 0x00, 0x80]) State.reset =
      some (.vals [0x3FB999999999999A, 0x3FC999999999999A, 0x3FD3333333333333]) ∧
    answer (.decompress .chp
        [0, 0, 0, 0, 0, 0, 0x11, 0, 0x5E, 0, 0, 0, 0x03, 0x37, 0xE0, 0, 0, 0, 0x33, 0x5D, 0xF0, 0, 0, 0x02, 0x3F,
          0, 0, 0, 0x22, 0x01, 0x18, 0x7F, 0xF8, 0, 0, 0, 0, 0x11, 0x01]) { State.reset with cfgLog2w := 1 } =
      some (.vals [0x1100, 0x2200, 0x1100, 0x3300, 0x1101, 0x1101]) := by
  decide +kernel

/-- F1, F9, F15 and F25. -/
theorem test_decompress_errors :
    answer (.decompress .x64 []) State.reset = some (.vals []) ∧
      answer (.decompress .x64 [0x81, 0xF0, 0, 0, 0, 0, 0, 0, 0, 0, 0]) State.reset =
        some (.err .malformedBlock) ∧
      answer (.decompress .era [0xCE, 0x00]) State.reset = some (.err .malformedBlock) ∧
      answer (.decompress .chp [0x3F, 0xF8, 0, 0, 0, 0, 0, 0, 0x40, 0x11, 0x87, 0x80]) State.reset =
        some (.err .malformedBlock) := by
  decide +kernel

/-- P1 step 5. -/
theorem test_x64Enc : (after (.x64Enc 0x3FF4000000000000) (encodingX (seen 0x3FF8000000000000))).map
    (fun t => (t.e.bs.bits, t.e.x)) =
      some ([true, false, false, true, false, false, false, true, false, true],
        ⟨false, 0x3FF4000000000000, true, 12, 50⟩) := by decide

/-- X3, the close record, its pad bit and the padding. -/
theorem test_x64Close : (after .x64Close (encodingX (seen 0x3FF8000000000000))).map (·.e.bs) =
    some ⟨[0x81, 0x00], 0, 0, true⟩ := by decide

/-- P5, the first value. -/
theorem test_eraEnc : (after (.eraEnc 0x3FB999999999999A) (encoding .era BitSink.reset)).map
    (fun t => (t.e.bs.buf, t.e.r, t.e.x.sv)) =
      some ([0xC1, 0xA1, 0xFD], ⟨true, 0⟩, 0x3FB0000000000000) := by decide +kernel

/-- E4. -/
theorem test_eraClose : (after .eraClose (encoding .era BitSink.reset)).map (·.e.bs) =
    some ⟨[0x99, 0xBF, 0xF8], 0, 0, true⟩ := by decide

/-- H8, the third value: slot 1. -/
theorem test_chpEnc : (after (.chpEnc 0x1100) (encodingC (ring2 0x1100 0x2200))).map
    (fun t => (t.e.bs.buf, t.e.bs.acc, t.e.c.index, t.e.c.ring)) =
      some ([0x7E, 0, 0, 0, 0x03], 0x30, 2, [(0, 0x1100), (1, 0x2200)]) := by decide

/-- H3. -/
theorem test_chpClose : (after .chpClose (encoding .chp BitSink.reset)).map (·.e.bs) =
    some ⟨[0x7F, 0xF8, 0, 0, 0, 0, 0, 0], 0, 0, true⟩ := by decide +kernel

/-- P2 step 4. -/
theorem test_x64Dec : (after .x64Dec (decoding .x64 [0x66, 0x7F, 0xEC])).map
    (fun t => (t.resp, t.d.bs.pos, t.d.x.sv)) =
      some (some (.val 0x3FF8000000000000), 19, 0x3FF8000000000000) := by decide

/-- P5, the first value read back. -/
theorem test_eraDec : (after .eraDec (decoding .era [0xC1, 0xA1, 0xFD])).map
    (fun t => (t.resp, t.d.bs.pos, t.d.r)) = some (some (.val 0x3FB999999999999A), 24, ⟨true, 0⟩) := by
  decide +kernel

/-- P3 step 8. -/
theorem test_chpDec : (after .chpDec (decoding .chp [0, 0, 0, 0, 0, 0, 0x11, 0])).map
    (fun t => (t.resp, t.d.bs.pos, t.d.c.ring)) = some (some (.val 0x1100), 64, [(0, 0x1100)]) := by decide

/-- F6 and F2. -/
theorem test_xFirst : (after (.xFirst 65 0) (decoding .x64 [0x82])).map (fun t => (t.d.err, t.d.bs.pos)) =
      some (.malformedBlock, 7) ∧
    (after (.xFirst 51 0) (decoding .x64 [0x66])).map (fun t => (t.d.err, t.d.bs.pos)) =
      some (.endOfStream, 7) := by decide

/-- P2 step 5. -/
theorem test_xSame : answer .xSame (decodingX .x64 (seen 0x3FF8000000000000) [0x40]) =
    some (.val 0x3FF8000000000000) := by decide

/-- X18, the third value, and F8. -/
theorem test_xReuse :
    answer (.xReuse 0xF0) (decodingX .x64 ⟨false, 0xFF000000000, true, 20, 36⟩ [0x3C, 0x00]) =
      some (.val 0xF000000000) ∧
    answer (.xReuse 0) (decodingX .x64 (seen 0) [0x00]) = some (.err .malformedBlock) := by decide

/-- P2 steps 6 and 7. -/
theorem test_xNews :
    (after (.xNews 2 2 1) (decodingX .x64 (seen 0x3FF8000000000000) [0x91, 0x40])).map
      (fun t => (t.resp, t.d.x, t.d.bs.pos)) =
      some (some (.val 0x3FF4000000000000), ⟨false, 0x3FF4000000000000, true, 12, 50⟩, 10) ∧
    answer (.xNews 0 14 0x801) (decodingX .x64 (seen 0x3FF4000000000000) [0x87, 0x40, 0x08]) =
      some .endOfBlock := by decide

/-- F11, the non-canonical window, and F9. -/
theorem test_xNewl :
    answer (.xNewl 0 3 0) (decodingX .x64 (seen 0) [0xC0, 0x60]) = some (.val 0x2000000000000000) ∧
      answer (.xNewl 7 0 0) (decodingX .x64 (seen 0) [0xF8, 0x00]) = some (.err .malformedBlock) := by decide

/-- P5, the third value, and F14. -/
theorem test_eSameb :
    answer .eSameb (decodingR ⟨true, 1⟩ ⟨false, 0x3FC8000000000000, true, 8, 51⟩ [0x03]) =
      some (.val 0x3FD3333333333333) ∧
    answer .eSameb (decoding .era [0x00]) = some (.err .malformedBlock) := by decide +kernel

/-- E1, the first value, and F17. -/
theorem test_ePlain : answer .ePlain (decoding .era [0x99, 0x9F, 0xFC]) = some (.val 0x3FF8000000000000) ∧
    answer .ePlain (decoding .era [0x99]) = some (.err .endOfStream) := by decide

/-- P5, the second value, and F15. -/
theorem test_eNewb :
    answer (.eNewb 1) (decodingR ⟨true, 0⟩ (seen 0x3FB0000000000000) [0xC6, 0x2A, 0xE0]) =
      some (.val 0x3FC999999999999A) ∧
    answer (.eNewb 3) (decoding .era [0xCE, 0x00]) = some (.err .malformedBlock) := by decide +kernel

/-- H3: the sentinel as the first value ends an empty block. -/
theorem test_cFirst : answer (.cFirst 0x7FF8000000000000) (decoding .chp [0x7F, 0xF8, 0, 0, 0, 0, 0, 0]) =
    some .endOfBlock := by decide

/-- H2, the second value, and F21. -/
theorem test_cCopy : answer (.cCopy 0) (decodingC one15 [0x00, 0x00]) = some (.val 0x3FF8000000000000) ∧
    (after (.cCopy 5) (decodingC one15 [0x02, 0x80])).map (fun t => (t.resp, t.d.bs.pos)) =
      some (some (.err .malformedBlock), 9) := by decide

/-- F25, the record before the fault, and F24. -/
theorem test_cHist :
    (after (.cHist 0 1 6 7) (decodingC one15 [0x40, 0x11, 0x87])).map (fun t => (t.resp, t.d.c.slz)) =
      some (some (.val 0x3FE4000000000000), 65) ∧
    answer (.cHist 0 7 50 0) (decodingC one15 [0x40, 0x7C, 0x80]) = some (.err .malformedBlock) := by decide

/-- H4, the third value, and F22. -/
theorem test_cPrev :
    answer (.cPrev 4) (decodingC { one15 with ring := [(0, 0x4000000000000003)], slz := 24 }
      [0x80, 0x00, 0x00, 0x00, 0x01, 0x00]) = some (.val 0x4000000000000007) ∧
    answer (.cPrev 0) (decodingC one15 [0x80]) = some (.err .malformedBlock) := by decide

/-- H4, the second value, and a payload cut short: the count is already announced (`60_exceptions.md` R239). -/
theorem test_cPrevn :
    answer (.cPrevn 7 2) (decodingC { one15 with ring := [(0, 0x4000000000000001)] }
      [0xF8, 0x00, 0x00, 0x00, 0x00, 0x10]) = some (.val 0x4000000000000003) ∧
    (after (.cPrevn 7 0) (decodingC one15 [0xF8])).map (fun t => (t.d.err, t.d.c.slz)) =
      some (.endOfStream, 24) := by decide

/-! ## The statements' hypotheses are met

One theorem for each statement that has hypotheses, named after it; its clauses at the ends of their ranges. -/

theorem witness_CfgWSetsTheWindowOfLaterBlocks : State.reset.impl.log2wMax ≤ 53 ∧
    State.reset.impl.log2wMax < (17 : BitVec 7).toNat ∧ (16 : BitVec 7).toNat ≤ State.reset.impl.log2wMax ∧
      (0 : BitVec 7).toNat ≤ State.reset.impl.log2wMax := by decide

/-- A machine with one command on its port. -/
def ported (w : Command) : State := { State.reset with port := [w] }

theorem witness_ReservedCommandsAreRefused :
    ∀ op ∈ [0x00, 0x1F, 0x0F, 0x15], (ported (Command.ofOp op)).port = Command.ofOp op :: [] ∧
      (Command.ofOp op).op.toNat ∉ [0x01, 0x02, 0x03, 0x08, 0x09, 0x0A, 0x0B, 0x0C, 0x0D, 0x0E, 0x10, 0x11, 0x12,
        0x13, 0x14, 0x18, 0x19] := by decide

theorem witness_StepRunsTheDecodedCommand :
    (ported ⟨0x09, 0, 0, true, 0, [], []⟩).port = ⟨0x09, 0, 0, true, 0, [], []⟩ :: [] ∧
      decode .port (.command ⟨0x09, 0, 0, true, 0, [], []⟩) = .ok (.wbit true) ∧ State.reset.port = [] ∧
      decodeTableWord 15 (0x09 + 2 ^ 14) = some (.wbit true) := by
  refine ⟨?_, ?_, ?_, ?_⟩ <;> rfl

theorem witness_PrimitivesMeetTheirDefinitions :
    63 < 64 ∧ 64 ≤ 64 ∧ (1 : Word) ≠ 0 ∧ (0x8000000000000000 : Word) ≠ 0 ∧ 24 ∈ Config.lzSet := by decide

/-- The sink of vector B1. -/
def b1 : BitSink := ⟨[0x66, 0x7F], 0xE0, 3, false⟩

theorem witness_WbitAppendsOneBit :
    (encoding .raw ⟨[0x66], 0, 0, true⟩).e.bs.AccInv ∧ (encoding .raw ⟨[0x66], 0, 0, true⟩).e.bs.sealed = true ∧
      ((tight 0 BitSink.reset).e.bs.AccInv ∧ (tight 0 BitSink.reset).e.bs.sealed = false ∧
        ∃ cap ∈ (tight 0 BitSink.reset).impl.sinkCap, 8 * cap < (tight 0 BitSink.reset).e.bs.bitLen + 1) ∧
      (tight 3 ⟨[0x66, 0x7F], 0xFE, 7, false⟩).e.bs.AccInv ∧
        (tight 3 ⟨[0x66, 0x7F], 0xFE, 7, false⟩).Room 1 :=
  ⟨by decide, rfl, ⟨by decide, rfl, 0, rfl, by decide⟩, by decide, rfl, fun cap h => by cases h; decide⟩

theorem witness_WbitsAppendsTheLowBits : b1.AccInv ∧ 64 < (65 : BitVec 7).toNat ∧
      (encoding .raw ⟨[0x66], 0, 0, true⟩).e.bs.sealed = true ∧ (tight 10 b1).e.bs = b1 ∧
      (64 : BitVec 7).toNat ≤ 64 ∧ b1.sealed = false ∧
      (∃ cap ∈ (tight 10 b1).impl.sinkCap, 8 * cap < b1.bitLen + (64 : BitVec 7).toNat) ∧
      (tight 10 b1).Room (61 : BitVec 7).toNat ∧ (tight 10 b1).Room (0 : BitVec 7).toNat :=
  ⟨by decide, by decide, rfl, rfl, by decide, rfl, ⟨10, rfl, by decide⟩,
    ⟨rfl, fun cap h => by cases h; decide⟩, rfl, fun cap h => by cases h; decide⟩

theorem witness_FlushPadsAndSeals : b1.AccInv ∧ b1.sealed = false ∧ BitSink.reset.AccInv ∧
    BitSink.reset.sealed = false ∧ (⟨[0x66], 0, 0, true⟩ : BitSink).AccInv ∧
      (⟨[0x66], 0, 0, true⟩ : BitSink).sealed = true := by decide

theorem witness_BytesNeedsTheSeal : (encoding .raw ⟨[], 0, 0, true⟩).e.bs.sealed = true ∧
    (encoding .raw b1).e.bs.sealed = false := by decide

theorem witness_LawsOfTheWriteSide : (encoding .raw b1).e.bs.AccInv ∧ (64 : BitVec 7).toNat ≤ 64 ∧
      (encoding .raw b1).Room 64 ∧ (1 : BitVec 7).toNat + (63 : BitVec 7).toNat ≤ 64 ∧
      (encoding .raw b1).e.bs.sealed = false ∧
      ∃ rs t, issue ([((5 : Word), (3 : BitVec 7)), (1, 0)].map fun w => .wbits w.1 w.2) (encoding .raw b1) =
        some (rs, t) ∧ ∀ r ∈ rs, r = some .ok :=
  ⟨by decide, by decide, ⟨rfl, fun cap h => by cases h⟩, by decide, rfl, _, _, rfl, by decide⟩

theorem witness_SinkIsAppendOnly : (encoding .raw b1).e.bs.AccInv ∧
    (∃ t, exec (.wbit true) (encoding .raw b1) = .next t) ∧ Instr.wbit true ≠ .reset ∧
      (∀ k, Instr.wbit true ≠ .encOpen k) ∧ ∀ k vs, Instr.wbit true ≠ .compress k vs :=
  ⟨by decide, ⟨_, rfl⟩, by decide, fun _ => Instr.noConfusion, fun _ _ => Instr.noConfusion⟩

/-- A machine whose source holds at most one byte. -/
def oneByte : State := { State.reset with impl := { Config.Impl.default with srcCap := some 1 } }

theorem witness_LoadReplacesTheSource :
    (∃ cap ∈ oneByte.impl.srcCap, cap < [(0x66 : Byte), 0x7F].length) ∧
      ∀ cap ∈ oneByte.impl.srcCap, [(0x66 : Byte)].length ≤ cap :=
  ⟨⟨1, rfl, by decide⟩, fun cap h => by cases h; decide⟩

/-- A decode half at the last bit of one byte, and one past it. -/
def atBit (pos : Nat) : State := { State.reset with d := { DecHalf.reset with bs := ⟨[0x66], pos⟩ } }

theorem witness_RbitReadsTheNextBit : 8 * (atBit 8).d.bs.buf.length ≤ (atBit 8).d.bs.pos ∧
    (atBit 7).d.bs.pos < 8 * (atBit 7).d.bs.buf.length := by decide

theorem witness_RbitsReadsANumeral : 64 < (65 : BitVec 7).toNat ∧ (2 : BitVec 7).toNat ≤ 64 ∧
    (atBit 7).d.bs.pos ≤ 8 * (atBit 7).d.bs.buf.length ∧
    8 * (atBit 7).d.bs.buf.length < (atBit 7).d.bs.pos + (2 : BitVec 7).toNat ∧
    (atBit 7).d.bs.pos + (1 : BitVec 7).toNat ≤ 8 * (atBit 7).d.bs.buf.length := by decide

/-- A source with room for the three bytes, and no more. -/
theorem witness_SourceReturnsWhatTheSinkTook :
    (bounded 3 0 State.reset).e.bs.AccInv ∧ (bounded 3 0 State.reset).e.bs.bits = [] ∧
      (bounded 3 0 State.reset).e.bs.sealed = false ∧
      (∃ rs t, issue ([((0x33 : Word), (7 : BitVec 7)), (0x3FF, 12), (9, 0)].map fun w => .wbits w.1 w.2)
        (bounded 3 0 State.reset) = some (rs, t) ∧ (∀ r ∈ rs, r = some .ok) ∧
        ∃ u, issue [.flush, .bytes] t = some ([some .ok, some (.bytes [0x66, 0x7F, 0xE0])], u)) ∧
      ∀ cap ∈ (bounded 3 0 State.reset).impl.srcCap, [(0x66 : Byte), 0x7F, 0xE0].length ≤ cap :=
  ⟨by decide, rfl, rfl, ⟨_, _, rfl, by decide, _, rfl⟩, fun cap h => by cases h; decide⟩

/-- A machine encoding under CHP whose position counter has two bits and stands at 3. -/
def counted : State :=
  { encodingC { ring2 7 8 with index := 3 } with impl := { Config.Impl.default with idxBits := some 2 } }

theorem witness_CodecsSelectTheirUnit :
    State.reset.e.codec = .raw ∧ (encoding .x64 ⟨[], 0, 0, true⟩).e.bs.sealed = true ∧
      (counted.e.codec = .chp ∧ counted.e.bs.sealed = false ∧ counted.e.c.first = false ∧
        ∃ b ∈ counted.impl.idxBits, counted.e.c.index = 2 ^ b - 1) ∧
      ((encoding .era b1).e.bs.sealed = false ∧ dispatchCommand .era .raw (.encVal 5) = .ok (.eraEnc 5) ∧
        dispatchCommand .chp .raw .encClose = .ok .chpClose) ∧
      (decoding .x64 [0x66]).d.phase = .run ∧ (decoding .x64 [0x66]).d.atFirst = true ∧
        0 < (decoding .x64 [0x66]).d.bs.avail ∧ dispatchCommand .raw .x64 .decVal = .ok .x64Dec :=
  ⟨rfl, rfl, ⟨rfl, rfl, rfl, 2, rfl, by decide⟩, ⟨rfl, rfl, rfl⟩, rfl, rfl, by decide, rfl⟩

/-- A decode half under a codec in a phase. -/
def stopped (k : Codec) (ph : Phase) : DecHalf := { DecHalf.reset with codec := k, phase := ph }

theorem witness_DecValAnswersWithoutReading : State.reset.d.codec = .raw ∧
    (decoding .x64 []).d.codec ≠ .raw ∧ (decoding .x64 []).d.phase = .run ∧
      (decoding .x64 []).d.atFirst = true ∧ (decoding .x64 []).d.bs.avail = 0 ∧
    (stopped .chp .fault).codec ≠ .raw ∧ (stopped .chp .fault).phase = .fault ∧
    (stopped .era .done).codec ≠ .raw ∧ (stopped .era .done).phase = .done := by decide

theorem witness_EncodeCommandsAreAtomic :
    ∀ i ∈ [Instr.wbit true, .wbits 5 3, .flush, .encVal 5, .encClose, .x64Enc 5, .eraEnc 5, .chpEnc 5, .x64Close,
      .eraClose, .chpClose], i ∈ [Instr.wbit true, .wbits 5 3, .flush, .encVal 5, .encClose, .x64Enc 5, .eraEnc 5,
        .chpEnc 5, .x64Close, .eraClose, .chpClose] := fun _ h => h

/-- The sink of a machine that no bound limits takes any number of bits. -/
theorem room_unbounded (k : Codec) (bs : BitSink) (h : bs.sealed = false) (n : Nat) : (encoding k bs).Room n :=
  ⟨h, fun cap h => by cases h⟩

/-- The value 0; and of 13 bits left, a record of 13 bits and one of 14. -/
theorem witness_XorFirstValueIsEmitted : (encoding .x64 b1).e.codec = .x64 ∧
    (encoding .x64 b1).e.x.first = true ∧ (encoding .x64 b1).e.bs.AccInv ∧
      (encoding .x64 b1).Room (7 + (63 - ctz 0)) ∧
      (capped 4 (encoding .x64 b1)).Room (7 + (63 - ctz 0x0200000000000000)) ∧
      (capped 4 (encoding .x64 b1)).NoRoom (7 + (63 - ctz 0x0100000000000000)) :=
  ⟨rfl, rfl, by decide, room_unbounded _ _ rfl _, ⟨rfl, fun cap h => by cases h; decide⟩, rfl, 4, rfl, by decide⟩

/-- X64 encoder registers with the widest window announced (vector X9), and with the window of vector X18. -/
def wide : XorRegs := ⟨false, 0x8000000000000001, true, 0, 0⟩

/-- X64 encoder registers with the window of vector X18. -/
def narrow : XorRegs := ⟨false, 0xFF000000000, true, 20, 36⟩

theorem witness_XorRepeatsAndReusesAreEmitted :
    (encodingX wide).e.codec = .x64 ∧ (encodingX wide).e.x.first = false ∧ (encodingX wide).e.bs.AccInv ∧
      (encodingX wide).e.x.sv = 0x8000000000000001 ∧
      (wide.sv ^^^ 0 ≠ 0 ∧ wide.WindowInv ∧ wide.winv = true ∧ lzRound (clz (wide.sv ^^^ 0)) = wide.slz.toNat ∧
        wide.stz.toNat ≤ ctz (wide.sv ^^^ 0)) ∧
      (narrow.sv ^^^ 0xF000000000 ≠ 0 ∧ narrow.WindowInv ∧ narrow.winv = true ∧
        lzRound (clz (narrow.sv ^^^ 0xF000000000)) = narrow.slz.toNat ∧
        narrow.stz.toNat ≤ ctz (narrow.sv ^^^ 0xF000000000)) ∧
      (capped 1 (encodingX wide)).Room 2 ∧ (capped 0 (encodingX wide)).NoRoom 2 ∧
      (encodingX wide).Room (66 - wide.slz.toNat - wide.stz.toNat) ∧
      (capped 8 (encodingX wide)).NoRoom (66 - wide.slz.toNat - wide.stz.toNat) := by
  refine ⟨rfl, rfl, by decide, rfl, ?_, ?_, ⟨rfl, fun cap h => by cases h; decide⟩, ⟨rfl, 0, rfl, by decide⟩,
    ⟨rfl, fun cap h => by cases h⟩, rfl, 8, rfl, by decide⟩ <;> decide +kernel

/-- Vectors X13 (`cb = 16`), X14 (`cb = 17`), X17 (`cb = 1`), X8 (`cb = 64`), and X19, where a reuse is refused. -/
theorem witness_XorWindowChangeIsEmitted :
    ((encodingX (seen 0)).XChanges 0x800100000000 ∧ (encodingX (seen 0)).XChanges 0x800080000000 ∧
      (encodingX (seen 0)).XChanges 0x8000000000 ∧ (encodingX (seen 0)).XChanges 0x8000000000000001 ∧
      (seen 0).winv = false) ∧
    ([0x800100000000, 0x800080000000, 0x8000000000, 0x8000000000000001].map fun v : Word =>
      64 - lzRound (clz v) - ctz v) = [16, 17, 1, 64] ∧
    ((encodingX narrow).XChanges 0xF800000000 ∧
      ¬ (narrow.winv = true ∧ lzRound (clz (narrow.sv ^^^ 0xF800000000)) = narrow.slz.toNat ∧
        narrow.stz.toNat ≤ ctz (narrow.sv ^^^ 0xF800000000))) ∧
    (encodingX narrow).e.codec = .x64 ∧ (encodingX narrow).e.bs.AccInv ∧ (encodingX narrow).Room (11 + (64 - 1)) ∧
    (capped 3 (encodingX (seen 0))).Room (9 + (16 - 1)) ∧ (capped 3 (encodingX (seen 0))).NoRoom (11 + (17 - 1)) := by
  refine ⟨?_, ?_, ?_, rfl, by decide, ⟨rfl, fun cap h => by cases h⟩, ⟨rfl, fun cap h => by cases h; decide⟩,
    rfl, 3, rfl, by decide⟩ <;> decide

/-- Of 20 bits left the close takes 20; of 19 it takes none. -/
theorem witness_XorCloseEndsTheBlock : (encoding .x64 (sunk 4)).e.codec = .x64 ∧ (sunk 4).AccInv ∧ (sunk 5).AccInv ∧
    (capped 5 (encoding .x64 (sunk 4))).Room (XorRegs.reset.putLength Config.sentinel + 1) ∧
    (capped 5 (encoding .x64 (sunk 5))).NoRoom (XorRegs.reset.putLength Config.sentinel + 1) :=
  ⟨rfl, by decide, by decide, ⟨rfl, fun cap h => by cases h; decide⟩, rfl, 5, rfl, by decide⟩

theorem witness_XorFirstValueIsDecoded :
    ((decoding .x64 [0x66, 0x7F, 0xEC]).Decoding .x64 true
        (natBits (51 : BitVec 7).toNat 7 ++ natBits (0x3FF : Word).toNat (63 - (51 : BitVec 7).toNat) ++
          [false, true, true, false, false]) ∧
      (0x3FF : Word).toNat < 2 ^ (63 - 51) ∧ (0x3FF8000000000000 : Word).toNat = (2 * 0x3FF + 1) * 2 ^ 51) ∧
    (decoding .x64 [0x81]).Decoding .x64 true
        (natBits (64 : BitVec 7).toNat 7 ++ natBits (0 : Word).toNat (63 - (64 : BitVec 7).toNat) ++ [true]) ∧
      (0 : Word).toNat < 2 ^ (63 - 64) := by decide

theorem witness_XorRepeatsAndReusesAreDecoded :
    (decodingX .x64 (seen 7) [0x40]).Decoding .x64 false ([false, true] ++ List.replicate 6 false) ∧
      (decodingX .x64 narrow [0x3C, 0x00]).Decoding .x64 false
        ([false, false] ++ natBits (0xF0 : Word).toNat (64 - narrow.slz.toNat - narrow.stz.toNat) ++
          List.replicate 6 false) ∧
      narrow.winv = true ∧ narrow.WindowInv ∧ (narrow.sv ^^^ 0xF000000000).toNat = 0xF0 * 2 ^ 36 := by
  decide +kernel

theorem witness_XorWindowChangeIsDecoded :
    ((decodingX .x64 (seen 0) [0x8C, 0x00, 0x00, 0x00]).Decoding .x64 false
        ([true, false] ++ natBits (1 : BitVec 3).toNat 3 ++ natBits (8 : BitVec 4).toNat 4 ++
          natBits (0 : Word).toNat (8 - 1) ++ List.replicate 16 false) ∧
      lzVal 1 + 8 ≤ 64 ∧ ((0 : Word) ^^^ 0x1000000000000).toNat = (2 * 0 + 1) * 2 ^ (64 - lzVal 1 - 8)) ∧
    ((decodingX .x64 (seen 0) [0xC0, 0x00, 0, 0, 0, 0, 0, 0, 0, 0]).Decoding .x64 false
        ([true, true] ++ natBits (0 : BitVec 3).toNat 3 ++ natBits (0 : BitVec 6).toNat 6 ++
          natBits (0 : Word).toNat (64 - 1) ++ List.replicate 6 false) ∧
      lzVal 0 + 64 ≤ 64 ∧ ((0 : Word) ^^^ 1).toNat = (2 * 0 + 1) * 2 ^ (64 - lzVal 0 - 64)) := by
  decide +kernel

/-- Vectors F2, F6, F8, F9, F10, F12, and headers cut one bit short. -/
theorem witness_XorRecordsFault :
    (decoding .x64 [0x66]).Decoding .x64 true (natBits (51 : BitVec 7).toNat 7 ++ [false]) ∧
    (decoding .x64 [0x82]).Decoding .x64 true (natBits (65 : BitVec 7).toNat 7 ++ [false]) ∧
    (decodingX .x64 (seen 0) []).Decoding .x64 false [] ∧
    (decodingX .x64 (seen 0) [0x00]).Decoding .x64 false ([false, false] ++ List.replicate 6 false) ∧
      (seen 0).winv = false ∧
    (decodingX .x64 wide [0x00]).Decoding .x64 false ([false, false] ++ List.replicate 6 false) ∧
      wide.winv = true ∧ (List.replicate 6 false).length < 64 - wide.slz.toNat - wide.stz.toNat ∧
    (decodingX .x64 (seen 0) [0x80]).Decoding .x64 false ([true, false] ++ List.replicate 6 false) ∧
    (decodingX .x64 (seen 0) [0xB8, 0x00]).Decoding .x64 false
      ([true, false] ++ natBits (7 : BitVec 3).toNat 3 ++ natBits (0 : BitVec 4).toNat 4 ++ List.replicate 7 false) ∧
      lzVal 7 + 16 ≤ 64 ∧ (List.replicate 7 false).length < 16 - 1 ∧
    (decodingX .x64 (seen 0) [0xC0]).Decoding .x64 false ([true, true] ++ List.replicate 6 false) ∧
    (decodingX .x64 (seen 0) [0xF8, 0x00]).Decoding .x64 false
      ([true, true] ++ natBits (7 : BitVec 3).toNat 3 ++ natBits (0 : BitVec 6).toNat 6 ++ List.replicate 5 false) ∧
      64 < lzVal 7 + 64 ∧
    (decodingX .x64 (seen 0) [0xC0, 0x00]).Decoding .x64 false
      ([true, true] ++ natBits (0 : BitVec 3).toNat 3 ++ natBits (0 : BitVec 6).toNat 6 ++ List.replicate 5 false) ∧
      lzVal 0 + 64 ≤ 64 := by
  repeat' apply And.intro
  all_goals decide +kernel

theorem witness_ExactHelpersMeetTheirDefinitions : classOf 0x3FF8000000000000 = .normal ∧
    classOf 0x0010000000000000 = .normal ∧ classOf 0xFFEFFFFFFFFFFFFF = .normal := by decide

/-- 0.1, whose one digit is a power of ten, and 3.14, which takes two places. -/
theorem witness_ProfileIsTheLeastDecimal :
    (classOf 0x3FB999999999999A = .normal ∧ (17 : ℤ) ≤ max 0 (16 - (absRatio 0x3FB999999999999A).sp) ∧
      ¬ qualifies 0x3FB999999999999A 0 = true ∧ qualifies 0x3FB999999999999A 1 = true) ∧
    (classOf 0x40091EB851EB851F = .normal ∧ (16 : ℤ) = max 0 (16 - (absRatio 0x40091EB851EB851F).sp) ∧
      (∀ j < 2, ¬ qualifies 0x40091EB851EB851F j = true) ∧ qualifies 0x40091EB851EB851F 2 = true) := by
  decide +kernel

/-- 0.1 (52 bits, the most) and 123456.789 (26 bits). -/
theorem witness_ErasedValuesAreRecovered :
    classOf 0x3FB999999999999A = .normal ∧ ErasureTaken 0x3FB999999999999A 52 ∧
      classOf 0x40FE240C9FBE76C9 = .normal ∧ ErasureTaken 0x40FE240C9FBE76C9 26 := by decide +kernel

/-- A NaN, with 21 bits left and with 20; and 1e15, whose three bits are too few. -/
theorem witness_PlainValuesGoUnderControlTen : (encoding .era b1).e.codec = .era ∧
    (encoding .era b1).e.bs.AccInv ∧ classOf 0xFFF8000000000123 = .nan ∧
    (capped 5 (encoding .era b1)).Room (2 + XorRegs.reset.putLength Config.sentinel) ∧
    (capped 5 (encoding .era (sunk 4))).NoRoom (2 + XorRegs.reset.putLength Config.sentinel) ∧
    (encoding .era b1).Room (2 + XorRegs.reset.putLength 0x430C6BF526340000) ∧
    classOf 0x430C6BF526340000 = .normal ∧ ∀ eb, ¬ ErasureTaken 0x430C6BF526340000 eb :=
  ⟨rfl, by decide, by decide, ⟨rfl, fun cap h => by cases h; decide⟩, ⟨rfl, 5, rfl, by decide⟩,
    room_unbounded _ _ rfl _, by decide, fun eb h => by
    have := h.2.2.1
    rw [h.1] at this
    revert this
    decide +kernel⟩

/-- The 25 bits of a first betaStar with the record of 0.2 where 25 and where 17 are left, and the 20 bits under a
betaStar announced. -/
theorem witness_ErasedValuesAnnounceTheirDigits : (encoding .era (sunk 7)).e.codec = .era ∧
    (sunk 7).AccInv ∧ classOf 0x3FC999999999999A = .normal ∧
    ErasureTaken 0x3FC999999999999A 51 ∧ (profile 0x3FC999999999999A).2 = 1 ∧
    (0x3FC999999999999A &&& ~~~ BitVec.ofNat 64 (2 ^ 51 - 1) : Word) = 0x3FC8000000000000 ∧
    (encoding .era (sunk 7)).e.r.lbsv = false ∧
    (capped 6 (encoding .era (sunk 7))).Room (6 + XorRegs.reset.putLength 0x3FC8000000000000) ∧
    (capped 5 (encoding .era (sunk 7))).NoRoom (6 + XorRegs.reset.putLength 0x3FC8000000000000) ∧
    (capped 5 (encoding .era (sunk 4))).Room (1 + XorRegs.reset.putLength 0x3FC8000000000000) ∧
    (EraRegs.mk true 1).lbsv = true ∧ (profile 0x3FC999999999999A).2 = (EraRegs.mk true 1).lbs.toNat :=
  ⟨rfl, by decide, by decide, by decide +kernel, by decide +kernel, by decide, rfl,
    ⟨rfl, fun cap h => by cases h; decide⟩, ⟨rfl, 5, rfl, by decide⟩, ⟨rfl, fun cap h => by cases h; decide⟩, rfl,
    by decide +kernel⟩

/-- Of 22 bits left the close takes 22; of 21 it takes none. -/
theorem witness_ErasureCloseEndsTheBlock : (encoding .era ⟨[], 0xC0, 2, false⟩).e.codec = .era ∧
    (⟨[], 0xC0, 2, false⟩ : BitSink).AccInv ∧ (⟨[], 0xC0, 3, false⟩ : BitSink).AccInv ∧
    (capped 3 (encoding .era ⟨[], 0xC0, 2, false⟩)).Room (2 + XorRegs.reset.putLength Config.sentinel + 1) ∧
    (capped 3 (encoding .era ⟨[], 0xC0, 3, false⟩)).NoRoom (2 + XorRegs.reset.putLength Config.sentinel + 1) :=
  ⟨rfl, by decide, by decide, ⟨rfl, fun cap h => by cases h; decide⟩, rfl, 3, rfl, by decide⟩

/-- The blocks of P5 and E1, and F15, where the record under the prefix is no number. -/
theorem witness_ErasurePrefixesAreDecoded :
    (decoding .era [0x99, 0x9F, 0xFC]).Decoding .era true
      ([true, false] ++ (bytesBits [0x99, 0x9F, 0xFC]).drop 2) ∧
    (decodingR ⟨true, 1⟩ ⟨false, 0x3FC8000000000000, true, 8, 51⟩ [0x03]).Decoding .era false
      ([false] ++ (bytesBits [0x03]).drop 1) ∧
    (decoding .era [0xC1, 0xA1, 0xFD]).Decoding .era true
      ([true, true] ++ natBits (0 : BitVec 4).toNat 4 ++ (bytesBits [0xC1, 0xA1, 0xFD]).drop 6) ∧
    answer .decVal { decoding .era [0xCE, 0x00] with
      d := { (decoding .era [0xCE, 0x00]).d.advance 6 with codec := .x64, r := ⟨true, 3⟩ } } = some (.val 0) ∧
    classOf 0 ≠ .normal := by decide

/-- An ERA decode half at bit `pos` of one byte. -/
def eraAt (byte : Byte) (pos : Nat) (r : EraRegs) : State :=
  { State.reset with d := { DecHalf.reset with codec := .era, phase := .run, bs := ⟨[byte], pos⟩, r := r } }

/-- Vector F14, and prefixes cut short. -/
theorem witness_ErasurePrefixesFault :
    (decodingR ⟨false, 0⟩ (seen 0) []).Decoding .era false [] ∧
    (decoding .era [0x00]).Decoding .era true ([false] ++ List.replicate 7 false) ∧
      (decoding .era [0x00]).d.r.lbsv = false ∧
    (eraAt 0x00 7 ⟨true, 3⟩).Decoding .era true ([false] ++ []) ∧ (eraAt 0x00 7 ⟨true, 3⟩).d.r.lbsv = true ∧
    (eraAt 0x01 7 ⟨false, 0⟩).Decoding .era true [true] ∧
    (eraAt 0x02 6 ⟨false, 0⟩).Decoding .era true [true, false] ∧
    (eraAt 0x06 5 ⟨false, 0⟩).Decoding .era true ([true, true] ++ [false]) ∧
    (eraAt 0x33 2 ⟨false, 0⟩).Decoding .era true ([true, true] ++ natBits (3 : BitVec 4).toNat 4) := by decide

theorem witness_HistoryFirstValueIsEmitted : (encodingC ChpEncRegs.reset).e.codec = .chp ∧
    (encodingC ChpEncRegs.reset).e.c.first = true ∧ (encodingC ChpEncRegs.reset).MemoryInv ∧
    (encodingC ChpEncRegs.reset).e.bs.AccInv ∧ (capped 8 (encodingC ChpEncRegs.reset)).Room 64 ∧
    (capped 7 (encodingC ChpEncRegs.reset)).NoRoom 64 :=
  ⟨rfl, rfl, by decide, by decide, ⟨rfl, fun cap h => by cases h; decide⟩, rfl, 7, rfl, by decide⟩

/-- A CHP block in progress meets the premises whatever the sink's capacity. -/
theorem capped_steady (cap : Nat) (c : ChpEncRegs) (hf : c.first = false) (hl : c.log2w.toNat ≤ 53)
    (h : (encodingC c).MemoryInv) : (capped cap (encodingC c)).ChpSteady :=
  ⟨rfl, hf, hl, h, by show BitSink.reset.AccInv; decide, fun b h => by cases h⟩

/-- Vector H8: the third value matches slot 1; and a value equal to it. Room for each record, and too little. -/
theorem witness_HistoryMatchesAreEmitted :
    (∀ cap, (capped cap (encodingC (ring2 0x1100 0x2200))).ChpSteady) ∧
      (ring2 0x1100 0x2200).Selects 0x1100 true 1 0x3300 ∧
      (ring2 0x1100 0x2200).Selects 0x2200 true 1 0 ∧ lzRound (clz 0x3300) = 24 ∧ ctz 0x3300 = 8 ∧
      (capped 6 (encodingC (ring2 0x1100 0x2200))).Room (1 + 11 + (64 - 24 - 8)) ∧
      (capped 5 (encodingC (ring2 0x1100 0x2200))).NoRoom (1 + 11 + (64 - 24 - 8)) ∧
      (capped 1 (encodingC (ring2 0x1100 0x2200))).Room (1 + 2) ∧
      (capped 0 (encodingC (ring2 0x1100 0x2200))).NoRoom (1 + 2) :=
  ⟨fun cap => capped_steady cap _ rfl (by decide) (by decide +kernel),
    ⟨by decide +kernel, 1, by decide +kernel, by decide +kernel, by decide +kernel⟩,
    ⟨by decide +kernel, 1, by decide +kernel, by decide +kernel, by decide +kernel⟩,
    by decide, by decide, ⟨rfl, fun cap h => by cases h; decide⟩, ⟨rfl, 5, rfl, by decide⟩,
    ⟨rfl, fun cap h => by cases h; decide⟩, rfl, 0, rfl, by decide⟩

/-- Vector H8: the key of 0x1101 is not in the table; the count is announced or not. -/
theorem witness_HistoryPreviousIsEmitted :
    (∀ cap, (capped cap (encodingC (ring2 0x1100 0x2200))).ChpSteady) ∧
      (ring2 0x1100 0x2200).Selects 0x1101 false 1 0x3301 ∧
      (0x3301 : Word) ≠ 0 ∧ lzRound (clz 0x3301) = 24 ∧ (ring2 0x1100 0x2200).slz.toNat ≠ 24 ∧
      (capped 6 (encodingC (ring2 0x1100 0x2200))).Room (5 + (64 - 24)) ∧
      (capped 5 (encodingC (ring2 0x1100 0x2200))).NoRoom (5 + (64 - 24)) ∧
      (∀ cap, (capped cap (encodingC { ring2 0x1100 0x2200 with slz := 24 })).ChpSteady) ∧
      { ring2 0x1100 0x2200 with slz := 24 }.Selects 0x1101 false 1 0x3301 ∧
      (capped 6 (encodingC { ring2 0x1100 0x2200 with slz := 24 })).Room (2 + (64 - 24)) ∧
      (capped 5 (encodingC { ring2 0x1100 0x2200 with slz := 24 })).NoRoom (2 + (64 - 24)) :=
  ⟨fun cap => capped_steady cap _ rfl (by decide) (by decide +kernel),
    ⟨by decide +kernel, by decide +kernel, fun cand h => absurd h.1 (by decide +kernel)⟩,
    by decide, by decide, by decide, ⟨rfl, fun cap h => by cases h; decide⟩, ⟨rfl, 5, rfl, by decide⟩,
    fun cap => capped_steady cap _ rfl (by decide) (by decide +kernel),
    ⟨by decide +kernel, by decide +kernel, fun cand h => absurd h.1 (by decide +kernel)⟩,
    ⟨rfl, fun cap h => by cases h; decide⟩, rfl, 5, rfl, by decide⟩

/-- The close of a block of no value, 64 bits, and of one whose sentinel takes a `C.PREVN` record, 69 bits. -/
theorem witness_HistoryCloseEndsTheBlock : (encodingC (ring2 5 6)).e.codec = .chp ∧
    (encodingC (ring2 5 6)).e.c.log2w.toNat ≤ 53 ∧ (encodingC (ring2 5 6)).e.bs.AccInv ∧
    (∀ b ∈ (encodingC (ring2 5 6)).impl.idxBits, (ring2 5 6).index ≠ 2 ^ b - 1) ∧
    (ring2 5 6).PutLength Config.sentinel 69 ∧ (capped 9 (encodingC (ring2 5 6))).Room 69 ∧
    (capped 8 (encodingC (ring2 5 6))).NoRoom 69 ∧
    ChpEncRegs.reset.PutLength Config.sentinel 64 ∧ (capped 8 (encodingC ChpEncRegs.reset)).Room 64 ∧
    (capped 7 (encodingC ChpEncRegs.reset)).NoRoom 64 :=
  ⟨rfl, by decide, by show BitSink.reset.AccInv; decide, fun b h => (by cases h),
    .inr ⟨rfl, false, 1, 0x7FF8000000000006,
      ⟨by decide +kernel, by decide +kernel, fun cand h => absurd h.1 (by decide +kernel)⟩, by decide +kernel⟩,
    ⟨rfl, fun cap h => by cases h; decide⟩, ⟨rfl, 8, rfl, by decide⟩, .inl ⟨rfl, rfl⟩,
    ⟨rfl, fun cap h => by cases h; decide⟩, rfl, 7, rfl, by decide⟩

theorem witness_HistoryFirstValueIsDecoded :
    (decoding .chp [0, 0, 0, 0, 0, 0, 0x11, 0]).Decoding .chp true (natBits (0x1100 : Word).toNat 64 ++ []) ∧
      (decoding .chp [0x7F, 0xF8, 0, 0, 0, 0, 0, 0]).Decoding .chp true
        (natBits Config.sentinel.toNat 64 ++ []) ∧
      Memory.wf 0 (decoding .chp []).d.c.ring = true := by decide +kernel

/-- The second value of vectors H2 and H1, with a counter that can still count, and the sentinel after the value
1.5 with one that cannot. Slot 0 at position 0 is the newest live one. -/
theorem witness_HistoryMatchIsDecoded :
    (bounded 9 1 (decodingC one15 [0x00, 0x20])).MatchRecord .decVal 9 0x3FF8000000000000 ∧
      (bounded 9 1 (decodingC one15 [0x40, 0x11, 0x87])).MatchRecord .chpDec 24 0x3FE4000000000000 ∧
      (∀ b ∈ (bounded 9 1 (decodingC one15 [])).impl.idxBits, one15.index ≠ 2 ^ b - 1) ∧
      (bounded 9 0 (decodingC one15 [0x40, 0x00, 0x90])).MatchRecord .decVal 20 Config.sentinel ∧
      (∃ b ∈ (bounded 9 0 (decodingC one15 [])).impl.idxBits, one15.index = 2 ^ b - 1) ∧
      Memory.wf 0 one15.ring = true :=
  ⟨⟨0, 0, 0, 0, (bytesBits [0x00, 0x20]).drop 9, by decide, by decide, .inl (by decide +kernel)⟩,
    ⟨0, 1, 6, 7, [], by decide, by decide, .inr (by decide +kernel)⟩, fun b h => by cases h; decide,
    ⟨0, 0, 2, 1, List.replicate 4 false, by decide, by decide, .inr (by decide +kernel)⟩, ⟨0, rfl, by decide⟩,
    by decide⟩

/-- A `C.PREV` and a `C.PREVN` record, with a counter that can still count, and the sentinel with one that cannot. -/
theorem witness_HistoryPreviousIsDecoded :
    (bounded 9 1 (decodingC { one15 with slz := 24 } [0x80, 0x00, 0x00, 0x00, 0x01, 0x00])).PrevRecord
        .decVal 42 24 0x3FF8000000000004 ∧
      (bounded 9 1 (decodingC one15 [0xF8, 0x00, 0x00, 0x00, 0x00, 0x10])).PrevRecord .chpDec 45 24
        0x3FF8000000000002 ∧
      (∀ b ∈ (bounded 9 1 (decodingC one15 [])).impl.idxBits, one15.index ≠ 2 ^ b - 1) ∧
      (bounded 9 0 (decodingC { one15 with slz := 0 } [0x90, 0, 0, 0, 0, 0, 0, 0, 0])).PrevRecord .decVal 66 0
        Config.sentinel ∧
      (∃ b ∈ (bounded 9 0 (decodingC one15 [])).impl.idxBits, one15.index = 2 ^ b - 1) ∧
      Memory.wf 0 one15.ring = true :=
  ⟨⟨0, 4, List.replicate 6 false, by decide, by decide +kernel, .inl (by decide +kernel)⟩,
    ⟨7, 2, List.replicate 3 false, by decide, by decide +kernel, .inr (by decide +kernel)⟩,
    fun b h => by cases h; decide,
    ⟨0, 0x4000000000000000, List.replicate 6 false, by decide, by decide +kernel, .inl (by decide +kernel)⟩,
    ⟨0, rfl, by decide⟩, by decide⟩

/-- A CHP decode half four bits before the end of its source. -/
def chpCut : State :=
  { State.reset with d := { DecHalf.reset with codec := .chp, phase := .run, bs := ⟨[0x0E], 4⟩, c := one15 } }

/-- Whole records of both kinds where the counter cannot count. -/
theorem witness_HistoryRecordsFault_counter :
    (bounded 9 0 (decodingC one15 [0x40, 0x11, 0x87])).MatchRecord .chpDec 24 0x3FE4000000000000 ∧
      (bounded 9 0 (decodingC one15 [0xF8, 0x00, 0x00, 0x00, 0x00, 0x10])).PrevRecord .decVal 45 24
        0x3FF8000000000002 ∧
      (0x3FE4000000000000 : Word) ≠ Config.sentinel ∧ (0x3FF8000000000002 : Word) ≠ Config.sentinel ∧
      ∃ b ∈ (bounded 9 0 (decodingC one15 [])).impl.idxBits, one15.index = 2 ^ b - 1 :=
  ⟨⟨0, 1, 6, 7, [], by decide, by decide, .inr (by decide +kernel)⟩,
    ⟨7, 2, List.replicate 3 false, by decide, by decide +kernel, .inr (by decide +kernel)⟩, by decide, by decide,
    0, rfl, by decide⟩

/-- Vectors F20 to F26, and payloads cut one bit short. -/
theorem witness_HistoryRecordsFault :
    (decoding .chp [0x3F]).Decoding .chp true (bytesBits [0x3F]) ∧
    (decodingC one15 []).Decoding .chp false [] ∧
    (decodingC one15 [0x00]).Decoding .chp false ([false, false] ++ List.replicate 6 false) ∧
    (decodingC one15 [0x02, 0x80]).Decoding .chp false
      ([false, false] ++ natBits (5 : Word).toNat one15.log2w.toNat ++ List.replicate 7 false) ∧
      one15.index < (5 : Word).toNat ∧
    (decodingC one15 [0x40, 0x00]).Decoding .chp false ([false, true] ++ List.replicate 14 false) ∧
    (decodingC one15 [0x40, 0x00, 0x00]).Decoding .chp false
      ([false, true] ++ natBits (0 : Word).toNat one15.log2w.toNat ++ natBits (0 : BitVec 3).toNat 3 ++
        natBits (0 : BitVec 6).toNat 6 ++ List.replicate 6 false) ∧
    (decodingC one15 [0x40, 0x7C, 0x80]).Decoding .chp false
      ([false, true] ++ natBits (0 : Word).toNat one15.log2w.toNat ++ natBits (7 : BitVec 3).toNat 3 ++
        natBits (50 : BitVec 6).toNat 6 ++ List.replicate 6 false) ∧ 64 < lzVal 7 + (50 : BitVec 6).toNat ∧
    (decodingC one15 [0x40, 0x11, 0xC0]).Decoding .chp false
      ([false, true] ++ natBits (0 : Word).toNat one15.log2w.toNat ++ natBits (1 : BitVec 3).toNat 3 ++
        natBits (7 : BitVec 6).toNat 6 ++ List.replicate 6 false) ∧ lzVal 1 + (7 : BitVec 6).toNat ≤ 64 ∧
    (decodingC one15 [0x80]).Decoding .chp false ([true, false] ++ List.replicate 6 false) ∧ one15.slz = 65 ∧
    (decodingC { one15 with slz := 24 } [0x80]).Decoding .chp false ([true, false] ++ List.replicate 6 false) ∧
      (24 : BitVec 7) ≠ 65 ∧
    chpCut.Decoding .chp false ([true, true] ++ [true, false]) ∧
    (decodingC one15 [0xF8]).Decoding .chp false
      ([true, true] ++ natBits (7 : BitVec 3).toNat 3 ++ List.replicate 3 false) := by
  repeat' apply And.intro
  all_goals decide +kernel

theorem reset_paramInv : State.reset.ParamInv := by decide

/-- A machine whose sink is too small for the block of one value. -/
theorem witness_CompressIsItsExpansion : (tight 2 BitSink.reset).ParamInv ∧
    answer (.compress .x64 [0x3FF8000000000000]) (tight 2 BitSink.reset) = some (.err .overflow) ∧
    answer (.compress .x64 [0x3FF8000000000000]) State.reset = some (.bytes [0x66, 0x7F, 0xF0, 0x20]) := by
  decide

theorem witness_DecompressIsItsExpansion : Codec.x64 ≠ .raw ∧
    (∃ cap ∈ oneByte.impl.srcCap, cap < [(0x66 : Byte), 0x7F].length) ∧
    (∀ cap ∈ oneByte.impl.srcCap, [(0x66 : Byte)].length ≤ cap) :=
  ⟨by decide, ⟨1, rfl, by decide⟩, fun cap h => by cases h; decide⟩

/-- A source with room for the four bytes, and no more. -/
theorem witness_XorBlocksRoundTrip : Config.sentinel ∉ [(0x3FF8000000000000 : Word)] ∧
    answer (.compress .x64 [0x3FF8000000000000]) State.reset = some (.bytes [0x66, 0x7F, 0xF0, 0x20]) ∧
    ∀ cap ∈ (bounded 4 0 State.reset).impl.srcCap, [(0x66 : Byte), 0x7F, 0xF0, 0x20].length ≤ cap :=
  ⟨by decide, by decide, fun cap h => by cases h; decide⟩

theorem witness_ErasureBlocksRoundTrip : (∀ v ∈ List.replicate 3 (0x3FB999999999999A : Word), classOf v ≠ .nan) ∧
    answer (.compress .era (List.replicate 3 0x3FB999999999999A)) State.reset =
      some (.bytes [0xC1, 0xA1, 0xFD, 0x26, 0x86, 0xA0, 0x20]) ∧
    ∀ cap ∈ (bounded 7 0 State.reset).impl.srcCap,
      [(0xC1 : Byte), 0xA1, 0xFD, 0x26, 0x86, 0xA0, 0x20].length ≤ cap :=
  ⟨fun v h => by rw [List.eq_of_mem_replicate h]; decide, by decide +kernel, fun cap h => by cases h; decide⟩

/-- A source with room for the eleven bytes and a counter for one value, and no more. -/
theorem witness_HistoryBlocksRoundTrip : Config.sentinel ∉ [(0x3FF8000000000000 : Word)] ∧
    State.reset.ParamInv ∧ State.reset.MemoryInv ∧ (bounded 11 0 State.reset).MemoryInv ∧
    (bounded 11 0 State.reset).cfgLog2w = State.reset.cfgLog2w ∧
    answer (.compress .chp [0x3FF8000000000000]) State.reset =
      some (.bytes [0x3F, 0xF8, 0, 0, 0, 0, 0, 0, 0x40, 0x00, 0x90]) ∧
    (∀ cap ∈ (bounded 11 0 State.reset).impl.srcCap,
      [(0x3F : Byte), 0xF8, 0, 0, 0, 0, 0, 0, 0x40, 0x00, 0x90].length ≤ cap) ∧
    ∀ b ∈ (bounded 11 0 State.reset).impl.idxBits, [(0x3FF8000000000000 : Word)].length ≤ 2 ^ b :=
  ⟨by decide, reset_paramInv, by decide, by decide, rfl, by decide +kernel, fun cap h => by cases h; decide,
    fun b h => by cases h; decide⟩

/-- Two machines that differ in what an earlier block left. -/
theorem witness_BlocksAreIndependent : State.reset.MemoryInv ∧ (encodingC (ring2 5 6)).MemoryInv ∧
    State.reset.impl = (encodingC (ring2 5 6)).impl ∧ State.reset.cfgLog2w = (encodingC (ring2 5 6)).cfgLog2w ∧
    (∃ t, exec (.compress .chp [5]) State.reset = .next t) ∧
      ∃ t, exec (.compress .chp [5]) (encodingC (ring2 5 6)) = .next t :=
  ⟨by decide, by decide +kernel, rfl, rfl, ⟨_, rfl⟩, _, rfl⟩

theorem witness_HalvesAreIndependent : (Instr.encVal 5).isEncode = true ∧ Instr.decVal.isDecode = true ∧
    (∃ t, exec (.encVal 5) State.reset = .next t) ∧ ∃ t, exec .decVal State.reset = .next t :=
  ⟨rfl, rfl, ⟨_, rfl⟩, _, rfl⟩

/-- A decode half in FAULT with `DEC.VAL`, then with `LOAD`, on the port. -/
theorem witness_FaultIsLeftOnlyByAFreshStart :
    ∀ op ∈ [0x14, 0x10], ∃ t, step { ported (Command.ofOp op) with
      d := { DecHalf.reset with codec := .x64, phase := .fault, err := .endOfStream } } = .next t := by
  intro op h
  rcases List.mem_cons.1 h with rfl | h
  · exact ⟨_, rfl⟩
  · rcases List.mem_cons.1 h with rfl | h
    · exact ⟨_, rfl⟩
    · cases h

theorem witness_StickyFlagsStay : (∃ t, exec .flush (encoding .raw b1) = .next t) ∧ Instr.flush ≠ .reset ∧
    (∀ k, Instr.flush ≠ .encOpen k) ∧ (∀ k vs, Instr.flush ≠ .compress k vs) ∧ (∀ k, Instr.flush ≠ .decOpen k) ∧
      ∀ k data, Instr.flush ≠ .decompress k data :=
  ⟨⟨_, rfl⟩, by decide, fun _ => Instr.noConfusion, fun _ _ => Instr.noConfusion, fun _ => Instr.noConfusion,
    fun _ _ => Instr.noConfusion⟩

/-- A machine inside a block with a command on its port meets the invariants, and steps. -/
theorem witness_StepKeepsControlCursorAndSink :
    ((tight 3 b1).ParamInv ∧ (tight 3 b1).CursorInv ∧ (tight 3 b1).PhaseInv ∧ (tight 3 b1).SinkInv) ∧
      ∃ t, step { tight 3 b1 with port := [Command.ofOp 0x09] } = .next t :=
  ⟨⟨by decide, ⟨by decide, fun cap h => by cases h⟩, by decide, by decide, by decide,
    fun cap h => by cases h; decide⟩, _, rfl⟩

/-- A machine with a window announced on both halves. -/
def windowed : State := { encodingX narrow with d := { DecHalf.reset with c := { one15 with slz := 24 } } }

theorem witness_StepKeepsTheWindows :
    windowed.WindowInv ∧ windowed.ChpWindowInv ∧ ∃ t, step { encodingX narrow with port := [Command.ofOp 0x0E] } = .next t :=
  ⟨by decide, by decide, _, rfl⟩

/-- Registers with a live table: the value 5 at position 0, its key valid, its slot in the window. -/
theorem witness_StepKeepsTheHistory :
    (encodingC ChpEncRegs.reset).MemoryInv ∧ (encodingC ChpEncRegs.reset).e.c.HistoryInv ∧
      ∃ t, step { encodingC ChpEncRegs.reset with port := [Command.ofOp 0x0D] } = .next t :=
  ⟨by decide, ⟨fun _ => ⟨rfl, fun _ => rfl⟩, fun _ h => absurd h Bool.false_ne_true⟩, _, rfl⟩

theorem witness_DecodeReadsBackEveryEncoding :
    Instr.wellFormed .port (.cfgW 127) = true ∧ Instr.wellFormed .xFirst (.xFirst 0 0x7FFFFFFFFFFFFFFF) = true ∧
      Instr.wellFormed (.xSteady 64) (.xReuse 0xFFFFFFFFFFFFFFFF) = true ∧
      Instr.wellFormed (.cSteady 7 40) (.cHist 127 7 40 0xFFFFFFFFFF) = true ∧
      Instr.wellFormed (.dispatch .chp .era) (.chpEnc 5) = true := by decide

end Sys2Proof.Tests
end

