-- ==== Sys2Proof/Proofs/Scope.lean ====
section
/-! PROOFS. The arithmetic primitives of `00_scope.md` R8. -/

namespace Sys2Proof.Machine

/-- Complement flips each of the 64 bits. -/
theorem getLsbD_not_word (a : Word) {i : Nat} (h : i < 64) : (~~~a).getLsbD i = !a.getLsbD i := by
  rw [BitVec.getLsbD_not, decide_eq_true h, Bool.true_and]

/-- A residue of a 64-bit number is itself a 64-bit number, so `LOW` loses nothing, for any `n`. -/
theorem low_toNat (a : Word) (n : Nat) : (low a n).toNat = a.toNat % 2 ^ n := by
  rw [low, BitVec.toNat_ofNat]
  exact Nat.mod_eq_of_lt ((Nat.mod_le _ _).trans_lt a.isLt)

theorem lzSet_getElem?_lzVal (i : BitVec 3) : Config.lzSet[i.toNat]? = some (lzVal i) := by
  have hi : i.toNat < Config.lzSet.length := i.isLt
  rw [lzVal, List.getElem?_eq_getElem hi, List.getD_eq_getElem _ _ hi]

theorem lzSet_getElem?_lzIdx {z : Nat} (h : z ∈ Config.lzSet) : Config.lzSet[(lzIdx z).toNat]? = some z := by
  rw [lzSet_getElem?_lzVal, lzVal_lzIdx h]

/-- Settles O8: each clause is the law of one primitive (shifts and `LOW` as arithmetic on numbers, the counts by
`Nat.log2` and by divisibility, the canonical set by its members and positions). -/
theorem primitivesMeetTheirDefinitions : Obligations.PrimitivesMeetTheirDefinitions := by
  unfold Obligations.PrimitivesMeetTheirDefinitions
  refine ⟨?bitwise, ?shifts, ?low, ?zero, ?counts, rfl, ?round, ?index, ?value⟩
  case bitwise =>
    exact fun a b i hi => ⟨BitVec.getLsbD_xor, BitVec.getLsbD_and, BitVec.getLsbD_or, getLsbD_not_word a hi⟩
  case shifts => exact fun a k => ⟨shr_toNat a k, shl64_toNat a k⟩
  case low => exact fun a n _ => low_toNat a n
  case zero => exact ⟨clz_zero, ctz_zero⟩
  case counts => exact fun a ha => ⟨clz_add_log2 ha, ctz_dvd a, ctz_not_dvd ha⟩
  case round => exact fun n _ => ⟨lzRound_mem n, lzRound_le n, fun _ hz h => lzRound_greatest hz h⟩
  case index => exact fun _ hz => lzSet_getElem?_lzIdx hz
  case value => exact fun i => ⟨lzSet_getElem?_lzVal i, lzIdx_lzVal i⟩

end Sys2Proof.Machine
end

/-! PROOFS. The two halves are independent, and every step keeps the invariants of the registers (`10_state.md`).
The one idea: an instruction of one half is a chain of moves of that half, and each invariant is kept by each
move. -/

namespace Sys2Proof.Machine

/-! ## The moves of the halves -/

/-- One move of the encode half under the parameters `m` and the configured window `w`: an accepted sequence, a
write of the sticky flags, `ENC.OPEN`, `RESET`. -/
inductive EncHalf.Move (m : Config.Impl) (w : BitVec 6) : EncHalf → EncHalf → Prop
  | ran {e e' : EncHalf} (h : EncKeeps m e e') : EncHalf.Move m w e e'
  | flagged (e : EncHalf) (st : EncStatus) : EncHalf.Move m w e { e with status := st }
  | opened (e : EncHalf) (k : Codec) : EncHalf.Move m w e (e.opened w k)
  | reset (e : EncHalf) : EncHalf.Move m w e EncHalf.reset

/-- One move of the decode half: what a rule or a read keeps, without a way out of FAULT; the error entry, which a
RAW half never takes; a write of the sticky flag; `LOAD`, `DEC.OPEN`, `RESET`. -/
inductive DecHalf.Move (m : Config.Impl) (w : BitVec 6) : DecHalf → DecHalf → Prop
  | ran {d d' : DecHalf} (h : DecKeeps d d') (hfault : d.phase = .fault → d'.phase = .fault) : DecHalf.Move m w d d'
  | raised {d d' : DecHalf} {c : ErrCode} (hcodec : d.codec ≠ .raw) (h : DecKeeps d d') (hc : c.isFault = true) :
      DecHalf.Move m w d (d'.raiseEntry c)
  | flagged (d : DecHalf) (b : Bool) : DecHalf.Move m w d { d with cv := b }
  | loaded (d : DecHalf) {data : List Byte} (h : sourceTooLong m data = false) : DecHalf.Move m w d (d.loaded data)
  | opened (d : DecHalf) (k : Codec) : DecHalf.Move m w d (d.opened w k)
  | reset (d : DecHalf) : DecHalf.Move m w d DecHalf.reset

/-- Any number of moves of the encode half. -/
abbrev EncHalf.Moves (m : Config.Impl) (w : BitVec 6) : EncHalf → EncHalf → Prop :=
  Relation.ReflTransGen (EncHalf.Move m w)

/-- Any number of moves of the decode half. -/
abbrev DecHalf.Moves (m : Config.Impl) (w : BitVec 6) : DecHalf → DecHalf → Prop :=
  Relation.ReflTransGen (DecHalf.Move m w)

/-- What each move keeps, a chain of moves keeps. -/
theorem keeps_along {α : Type} (Inv : α → Prop) {move : α → α → Prop} {a b : α} (h : Relation.ReflTransGen move a b)
    (hmove : ∀ {a b}, move a b → Inv a → Inv b) (ha : Inv a) : Inv b := by
  induction h with
  | refl => exact ha
  | tail _ hbc ih => exact hmove hbc ih

/-! ## An instruction acts on its half -/

/-- From `s` the instruction answers `r` and leaves `e` in the encode half, whatever the decode half holds, and
changes nothing else. -/
def ActsOnEnc (i : Instr) (s : State) (r : Response) (e : EncHalf) : Prop :=
  ∀ d, exec i { s with d := d } = .next { s with d := d, e := e, resp := some r }

/-- From `s` the instruction answers `r` and leaves `d` in the decode half, whatever the encode half holds, and
changes nothing else. -/
def ActsOnDec (i : Instr) (s : State) (r : Response) (d : DecHalf) : Prop :=
  ∀ e, exec i { s with e := e } = .next { s with e := e, d := d, resp := some r }

theorem ActsOnEnc.next_eq {i : Instr} {s t : State} {r : Response} {e : EncHalf} (h : ActsOnEnc i s r e)
    (ht : exec i s = .next t) : t = { s with e := e, resp := some r } := by
  injection ht.symm.trans (h s.d)

theorem ActsOnDec.next_eq {i : Instr} {s t : State} {r : Response} {d : DecHalf} (h : ActsOnDec i s r d)
    (ht : exec i s = .next t) : t = { s with d := d, resp := some r } := by
  injection ht.symm.trans (h s.e)

/-! ## The encode half -/

/-- A sequence of the encode half is one move, accepted or refused, and the decode half has no part in it. -/
theorem runEnc_acts {x : EncM Response} (s : State) (w : BitVec 6) (hx : EncM.Good s.impl x) :
    ∃ r e, EncHalf.Move s.impl w s.e e ∧
      ∀ d, runEnc x { s with d := d } = { s with d := d, e := e, resp := some r } := by
  cases h : x s.e with
  | ok r e => exact ⟨r, e, .ran ((hx s.e).ok h), fun d => runEnc_ok (s := { s with d := d }) h⟩
  | error c e =>
    exact ⟨.err c, _, .flagged s.e (s.e.status.stick c), fun d => runEnc_error (s := { s with d := d }) h⟩

theorem encOpen_acts (k : Codec) (s : State) : ActsOnEnc (.encOpen k) s .ok (s.e.opened s.cfgLog2w k) :=
  fun _ => rfl

/-- `COMPRESS` is refused as a whole, or is `ENC.OPEN` and a sequence (`45_block_and_system.md` R217). -/
theorem compress_acts (k : Codec) (vs : List Word) (s : State) :
    ∃ r e, EncHalf.Moves s.impl s.cfgLog2w s.e e ∧ ActsOnEnc (.compress k vs) s r e := by
  by_cases hk : k = .raw
  · exact ⟨_, _, .single (.flagged s.e (s.e.status.stick .contractViolation)), fun _ => if_pos hk⟩
  · obtain ⟨r, e, hmove, hrun⟩ :=
      runEnc_acts { s with e := s.e.opened s.cfgLog2w k } s.cfgLog2w (compressBody_good s.impl k vs)
    refine ⟨r, e, .head (.opened s.e k) (.single hmove), fun d => ?_⟩
    exact (if_neg hk).trans (congrArg Host.Outcome.next (hrun d))

theorem encode_acts {i : Instr} (hi : i.isEncode = true) (s : State) :
    ∃ r e, EncHalf.Moves s.impl s.cfgLog2w s.e e ∧ ActsOnEnc i s r e := by
  rcases exec_encode i s.impl hi with ⟨k, rfl⟩ | ⟨k, vs, rfl⟩ | ⟨x, hx, hexec⟩
  · exact ⟨_, _, .single (.opened s.e k), encOpen_acts k s⟩
  · exact compress_acts k vs s
  · obtain ⟨r, e, hmove, hrun⟩ := runEnc_acts s s.cfgLog2w hx
    exact ⟨r, e, .single hmove, fun d => (hexec { s with d := d } rfl).trans (congrArg Host.Outcome.next (hrun d))⟩

/-! ## The decode half -/

theorem DecKeeps.advance {d : DecHalf} {n : Nat} (h : n ≤ d.bs.avail) : DecKeeps d (d.advance n) :=
  ⟨rfl, rfl, rfl, .inl rfl, rfl, Nat.le_add_right _ _,
    fun hpos => by simp only [BitSource.avail, DecHalf.advance] at h ⊢; omega, id, rfl, id, id⟩

theorem decVal_moves (m : Config.Impl) (w : BitVec 6) (d : DecHalf) : DecHalf.Moves m w d (d.decVal m).2 := by
  rcases decVal_cases m d with ⟨-, h⟩ | ⟨-, -, h⟩ | ⟨-, -, h⟩ | ⟨-, hp, h⟩ | ⟨hk, hp, h⟩
  · exact h ▸ .single (.flagged d true)
  · exact h ▸ .refl
  · exact h ▸ .refl
  · exact h ▸ .single (.ran (DecKeeps.ofDone d) fun hf => absurd (hp.symm.trans hf) (by decide))
  · rw [h]
    rcases runDecHalf_cases (ruleOf_good m d.codec hk d) with ⟨r, d', h', -, hkeep, -⟩ | ⟨c, d', h', hkeep, hc⟩
    · exact h' ▸ .single (.ran hkeep fun hf => absurd (hp.symm.trans hf) (by decide))
    · exact h' ▸ .single (.raised hk hkeep hc)

/-- The loop of `DECOMPRESS` is a chain of `DEC.VAL`s (`45_block_and_system.md` R218). -/
theorem decodeAll_moves {m : Config.Impl} {w : BitVec 6} {fuel : Nat} {d d' : DecHalf} {out : List Word}
    {r : Response} (hk : d.codec ≠ .raw) (h : decodeAll m fuel d out = some (r, d')) : DecHalf.Moves m w d d' := by
  induction fuel generalizing d out with
  | zero => cases h
  | succ fuel ih =>
    have hfirst := decVal_moves m w d
    rcases decVal_answers m hk with ⟨v, d1, h1, hkeep, -⟩ | ⟨d1, h1⟩ | ⟨c, d1, h1⟩ <;> rw [h1] at hfirst
    · rw [decodeAll_val h1] at h
      exact hfirst.trans (ih (hkeep.codec ▸ hk) h)
    · rw [decodeAll_end h1] at h
      cases h
      exact hfirst
    · rw [decodeAll_err h1] at h
      cases h
      exact hfirst

/-- A refusal is one move: it writes at most the sticky flag (`60_exceptions.md` R237). -/
theorem refuseDec_move (m : Config.Impl) (w : BitVec 6) (s : State) (c : ErrCode) :
    DecHalf.Move m w s.d (s.refuseDec c).d := .flagged s.d _

theorem load_acts (data : List Byte) (s : State) :
    ∃ r d, DecHalf.Moves s.impl s.cfgLog2w s.d d ∧ ActsOnDec (.load data) s r d := by
  by_cases hlong : sourceTooLong s.impl data = true
  · exact ⟨.err .overflow, _, .single (refuseDec_move _ _ s .overflow), fun _ => if_pos hlong⟩
  · exact ⟨.ok, _, .single (.loaded s.d (by simpa using hlong)), fun _ => if_neg hlong⟩

theorem rbit_acts (s : State) : ∃ r d, DecHalf.Moves s.impl s.cfgLog2w s.d d ∧ ActsOnDec .rbit s r d := by
  by_cases hshort : s.d.bs.avail < 1
  · exact ⟨.err .endOfStream, s.d, .refl, fun _ => if_pos hshort⟩
  · exact ⟨.bit (field 1 1 s.d.bs.unread == 1#1), _,
      .single (.ran (DecKeeps.advance (Nat.le_of_not_lt hshort)) id), fun _ => if_neg hshort⟩

theorem rbits_acts (n : BitVec 7) (s : State) :
    ∃ r d, DecHalf.Moves s.impl s.cfgLog2w s.d d ∧ ActsOnDec (.rbits n) s r d := by
  by_cases hwide : n.toNat > Config.nMax
  · exact ⟨.err .contractViolation, _, .single (refuseDec_move _ _ s .contractViolation), fun _ => if_pos hwide⟩
  by_cases hshort : s.d.bs.avail < n.toNat
  · exact ⟨.err .endOfStream, s.d, .refl, fun _ => (if_neg hwide).trans (if_pos hshort)⟩
  · exact ⟨.val (field 64 n.toNat s.d.bs.unread), _, .single (.ran (DecKeeps.advance (Nat.le_of_not_lt hshort)) id),
      fun _ => (if_neg hwide).trans (if_neg hshort)⟩

/-- `DECOMPRESS` with an accepted codec and buffer, once its loop is known to end (`70_reset_and_hazards.md`
R272). -/
theorem exec_decompress_of_loop {s : State} {k : Codec} {data : List Byte} {r : Response} {d : DecHalf} (hk : k ≠ .raw)
    (hlong : sourceTooLong s.impl data ≠ true)
    (h : decodeAll s.impl (4 * data.length + 1) ((s.d.loaded data).opened s.cfgLog2w k) [] = some (r, d)) :
    exec (.decompress k data) s = .next { s with d := d, resp := some r } := by
  show execDecompress k data s = _
  rw [execDecompress, if_neg hk, if_neg hlong, h]

theorem decompress_acts (k : Codec) (data : List Byte) (s : State) :
    ∃ r d, DecHalf.Moves s.impl s.cfgLog2w s.d d ∧ ActsOnDec (.decompress k data) s r d := by
  by_cases hk : k = .raw
  · exact ⟨.err .contractViolation, _, .single (refuseDec_move _ _ s .contractViolation), fun _ => if_pos hk⟩
  by_cases hlong : sourceTooLong s.impl data = true
  · exact ⟨.err .overflow, _, .single (refuseDec_move _ _ s .overflow),
      fun _ => (if_neg hk).trans (if_pos hlong)⟩
  · obtain ⟨r, d, hloop⟩ := decompress_isSome s.impl s.d s.cfgLog2w k data hk
    refine ⟨r, d, ?_, fun e => exec_decompress_of_loop (s := { s with e := e }) hk hlong hloop⟩
    exact .head (.loaded s.d (by simpa using hlong)) (.head (.opened _ k) (decodeAll_moves hk hloop))

/-- Every host command of the decode half; the other instructions of that half are not issued from the port. -/
theorem decodeHalfCommand_acts {i : Instr} (hi : i.isDecode = true) (hport : i.wellFormed .port = true) (s : State) :
    ∃ r d, DecHalf.Moves s.impl s.cfgLog2w s.d d ∧ ActsOnDec i s r d := by
  cases i with
  | load data => exact load_acts data s
  | decOpen k => exact ⟨.ok, _, .single (.opened s.d k), fun _ => rfl⟩
  | rbit => exact rbit_acts s
  | rbits n => exact rbits_acts n s
  | decVal => exact ⟨(s.d.decVal s.impl).1, _, decVal_moves s.impl s.cfgLog2w s.d, fun _ => rfl⟩
  | decompress k data => exact decompress_acts k data s
  | x64Dec | eraDec | chpDec => cases hport
  | xFirst | xSame | xReuse | xNews | xNewl => cases hport
  | eSameb | ePlain | eNewb => cases hport
  | cFirst | cCopy | cHist | cPrev | cPrevn => cases hport
  | _ => cases hi

theorem decode_acts {i : Instr} (hi : i.isDecode = true) (s : State) : ∃ r d, ActsOnDec i s r d := by
  have ofCommand (hport : i.wellFormed .port = true) : ∃ r d, ActsOnDec i s r d := by
    obtain ⟨r, d, -, h⟩ := decodeHalfCommand_acts hi hport s
    exact ⟨r, d, h⟩
  rcases exec_record i s.impl hi with ⟨data, rfl⟩ | ⟨k, rfl⟩ | rfl | ⟨n, rfl⟩ | rfl | ⟨k, data, rfl⟩ | ⟨x, -, hexec⟩
  case inr.inr.inr.inr.inr.inr =>
    exact ⟨(runDecHalf x s.d).1, (runDecHalf x s.d).2, fun e => hexec { s with e := e } rfl⟩
  all_goals exact ofCommand rfl

/-- Settles O53: an instruction acts on its half alone, so the other half neither changes nor shows. -/
theorem halvesAreIndependent : Obligations.HalvesAreIndependent := by
  intro i s t ht
  refine ⟨fun hi => ?_, fun hi => ?_⟩
  · obtain ⟨r, e, -, hacts⟩ := encode_acts hi s
    rw [hacts.next_eq ht]
    exact ⟨rfl, rfl, hacts⟩
  · obtain ⟨r, d, hacts⟩ := decode_acts hi s
    rw [hacts.next_eq ht]
    exact ⟨rfl, rfl, hacts⟩

/-! ## One step -/

/-- What a step can do to the registers: the parameters stay, `CFG.LOG2W` stays or is written with a value in range
or reset, and each half moves under the window configured before. -/
structure State.Steps (s t : State) : Prop where
  impl : t.impl = s.impl
  cfg : t.cfgLog2w = s.cfgLog2w ∨ t.cfgLog2w = Config.log2wReset ∨ t.cfgLog2w.toNat ≤ s.impl.log2wMax
  enc : EncHalf.Moves s.impl s.cfgLog2w s.e t.e
  dec : DecHalf.Moves s.impl s.cfgLog2w s.d t.d

theorem State.Steps.ofRegs {s t : State} (himpl : t.impl = s.impl) (hcfg : t.cfgLog2w = s.cfgLog2w) (he : t.e = s.e)
    (hd : t.d = s.d) : s.Steps t :=
  ⟨himpl, .inl hcfg, he ▸ .refl, hd ▸ .refl⟩

theorem cfgW_steps {n : BitVec 7} {s t : State} (h : exec (.cfgW n) s = .next t) : s.Steps t := by
  replace h : execCfgW n s = .next t := h
  unfold execCfgW at h
  split_ifs at h with hbig <;> cases h
  · exact .ofRegs rfl rfl rfl rfl
  · refine ⟨rfl, .inr (.inr ?_), .refl, .refl⟩
    rw [BitVec.toNat_ofNat]
    exact (Nat.mod_le _ _).trans (Nat.le_of_not_lt hbig)

/-- An instruction is a system command or one of a half's. -/
theorem system_or_half (i : Instr) :
    i = .reset ∨ (∃ n, i = .cfgW n) ∨ i = .status ∨ i.isEncode = true ∨ i.isDecode = true := by
  cases i with
  | reset => exact .inl rfl
  | cfgW n => exact .inr (.inl ⟨n, rfl⟩)
  | status => exact .inr (.inr (.inl rfl))
  | encOpen | wbit | wbits | flush | bytes | encVal | encClose | compress => exact .inr (.inr (.inr (.inl rfl)))
  | x64Enc | eraEnc | chpEnc | x64Close | eraClose | chpClose => exact .inr (.inr (.inr (.inl rfl)))
  | _ => exact .inr (.inr (.inr (.inr rfl)))

theorem command_steps {i : Instr} {s t : State} (hport : i.wellFormed .port = true) (h : exec i s = .next t) :
    s.Steps t := by
  rcases system_or_half i with rfl | ⟨n, rfl⟩ | rfl | hi | hi
  · cases h
    exact ⟨rfl, .inr (.inl rfl), .single (.reset s.e), .single (.reset s.d)⟩
  · exact cfgW_steps h
  · cases h
    exact .ofRegs rfl rfl rfl rfl
  · obtain ⟨r, e, hmoves, hacts⟩ := encode_acts hi s
    rw [hacts.next_eq h]
    exact ⟨rfl, .inl rfl, hmoves, .refl⟩
  · obtain ⟨r, d, hmoves, hacts⟩ := decodeHalfCommand_acts hi hport s
    rw [hacts.next_eq h]
    exact ⟨rfl, .inl rfl, .refl, hmoves⟩

/-- The instruction of a table of `op` values is that of the first row or of the rest. -/
theorem first_or_rest {p : Prop} [Decidable p] {i j : Instr} {rest : Except Reject Instr}
    (h : (if p then .ok j else rest) = .ok i) : i = j ∨ rest = .ok i := by
  split at h
  · injection h with h
    exact .inl h.symm
  · exact .inr h

theorem decodeCommand_wellFormed {w : Command} {i : Instr} (h : decodeCommand w = .ok i) :
    i.wellFormed .port = true := by
  unfold decodeCommand at h
  iterate 17
    rcases first_or_rest h with rfl | h
    · rfl
  cases h

/-- Everything a step can do. -/
theorem step_steps {s t : State} (h : step s = .next t) : s.Steps t := by
  unfold step at h
  split at h
  · cases h
    exact .ofRegs rfl rfl rfl rfl
  · split at h
    · next rest _ i hi =>
      have hsteps := command_steps (decodeCommand_wellFormed hi) h
      exact ⟨hsteps.impl, hsteps.cfg, hsteps.enc, hsteps.dec⟩
    · cases h
      exact .ofRegs rfl rfl rfl rfl

/-! ## What each move keeps: control, cursor and sink -/

/-- The sink's invariant on the half alone (`10_state.md` R22). -/
abbrev EncHalf.SinkInv (m : Config.Impl) (e : EncHalf) : Prop :=
  e.bs.AccInv ∧ (e.bs.sealed = true → e.bs.woff = 0) ∧ ∀ cap ∈ m.sinkCap, e.bs.bitLen ≤ 8 * cap

/-- The cursor's invariant on the half alone (`10_state.md` R28). -/
abbrev DecHalf.CursorInv (m : Config.Impl) (d : DecHalf) : Prop :=
  d.bs.pos ≤ 8 * d.bs.buf.length ∧ ∀ cap ∈ m.srcCap, d.bs.buf.length ≤ cap

/-- The invariant of phase and error code on the half alone (`10_state.md` R30). -/
abbrev DecHalf.PhaseInv (d : DecHalf) : Prop :=
  (d.phase ≠ .fault → d.err = .none) ∧
    (d.phase = .fault → d.err = .endOfStream ∨ d.err = .malformedBlock ∨ d.err = .overflow) ∧
    (d.codec = .raw → d.phase = .done)

theorem EncHalf.reset_sinkInv (m : Config.Impl) : EncHalf.reset.SinkInv m :=
  ⟨by decide, fun _ => rfl, fun _ _ => Nat.zero_le _⟩

theorem DecHalf.reset_cursorInv (m : Config.Impl) : DecHalf.reset.CursorInv m :=
  ⟨Nat.le_refl _, fun _ _ => Nat.zero_le _⟩

theorem DecHalf.reset_phaseInv : DecHalf.reset.PhaseInv := by decide

theorem sourceTooLong_eq_false {m : Config.Impl} {data : List Byte} :
    sourceTooLong m data = false ↔ ∀ cap ∈ m.srcCap, data.length ≤ cap := by
  unfold sourceTooLong
  cases m.srcCap <;> simp

/-- The codes of a decode fault, by name (`60_exceptions.md` R230). -/
theorem isFault_iff {c : ErrCode} : c.isFault = true ↔ c = .endOfStream ∨ c = .malformedBlock ∨ c = .overflow := by
  cases c <;> decide

section
variable {m : Config.Impl} {w : BitVec 6} {e e' : EncHalf} {d d' : DecHalf}

/-- A latched window is the one before, the configured one, or the reset value 7. -/
theorem EncHalf.Move.log2w_le {n : Nat} (hreset : 7 ≤ n) (hw : w.toNat ≤ n) (h : EncHalf.Move m w e e')
    (he : e.c.log2w.toNat ≤ n) : e'.c.log2w.toNat ≤ n := by
  cases h with
  | ran h => rw [h.log2w]; exact he
  | flagged => exact he
  | opened k =>
    rw [EncHalf.opened_c_log2w]
    split
    · exact hw
    · exact he
  | reset => exact hreset

theorem DecHalf.Move.log2w_le {n : Nat} (hreset : 7 ≤ n) (hw : w.toNat ≤ n) (h : DecHalf.Move m w d d')
    (hd : d.c.log2w.toNat ≤ n) : d'.c.log2w.toNat ≤ n := by
  cases h with
  | ran h => rw [h.log2w]; exact hd
  | raised _ h => rw [DecHalf.raiseEntry_c, h.log2w]; exact hd
  | flagged => exact hd
  | loaded => exact hd
  | opened k =>
    rw [DecHalf.opened_c_log2w]
    split
    · exact hw
    · exact hd
  | reset => exact hreset

theorem EncHalf.Move.sinkInv (h : EncHalf.Move m w e e') (he : e.SinkInv m) : e'.SinkInv m := by
  cases h with
  | ran h =>
    obtain ⟨hacc, hseal, hcap⟩ := he
    exact ⟨h.accInv hacc, h.sealedInv hseal, h.capacity hacc hcap⟩
  | flagged => exact he
  | opened => exact EncHalf.reset_sinkInv m
  | reset => exact EncHalf.reset_sinkInv m

theorem DecKeeps.cursorInv (h : DecKeeps d d') (hd : d.CursorInv m) : d'.CursorInv m :=
  ⟨h.cursor hd.1, by rw [h.buf]; exact hd.2⟩

theorem DecHalf.Move.cursorInv (h : DecHalf.Move m w d d') (hd : d.CursorInv m) : d'.CursorInv m := by
  cases h with
  | ran h => exact h.cursorInv hd
  | raised _ h => exact h.cursorInv hd
  | flagged => exact hd
  | loaded h => exact ⟨Nat.zero_le _, sourceTooLong_eq_false.1 h⟩
  | opened => exact hd
  | reset => exact DecHalf.reset_cursorInv m

/-- A rule that does not leave FAULT leaves the code with its phase. -/
theorem DecKeeps.phaseInv (h : DecKeeps d d') (hfault : d.phase = .fault → d'.phase = .fault) (hd : d.PhaseInv) :
    d'.PhaseInv := by
  obtain ⟨hnone, hcode, hraw⟩ := hd
  rw [DecHalf.PhaseInv, h.err, h.codec]
  refine ⟨fun hp => hnone fun hf => hp (hfault hf), fun hp => hcode ?_, fun hk => ?_⟩
  · rcases h.phase with hsame | hdone
    · exact hsame.symm.trans hp
    · exact absurd (hdone.symm.trans hp) (by decide)
  · rcases h.phase with hsame | hdone
    · exact hsame.trans (hraw hk)
    · exact hdone

theorem DecHalf.Move.phaseInv (h : DecHalf.Move m w d d') (hd : d.PhaseInv) : d'.PhaseInv := by
  cases h with
  | ran h hfault => exact h.phaseInv hfault hd
  | raised hcodec h hc =>
    exact ⟨fun hp => absurd rfl hp, fun _ => isFault_iff.1 hc, fun hk => absurd (h.codec.symm.trans hk) hcodec⟩
  | flagged => exact hd
  | loaded => exact ⟨fun _ => rfl, fun hp => by simp at hp, fun _ => rfl⟩
  | opened k =>
    refine ⟨fun _ => rfl, fun hp => ?_, fun hk => if_pos hk⟩
    rw [DecHalf.opened_phase] at hp
    split at hp <;> cases hp
  | reset => exact DecHalf.reset_phaseInv

/-! ## What each move keeps: the windows -/

/-- A CHP leading count that is announced and canonical, or the mark for none (`10_state.md` R26). -/
abbrev CountInv (slz : BitVec 7) : Prop := slz = Config.noWindow ∨ slz.toNat ∈ Config.lzSet

/-- Both windows of the encode half (`10_state.md` R24, R26). -/
abbrev EncHalf.WindowsInv (e : EncHalf) : Prop := e.x.WindowInv ∧ CountInv e.c.slz

/-- Both windows of the decode half (`10_state.md` R31, R33). -/
abbrev DecHalf.WindowsInv (d : DecHalf) : Prop := d.x.WindowInv ∧ CountInv d.c.slz

theorem XorRegs.reset_windowInv : XorRegs.reset.WindowInv := by decide

theorem EncHalf.Move.windows (h : EncHalf.Move m w e e') (he : e.WindowsInv) : e'.WindowsInv := by
  cases h with
  | ran h => exact ⟨h.window he.1, h.slz he.2⟩
  | flagged => exact he
  | opened => exact ⟨XorRegs.reset_windowInv, .inl rfl⟩
  | reset => exact ⟨XorRegs.reset_windowInv, .inl rfl⟩

theorem DecHalf.Move.windows (h : DecHalf.Move m w d d') (hd : d.WindowsInv) : d'.WindowsInv := by
  cases h with
  | ran h => exact ⟨h.window hd.1, h.slz hd.2⟩
  | raised _ h => exact ⟨h.window hd.1, h.slz hd.2⟩
  | flagged => exact hd
  | loaded => exact hd
  | opened => exact ⟨XorRegs.reset_windowInv, .inl rfl⟩
  | reset => exact ⟨XorRegs.reset_windowInv, .inl rfl⟩

/-! ## What each move keeps: the history -/

/-- The encoder's ring and table canonical, and its history true (`10_state.md` R26, `44_chimp.md` R184). -/
abbrev EncHalf.HistoryInv (e : EncHalf) : Prop :=
  (Memory.wf 0 e.c.ring = true ∧ Memory.wf false e.c.tblv = true ∧ Memory.wf 0 e.c.tbl = true) ∧ e.c.HistoryInv

/-- The decoder's ring canonical. -/
abbrev DecHalf.RingInv (d : DecHalf) : Prop := Memory.wf 0 d.c.ring = true

/-- A cleared table is true of any ring (`45_block_and_system.md` R210). -/
theorem ChpEncRegs.historyInv_of_clear {c : ChpEncRegs} (hindex : c.index = 0) (htblv : c.tblv = []) :
    c.HistoryInv := by
  have hread (key : Nat) : Memory.read false c.tblv key = false := by rw [htblv, Memory.read_nil]
  exact ⟨fun _ => ⟨hindex, hread⟩, fun key hkey => absurd hkey (by simp [hread key])⟩

theorem EncHalf.Move.history (h : EncHalf.Move m w e e') (he : e.HistoryInv) : e'.HistoryInv := by
  cases h with
  | ran h => exact ⟨h.memory he.1, h.history he.1 he.2⟩
  | flagged => exact he
  | opened =>
    obtain ⟨⟨hring, -, htbl⟩, -⟩ := he
    exact ⟨⟨hring, rfl, htbl⟩, ChpEncRegs.historyInv_of_clear rfl rfl⟩
  | reset => exact ⟨⟨rfl, rfl, rfl⟩, ChpEncRegs.historyInv_of_clear rfl rfl⟩

theorem DecHalf.Move.ring (h : DecHalf.Move m w d d') (hd : d.RingInv) : d'.RingInv := by
  cases h with
  | ran h => exact h.ring hd
  | raised _ h => exact h.ring hd
  | flagged => exact hd
  | loaded => exact hd
  | opened => exact hd
  | reset => rfl

end

/-! ## The invariants -/

theorem State.Steps.paramInv {s t : State} (h : s.Steps t) (hs : s.ParamInv) : t.ParamInv := by
  obtain ⟨hlow, hhigh, hcfg, henc, hdec⟩ := hs
  rw [State.ParamInv, h.impl]
  refine ⟨hlow, hhigh, ?_,
    keeps_along (fun e => e.c.log2w.toNat ≤ s.impl.log2wMax) h.enc (EncHalf.Move.log2w_le hlow hcfg) henc,
    keeps_along (fun d => d.c.log2w.toNat ≤ s.impl.log2wMax) h.dec (DecHalf.Move.log2w_le hlow hcfg) hdec⟩
  rcases h.cfg with hsame | hreset | hwritten
  · rw [hsame]; exact hcfg
  · rw [hreset]; exact hlow
  · exact hwritten

/-- Settles O57: every command is a chain of moves, and each move keeps the ranges, the cursor, the phase and the
sink. -/
theorem stepKeepsControlCursorAndSink : Obligations.StepKeepsControlCursorAndSink := by
  intro s t ⟨hparam, hcursor, hphase, hsink⟩ hstep
  have h := step_steps hstep
  refine ⟨h.paramInv hparam, ?_, keeps_along DecHalf.PhaseInv h.dec DecHalf.Move.phaseInv hphase, ?_⟩
  · rw [State.CursorInv, h.impl]
    exact keeps_along (DecHalf.CursorInv s.impl) h.dec DecHalf.Move.cursorInv hcursor
  · rw [State.SinkInv, h.impl]
    exact keeps_along (EncHalf.SinkInv s.impl) h.enc EncHalf.Move.sinkInv hsink

/-- Settles O58: each move keeps the windows of its half. -/
theorem stepKeepsTheWindows : Obligations.StepKeepsTheWindows := by
  intro s t ⟨⟨hencX, hdecX⟩, hencC, hdecC⟩ hstep
  have h := step_steps hstep
  obtain ⟨hencX', hencC'⟩ := keeps_along EncHalf.WindowsInv h.enc EncHalf.Move.windows ⟨hencX, hencC⟩
  obtain ⟨hdecX', hdecC'⟩ := keeps_along DecHalf.WindowsInv h.dec DecHalf.Move.windows ⟨hdecX, hdecC⟩
  exact ⟨⟨hencX', hdecX'⟩, hencC', hdecC'⟩

/-- Settles O59: each move of the encode half keeps stores and history together, since a write is read back only in
a canonical store; each move of the decode half keeps its ring. -/
theorem stepKeepsTheHistory : Obligations.StepKeepsTheHistory := by
  intro s t ⟨⟨hring, htblv, htbl, hdec⟩, hhistory⟩ hstep
  have h := step_steps hstep
  obtain ⟨⟨hring', htblv', htbl'⟩, hhistory'⟩ :=
    keeps_along EncHalf.HistoryInv h.enc EncHalf.Move.history ⟨⟨hring, htblv, htbl⟩, hhistory⟩
  exact ⟨⟨hring', htblv', htbl', keeps_along DecHalf.RingInv h.dec DecHalf.Move.ring hdec⟩, hhistory'⟩

/-- Settles O56: the reset values, invariant by invariant. -/
theorem resetMeetsEveryInvariant : Obligations.ResetMeetsEveryInvariant := by
  refine ⟨?param, EncHalf.reset_sinkInv _, DecHalf.reset_cursorInv _, ?window, ?count, DecHalf.reset_phaseInv,
    ?memory, ChpEncRegs.historyInv_of_clear rfl rfl⟩
  case param => decide
  case window => exact ⟨XorRegs.reset_windowInv, XorRegs.reset_windowInv⟩
  case count => exact ⟨.inl rfl, .inl rfl⟩
  case memory => exact ⟨rfl, rfl, rfl, rfl⟩

end Sys2Proof.Machine

/-! PROOFS. What a step does with the command port (`20_memory.md` R59). -/

namespace Sys2Proof.Machine

theorem step_of_port_nil {s : State} (hport : s.port = []) : step s = .next s := by
  unfold step
  split
  · rfl
  · next h => simp [hport] at h

/-- A step on a command that decodes is `exec` on the state with the command taken off the port. -/
theorem step_of_decodeCommand {s : State} {w : Command} {rest : List Command} {i : Instr}
    (hport : s.port = w :: rest) (hdecode : decodeCommand w = .ok i) : step s = exec i { s with port := rest } := by
  simp only [step, hport, hdecode]

/-- A table row's word stands for an instruction exactly when its command record decodes to it. -/
theorem decodeTableWord_eq_some {nbits w : Nat} {i : Instr} :
    decodeTableWord nbits w = some i ↔ decodeCommand (Command.ofBits (w % 2 ^ nbits)) = .ok i := by
  unfold decodeTableWord
  split
  · next h => rw [h, Option.some_inj, Except.ok.injEq]
  · next h => simp [h]

/-- Settles O5: on the port the decoder is `decodeCommand`, whose rows are well formed and which a step runs; a word
put first on the port is such a command, and taking it off again leaves the state as it was. -/
theorem stepRunsTheDecodedCommand : Obligations.StepRunsTheDecodedCommand := by
  refine ⟨?command, fun _ => step_of_port_nil, ?word⟩
  case command =>
    intro s w rest i hport hdecode
    have hcommand : decodeCommand w = .ok i := hdecode
    exact ⟨decodeCommand_wellFormed hcommand, step_of_decodeCommand hport hcommand⟩
  case word =>
    intro s nbits w i hword
    have hport : (s.withFetchWord nbits w).port = Command.ofBits (w % 2 ^ nbits) :: s.port := rfl
    exact step_of_decodeCommand hport (decodeTableWord_eq_some.1 hword)

end Sys2Proof.Machine

/-! PROOFS. The encodings (`30_encoding.md`): reserved commands, words of the tables, and reading back what was
encoded. -/

namespace Sys2Proof.Machine

/-! ## The command port -/

/-- An `op` outside the table of `30_encoding.md` R71 fails the test of each of its 17 rows. -/
theorem decodeCommand_reserved {w : Command}
    (hop : w.op.toNat ∉ [0x01, 0x02, 0x03, 0x08, 0x09, 0x0A, 0x0B, 0x0C, 0x0D, 0x0E, 0x10, 0x11, 0x12, 0x13, 0x14,
      0x18, 0x19]) : decodeCommand w = .error .reservedOp := by
  unfold decodeCommand
  iterate 17
    refine (if_neg fun hrow => hop ?_).trans ?_
    · rw [hrow]
      decide
  rfl

theorem step_of_decodeCommand_error {s : State} {w : Command} {rest : List Command} {r : Reject}
    (hport : s.port = w :: rest) (hdecode : decodeCommand w = .error r) :
    step s = .next { s with port := rest, resp := some (.err .contractViolation) } := by
  simp only [step, hport, hdecode, State.respond]

/-- Settles O4: a reserved `op` decodes to no command, and a step on such a record only takes it off the port and
answers. -/
theorem reservedCommandsAreRefused : Obligations.ReservedCommandsAreRefused :=
  fun _ _ _ hport hop => step_of_decodeCommand_error hport (decodeCommand_reserved hop)

/-- Settles O6: each word is a closed term that the decoder evaluates, and so is each number of a kind. -/
theorem writtenOutWordsDecode : Obligations.WrittenOutWordsDecode := by
  refine ⟨?kinds, ?cfgW, ?wbits, ?decOpen, ?eraEnc, ?xReuse, ?xNews, ?eNewb, ?cHist⟩
  case kinds => exact fun _ _ _ _ _ => ⟨rfl, rfl, rfl, rfl, rfl, rfl, rfl, rfl, rfl⟩
  case cfgW | wbits | decOpen | eraEnc => rfl
  case xReuse | xNews | eNewb | cHist => rfl

/-! ## Reading back: the two shapes of an encoding -/

/-- What is encoded for `i` in the context `c` is read back as `i`; a record has the length of `30_encoding.md` R84
and is read back whatever follows it. -/
def ReadsBack (c : Context) (i : Instr) : Prop :=
  (∀ w, encode c i = .command w → decode c (.command w) = .ok i) ∧
    ∀ bits, encode c i = .record bits →
      bits.length = recordLength c i ∧ ∀ rest, decode c (.record (bits ++ rest)) = .ok i

theorem ReadsBack.of_command {c : Context} {i : Instr} {w : Command} (hencode : encode c i = .command w)
    (hdecode : decode c (.command w) = .ok i) : ReadsBack c i := by
  refine ⟨fun w' h => ?_, fun bits h => ?_⟩
  · cases hencode.symm.trans h
    exact hdecode
  · cases hencode.symm.trans h

theorem wholeRecord_append {c : Context} {i : Instr} {bits : List Bool} (h : bits.length = recordLength c i)
    (rest : List Bool) : wholeRecord c (bits ++ rest) i = .ok i :=
  if_neg (by rw [List.length_append, h]; omega)

/-- A record is read back when the format reader finds its instruction at the head of the bits: then nothing of it is
cut off. -/
theorem ReadsBack.of_record {c : Context} {i : Instr} {bits : List Bool} (hlength : Laws.RecordLength.Statement i)
    (hencode : encode c i = .record bits)
    (hdecode : ∀ rest, decode c (.record (bits ++ rest)) = wholeRecord c (bits ++ rest) i) : ReadsBack c i := by
  refine ⟨fun w h => ?_, fun bits' h => ?_⟩
  · cases hencode.symm.trans h
  · cases hencode.symm.trans h
    have hbits := hlength c bits hencode
    exact ⟨hbits, fun rest => (hdecode rest).trans (wholeRecord_append hbits rest)⟩

/-! ## Reading back: commands -/

/-- A command's fields are read back as they were written; a codec's number names it again. -/
theorem readsBack_port {i : Instr} (h : i.wellFormed .port = true) : ReadsBack .port i := by
  cases i with
  | encOpen k | decOpen k | compress k | decompress k => cases k <;> exact .of_command rfl rfl
  | reset | cfgW | status | wbit | wbits | flush | bytes | encVal | encClose => exact .of_command rfl rfl
  | load | rbit | rbits | decVal => exact .of_command rfl rfl
  | _ => cases h

/-- The codec register that makes a dispatch row well formed is the one that selects it again. -/
theorem readsBack_dispatch {e d : Codec} {i : Instr} (h : i.wellFormed (.dispatch e d) = true) :
    ReadsBack (.dispatch e d) i := by
  cases i with
  | x64Enc | eraEnc | chpEnc | x64Close | eraClose | chpClose =>
    obtain rfl : e = _ := eq_of_beq h
    exact .of_command rfl rfl
  | x64Dec | eraDec | chpDec =>
    obtain rfl : d = _ := eq_of_beq h
    exact .of_command rfl rfl
  | _ => cases h

/-! ## Reading back: records -/

/-- A payload within its width is read back from the bits that spell it. -/
theorem field_of_fits {p : Word} {n : Nat} (h : fits p n = true) (rest : List Bool) :
    field 64 n (natBits p.toNat n ++ rest) = p := field_natBits_append p (of_decide_eq_true h) rest

theorem readsBack_xFirst {i : Instr} (h : i.wellFormed .xFirst = true) : ReadsBack .xFirst i := by
  cases i with
  | xFirst tz p =>
    have hp : fits p (firstWidth tz) = true := h
    refine .of_record (Laws.RecordLength.xFirst tz p) rfl fun rest => congrArg (wholeRecord _ _) ?_
    simp only [bitsOf_eq_natBits, List.append_assoc, decodeX_first, field_of_fits hp, XRecord.toInstr]
  | _ => cases h

theorem readsBack_xSteady {cb : Nat} {i : Instr} (h : i.wellFormed (.xSteady cb) = true) :
    ReadsBack (.xSteady cb) i := by
  cases i with
  | xSame => exact .of_record Laws.RecordLength.xSame rfl fun _ => rfl
  | xReuse p =>
    have hp : fits p cb = true := h
    refine .of_record (Laws.RecordLength.xReuse p) rfl fun rest => congrArg (wholeRecord _ _) ?_
    simp only [Context.reuseWidth, bitsOf_eq_natBits, List.append_assoc, decodeX_reuse, field_of_fits hp,
      XRecord.toInstr]
  | xNews iii cccc p =>
    have hp : fits p (windowWidth iii (newsCb cccc)) = true := h
    refine .of_record (Laws.RecordLength.xNews iii cccc p) rfl fun rest => congrArg (wholeRecord _ _) ?_
    simp only [bitsOf_eq_natBits, List.append_assoc, decodeX_news, field_of_fits hp, XRecord.toInstr]
  | xNewl iii cccccc p =>
    have hp : fits p (windowWidth iii (newlCb cccccc)) = true := h
    refine .of_record (Laws.RecordLength.xNewl iii cccccc p) rfl fun rest => congrArg (wholeRecord _ _) ?_
    simp only [bitsOf_eq_natBits, List.append_assoc, decodeX_newl, field_of_fits hp, XRecord.toInstr]
  | _ => cases h

theorem decodeE_newb (bbbb : BitVec 4) (rest : List Bool) :
    decodeE ([true, true] ++ (natBits bbbb.toNat 4 ++ rest)) = .newb bbbb :=
  congrArg EPrefix.newb (field_natBits_full bbbb rest)

theorem readsBack_eraPrefix {i : Instr} (h : i.wellFormed .eraPrefix = true) : ReadsBack .eraPrefix i := by
  cases i with
  | eSameb => exact .of_record Laws.RecordLength.eSameb rfl fun _ => rfl
  | ePlain => exact .of_record Laws.RecordLength.ePlain rfl fun _ => rfl
  | eNewb bbbb =>
    refine .of_record (Laws.RecordLength.eNewb bbbb) rfl fun rest => congrArg (wholeRecord _ _) ?_
    simp only [bitsOf_eq_natBits, List.append_assoc, decodeE_newb, EPrefix.toInstr]
  | _ => cases h

theorem readsBack_cFirst {i : Instr} (h : i.wellFormed .cFirst = true) : ReadsBack .cFirst i := by
  cases i with
  | cFirst p =>
    refine .of_record (Laws.RecordLength.cFirst p) rfl fun rest => congrArg (wholeRecord _ _) ?_
    simp only [bitsOf_eq_natBits, decodeC_first, field_natBits_full, CRecord.toInstr]
  | _ => cases h

theorem readsBack_cSteady {slot prev : Nat} {i : Instr} (h : i.wellFormed (.cSteady slot prev) = true) :
    ReadsBack (.cSteady slot prev) i := by
  cases i with
  | cCopy r =>
    have hr : fits r slot = true := h
    refine .of_record (Laws.RecordLength.cCopy r) rfl fun rest => congrArg (wholeRecord _ _) ?_
    simp only [Context.slotWidth, bitsOf_eq_natBits, List.append_assoc, decodeC_copy, field_of_fits hr,
      CRecord.toInstr]
  | cHist r iii ssssss p =>
    obtain ⟨hr, hp⟩ : fits r slot = true ∧ fits p (histWidth iii ssssss) = true := Bool.and_eq_true_iff.1 h
    refine .of_record (Laws.RecordLength.cHist r iii ssssss p) rfl fun rest => congrArg (wholeRecord _ _) ?_
    simp only [Context.slotWidth, bitsOf_eq_natBits, List.append_assoc, decodeC_hist slot prev (of_decide_eq_true hr),
      field_of_fits hp, CRecord.toInstr]
  | cPrev p =>
    have hp : fits p prev = true := h
    refine .of_record (Laws.RecordLength.cPrev p) rfl fun rest => congrArg (wholeRecord _ _) ?_
    simp only [Context.prevWidth, bitsOf_eq_natBits, List.append_assoc, decodeC_prev, field_of_fits hp,
      CRecord.toInstr]
  | cPrevn iii p =>
    have hp : fits p (prevnWidth iii) = true := h
    refine .of_record (Laws.RecordLength.cPrevn iii p) rfl fun rest => congrArg (wholeRecord _ _) ?_
    simp only [bitsOf_eq_natBits, List.append_assoc, decodeC_prevn, field_of_fits hp, CRecord.toInstr]
  | _ => cases h

/-- Settles O60: in each context only its own rows are well formed, and each of these is read back. -/
theorem decodeReadsBackEveryEncoding : Obligations.DecodeReadsBackEveryEncoding := by
  intro c i h
  cases c with
  | port => exact readsBack_port h
  | dispatch e d => exact readsBack_dispatch h
  | xFirst => exact readsBack_xFirst h
  | xSteady cb => exact readsBack_xSteady h
  | eraPrefix => exact readsBack_eraPrefix h
  | cFirst => exact readsBack_cFirst h
  | cSteady slot prev => exact readsBack_cSteady h

end Sys2Proof.Machine

/-! PROOFS. The bit streams of the host's own commands (`41_bitstream.md`): what a write appends and a read gives back,
and that the two are inverse. -/

namespace Sys2Proof.Machine

/-! ## Command sequences -/

theorem issue_cons {i : Instr} {is : List Instr} {s s1 t : State} {rs : List (Option Response)}
    (hexec : exec i s = .next s1) (h : issue is s1 = some (rs, t)) : issue (i :: is) s = some (s1.resp :: rs, t) := by
  simp only [issue, hexec, h]

/-- A sequence that ran is its first command and the rest, run on what the first left. -/
theorem issue_cons_eq_some {i : Instr} {is : List Instr} {s t : State} {rs : List (Option Response)}
    (h : issue (i :: is) s = some (rs, t)) :
    ∃ s1 rs1, exec i s = .next s1 ∧ issue is s1 = some (rs1, t) ∧ rs = s1.resp :: rs1 := by
  unfold issue at h
  split at h
  · next s1 hexec =>
    split at h
    · next rs1 t1 hrest => cases h; exact ⟨s1, rs1, hexec, hrest, rfl⟩
    · cases h
  · cases h
  · cases h

/-! ## The commands of the sink -/

/-- The state after a command that left the sink `k` and answered `Ok`. -/
def State.wrote (s : State) (k : BitSink) : State := { s with e := { s.e with bs := k }, resp := some .ok }

@[simp] theorem State.wrote_impl (s : State) (k : BitSink) : (s.wrote k).impl = s.impl := rfl
@[simp] theorem State.wrote_bs (s : State) (k : BitSink) : (s.wrote k).e.bs = k := rfl
@[simp] theorem State.wrote_resp (s : State) (k : BitSink) : (s.wrote k).resp = some .ok := rfl
@[simp] theorem State.wrote_wrote (s : State) (k k' : BitSink) : (s.wrote k).wrote k' = s.wrote k' := rfl

/-- Everything a `WBIT` can do, as a command (`41_bitstream.md` R100). -/
theorem exec_wbit_cases (b : Bool) (s : State) :
    (s.Room 1 ∧ exec (.wbit b) s = .next (s.wrote (s.e.bs.push b))) ∨
      (s.e.bs.sealed = true ∧ exec (.wbit b) s = .next s.encCv) ∨
      (s.NoRoom 1 ∧ exec (.wbit b) s = .next s.encOvf) := by
  rcases putBit_cases s.impl b s.e with ⟨hroom, h⟩ | ⟨hsealed, h⟩ | ⟨hfull, h⟩
  · exact .inl ⟨hroom, congrArg Host.Outcome.next (runEnc_ok (then_ok h))⟩
  · exact .inr (.inl ⟨hsealed, congrArg Host.Outcome.next (runEnc_error (then_ok_error h))⟩)
  · exact .inr (.inr ⟨hfull, congrArg Host.Outcome.next (runEnc_error (then_ok_error h))⟩)

/-- Everything a `WBITS` can do, as a command (`41_bitstream.md` R101). -/
theorem exec_wbits_cases (v : Word) (n : BitVec 7) (s : State) :
    (n.toNat ≤ 64 ∧ s.Room n.toNat ∧ exec (.wbits v n) s = .next (s.wrote (s.e.bs.pushBits v n.toNat))) ∨
      ((64 < n.toNat ∨ s.e.bs.sealed = true) ∧ exec (.wbits v n) s = .next s.encCv) ∨
      (n.toNat ≤ 64 ∧ s.NoRoom n.toNat ∧ exec (.wbits v n) s = .next s.encOvf) := by
  rcases putBits_cases s.impl v n.toNat s.e with ⟨hn, hroom, h⟩ | ⟨hbad, h⟩ | ⟨⟨hn, hfull⟩, h⟩
  · exact .inl ⟨hn, hroom, congrArg Host.Outcome.next (runEnc_ok (then_ok h))⟩
  · exact .inr (.inl ⟨hbad, congrArg Host.Outcome.next (runEnc_error (then_ok_error h))⟩)
  · exact .inr (.inr ⟨hn, hfull, congrArg Host.Outcome.next (runEnc_error (then_ok_error h))⟩)

theorem exec_wbit_of_room {s : State} (b : Bool) (h : s.Room 1) :
    exec (.wbit b) s = .next (s.wrote (s.e.bs.push b)) :=
  congrArg Host.Outcome.next (runEnc_ok (then_ok (putBit_ok h)))

theorem exec_wbits_of_room {s : State} (v : Word) {n : BitVec 7} (hn : n.toNat ≤ 64) (h : s.Room n.toNat) :
    exec (.wbits v n) s = .next (s.wrote (s.e.bs.pushBits v n.toNat)) :=
  congrArg Host.Outcome.next (runEnc_ok (then_ok (putBits_ok hn h)))

theorem State.NoRoom.not_room {s : State} {n : Nat} (h : s.NoRoom n) : ¬ s.Room n := by
  obtain ⟨-, cap, hcap, hlt⟩ := h
  exact fun hroom => absurd (hroom.2 cap hcap) (Nat.not_le.2 hlt)

theorem exec_wbit_of_sealed {s : State} (b : Bool) (h : s.e.bs.sealed = true) :
    exec (.wbit b) s = .next s.encCv := by
  rcases exec_wbit_cases b s with ⟨⟨hopen, -⟩, -⟩ | ⟨-, hexec⟩ | ⟨⟨hopen, -⟩, -⟩
  · simp [hopen] at h
  · exact hexec
  · simp [hopen] at h

theorem exec_wbit_of_noRoom {s : State} (b : Bool) (h : s.NoRoom 1) : exec (.wbit b) s = .next s.encOvf := by
  rcases exec_wbit_cases b s with ⟨hroom, -⟩ | ⟨hsealed, -⟩ | ⟨-, hexec⟩
  · exact absurd hroom h.not_room
  · simp [h.1] at hsealed
  · exact hexec

/-- Both refusals that `WBITS` tests before the capacity. -/
theorem exec_wbits_of_refused {s : State} (v : Word) {n : BitVec 7} (h : 64 < n.toNat ∨ s.e.bs.sealed = true) :
    exec (.wbits v n) s = .next s.encCv := by
  have hnot (hn : n.toNat ≤ 64) (hopen : s.e.bs.sealed = false) : False := by
    rcases h with hwide | hsealed
    · omega
    · simp [hopen] at hsealed
  rcases exec_wbits_cases v n s with ⟨hn, ⟨hopen, -⟩, -⟩ | ⟨-, hexec⟩ | ⟨hn, ⟨hopen, -⟩, -⟩
  · exact (hnot hn hopen).elim
  · exact hexec
  · exact (hnot hn hopen).elim

theorem exec_wbits_of_noRoom {s : State} (v : Word) {n : BitVec 7} (hn : n.toNat ≤ 64) (h : s.NoRoom n.toNat) :
    exec (.wbits v n) s = .next s.encOvf := by
  rcases exec_wbits_cases v n s with ⟨-, hroom, -⟩ | ⟨hbad, -⟩ | ⟨-, -, hexec⟩
  · exact absurd hroom h.not_room
  · rcases hbad with hwide | hsealed
    · omega
    · simp [h.1] at hsealed
  · exact hexec

theorem exec_flush (s : State) : exec .flush s = .next (s.wrote s.e.bs.flushed) := rfl

theorem exec_bytes_of_sealed {s : State} (h : s.e.bs.sealed = true) :
    exec .bytes s = .next (s.respond (.bytes s.e.bs.buf)) := if_pos h

theorem exec_bytes_of_open {s : State} (h : s.e.bs.sealed = false) : exec .bytes s = .next s.encCv :=
  if_neg (by simp [h])

/-! ## The sink after a flush -/

/-- `FLUSH` leaves every sink sealed. -/
theorem BitSink.flushed_sealed_eq_true (k : BitSink) : k.flushed.sealed = true := by
  unfold BitSink.flushed
  split_ifs with hsealed hbyte
  · exact hsealed
  · rfl
  · rfl

/-- A sink with no partial byte holds the bits of its bytes. -/
theorem BitSink.bits_of_woff_eq_zero {k : BitSink} (h : k.woff = 0) : k.bits = bytesBits k.buf := by
  simp [BitSink.bits, h]

/-- The bytes `BYTES` gives after `FLUSH` spell the sink and its padding. -/
theorem BitSink.bytesBits_flushed {k : BitSink} (h : k.AccInv) (hopen : k.sealed = false) :
    bytesBits k.flushed.buf = k.bits ++ padding k.bitLen := by
  obtain ⟨hbits, -, hwoff, -⟩ := BitSink.flushed_sealed h hopen
  rw [← BitSink.bits_of_woff_eq_zero hwoff, hbits]

theorem padding_length_lt (n : Nat) : (padding n).length < 8 := by
  rw [padding, List.length_replicate]
  exact Nat.mod_lt _ (by decide)

theorem eq_false_of_mem_padding {n : Nat} {b : Bool} (h : b ∈ padding n) : b = false := List.eq_of_mem_replicate h

/-- The bytes after `FLUSH`, counted: the length rounded up to whole bytes. -/
theorem BitSink.flushed_buf_length {k : BitSink} (h : k.AccInv) (hopen : k.sealed = false) :
    k.flushed.buf.length = (k.bitLen + 7) / 8 := by
  have hlength := congrArg List.length (BitSink.bytesBits_flushed h hopen)
  rw [bytesBits_length, List.length_append, BitSink.bits_length, padding_bitLen] at hlength
  omega

/-! ## The write commands -/

/-- Settles O9: the three cases of a `WBIT`, and the bit the accepted one pushes. -/
theorem wbitAppendsOneBit : Obligations.WbitAppendsOneBit := by
  intro s b hacc
  refine ⟨exec_wbit_of_sealed b, fun hopen hfull => exec_wbit_of_noRoom b ⟨hopen, hfull⟩, fun hroom => ?_⟩
  exact ⟨_, BitSink.push_extends hacc b, exec_wbit_of_room b hroom⟩

/-- Settles O10: the cases of a `WBITS`, and the bits the accepted one pushes. -/
theorem wbitsAppendsTheLowBits : Obligations.WbitsAppendsTheLowBits := by
  intro s v n hacc
  refine ⟨fun hwide => exec_wbits_of_refused v (.inl hwide), fun hsealed => exec_wbits_of_refused v (.inr hsealed),
    fun hn hopen hfull => exec_wbits_of_noRoom v hn ⟨hopen, hfull⟩, fun hn hroom => ?_⟩
  exact ⟨_, BitSink.pushBits_extends hacc v n.toNat, exec_wbits_of_room v hn hroom⟩

/-- Settles O11: what `FLUSH` leaves is sealed in every case, so both writes after it are refused. -/
theorem flushPadsAndSeals : Obligations.FlushPadsAndSeals := by
  intro s hacc
  refine ⟨fun hsealed => ?_, fun hopen => ⟨_, BitSink.flushed_sealed hacc hopen, exec_flush s⟩,
    _, exec_flush s, fun b v n => ?_⟩
  · rw [exec_flush, BitSink.flushed_of_sealed hsealed]
    rfl
  · have hseal : (s.wrote s.e.bs.flushed).e.bs.sealed = true := s.e.bs.flushed_sealed_eq_true
    exact ⟨exec_wbit_of_sealed b hseal, exec_wbits_of_refused v (.inr hseal)⟩

/-- Settles O12: the two cases of the seal. -/
theorem bytesNeedsTheSeal : Obligations.BytesNeedsTheSeal :=
  fun _ => ⟨exec_bytes_of_sealed, exec_bytes_of_open⟩

/-! ## Sequences of writes -/

/-- The room for `l` and `n` bits is room for `n` bits once `l` is written. -/
theorem State.Room.after {s : State} {k : BitSink} {l : List Bool} {n : Nat} (h : s.Room (l.length + n))
    (hk : k.Extends s.e.bs l) : (s.wrote k).Room n := BitSink.Takes.after h hk

theorem State.Room.mono {s : State} {n n' : Nat} (h : s.Room n) (hn : n' ≤ n) : s.Room n' := BitSink.Takes.mono h hn

/-- The `WBIT`s of the low bits of `v` leave the sink that one `WBITS` leaves. -/
theorem issue_wbits_of_bits {s : State} (v : Word) (n : Nat) (hacc : s.e.bs.AccInv) (hroom : s.Room n) :
    ∃ rs t, issue ((natBits v.toNat n).map .wbit) s = some (rs, t) ∧
      { t with resp := some .ok } = s.wrote (s.e.bs.pushBits v n) := by
  induction n generalizing s with
  | zero => exact ⟨[], s, rfl, rfl⟩
  | succ n ih =>
    have hpush := BitSink.push_extends hacc (v.getLsbD n)
    have hfirst := exec_wbit_of_room (v.getLsbD n) (State.Room.mono hroom (Nat.le_add_left 1 n))
    have hrest : (s.wrote (s.e.bs.push (v.getLsbD n))).Room n :=
      State.Room.after (by rw [Nat.add_comm] at hroom; exact hroom) hpush
    obtain ⟨rs, t, hissue, ht⟩ := ih hpush.2.2 hrest
    rw [natBits_succ, List.map_cons]
    exact ⟨_, t, issue_cons hfirst hissue, ht⟩

/-- A write may be cut anywhere (`41_bitstream.md` R108): the commands of the two parts leave the same state. -/
theorem issue_wbits_split {s : State} (v : Word) {a b : BitVec 7} (hacc : s.e.bs.AccInv)
    (hab : a.toNat + b.toNat ≤ 64) (hroom : s.Room (a.toNat + b.toNat)) :
    issue [.wbits (shr v b.toNat) a, .wbits v b] s =
      some ([some .ok, some .ok], s.wrote (s.e.bs.pushBits v (a.toNat + b.toNat))) := by
  have hhigh := BitSink.pushBits_extends hacc (shr v b.toNat) a.toNat
  have hlow : (s.wrote (s.e.bs.pushBits (shr v b.toNat) a.toNat)).Room b.toNat :=
    State.Room.after (by rwa [natBits_length]) hhigh
  rw [BitSink.pushBits_split]
  exact issue_cons (exec_wbits_of_room _ (by omega) (State.Room.mono hroom (Nat.le_add_right _ _)))
    (issue_cons (exec_wbits_of_room v (by omega) hlow) rfl)

theorem toNat_add_of_le_64 {a b : BitVec 7} (h : a.toNat + b.toNat ≤ 64) : (a + b).toNat = a.toNat + b.toNat := by
  rw [BitVec.toNat_add]
  exact Nat.mod_eq_of_lt (by omega)

/-- The bits that writes of the given values and widths append, in order. -/
def writtenBits (ws : List (Word × BitVec 7)) : List Bool :=
  ws.flatMap fun w => natBits (w.1.toNat % 2 ^ w.2.toNat) w.2.toNat

@[simp] theorem writtenBits_nil : writtenBits [] = [] := rfl

@[simp] theorem writtenBits_cons (v : Word) (n : BitVec 7) (ws : List (Word × BitVec 7)) :
    writtenBits ((v, n) :: ws) = natBits v.toNat n.toNat ++ writtenBits ws := by
  rw [writtenBits, List.flatMap_cons, natBits_congr (Nat.mod_mod _ _)]
  rfl

/-- A `WBITS` that answered `Ok` was accepted. -/
theorem accepted_of_exec_wbits {s t : State} {v : Word} {n : BitVec 7} (h : exec (.wbits v n) s = .next t)
    (hok : t.resp = some .ok) : n.toNat ≤ 64 ∧ t = s.wrote (s.e.bs.pushBits v n.toNat) := by
  rcases exec_wbits_cases v n s with ⟨hn, -, hexec⟩ | ⟨-, hexec⟩ | ⟨-, -, hexec⟩ <;> cases h.symm.trans hexec
  · exact ⟨hn, rfl⟩
  · cases hok
  · cases hok

/-- Accepted writes concatenate (`41_bitstream.md` R108), and each was at most 64 bits wide. -/
theorem accepted_writes_extend {ws : List (Word × BitVec 7)} {s t : State} {rs : List (Option Response)}
    (hacc : s.e.bs.AccInv) (h : issue (ws.map fun w => .wbits w.1 w.2) s = some (rs, t))
    (hok : ∀ r ∈ rs, r = some .ok) :
    t.impl = s.impl ∧ t.e.bs.Extends s.e.bs (writtenBits ws) ∧ ∀ w ∈ ws, w.2.toNat ≤ 64 := by
  induction ws generalizing s rs with
  | nil =>
    cases h
    exact ⟨rfl, .refl hacc, nofun⟩
  | cons w ws ih =>
    obtain ⟨s1, rs1, hexec, hissue, rfl⟩ := issue_cons_eq_some h
    obtain ⟨hn, rfl⟩ := accepted_of_exec_wbits hexec (hok _ List.mem_cons_self)
    have hfirst := BitSink.pushBits_extends hacc w.1 w.2.toNat
    obtain ⟨himpl, hrest, hwidths⟩ := ih hfirst.2.2 hissue fun r hr => hok r (List.mem_cons_of_mem _ hr)
    rw [writtenBits_cons]
    exact ⟨himpl, hfirst.trans hrest, List.forall_mem_cons.2 ⟨hn, hwidths⟩⟩

/-- Settles O13: the law of the `WBIT`s by induction on the width, the cut by that of the pushes, the padding by
its length, the concatenation by induction on the writes. -/
theorem lawsOfTheWriteSide : Obligations.LawsOfTheWriteSide := by
  refine ⟨?bits, ?cut, ?flush, ?concat⟩
  case bits =>
    intro s v n hacc hn hroom
    obtain ⟨rs, t, hissue, ht⟩ := issue_wbits_of_bits v n.toNat hacc hroom
    rw [← map_getLsbD_eq_natBits, List.map_map] at hissue
    exact ⟨rs, t, hissue, ht ▸ exec_wbits_of_room v hn hroom⟩
  case cut =>
    intro s v a b hacc hab hroom
    refine ⟨_, _, issue_wbits_split v hacc hab hroom, ?_⟩
    have hsum := toNat_add_of_le_64 hab
    rw [← hsum] at hab hroom ⊢
    exact exec_wbits_of_room v hab hroom
  case flush =>
    intro s hacc hopen
    have hlength := BitSink.flushed_buf_length hacc hopen
    refine ⟨_, exec_flush s, hlength, ?_⟩
    rw [State.wrote_bs, BitSink.bytesBits_flushed hacc hopen, hlength, padding]
    congr 2
    omega
  case concat =>
    intro ws s t rs hacc hissue hok
    obtain ⟨-, hextends, -⟩ := accepted_writes_extend hacc hissue hok
    exact hextends.1

/-! ## The sink only grows -/

/-- A sequence of the encode half appends to the sink, or is refused and leaves it. -/
theorem runEnc_appends {m : Config.Impl} {x : EncM Response} (hx : EncM.Good m x) {s : State} (hacc : s.e.bs.AccInv) :
    ∃ more, (runEnc x s).e.bs.bits = s.e.bs.bits ++ more := by
  rcases runEnc_good hx s with ⟨r, e, -, hkeeps, h⟩ | h | h <;> rw [h]
  · exact hkeeps.appends hacc
  · exact ⟨[], (List.append_nil _).symm⟩
  · exact ⟨[], (List.append_nil _).symm⟩

theorem cfgW_keeps_enc {n : BitVec 7} {s t : State} (h : exec (.cfgW n) s = .next t) : t.e = s.e := by
  replace h : execCfgW n s = .next t := h
  unfold execCfgW at h
  split_ifs at h <;> cases h <;> rfl

/-- Settles O14: the system commands and the decode half leave the sink, and every other command of the encode half
is one sequence, which appends or is refused. -/
theorem sinkIsAppendOnly : Obligations.SinkIsAppendOnly := by
  intro i s t hacc hexec hreset hopen hcompress
  have same (he : t.e = s.e) : ∃ more, t.e.bs.bits = s.e.bs.bits ++ more :=
    ⟨[], by rw [he, List.append_nil]⟩
  rcases system_or_half i with rfl | ⟨n, rfl⟩ | rfl | hi | hi
  · exact absurd rfl hreset
  · exact same (cfgW_keeps_enc hexec)
  · cases hexec
    exact same (State.respond_e s _)
  · rcases exec_encode i s.impl hi with ⟨k, rfl⟩ | ⟨k, vs, rfl⟩ | ⟨x, hx, hrun⟩
    · exact absurd rfl (hopen k)
    · exact absurd rfl (hcompress k vs)
    · cases hexec.symm.trans (hrun s rfl)
      exact runEnc_appends hx hacc
  · obtain ⟨r, d, hacts⟩ := decode_acts hi s
    exact same (by rw [hacts.next_eq hexec])

/-! ## The commands of the source -/

/-- The state after a command that left the decode half `d` and answered `r`. -/
def State.answered (s : State) (d : DecHalf) (r : Response) : State := { s with d := d, resp := some r }

@[simp] theorem State.answered_d (s : State) (d : DecHalf) (r : Response) : (s.answered d r).d = d := rfl
@[simp] theorem State.answered_resp (s : State) (d : DecHalf) (r : Response) : (s.answered d r).resp = some r := rfl

theorem exec_load_of_fits {s : State} {data : List Byte} (h : ∀ cap ∈ s.impl.srcCap, data.length ≤ cap) :
    exec (.load data) s = .next (s.answered (s.d.loaded data) .ok) :=
  if_neg (by simp [sourceTooLong_eq_false.2 h])

theorem exec_load_of_tooLong {s : State} {data : List Byte} (h : ∃ cap ∈ s.impl.srcCap, cap < data.length) :
    exec (.load data) s = .next (s.respond (.err .overflow)) := by
  obtain ⟨cap, hcap, hlt⟩ := h
  have hlong : sourceTooLong s.impl data = true := by
    by_contra hnot
    exact absurd (sourceTooLong_eq_false.1 (by simpa using hnot) cap hcap) (Nat.not_le.2 hlt)
  rw [← State.refuseDec_overflow]
  exact if_pos hlong

/-- Settles O15: the two sides of the capacity. -/
theorem loadReplacesTheSource : Obligations.LoadReplacesTheSource :=
  fun _ _ => ⟨exec_load_of_tooLong, exec_load_of_fits⟩

theorem exec_rbit_of_short {s : State} (h : s.d.bs.avail < 1) :
    exec .rbit s = .next (s.respond (.err .endOfStream)) := if_pos h

theorem exec_rbit_of_avail {s : State} (h : 1 ≤ s.d.bs.avail) :
    exec .rbit s = .next (s.answered (s.d.advance 1) (.bit (field 1 1 s.d.bs.unread == 1#1))) :=
  if_neg (Nat.not_lt.2 h)

theorem exec_rbits_of_wide {s : State} {n : BitVec 7} (h : 64 < n.toNat) : exec (.rbits n) s = .next s.decCv := by
  rw [← State.refuseDec_contractViolation]
  exact if_pos h

theorem exec_rbits_of_short {s : State} {n : BitVec 7} (hn : n.toNat ≤ 64) (h : s.d.bs.avail < n.toNat) :
    exec (.rbits n) s = .next (s.respond (.err .endOfStream)) :=
  (if_neg (Nat.not_lt.2 hn)).trans (if_pos h)

theorem exec_rbits_of_avail {s : State} {n : BitVec 7} (hn : n.toNat ≤ 64) (h : n.toNat ≤ s.d.bs.avail) :
    exec (.rbits n) s =
      .next (s.answered (s.d.advance n.toNat) (.val (field 64 n.toNat s.d.bs.unread))) :=
  (if_neg (Nat.not_lt.2 hn)).trans (if_neg (Nat.not_lt.2 h))

/-! ## The bits a read answers -/

/-- The one-bit field at the head of a bit string is its first bit. -/
theorem field_one_eq_head {l : List Bool} {b : Bool} (h : l[0]? = some b) : (field 1 1 l == 1#1) = b := by
  cases l with
  | nil => cases h
  | cons c l =>
    obtain rfl : c = b := Option.some.inj h
    cases c <;> rfl

/-- A numeral is the sum of its bits by their weights, first bit most significant; a bit past the end counts 0
(`41_bitstream.md` R106). -/
theorem numeral_eq_sum (n : Nat) (l : List Bool) :
    numeral n l = ∑ j ∈ Finset.range n, (l[j]?.getD false).toNat * 2 ^ (n - 1 - j) := by
  induction n generalizing l with
  | zero => simp [numeral]
  | succ n ih =>
    cases l with
    | nil => simp [numeral]
    | cons b l =>
      have hweight (j : Nat) : n - 1 - j = n - (j + 1) := by omega
      have hhead : (if b then 2 ^ n else 0) = b.toNat * 2 ^ n := by cases b <;> simp
      rw [numeral, ih, Finset.sum_range_succ', Nat.add_comm, hhead]
      simp only [List.getElem?_cons_succ, List.getElem?_cons_zero, Option.getD_some, Nat.add_sub_cancel, Nat.sub_zero,
        hweight]

/-- The number the next `n` bits of a source spell, by the bits of its bytes. -/
theorem BitSource.numeral_unread {k : BitSource} {n : Nat} (h : k.pos + n ≤ 8 * k.buf.length) :
    numeral n k.unread = ∑ j ∈ Finset.range n, (bitAt k.buf (k.pos + j)).toNat * 2 ^ (n - 1 - j) := by
  rw [numeral_eq_sum]
  refine Finset.sum_congr rfl fun j hj => ?_
  have hj : j < n := Finset.mem_range.1 hj
  rw [BitSource.unread_getElem? k j (by omega), Option.getD_some]

/-- Settles O16: a bit is left exactly below the end of the bytes, and it is the one R51 addresses. -/
theorem rbitReadsTheNextBit : Obligations.RbitReadsTheNextBit := by
  intro s
  refine ⟨fun hend => exec_rbit_of_short (by unfold BitSource.avail; omega), fun hpos => ?_⟩
  rw [exec_rbit_of_avail (by unfold BitSource.avail; omega), field_one_eq_head (BitSource.unread_getElem? _ 0 hpos)]
  rfl

/-- Settles O17: the three cases of an `RBITS`, and the numeral of the accepted one as a sum of bits. -/
theorem rbitsReadsANumeral : Obligations.RbitsReadsANumeral := by
  intro s n
  refine ⟨exec_rbits_of_wide, fun hn hpos => ⟨fun hshort => ?_, fun hleft => ?_⟩⟩
  · exact exec_rbits_of_short hn (by unfold BitSource.avail; omega)
  · refine ⟨_, ?_, exec_rbits_of_avail hn (by unfold BitSource.avail; omega)⟩
    rw [field_toNat hn, BitSource.numeral_unread hleft]

/-! ## What the sink took the source gives back -/

/-- A field at the head of the unread bits is read back as its low bits. -/
theorem exec_rbits_of_field {s : State} {v : Word} {n : BitVec 7} {rest : List Bool} (hn : n.toNat ≤ 64)
    (h : s.d.bs.unread = natBits v.toNat n.toNat ++ rest) :
    exec (.rbits n) s = .next (s.answered (s.d.advance n.toNat) (.val (low v n.toNat))) := by
  have havail := BitSource.avail_of_unread h
  rw [List.length_append, natBits_length] at havail
  rw [exec_rbits_of_avail hn (by omega), h, field, numeral_natBits_append, low]

/-- Reads of the widths of the writes answer the low bits of what was written, and leave what stands after it. -/
theorem issue_rbits_of_writtenBits {ws : List (Word × BitVec 7)} {s : State} {rest : List Bool}
    (hwidths : ∀ w ∈ ws, w.2.toNat ≤ 64) (h : s.d.bs.unread = writtenBits ws ++ rest) :
    ∃ r, issue (ws.map fun w => .rbits w.2) s = some (ws.map fun w => some (.val (low w.1 w.2.toNat)), r) ∧
      r.d.bs.unread = rest := by
  induction ws generalizing s with
  | nil => exact ⟨s, rfl, h⟩
  | cons w ws ih =>
    obtain ⟨hn, hwidths⟩ := List.forall_mem_cons.1 hwidths
    rw [writtenBits_cons, List.append_assoc] at h
    have hleft : (s.answered (s.d.advance w.2.toNat) (.val (low w.1 w.2.toNat))).d.bs.unread =
        writtenBits ws ++ rest := by
      rw [State.answered_d, DecHalf.advance_unread, h, List.drop_left' (natBits_length _ _)]
    obtain ⟨r, hissue, hrest⟩ := ih hwidths hleft
    exact ⟨r, issue_cons (exec_rbits_of_field hn h) hissue, hrest⟩

/-- A `LOAD` of bytes that begin with the bits of the writes, and the reads of their widths. -/
theorem issue_load_rbits {ws : List (Word × BitVec 7)} {s : State} {data : List Byte} {rest : List Bool}
    (hcap : ∀ cap ∈ s.impl.srcCap, data.length ≤ cap) (hwidths : ∀ w ∈ ws, w.2.toNat ≤ 64)
    (h : bytesBits data = writtenBits ws ++ rest) :
    ∃ r, issue (.load data :: ws.map fun w => .rbits w.2) s =
        some (some .ok :: ws.map fun w => some (.val (low w.1 w.2.toNat)), r) ∧
      r.d.bs.unread = rest := by
  have hload : (s.answered (s.d.loaded data) .ok).d.bs.unread = writtenBits ws ++ rest := h
  obtain ⟨r, hissue, hrest⟩ := issue_rbits_of_writtenBits hwidths hload
  exact ⟨r, issue_cons (exec_load_of_fits hcap) hissue, hrest⟩

/-- `FLUSH` and `BYTES` answer the bytes of the flushed sink. -/
theorem issue_flush_bytes (t : State) :
    issue [.flush, .bytes] t = some ([some .ok, some (.bytes t.e.bs.flushed.buf)],
      (t.wrote t.e.bs.flushed).respond (.bytes t.e.bs.flushed.buf)) :=
  issue_cons (exec_flush t) (issue_cons (exec_bytes_of_sealed t.e.bs.flushed_sealed_eq_true) rfl)

/-- Settles O18: the bytes spell the writes and the padding, so the reads find the writes at the cursor and leave the
padding. -/
theorem sourceReturnsWhatTheSinkTook : Obligations.SourceReturnsWhatTheSinkTook := by
  intro ws s t rs hacc hempty hopen hissue hok
  obtain ⟨himpl, ⟨hbits, hseal, hacc'⟩, hwidths⟩ := accepted_writes_extend hacc hissue hok
  rw [hempty, List.nil_append] at hbits
  refine ⟨_, _, issue_flush_bytes t, fun hcap => ?_⟩
  have hbytes : bytesBits t.e.bs.flushed.buf = writtenBits ws ++ padding t.e.bs.bitLen := by
    rw [BitSink.bytesBits_flushed hacc' (hseal.trans hopen), hbits]
  rw [← himpl] at hcap
  obtain ⟨r, hreads, hrest⟩ :=
    issue_load_rbits (s := (t.wrote t.e.bs.flushed).respond (.bytes t.e.bs.flushed.buf)) hcap hwidths hbytes
  exact ⟨r, hreads, hrest ▸ padding_length_lt _, hrest ▸ fun b hb => eq_false_of_mem_padding hb⟩

end Sys2Proof.Machine

/-! PROOFS. The XOR64 encoder (`42_xor64.md` R120 to R127): `ENC.VAL` and `ENC.CLOSE` in an X64 block are `X64.PUT`
and what follows it, accepted with room and an Overflow without. -/

namespace Sys2Proof.Machine

/-! ## A value -/

/-- In an X64 block whose sink is open, `ENC.VAL` is its dispatch row (`45_block_and_system.md` R211). -/
theorem exec_x64Value {s : State} {v : Word} {i : Instr} (hi : i ∈ [.encVal v, .x64Enc v]) (hk : s.e.codec = .x64)
    (hopen : s.e.bs.sealed = false) : exec i s = .next (runEnc (do x64Encode s.impl v; pure .ok) s) := by
  simp only [List.mem_cons, List.not_mem_nil, or_false] at hi
  rcases hi with rfl | rfl
  · show execEncVal v s = _
    rw [execEncVal, if_neg (by simp [hk]), if_neg (by simp [hopen]), hk]
    rfl
  · rfl

/-- `X64.ENC` is `X64.PUT` once a sentinel was noted (`70_reset_and_hazards.md` R266). -/
theorem x64Encode_eq (m : Config.Impl) (v : Word) (e : EncHalf) :
    x64Encode m v e = x64Put m v { e with status := e.status.saw v } := bind_ok (markSent_ok v e) _

/-- A value whose record was accepted: the sink and registers of `X64.PUT`, and the note of a sentinel. -/
theorem exec_x64Value_ok {s : State} {v : Word} {i : Instr} {k : BitSink} {x : XorRegs}
    (hi : i ∈ [.encVal v, .x64Enc v]) (hk : s.e.codec = .x64) (hopen : s.e.bs.sealed = false)
    (hput : x64Put s.impl v s.e = .ok () { s.e with bs := k, x := x }) :
    exec i s = .next { s with
      e := { s.e with bs := k, x := x, status := s.e.status.saw v }
      resp := some .ok } := by
  have hencode := (x64Encode_eq s.impl v s.e).trans ((x64Put_blind s.impl v).ok hput s.e.codec (s.e.status.saw v))
  rw [exec_x64Value hi hk hopen, runEnc_ok (then_ok hencode)]
  rfl

/-- A value whose record does not fit is refused whole. -/
theorem exec_x64Value_full {s : State} {v : Word} {i : Instr} (hi : i ∈ [.encVal v, .x64Enc v])
    (hk : s.e.codec = .x64) (hacc : s.e.bs.AccInv) (hfull : s.NoRoom (s.e.x.putLength v)) :
    exec i s = .next s.encOvf := by
  obtain ⟨e', hput⟩ := x64Put_full (e := { s.e with status := s.e.status.saw v }) v hacc hfull
  rw [exec_x64Value hi hk hfull.1, runEnc_error (then_ok_error ((x64Encode_eq s.impl v s.e).trans hput))]
  rfl

/-- Settles O23: the case `X.FIRST` of `X64.PUT`. -/
theorem xorFirstValueIsEmitted : Obligations.XorFirstValueIsEmitted := by
  intro s v i hi hk hfirst hacc
  refine ⟨fun hroom => ?_, fun hfull => ?_⟩
  · obtain ⟨k, hput, hextends⟩ := putFirst_ok v s.e.x hacc hroom
    exact ⟨k, hextends, exec_x64Value_ok hi hk hroom.1 ((x64Put_first hfirst).trans hput)⟩
  · exact exec_x64Value_full hi hk hacc (XorRegs.putLength_first hfirst ▸ hfull)

theorem x64Put_same_ok {m : Config.Impl} {e : EncHalf} (hfirst : e.x.first = false) (hacc : e.bs.AccInv)
    (hroom : e.bs.Takes m 2) :
    ∃ k, x64Put m e.x.sv e = .ok () { e with bs := k } ∧ k.Extends e.bs [false, true] := by
  obtain ⟨k, hput, hextends⟩ := putSame_ok hacc hroom
  exact ⟨k, by rw [x64Put_same hfirst BitVec.xor_self, bind_ok hput]; rfl, hextends⟩

/-- A XOR with the leading count of the announced window lies below that count. -/
theorem lt_two_pow_of_reusesWindow {x : XorRegs} {xor : Word} (h : reusesWindow x xor = true) :
    xor.toNat < 2 ^ (64 - x.slz.toNat) := by
  obtain ⟨-, hlz, -⟩ := (reusesWindow_iff x xor).1 h
  exact hlz ▸ lt_two_pow_lzRound xor

theorem x64Put_reuse_ok {m : Config.Impl} {e : EncHalf} {v : Word} (hfirst : e.x.first = false)
    (hne : e.x.sv ^^^ v ≠ 0) (hreuse : reusesWindow e.x (e.x.sv ^^^ v) = true) (hwindow : e.x.WindowInv)
    (hacc : e.bs.AccInv) (hroom : e.bs.Takes m (66 - e.x.slz.toNat - e.x.stz.toNat)) :
    ∃ k, x64Put m v e = .ok () { e with bs := k, x := { e.x with sv := v } } ∧
      k.Extends e.bs ([false, false] ++ bitSlice (e.x.sv ^^^ v) (63 - e.x.slz.toNat) e.x.stz.toNat) := by
  obtain ⟨hwinv, -, -⟩ := (reusesWindow_iff _ _).1 hreuse
  obtain ⟨k, hput, hextends⟩ :=
    putReuse_ok hacc (hwindow hwinv).2 (lt_two_pow_of_reusesWindow hreuse) hroom
  exact ⟨k, by rw [x64Put_reuse hfirst hne hreuse, bind_ok hput]; rfl, hextends⟩

/-- Settles O24: the cases `X.SAME` and `X.REUSE` of `X64.PUT`; the window's range makes the two ways of counting the
bits of `X.REUSE` agree. -/
theorem xorRepeatsAndReusesAreEmitted : Obligations.XorRepeatsAndReusesAreEmitted := by
  intro s v i hi hk hfirst hacc
  refine ⟨?same, ?reuse⟩
  case same =>
    rintro rfl
    refine ⟨fun hroom => ?_, fun hfull => ?_⟩
    · obtain ⟨k, hput, hextends⟩ := x64Put_same_ok hfirst hacc hroom
      exact ⟨k, hextends, exec_x64Value_ok hi hk hroom.1 hput⟩
    · exact exec_x64Value_full hi hk hacc (XorRegs.putLength_same hfirst BitVec.xor_self ▸ hfull)
  case reuse =>
    intro hne hwindow hwinv hlz htz
    have hreuse := (reusesWindow_iff s.e.x (s.e.x.sv ^^^ v)).2 ⟨hwinv, hlz, htz⟩
    refine ⟨fun hroom => ?_, fun hfull => ?_⟩
    · obtain ⟨k, hput, hextends⟩ := x64Put_reuse_ok hfirst hne hreuse hwindow hacc hroom
      exact ⟨k, hextends, exec_x64Value_ok hi hk hroom.1 hput⟩
    · have hrange := (hwindow hwinv).2
      have hlength : s.e.x.putLength v = 66 - s.e.x.slz.toNat - s.e.x.stz.toNat := by
        rw [XorRegs.putLength_reuse hfirst hne hreuse]
        omega
      exact exec_x64Value_full hi hk hacc (hlength ▸ hfull)

/-- A canonical leading count fits its register. -/
theorem ofNat_toNat_of_mem_lzSet {z : Nat} (h : z ∈ Config.lzSet) : (BitVec.ofNat 5 z).toNat = z := by
  have := le_24_of_mem_lzSet h
  rw [BitVec.toNat_ofNat, Nat.mod_eq_of_lt (by omega)]

/-- A trailing count fits its register. -/
theorem ofNat_ctz_toNat (a : Word) : (BitVec.ofNat 7 (ctz a)).toNat = ctz a := by
  have := ctz_le_64 a
  rw [BitVec.toNat_ofNat, Nat.mod_eq_of_lt (by omega)]

/-- Settles O25: the case of `X64.PUT` that announces a window, whose counts fit their registers. -/
theorem xorWindowChangeIsEmitted : Obligations.XorWindowChangeIsEmitted := by
  rintro s v i _ _ _ hi hk ⟨hfirst, hne⟩ hacc rfl rfl rfl hnot
  have hreuse : ¬ reusesWindow s.e.x (s.e.x.sv ^^^ v) = true := fun h => hnot ((reusesWindow_iff _ _).1 h)
  refine ⟨fun hroom => ?_, fun hfull => ?_⟩
  · obtain ⟨k, hput, hextends⟩ := putWindow_ok (v := v) (x := s.e.x) hacc (lzRound_clz_add_ctz hne) hroom
    rw [hfirst] at hput
    exact ⟨k, _, _, ofNat_toNat_of_mem_lzSet (lzRound_mem _), ofNat_ctz_toNat _, hextends,
      exec_x64Value_ok hi hk hroom.1 ((x64Put_window hfirst hne hreuse).trans hput)⟩
  · exact exec_x64Value_full hi hk hacc (XorRegs.putLength_window hfirst hne hreuse ▸ hfull)

/-! ## The close -/

/-- In an X64 block whose sink is open, `ENC.CLOSE` is its dispatch row (`45_block_and_system.md` R211). -/
theorem exec_x64Close {s : State} {i : Instr} (hi : i ∈ [.encClose, .x64Close]) (hk : s.e.codec = .x64)
    (hopen : s.e.bs.sealed = false) : exec i s = .next (runEnc (do x64Finish s.impl; pure .ok) s) := by
  simp only [List.mem_cons, List.not_mem_nil, or_false] at hi
  rcases hi with rfl | rfl
  · show execEncClose s = _
    rw [execEncClose, if_neg (by simp [hk]), if_neg (by simp [hopen]), hk]
    rfl
  · rfl

/-- After the sentinel's record: one `0` bit and the flush (`42_xor64.md` R127). -/
theorem x64Finish_of_put {m : Config.Impl} {e e' : EncHalf} (hput : x64Put m Config.sentinel e = .ok () e')
    (hroom : e'.bs.Takes m 1) : x64Finish m e = .ok () { e' with bs := (e'.bs.push false).flushed } := by
  rw [x64Finish, bind_ok hput, bind_ok (putBit_ok hroom)]
  rfl

theorem x64Finish_full {m : Config.Impl} {e : EncHalf} (hacc : e.bs.AccInv)
    (hfull : e.bs.Full m (e.x.putLength Config.sentinel + 1)) : ∃ e', x64Finish m e = .error .overflow e' := by
  rcases BitSink.takes_or_full m (e.x.putLength Config.sentinel) hfull.1 with hroom | hfull'
  · obtain ⟨k, x, l, hput, hextends, hlength⟩ := x64Put_ok Config.sentinel hacc hroom
    have hbit : k.Full m 1 := BitSink.Full.after (hlength ▸ hfull) hextends
    exact ⟨_, by rw [x64Finish, bind_ok hput, bind_error (putBit_full false hbit)]⟩
  · obtain ⟨e', hput⟩ := x64Put_full Config.sentinel hacc hfull'
    exact ⟨e', bind_error hput _⟩

/-- The flush after one more bit. -/
theorem BitSink.push_flushed_sealed {k : BitSink} (hacc : k.AccInv) (hopen : k.sealed = false) (b : Bool) :
    (k.push b).flushed.Sealed (k.bits ++ [b] ++ padding (k.bitLen + 1)) := by
  have hpush := BitSink.push_extends hacc b
  have h := BitSink.flushed_sealed hpush.2.2 (hpush.2.1.trans hopen)
  rwa [hpush.1, hpush.bitLen] at h

/-- Settles O26: the close runs `X64.PUT` as `ENC.VAL` does but for the note of a sentinel, and the room for the
record and one bit is room for the bit after the record. -/
theorem xorCloseEndsTheBlock : Obligations.XorCloseEndsTheBlock := by
  intro s i hi hk hacc
  refine ⟨fun hroom => ?_, fun hfull => ?_⟩
  · obtain ⟨k, x, l, hput, hextends, hlength⟩ := x64Put_ok Config.sentinel hacc (hroom.mono (Nat.le_add_right _ 1))
    have hbit : k.Takes s.impl 1 := BitSink.Takes.after (hlength ▸ hroom) hextends
    refine ⟨_, (k.push false).flushed, exec_x64Value_ok List.mem_cons_self hk hroom.1 hput, rfl,
      BitSink.push_flushed_sealed hextends.2.2 hbit.1 false, ?_⟩
    rw [exec_x64Close hi hk hroom.1, runEnc_ok (then_ok (x64Finish_of_put hput hbit))]
  · obtain ⟨e', hfinish⟩ := x64Finish_full hacc hfull
    rw [exec_x64Close hi hk hfull.1, runEnc_error (then_ok_error hfinish)]
    rfl

end Sys2Proof.Machine

/-! PROOFS. The XOR64 decoder (`42_xor64.md` R130 to R137): which record stands at the cursor and what its rule
answers, or at which field it raises. -/

namespace Sys2Proof.Machine

/-! ## Records that are whole -/

/-- The record at the cursor is `rec`, and its rule answers `v` and leaves the half `d'`. -/
def DecHalf.ReadsX (d : DecHalf) (rec : XRecord) (v : Word) (d' : DecHalf) : Prop :=
  d.xRecord = rec ∧ getX rec d = .ok v d'

theorem DecHalf.ReadsX.x64Get {d d' : DecHalf} {rec : XRecord} {v : Word} (h : d.ReadsX rec v d') :
    x64Get d = .ok v d' := by
  obtain ⟨hrec, hget⟩ := h
  rwa [Machine.x64Get, hrec]

/-- The three ways to run a record deliver what its rule answers (`42_xor64.md` R130, R137). -/
theorem DecHalf.ReadsX.exec {s : State} {first : Bool} {bits : List Bool} {i : Instr} {rec : XRecord} {v : Word}
    {d' : DecHalf} (h : s.d.ReadsX rec v d') (hi : i ∈ [.decVal, .x64Dec, rec.toInstr])
    (hdec : s.Decoding .x64 first bits) : exec i s = .next (s.delivered d' v) := by
  rw [exec_xRecord rec hi hdec h.1, runDec_x64Deliver h.2]

theorem State.Decoding.unread {s : State} {k : Codec} {first : Bool} {bits : List Bool}
    (h : s.Decoding k first bits) : s.d.bs.unread = bits := by
  obtain ⟨-, -, -, hbits, -⟩ := h
  exact hbits

/-- The record at the cursor is the one its unread bits begin. -/
theorem DecHalf.xRecord_eq {d : DecHalf} {bits : List Bool} (h : d.bs.unread = bits) :
    d.xRecord = decodeX d.x.first (64 - d.x.slz.toNat - d.x.stz.toNat) bits := by
  rw [DecHalf.xRecord, h]

theorem reads_first {d : DecHalf} {tz : BitVec 7} {p v : Word} {rest : List Bool} (hfirst : d.x.first = true)
    (htz : tz.toNat ≤ 64) (hp : p.toNat < 2 ^ (63 - tz.toNat))
    (hbits : d.bs.unread = natBits tz.toNat 7 ++ natBits p.toNat (63 - tz.toNat) ++ rest)
    (hv : v.toNat = if tz.toNat = 64 then 0 else (2 * p.toNat + 1) * 2 ^ tz.toNat) :
    d.ReadsX (.first tz p) v
      { d.advance (7 + (63 - tz.toNat)) with x := { d.x with first := false, sv := v } } := by
  have havail := BitSource.avail_of_unread hbits
  rw [List.append_assoc] at hbits
  refine ⟨?_, getFirst_ok htz hp (by simp [havail]) hv⟩
  rw [DecHalf.xRecord_eq hbits, hfirst, decodeX_first, firstWidth, field_natBits_append p hp]

theorem reads_same {d : DecHalf} {rest : List Bool} (hfirst : d.x.first = false)
    (hbits : d.bs.unread = [false, true] ++ rest) : d.ReadsX .same d.x.sv (d.advance 2) := by
  have havail := BitSource.avail_of_unread hbits
  refine ⟨?_, getSame_ok (by simp [havail])⟩
  rw [DecHalf.xRecord_eq hbits, hfirst, decodeX_same]

theorem reads_reuse {d : DecHalf} {p v : Word} {rest : List Bool} (hfirst : d.x.first = false)
    (hwinv : d.x.winv = true) (hrange : d.x.slz.toNat + d.x.stz.toNat ≤ 63)
    (hp : p.toNat < 2 ^ (64 - d.x.slz.toNat - d.x.stz.toNat))
    (hbits : d.bs.unread = [false, false] ++ natBits p.toNat (64 - d.x.slz.toNat - d.x.stz.toNat) ++ rest)
    (hv : (d.x.sv ^^^ v).toNat = p.toNat * 2 ^ d.x.stz.toNat) :
    d.ReadsX (.reuse p) v
      { d.advance (66 - d.x.slz.toNat - d.x.stz.toNat) with x := { d.x with sv := v } } := by
  have havail := BitSource.avail_of_unread hbits
  simp only [List.length_append, natBits_length, List.length_cons, List.length_nil] at havail
  rw [List.append_assoc] at hbits
  refine ⟨?_, getReuse_ok hwinv (by omega) hp (by omega) hv⟩
  rw [DecHalf.xRecord_eq hbits, hfirst, decodeX_reuse, field_natBits_append p hp]

/-- A header that is not malformed announces the payload before the implicit bit. -/
theorem windowWidth_of_le {iii : BitVec 3} {cb : Nat} (h : lzVal iii + cb ≤ 64) : windowWidth iii cb = cb - 1 :=
  if_neg (Nat.not_lt.2 h)

/-- The registers of a window change with leading count `lz` and `cb` bits (`42_xor64.md` R134). -/
def XorRegs.announced (x : XorRegs) (v : Word) (lz cb : Nat) : XorRegs :=
  { x with sv := v, winv := true, slz := BitVec.ofNat 5 lz, stz := BitVec.ofNat 7 (64 - lz - cb) }

/-- A window change after a header of `n` bits, complete (`42_xor64.md` R134). -/
theorem getWindow_reads {d : DecHalf} {lz cb n : Nat} {p v : Word} (hcb : 1 ≤ cb) (hlz : lz + cb ≤ 64)
    (hp : p.toNat < 2 ^ (cb - 1)) (havail : n + (cb - 1) ≤ d.bs.avail)
    (hv : (d.x.sv ^^^ v).toNat = (2 * p.toNat + 1) * 2 ^ (64 - lz - cb)) :
    getWindow lz cb p (d.advance n) =
      .ok v { d.advance (n + (cb - 1)) with x := d.x.announced v lz cb } := by
  have hpayload : cb - 1 ≤ (d.advance n).bs.avail := by
    rw [DecHalf.advance_avail]
    omega
  rw [getWindow_ok hcb hlz hp hpayload hv, DecHalf.advance_advance]
  rfl

theorem reads_news {d : DecHalf} {iii : BitVec 3} {cccc : BitVec 4} {p v : Word} {rest : List Bool}
    (hfirst : d.x.first = false) (hlz : lzVal iii + newsCb cccc ≤ 64) (hp : p.toNat < 2 ^ (newsCb cccc - 1))
    (hbits : d.bs.unread =
      [true, false] ++ natBits iii.toNat 3 ++ natBits cccc.toNat 4 ++ natBits p.toNat (newsCb cccc - 1) ++ rest)
    (hv : (d.x.sv ^^^ v).toNat = (2 * p.toNat + 1) * 2 ^ (64 - lzVal iii - newsCb cccc)) :
    d.ReadsX (.news iii cccc p) v
      { d.advance (9 + (newsCb cccc - 1)) with x := d.x.announced v (lzVal iii) (newsCb cccc) } := by
  have havail := BitSource.avail_of_unread hbits
  simp only [List.length_append, natBits_length, List.length_cons, List.length_nil] at havail
  simp only [List.append_assoc] at hbits
  constructor
  · rw [DecHalf.xRecord_eq hbits, hfirst, decodeX_news, windowWidth_of_le hlz, field_natBits_append p hp]
  · exact (getNews_header iii cccc p (by omega)).trans (getWindow_reads (newsCb_pos cccc) hlz hp (by omega) hv)

theorem reads_newl {d : DecHalf} {iii : BitVec 3} {cccccc : BitVec 6} {p v : Word} {rest : List Bool}
    (hfirst : d.x.first = false) (hlz : lzVal iii + newlCb cccccc ≤ 64) (hp : p.toNat < 2 ^ (newlCb cccccc - 1))
    (hbits : d.bs.unread =
      [true, true] ++ natBits iii.toNat 3 ++ natBits cccccc.toNat 6 ++ natBits p.toNat (newlCb cccccc - 1) ++ rest)
    (hv : (d.x.sv ^^^ v).toNat = (2 * p.toNat + 1) * 2 ^ (64 - lzVal iii - newlCb cccccc)) :
    d.ReadsX (.newl iii cccccc p) v
      { d.advance (11 + (newlCb cccccc - 1)) with x := d.x.announced v (lzVal iii) (newlCb cccccc) } := by
  have havail := BitSource.avail_of_unread hbits
  simp only [List.length_append, natBits_length, List.length_cons, List.length_nil] at havail
  simp only [List.append_assoc] at hbits
  constructor
  · rw [DecHalf.xRecord_eq hbits, hfirst, decodeX_newl, windowWidth_of_le hlz, field_natBits_append p hp]
  · exact (getNewl_header iii cccccc p (by omega)).trans (getWindow_reads (newlCb_pos cccccc) hlz hp (by omega) hv)

/-- Settles O27: the first record is read whole, and its rule answers the pattern with the implicit bit put back. -/
theorem xorFirstValueIsDecoded : Obligations.XorFirstValueIsDecoded := by
  intro s tz p v rest i hi htz hp hdec hv
  exact (reads_first hdec.x_first htz hp hdec.unread hv).exec hi hdec

/-- Settles O28: the two records without a header. -/
theorem xorRepeatsAndReusesAreDecoded : Obligations.XorRepeatsAndReusesAreDecoded := by
  intro s rest
  refine ⟨fun i hi hdec => ?same, fun p v i hi hwinv hwindow hp hdec hv => ?reuse⟩
  case same => exact (reads_same hdec.x_first hdec.unread).exec hi hdec
  case reuse => exact (reads_reuse hdec.x_first hwinv (hwindow hwinv).2 hp hdec.unread hv).exec hi hdec

/-- The bits above the payload fit the register of the trailing count. -/
theorem ofNat_trailing_toNat (lz cb : Nat) : (BitVec.ofNat 7 (64 - lz - cb)).toNat = 64 - lz - cb := by
  rw [BitVec.toNat_ofNat, Nat.mod_eq_of_lt (by omega)]

/-- What the two window changes share: their registers hold the counts, and `n` bits were consumed. -/
theorem exec_windowChange {s : State} {i : Instr} {rec : XRecord} {v : Word} {iii : BitVec 3} {cb n : Nat}
    {bits rest : List Bool} (hi : i ∈ [.decVal, .x64Dec, rec.toInstr])
    (hdec : s.Decoding .x64 false (bits ++ rest)) (hn : bits.length = n)
    (h : s.d.ReadsX rec v { s.d.advance n with x := s.d.x.announced v (lzVal iii) cb }) :
    ∃ slz stz n, slz.toNat = lzVal iii ∧ stz.toNat = 64 - lzVal iii - cb ∧
      s.d.bs.unread.drop n = rest ∧ n + rest.length = s.d.bs.unread.length ∧
      exec i s = .next (s.delivered { s.d.advance n with x := ⟨false, v, true, slz, stz⟩ } v) := by
  refine ⟨BitVec.ofNat 5 (lzVal iii), BitVec.ofNat 7 (64 - lzVal iii - cb), n,
    ofNat_toNat_of_mem_lzSet (lzVal_mem iii), ofNat_trailing_toNat _ _, ?_, ?_, ?_⟩
  · rw [hdec.unread, List.drop_left' hn]
  · rw [hdec.unread, List.length_append, hn]
  · rw [h.exec hi hdec, XorRegs.announced, hdec.x_first]

/-- Settles O29: the two headers, each with the count its field stands for. -/
theorem xorWindowChangeIsDecoded : Obligations.XorWindowChangeIsDecoded := by
  rintro s iii cccc cccccc p v cb rest i (⟨hi, hcb, hdec⟩ | ⟨hi, hcb, hdec⟩) hlz hp hv
  · rw [← newsCb_eq] at hcb
    subst hcb
    exact exec_windowChange (rec := .news iii cccc p) hi hdec (by simp; omega)
      (reads_news hdec.x_first hlz hp hdec.unread hv)
  · rw [← newlCb_eq] at hcb
    subst hcb
    exact exec_windowChange (rec := .newl iii cccccc p) hi hdec (by simp; omega)
      (reads_newl hdec.x_first hlz hp hdec.unread hv)

/-! ## Records that fault -/

/-- Where both the record at the cursor and the record named raise the same, so do the three ways to run it. -/
theorem exec_raised {s : State} {first : Bool} {bits : List Bool} {i : Instr} {c : ErrCode} {d' : DecHalf}
    (rec : XRecord) (hi : i ∈ [.decVal, .x64Dec, rec.toInstr]) (hdec : s.Decoding .x64 first bits)
    (hcursor : getX (decodeX first (64 - s.d.x.slz.toNat - s.d.x.stz.toNat) bits) s.d = .error c d')
    (hnamed : getX rec s.d = .error c d') : exec i s = .next (s.raised d' c) := by
  obtain ⟨rec', hrec', hexec⟩ := exec_xRecord_any rec hi hdec
  rw [hdec.x_first] at hrec'
  rw [hexec]
  rcases hrec' with rfl | rfl
  · exact congrArg _ (runDec_raised hcursor)
  · exact congrArg _ (runDec_raised hnamed)

/-- A steady-state record is no `X.FIRST`. -/
theorem decodeX_steady_ne_first (cb : Nat) (bits : List Bool) (tz : BitVec 7) (p : Word) :
    decodeX false cb bits ≠ .first tz p := by
  unfold decodeX
  rw [if_neg Bool.false_ne_true]
  split_ifs <;> exact nofun

/-- The rows of the steady-state records, each named by a record that is no `X.FIRST`. -/
theorem exists_steady_record {i : Instr} {p : Word} {iii : BitVec 3} {cccc : BitVec 4} {cccccc : BitVec 6}
    (hi : i ∈ [.decVal, .x64Dec, .xSame, .xReuse p, .xNews iii cccc p, .xNewl iii cccccc p]) :
    ∃ rec : XRecord, i ∈ [.decVal, .x64Dec, rec.toInstr] ∧ ∀ tz p, rec ≠ .first tz p := by
  simp only [List.mem_cons, List.not_mem_nil, or_false] at hi
  rcases hi with rfl | rfl | rfl | rfl | rfl | rfl
  · exact ⟨.same, by simp, nofun⟩
  · exact ⟨.same, by simp, nofun⟩
  · exact ⟨.same, by simp [XRecord.toInstr], nofun⟩
  · exact ⟨.reuse p, by simp [XRecord.toInstr], nofun⟩
  · exact ⟨.news iii cccc p, by simp [XRecord.toInstr], nofun⟩
  · exact ⟨.newl iii cccccc p, by simp [XRecord.toInstr], nofun⟩

section
variable {s : State} {i : Instr} {rest : List Bool}

theorem exec_first_faults {tz : BitVec 7} {p : Word} (hi : i ∈ [.decVal, .x64Dec, .xFirst tz p]) :
    (s.Decoding .x64 true rest → rest.length < 7 → exec i s = .next (s.raised s.d .endOfStream)) ∧
      (s.Decoding .x64 true (natBits tz.toNat 7 ++ rest) →
        (64 < tz.toNat → exec i s = .next (s.raised (s.d.advance 7) .malformedBlock)) ∧
          (tz.toNat ≤ 64 → rest.length < 63 - tz.toNat →
            exec i s = .next (s.raised (s.d.advance 7) .endOfStream))) := by
  refine ⟨fun hdec hshort => ?header, fun hdec => ?payload⟩
  case header =>
    rw [← hdec.avail] at hshort
    obtain ⟨tz', p', hrec⟩ := decodeX_first_shape (64 - s.d.x.slz.toNat - s.d.x.stz.toNat) rest
    exact exec_raised (.first tz p) hi hdec (hrec ▸ getFirst_noHeader tz' p' hshort) (getFirst_noHeader tz p hshort)
  case payload =>
    have havail := hdec.avail
    rw [List.length_append, natBits_length] at havail
    have h7 : 7 ≤ s.d.bs.avail := by omega
    refine ⟨fun hbig => ?_, fun htz hshort => ?_⟩
    · refine exec_raised (.first tz p) hi hdec ?_ (getFirst_malformed p h7 hbig)
      exact decodeX_first _ tz rest ▸ getFirst_malformed _ h7 hbig
    · refine exec_raised (.first tz p) hi hdec ?_ (getFirst_noPayload p h7 htz (by omega))
      exact decodeX_first _ tz rest ▸ getFirst_noPayload _ h7 htz (by omega)

theorem exec_noFlag_faults {rec : XRecord} (hrec : ∀ tz p, rec ≠ .first tz p)
    (hi : i ∈ [.decVal, .x64Dec, rec.toInstr]) (hdec : s.Decoding .x64 false rest) (hshort : rest.length < 2) :
    exec i s = .next (s.raised s.d .endOfStream) := by
  rw [← hdec.avail] at hshort
  exact exec_raised rec hi hdec (getX_noFlag _ (decodeX_steady_ne_first _ rest) hshort) (getX_noFlag rec hrec hshort)

/-- Behind two flag bits. -/
theorem avail_of_flag {b b' : Bool} (hdec : s.Decoding .x64 false ([b, b'] ++ rest)) :
    s.d.bs.avail = 2 + rest.length := by
  rw [hdec.avail, List.length_append]
  rfl

theorem exec_reuse_faults {p : Word} (hi : i ∈ [.decVal, .x64Dec, .xReuse p])
    (hdec : s.Decoding .x64 false ([false, false] ++ rest)) :
    (s.d.x.winv = false → exec i s = .next (s.raised (s.d.advance 2) .malformedBlock)) ∧
      (s.d.x.winv = true → rest.length < 64 - s.d.x.slz.toNat - s.d.x.stz.toNat →
        exec i s = .next (s.raised (s.d.advance 2) .endOfStream)) := by
  have havail := avail_of_flag hdec
  have h2 : 2 ≤ s.d.bs.avail := by omega
  refine ⟨fun hwinv => ?_, fun hwinv hshort => ?_⟩
  · exact exec_raised (.reuse p) hi hdec (getReuse_malformed _ h2 hwinv) (getReuse_malformed p h2 hwinv)
  · have hpayload : s.d.bs.avail < 2 + (64 - s.d.x.slz.toNat - s.d.x.stz.toNat) := by omega
    exact exec_raised (.reuse p) hi hdec (getReuse_noPayload _ h2 hwinv hpayload)
      (getReuse_noPayload p h2 hwinv hpayload)

/-- What the two window changes share (`42_xor64.md` R134): behind a whole header the test of the window comes before
the payload. -/
theorem exec_window_faults {rec : Word → XRecord} {p : Word} {header : List Bool} {n lz cb : Nat}
    (hi : i ∈ [.decVal, .x64Dec, (rec p).toInstr]) (hdec : s.Decoding .x64 false (header ++ rest))
    (hn : header.length = n)
    (hcursor : ∃ q, decodeX false (64 - s.d.x.slz.toNat - s.d.x.stz.toNat) (header ++ rest) = rec q)
    (hget : n ≤ s.d.bs.avail → ∀ q, getX (rec q) s.d = getWindow lz cb q (s.d.advance n)) :
    (64 < lz + cb → exec i s = .next (s.raised (s.d.advance n) .malformedBlock)) ∧
      (lz + cb ≤ 64 → rest.length < cb - 1 → exec i s = .next (s.raised (s.d.advance n) .endOfStream)) := by
  have havail : s.d.bs.avail = n + rest.length := by rw [hdec.avail, List.length_append, hn]
  obtain ⟨q', hq'⟩ := hcursor
  have hraised (c : ErrCode) (h : ∀ q, getWindow lz cb q (s.d.advance n) = .error c (s.d.advance n)) :
      exec i s = .next (s.raised (s.d.advance n) c) := by
    have hrule (q : Word) : getX (rec q) s.d = .error c (s.d.advance n) := (hget (by omega) q).trans (h q)
    exact exec_raised (rec p) hi hdec (hq' ▸ hrule q') (hrule p)
  refine ⟨fun hbig => hraised _ fun q => getWindow_malformed q hbig, fun hlz hshort => hraised _ fun q => ?_⟩
  exact getWindow_noPayload q hlz (by rw [DecHalf.advance_avail]; omega)

theorem exec_news_faults {iii : BitVec 3} {cccc : BitVec 4} {p : Word}
    (hi : i ∈ [.decVal, .x64Dec, .xNews iii cccc p]) :
    (s.Decoding .x64 false ([true, false] ++ rest) → rest.length < 7 →
        exec i s = .next (s.raised (s.d.advance 2) .endOfStream)) ∧
      (s.Decoding .x64 false ([true, false] ++ natBits iii.toNat 3 ++ natBits cccc.toNat 4 ++ rest) →
        (64 < lzVal iii + newsCb cccc → exec i s = .next (s.raised (s.d.advance 9) .malformedBlock)) ∧
          (lzVal iii + newsCb cccc ≤ 64 → rest.length < newsCb cccc - 1 →
            exec i s = .next (s.raised (s.d.advance 9) .endOfStream))) := by
  refine ⟨fun hdec hshort => ?header, fun hdec => ?payload⟩
  case header =>
    have havail := avail_of_flag hdec
    exact exec_raised (.news iii cccc p) hi hdec (getNews_noHeader _ _ _ (by omega) (by omega))
      (getNews_noHeader iii cccc p (by omega) (by omega))
  case payload =>
    refine exec_window_faults (rec := .news iii cccc) hi hdec (by simp) ?_ fun h q => getNews_header iii cccc q h
    simp only [List.append_assoc]
    exact ⟨_, decodeX_news _ iii cccc rest⟩

theorem exec_newl_faults {iii : BitVec 3} {cccccc : BitVec 6} {p : Word}
    (hi : i ∈ [.decVal, .x64Dec, .xNewl iii cccccc p]) :
    (s.Decoding .x64 false ([true, true] ++ rest) → rest.length < 9 →
        exec i s = .next (s.raised (s.d.advance 2) .endOfStream)) ∧
      (s.Decoding .x64 false ([true, true] ++ natBits iii.toNat 3 ++ natBits cccccc.toNat 6 ++ rest) →
        (64 < lzVal iii + newlCb cccccc → exec i s = .next (s.raised (s.d.advance 11) .malformedBlock)) ∧
          (lzVal iii + newlCb cccccc ≤ 64 → rest.length < newlCb cccccc - 1 →
            exec i s = .next (s.raised (s.d.advance 11) .endOfStream))) := by
  refine ⟨fun hdec hshort => ?header, fun hdec => ?payload⟩
  case header =>
    have havail := avail_of_flag hdec
    exact exec_raised (.newl iii cccccc p) hi hdec (getNewl_noHeader _ _ _ (by omega) (by omega))
      (getNewl_noHeader iii cccccc p (by omega) (by omega))
  case payload =>
    refine exec_window_faults (rec := .newl iii cccccc) hi hdec (by simp) ?_ fun h q => getNewl_header iii cccccc q h
    simp only [List.append_assoc]
    exact ⟨_, decodeX_newl _ iii cccccc rest⟩

end

/-- Settles O30: each format's faults in the order of its fields. -/
theorem xorRecordsFault : Obligations.XorRecordsFault := by
  intro s tz p iii cccc cccccc cb rest
  refine ⟨fun i hi => exec_first_faults hi, fun i hi hdec hshort => ?noFlag,
    fun i hi hdec => exec_reuse_faults hi hdec, fun i hi => ?news, fun i hi => ?newl⟩
  case noFlag =>
    obtain ⟨rec, hi, hrec⟩ := exists_steady_record hi
    exact exec_noFlag_faults hrec hi hdec hshort
  case news =>
    rw [← newsCb_eq]
    exact ⟨(exec_news_faults hi).1, fun hdec hcb => hcb ▸ (exec_news_faults hi).2 hdec⟩
  case newl =>
    rw [← newlCb_eq]
    exact ⟨(exec_newl_faults hi).1, fun hdec hcb => hcb ▸ (exec_newl_faults hi).2 hdec⟩

end Sys2Proof.Machine

/-! PROOFS. The round trip of X64 (`42_xor64.md` R139). The one idea: encoder and decoder hold the same X64 registers,
and a record the encoder wrote, read under those registers, gives back its value and the registers after it. -/

namespace Sys2Proof.Machine

/-! ## A record is read back -/

/-- Under the registers `x` the bits `l` are read as one record of the pattern `v`, which leaves the registers `x'`. -/
def XorRegs.ReadBack (x : XorRegs) (l : List Bool) (v : Word) (x' : XorRegs) : Prop :=
  ∀ (d : DecHalf) (rest : List Bool), d.x = x → d.bs.unread = l ++ rest →
    x64Get d = .ok v { d.advance l.length with x := x' }

theorem XorRegs.ReadBack.of_reads {x x' : XorRegs} {l : List Bool} {v : Word}
    (h : ∀ (d : DecHalf) (rest : List Bool), d.x = x → d.bs.unread = l ++ rest →
      ∃ rec n, n = l.length ∧ d.ReadsX rec v { d.advance n with x := x' }) : x.ReadBack l v x' := by
  intro d rest hx hbits
  obtain ⟨rec, n, rfl, hreads⟩ := h d rest hx hbits
  exact hreads.x64Get

/-- A payload moved down to bit 0 fits the width that is left of it. -/
theorem shr_lt {a : Word} {lo m n : Nat} (h : a.toNat < 2 ^ m) (hm : m ≤ n + lo) : (shr a lo).toNat < 2 ^ n := by
  rw [shr_toNat, Nat.div_lt_iff_lt_mul (Nat.two_pow_pos _), ← Nat.pow_add]
  exact h.trans_le (Nat.pow_le_pow_right (by omega) hm)

/-- A pattern that is not 0, from what is sent of it: the bits above its lowest 1 (`30_encoding.md` R76). -/
theorem shr_ctz_restored {a : Word} (h : a ≠ 0) : a.toNat = (2 * (shr a (ctz a + 1)).toNat + 1) * 2 ^ ctz a := by
  rw [shr_toNat, window_restored h]

theorem readBack_first {x : XorRegs} (v : Word) (hfirst : x.first = true) :
    x.ReadBack (natBits (ctz v) 7 ++ bitSlice v 63 (ctz v + 1)) v { x with first := false, sv := v } := by
  refine .of_reads fun d rest hx hbits => ?_
  subst hx
  have hctz := ctz_le_64 v
  have hp : (shr v (ctz v + 1)).toNat < 2 ^ (63 - ctz v) := shr_lt v.isLt (by omega)
  have hv : v.toNat = if ctz v = 64 then 0 else (2 * (shr v (ctz v + 1)).toNat + 1) * 2 ^ ctz v := by
    split
    · next h64 => rw [ctz_eq_64 h64]; rfl
    · next h64 => exact shr_ctz_restored fun h0 => h64 (h0 ▸ ctz_zero)
  obtain ⟨tz, htz⟩ : ∃ tz : BitVec 7, tz.toNat = ctz v := ⟨_, ofNat_ctz_toNat v⟩
  rw [← natBits_shr v (ctz v + 1) (63 - ctz v) 63 (by omega), ← htz] at hbits
  rw [← htz] at hctz hp hv
  exact ⟨_, _, by simp [htz], reads_first hfirst hctz hp hbits hv⟩

theorem readBack_same {x : XorRegs} (hfirst : x.first = false) : x.ReadBack [false, true] x.sv x := by
  refine .of_reads fun d rest hx hbits => ?_
  subst hx
  exact ⟨_, _, rfl, reads_same hfirst hbits⟩

theorem readBack_reuse {x : XorRegs} {v : Word} (hfirst : x.first = false) (hwindow : x.WindowInv)
    (hreuse : reusesWindow x (x.sv ^^^ v) = true) :
    x.ReadBack ([false, false] ++ bitSlice (x.sv ^^^ v) (63 - x.slz.toNat) x.stz.toNat) v { x with sv := v } := by
  refine .of_reads fun d rest hx hbits => ?_
  subst hx
  obtain ⟨hwinv, -, hstz⟩ := (reusesWindow_iff _ _).1 hreuse
  obtain ⟨-, hrange⟩ := hwindow hwinv
  have hp : (shr (d.x.sv ^^^ v) d.x.stz.toNat).toNat < 2 ^ (64 - d.x.slz.toNat - d.x.stz.toNat) :=
    shr_lt (lt_two_pow_of_reusesWindow hreuse) (by omega)
  have hv : (d.x.sv ^^^ v).toNat = (shr (d.x.sv ^^^ v) d.x.stz.toNat).toNat * 2 ^ d.x.stz.toNat := by
    rw [shr_toNat, Nat.div_mul_cancel ((Nat.pow_dvd_pow 2 hstz).trans (ctz_dvd _))]
  rw [← natBits_shr _ d.x.stz.toNat (64 - d.x.slz.toNat - d.x.stz.toNat) _ (by omega)] at hbits
  exact ⟨_, _, by simp; omega, reads_reuse hfirst hwinv hrange hp hbits hv⟩

/-- The field of `X.NEWS` that stands for a width (`30_encoding.md` R76). -/
theorem exists_newsField {cb : Nat} (hpos : 1 ≤ cb) (hle : cb ≤ 16) :
    ∃ cccc : BitVec 4, cccc.toNat = cb % 16 ∧ newsCb cccc = cb := by
  have hfield : (BitVec.ofNat 4 (cb % 16)).toNat = cb % 16 := by rw [BitVec.toNat_ofNat, Nat.mod_mod]
  refine ⟨BitVec.ofNat 4 (cb % 16), hfield, ?_⟩
  rw [newsCb_eq, hfield]
  split <;> omega

/-- The field of `X.NEWL` that stands for a width (`30_encoding.md` R76). -/
theorem exists_newlField {cb : Nat} (hpos : 1 ≤ cb) (hle : cb ≤ 64) :
    ∃ cccccc : BitVec 6, cccccc.toNat = cb % 64 ∧ newlCb cccccc = cb := by
  have hfield : (BitVec.ofNat 6 (cb % 64)).toNat = cb % 64 := by rw [BitVec.toNat_ofNat, Nat.mod_mod]
  refine ⟨BitVec.ofNat 6 (cb % 64), hfield, ?_⟩
  rw [newlCb_eq, hfield]
  split <;> omega

/-- A window change, with `cb` the width of the window and `lz` and `tz` its counts. -/
theorem readBack_window {x : XorRegs} {v : Word} {lz tz : Nat} (hfirst : x.first = false) (hne : x.sv ^^^ v ≠ 0)
    (hlz : lz = lzRound (clz (x.sv ^^^ v))) (htz : tz = ctz (x.sv ^^^ v)) :
    x.ReadBack
      ((if 64 - lz - tz ≤ 16 then
          [true, false] ++ natBits (lzIdx lz).toNat 3 ++ natBits ((64 - lz - tz) % 16) 4
        else [true, true] ++ natBits (lzIdx lz).toNat 3 ++ natBits ((64 - lz - tz) % 64) 6) ++
        bitSlice (x.sv ^^^ v) (63 - lz) (tz + 1)) v
      { x with sv := v, winv := true, slz := BitVec.ofNat 5 lz, stz := BitVec.ofNat 7 tz } := by
  refine .of_reads fun d rest hx hbits => ?_
  subst hx
  have hrange : lz + tz ≤ 63 := hlz ▸ htz ▸ lzRound_clz_add_ctz hne
  have hindex : lzVal (lzIdx lz) = lz := lzVal_lzIdx (hlz ▸ lzRound_mem _)
  have hp : (shr (d.x.sv ^^^ v) (tz + 1)).toNat < 2 ^ (64 - lz - tz - 1) :=
    shr_lt (hlz ▸ lt_two_pow_lzRound (d.x.sv ^^^ v)) (by omega)
  have hv : (d.x.sv ^^^ v).toNat = (2 * (shr (d.x.sv ^^^ v) (tz + 1)).toNat + 1) * 2 ^ tz :=
    htz ▸ shr_ctz_restored hne
  have hregs : d.x.announced v lz (64 - lz - tz) =
      { d.x with sv := v, winv := true, slz := BitVec.ofNat 5 lz, stz := BitVec.ofNat 7 tz } := by
    rw [XorRegs.announced, show 64 - lz - (64 - lz - tz) = tz by omega]
  rw [← natBits_shr _ (tz + 1) (64 - lz - tz - 1) _ (by omega)] at hbits
  rw [← hregs]
  generalize shr (d.x.sv ^^^ v) (tz + 1) = p at hbits hp hv
  rw [show tz = 64 - lz - (64 - lz - tz) by omega] at hv
  by_cases hshort : 64 - lz - tz ≤ 16
  · obtain ⟨cccc, hfield, hcb⟩ := exists_newsField (by omega) hshort
    have hreads := reads_news (iii := lzIdx lz) (cccc := cccc) (p := p) (v := v) (rest := rest) hfirst
    rw [hindex, hcb, hfield] at hreads
    rw [if_pos hshort] at hbits ⊢
    exact ⟨_, _, by simp; omega, hreads (by omega) hp hbits hv⟩
  · obtain ⟨cccccc, hfield, hcb⟩ := exists_newlField (by omega : 1 ≤ 64 - lz - tz) (by omega)
    have hreads := reads_newl (iii := lzIdx lz) (cccccc := cccccc) (p := p) (v := v) (rest := rest) hfirst
    rw [hindex, hcb, hfield] at hreads
    rw [if_neg hshort] at hbits ⊢
    exact ⟨_, _, by simp; omega, hreads (by omega) hp hbits hv⟩

/-! ## A value -/

/-- An accepted `X64.PUT` appends a record that is read back under the registers it started from. -/
theorem x64Put_readBack {m : Config.Impl} {v : Word} {e e' : EncHalf} (hput : x64Put m v e = .ok () e')
    (hacc : e.bs.AccInv) (hopen : e.bs.sealed = false) (hwindow : e.x.WindowInv) :
    ∃ l, e'.bs.Extends e.bs l ∧ e.x.ReadBack l v e'.x := by
  have hroom : e.bs.Takes m (e.x.putLength v) := by
    rcases BitSink.takes_or_full m (e.x.putLength v) hopen with hroom | hfull
    · exact hroom
    · obtain ⟨_, herror⟩ := x64Put_full v hacc hfull
      cases hput.symm.trans herror
  by_cases hfirst : e.x.first = true
  · rw [XorRegs.putLength_first hfirst] at hroom
    obtain ⟨k, hfirstPut, hextends⟩ := putFirst_ok v e.x hacc hroom
    cases hput.symm.trans ((x64Put_first hfirst).trans hfirstPut)
    exact ⟨_, hextends, readBack_first v hfirst⟩
  have hsteady : e.x.first = false := by simpa using hfirst
  by_cases hsame : e.x.sv ^^^ v = 0
  · rw [XorRegs.putLength_same hsteady hsame] at hroom
    obtain rfl : e.x.sv = v := BitVec.xor_eq_zero_iff.1 hsame
    obtain ⟨k, hsamePut, hextends⟩ := x64Put_same_ok hsteady hacc hroom
    cases hput.symm.trans hsamePut
    exact ⟨_, hextends, readBack_same hsteady⟩
  by_cases hreuse : reusesWindow e.x (e.x.sv ^^^ v) = true
  · obtain ⟨hwinv, -, -⟩ := (reusesWindow_iff _ _).1 hreuse
    obtain ⟨-, hrange⟩ := hwindow hwinv
    have hlength : e.x.putLength v = 66 - e.x.slz.toNat - e.x.stz.toNat := by
      rw [XorRegs.putLength_reuse hsteady hsame hreuse]
      omega
    obtain ⟨k, hreusePut, hextends⟩ := x64Put_reuse_ok hsteady hsame hreuse hwindow hacc (hlength ▸ hroom)
    cases hput.symm.trans hreusePut
    exact ⟨_, hextends, readBack_reuse hsteady hwindow hreuse⟩
  · rw [XorRegs.putLength_window hsteady hsame hreuse] at hroom
    obtain ⟨k, hwindowPut, hextends⟩ := putWindow_ok (v := v) (x := e.x) hacc (lzRound_clz_add_ctz hsame) hroom
    cases hput.symm.trans ((x64Put_window hsteady hsame hreuse).trans hwindowPut)
    exact ⟨_, hextends, readBack_window hsteady hsame rfl rfl⟩

/-! ## A block -/

/-- Under the registers `x` the bits `l` are the rest of an X64 block that holds the values `vs`: the loop of
`DECOMPRESS`, where it ends, answers them behind the values it has. -/
def XorRegs.DecodesTo (x : XorRegs) (l : List Bool) (vs : List Word) : Prop :=
  ∀ (m : Config.Impl) (fuel : Nat) (d d' : DecHalf) (out : List Word) (r : Response), d.codec = .x64 →
    d.phase = .run → d.x = x → d.bs.unread = l → decodeAll m fuel d out = some (r, d') → r = .vals (out ++ vs)

/-- `DEC.VAL` at a record that is read back. -/
theorem XorRegs.ReadBack.decVal {x x' : XorRegs} {l rest : List Bool} {v : Word} {d : DecHalf} (m : Config.Impl)
    (h : x.ReadBack l v x') (hk : d.codec = .x64) (hp : d.phase = .run) (hx : d.x = x)
    (hbits : d.bs.unread = l ++ rest) :
    d.decVal m = runDecHalf (x64Deliver v) { d.advance l.length with x := x' } := by
  have hget := h d rest hx hbits
  obtain ⟨-, hconsumed⟩ := (x64Get_good d).ok hget
  have hlength : 2 ≤ l.length := Nat.le_of_add_le_add_left hconsumed
  have havail := BitSource.avail_of_unread hbits
  rw [List.length_append] at havail
  rw [decVal_run m (by simp [hk]) hp (fun hempty => by omega), hk]
  show runDecHalf x64Decode d = _
  rw [runDecHalf, x64Decode, bind_ok hget]
  rfl

/-- A record of the sentinel ends the block (`42_xor64.md` R137). -/
theorem XorRegs.ReadBack.decodesTo_nil {x x' : XorRegs} {l : List Bool} (h : x.ReadBack l Config.sentinel x')
    (rest : List Bool) : x.DecodesTo (l ++ rest) [] := by
  intro m fuel d d' out r hk hp hx hbits hloop
  have hval := h.decVal m hk hp hx hbits
  rw [runDecHalf_ok (if_pos rfl)] at hval
  cases fuel with
  | zero => cases hloop
  | succ fuel =>
    rw [decodeAll_end hval] at hloop
    cases hloop
    rw [List.append_nil]

/-- A record of another value comes before the values of the rest. -/
theorem XorRegs.ReadBack.decodesTo_cons {x x' : XorRegs} {l l' : List Bool} {v : Word} {vs : List Word}
    (h : x.ReadBack l v x') (hv : v ≠ Config.sentinel) (hrest : x'.DecodesTo l' vs) :
    x.DecodesTo (l ++ l') (v :: vs) := by
  intro m fuel d d' out r hk hp hx hbits hloop
  have hval := h.decVal m hk hp hx hbits
  rw [runDecHalf_ok (if_neg hv)] at hval
  cases fuel with
  | zero => cases hloop
  | succ fuel =>
    rw [decodeAll_val hval] at hloop
    have hunread : (d.advance l.length).bs.unread = l' := by
      rw [DecHalf.advance_unread, hbits, List.drop_left' rfl]
    rw [List.append_cons]
    exact hrest m fuel { d.advance l.length with x := x' } d' _ r hk hp rfl hunread hloop

/-- An accepted `X64.CLOSE` leaves bytes that spell what was written, a record of the sentinel and what pads it. -/
theorem x64Finish_readBack {m : Config.Impl} {e e' : EncHalf} (h : x64Finish m e = .ok () e') (hacc : e.bs.AccInv)
    (hopen : e.bs.sealed = false) (hwindow : e.x.WindowInv) :
    ∃ l x' pad, bytesBits e'.bs.buf = e.bs.bits ++ (l ++ pad) ∧ e.x.ReadBack l Config.sentinel x' := by
  obtain ⟨⟨⟩, e1, hput, h⟩ := bind_eq_ok h
  obtain ⟨l, ⟨hbits, hseal, hacc1⟩, hread⟩ := x64Put_readBack hput hacc hopen hwindow
  have hopen1 := hseal.trans hopen
  rcases putBit_cases m false e1 with ⟨-, hbit⟩ | ⟨hsealed, -⟩ | ⟨-, hbit⟩
  · rw [bind_ok hbit] at h
    cases h
    obtain ⟨hflushed, -, hwoff, -⟩ := BitSink.push_flushed_sealed hacc1 hopen1 false
    rw [BitSink.bits_of_woff_eq_zero hwoff, hbits] at hflushed
    simp only [List.append_assoc] at hflushed
    exact ⟨l, e1.x, _, hflushed, hread⟩
  · simp [hopen1] at hsealed
  · rw [bind_error hbit] at h
    cases h

/-- The values and the close of an X64 block, accepted from a half whose bits are already in the sink: what they append
decodes to the values under the registers they started from. -/
theorem encodeAll_x64_decodesTo {m : Config.Impl} {vs : List Word} {e e1 e2 : EncHalf} (hvs : Config.sentinel ∉ vs)
    (hvalues : encodeAll m .x64 vs e = .ok () e1) (hclose : x64Finish m e1 = .ok () e2) (hacc : e.bs.AccInv)
    (hopen : e.bs.sealed = false) (hwindow : e.x.WindowInv) :
    ∃ l, bytesBits e2.bs.buf = e.bs.bits ++ l ∧ e.x.DecodesTo l vs := by
  induction vs generalizing e with
  | nil =>
    cases hvalues
    obtain ⟨l, x', pad, hbytes, hread⟩ := x64Finish_readBack hclose hacc hopen hwindow
    exact ⟨_, hbytes, hread.decodesTo_nil pad⟩
  | cons v vs ih =>
    obtain ⟨hv, hvs⟩ := not_or.1 (List.mem_cons.not.1 hvs)
    obtain ⟨⟨⟩, e', hvalue, hvalues⟩ := bind_eq_ok hvalues
    have hput := (x64Encode_eq m v e).symm.trans hvalue
    obtain ⟨l, ⟨hbits, hseal, hacc'⟩, hread⟩ := x64Put_readBack hput hacc hopen hwindow
    have hwindow' := ((x64Encode_good m v e).ok hvalue).window hwindow
    obtain ⟨l', hbytes, hrest⟩ := ih hvs hvalues hacc' (hseal.trans hopen) hwindow'
    rw [hbits, List.append_assoc] at hbytes
    exact ⟨_, hbytes, hread.decodesTo_cons (Ne.symm hv) hrest⟩

/-! ## Whole-block commands -/

/-- A `COMPRESS` that answered bytes accepted its values and its close, and the bytes are those the close left
(`45_block_and_system.md` R217). -/
theorem compress_accepted {s t : State} {k : Codec} {vs : List Word} {data : List Byte} (hk : k ≠ .raw)
    (hexec : exec (.compress k vs) s = .next t) (hresp : t.resp = some (.bytes data)) :
    ∃ e1 e2, encodeAll s.impl k vs (s.e.opened s.cfgLog2w k) = .ok () e1 ∧
      finishWith s.impl k e1 = .ok () e2 ∧ e2.bs.buf = data := by
  have hrun : exec (.compress k vs) s =
      .next (runEnc (compressBody s.impl k vs) { s with e := s.e.opened s.cfgLog2w k }) := if_neg hk
  cases hexec.symm.trans hrun
  rcases runEnc_cases (compressBody s.impl k vs) { s with e := s.e.opened s.cfgLog2w k } with
    ⟨r, e, hbody, hnext⟩ | ⟨c, e, -, hnext⟩ <;> rw [hnext] at hresp
  · cases hresp
    obtain ⟨⟨⟩, e1, hvalues, hbody⟩ := bind_eq_ok hbody
    obtain ⟨⟨⟩, e2, hclose, hbody⟩ := bind_eq_ok hbody
    rw [bind_ok (run_get e2)] at hbody
    cases hbody
    exact ⟨e1, e, hvalues, hclose, rfl⟩
  · cases hresp

/-- A `DECOMPRESS` whose source takes the bytes answers what its loop answers where it ends, and the loop ends
(`45_block_and_system.md` R218, `70_reset_and_hazards.md` R272). -/
theorem exec_decompress_of_answer {s : State} {k : Codec} {data : List Byte} {r : Response} (hk : k ≠ .raw)
    (hcap : ∀ cap ∈ s.impl.srcCap, data.length ≤ cap)
    (hloop : ∀ fuel r' d', decodeAll s.impl fuel ((s.d.loaded data).opened s.cfgLog2w k) [] = some (r', d') → r' = r) :
    ∃ u, exec (.decompress k data) s = .next u ∧ u.resp = some r := by
  obtain ⟨r', d', hend⟩ := decompress_isSome s.impl s.d s.cfgLog2w k data hk
  obtain rfl := hloop _ _ _ hend
  exact ⟨_, exec_decompress_of_loop hk (by simp [sourceTooLong_eq_false.2 hcap]) hend, rfl⟩

/-- Settles O49: both halves open with the same X64 registers, so the block the encoder wrote from them decodes to its
values, by induction on the values. -/
theorem xorBlocksRoundTrip : Obligations.XorBlocksRoundTrip := by
  intro s t s' vs data hvs hexec hresp hcap
  obtain ⟨e1, e2, hvalues, hclose, rfl⟩ := compress_accepted (by decide) hexec hresp
  obtain ⟨l, hbytes, hdecodes⟩ :=
    encodeAll_x64_decodesTo hvs hvalues hclose (by simp [BitSink.AccInv, BitSink.reset]) rfl XorRegs.reset_windowInv
  have hunread : ((s'.d.loaded e2.bs.buf).opened s'.cfgLog2w .x64).bs.unread = l := hbytes
  exact exec_decompress_of_answer (by decide) hcap fun fuel r d' hloop =>
    hdecodes s'.impl fuel _ d' [] r rfl rfl rfl hunread hloop

end Sys2Proof.Machine

/-! PROOFS. The exact arithmetic of the erasure unit (`43_erasure.md` R152, R155): each helper against the rational its
operands stand for. The one idea: a helper's answer is the only number with its defining property, so it depends on the
rational alone and not on the numerator and denominator that stand for it. -/

namespace Sys2Proof.Machine

/-! ## Rationals -/

/-- The rational a numerator and a denominator stand for. -/
def Ratio.toRat (q : Ratio) : ℚ := q.num / q.den

theorem Ratio.toRat_pos {q : Ratio} (hn : 0 < q.num) (hd : 0 < q.den) : 0 < q.toRat :=
  div_pos (Nat.cast_pos.2 hn) (Nat.cast_pos.2 hd)

theorem Ratio.num_pos_of_toRat_pos {q : Ratio} (h : 0 < q.toRat) : 0 < q.num :=
  Nat.pos_of_ne_zero fun h0 => h.ne' (by rw [Ratio.toRat, h0, Nat.cast_zero, zero_div])

theorem Ratio.toRat_nonneg (q : Ratio) : 0 ≤ q.toRat := div_nonneg q.num.cast_nonneg q.den.cast_nonneg

@[simp] theorem Ratio.mul_toRat (a b : Ratio) : (a.mul b).toRat = a.toRat * b.toRat := by
  simp only [Ratio.mul, Ratio.toRat, Nat.cast_mul, mul_div_mul_comm]

theorem Ratio.mul_den_pos {a b : Ratio} (ha : 0 < a.den) (hb : 0 < b.den) : 0 < (a.mul b).den := Nat.mul_pos ha hb

@[simp] theorem Ratio.toRat_natCast (n : ℕ) : (Ratio.mk n 1).toRat = n := by simp [Ratio.toRat]

/-- A power with an integer exponent, written as the model writes it. -/
theorem zpow_eq_toRat (b : ℕ) (k : ℤ) :
    (if 0 ≤ k then Ratio.mk (b ^ k.toNat) 1 else ⟨1, b ^ (-k).toNat⟩).toRat = (b : ℚ) ^ k := by
  split
  · next h =>
    lift k to ℕ using h
    simp [Ratio.toRat]
  · next h =>
    obtain ⟨n, rfl⟩ : ∃ n : ℕ, k = -n := ⟨(-k).toNat, by omega⟩
    simp [Ratio.toRat]

@[simp] theorem Ratio.pow2_toRat (k : ℤ) : (Ratio.pow2 k).toRat = 2 ^ k := zpow_eq_toRat 2 k
@[simp] theorem Ratio.pow10_toRat (k : ℤ) : (Ratio.pow10 k).toRat = 10 ^ k := zpow_eq_toRat 10 k

theorem Ratio.pow2_den_pos (k : ℤ) : 0 < (Ratio.pow2 k).den := by
  unfold Ratio.pow2
  split
  · exact Nat.one_pos
  · exact Nat.two_pow_pos _

theorem Ratio.pow10_den_pos (k : ℤ) : 0 < (Ratio.pow10 k).den := by
  unfold Ratio.pow10
  split
  · exact Nat.one_pos
  · exact Nat.pow_pos (by norm_num)

theorem Ratio.le_iff {a b : Ratio} (ha : 0 < a.den) (hb : 0 < b.den) : a.le b = true ↔ a.toRat ≤ b.toRat := by
  rw [Ratio.le, decide_eq_true_iff, Ratio.toRat, Ratio.toRat,
    div_le_div_iff₀ (by exact_mod_cast ha) (by exact_mod_cast hb)]
  exact_mod_cast Iff.rfl

/-! ## Rounding to an integer -/

/-- `m` is the integer nearest to `r`, the even one of two that are equally near (`43_erasure.md` R152). -/
def NearestEven (m : ℕ) (r : ℚ) : Prop := |(m : ℚ) - r| ≤ 1 / 2 ∧ (|(m : ℚ) - r| = 1 / 2 → m % 2 = 0)

theorem NearestEven.not_lt {m n : ℕ} {r : ℚ} (hm : NearestEven m r) (hn : NearestEven n r) : ¬ m < n := by
  intro hlt
  obtain ⟨hm1, hm2⟩ := hm
  obtain ⟨hn1, hn2⟩ := hn
  rw [abs_le] at hm1 hn1
  have hcast : (m : ℚ) + 1 ≤ n := by exact_mod_cast hlt
  have hmr : (m : ℚ) - r = -(1 / 2) := by linarith
  have hnr : (n : ℚ) - r = 1 / 2 := by linarith
  have hsucc : n = m + 1 := by
    have : (n : ℚ) = m + 1 := by linarith
    exact_mod_cast this
  have hm_even := hm2 (by rw [hmr]; norm_num [abs_of_pos])
  have hn_even := hn2 (by rw [hnr]; norm_num [abs_of_pos])
  omega

theorem NearestEven.unique {m n : ℕ} {r : ℚ} (hm : NearestEven m r) (hn : NearestEven n r) : m = n :=
  Nat.le_antisymm (Nat.le_of_not_lt (hn.not_lt hm)) (Nat.le_of_not_lt (hm.not_lt hn))

/-- A rational is its quotient and its remainder over the denominator. -/
theorem Ratio.toRat_eq_div_add_mod {q : Ratio} (hd : 0 < q.den) :
    q.toRat = (q.num / q.den : ℕ) + (q.num % q.den : ℕ) / q.den := by
  have hd' : (q.den : ℚ) ≠ 0 := by exact_mod_cast hd.ne'
  rw [Ratio.toRat, div_eq_iff hd', add_mul, div_mul_cancel₀ _ hd']
  exact_mod_cast (Nat.div_add_mod' q.num q.den).symm

theorem Ratio.rne_nearestEven {q : Ratio} (hd : 0 < q.den) : NearestEven q.rne q.toRat := by
  have hlt : q.num % q.den < q.den := Nat.mod_lt _ hd
  have hd' : (0 : ℚ) < q.den := by exact_mod_cast hd
  have hup : (1 / 2 : ℚ) ≤ (q.num % q.den : ℕ) / q.den ↔ q.den ≤ 2 * (q.num % q.den) := by
    rw [le_div_iff₀ hd', one_div_mul_eq_div, div_le_iff₀ two_pos, mul_comm _ (2 : ℚ)]
    exact_mod_cast Iff.rfl
  have hdown : ((q.num % q.den : ℕ) / q.den : ℚ) ≤ 1 / 2 ↔ 2 * (q.num % q.den) ≤ q.den := by
    rw [div_le_iff₀ hd', one_div_mul_eq_div, le_div_iff₀ two_pos, mul_comm _ (2 : ℚ)]
    exact_mod_cast Iff.rfl
  have hfrac : (0 : ℚ) ≤ (q.num % q.den : ℕ) / q.den := by positivity
  have hfrac1 : ((q.num % q.den : ℕ) / q.den : ℚ) ≤ 1 := (div_le_one hd').2 (by exact_mod_cast hlt.le)
  unfold NearestEven
  rw [Ratio.toRat_eq_div_add_mod hd, Ratio.rne]
  generalize ((q.num % q.den : ℕ) / q.den : ℚ) = t at *
  split
  · next h =>
    have ht : 1 / 2 ≤ t := hup.2 (by omega)
    rw [Nat.cast_add_one, add_sub_add_left_eq_sub, abs_of_nonneg (by linarith)]
    refine ⟨by linarith, fun heq => ?_⟩
    have := hdown.1 (by linarith)
    omega
  · next h =>
    have ht : t ≤ 1 / 2 := hdown.2 (by omega)
    rw [sub_add_cancel_left, abs_neg, abs_of_nonneg hfrac]
    refine ⟨ht, fun heq => ?_⟩
    have := hup.1 heq.ge
    omega

theorem Ratio.ceil_eq {q : Ratio} (hd : 0 < q.den) : q.ceil = ⌈q.toRat⌉₊ := by
  refine eq_of_forall_ge_iff fun c => ?_
  rw [Ratio.ceil, ← Nat.add_sub_assoc hd, ← Nat.ceilDiv_eq_add_pred_div, ceilDiv_le_iff_le_mul hd, Nat.ceil_le,
    Ratio.toRat, div_le_iff₀' (by exact_mod_cast hd)]
  exact_mod_cast Iff.rfl

/-! ## Powers of ten and of two -/

theorem log10UpTo_eq_log {fuel n : ℕ} (h : Nat.log 10 n ≤ fuel) : log10UpTo fuel n = Nat.log 10 n := by
  induction fuel generalizing n with
  | zero => exact (Nat.le_zero.1 h).symm
  | succ fuel ih =>
    rw [log10UpTo]
    split
    · next hlt => exact (Nat.log_of_lt hlt).symm
    · next hge =>
      rw [Nat.log_of_one_lt_of_le (by norm_num) (Nat.le_of_not_lt hge)] at h ⊢
      rw [ih (Nat.le_of_succ_le_succ h)]

theorem log10Floor_eq_log (n : ℕ) : log10Floor n = Nat.log 10 n :=
  log10UpTo_eq_log (by rw [Nat.log2_eq_log_two]; exact Nat.log_anti_left (by norm_num) (by norm_num))

theorem digits_eq_log (n : ℕ) : digits n = Nat.log 10 n + 1 := by rw [digits, log10Floor_eq_log]

/-- `DIGITS(n)` is the number of decimal digits (`43_erasure.md` R152). -/
theorem pow_digits {n : ℕ} (h : 1 ≤ n) : 10 ^ (digits n - 1) ≤ n ∧ n < 10 ^ digits n := by
  rw [digits_eq_log, Nat.add_sub_cancel]
  exact ⟨Nat.pow_log_le_self 10 (Nat.one_le_iff_ne_zero.1 h), Nat.lt_pow_succ_log_self (by norm_num) n⟩

theorem isPow10_iff (n : ℕ) : isPow10 n = true ↔ ∃ k, n = 10 ^ k := by
  rw [isPow10, beq_iff_eq, log10Floor_eq_log]
  constructor
  · exact fun h => ⟨_, h⟩
  · rintro ⟨k, rfl⟩
    rw [Nat.log_pow (by norm_num)]

/-- `DSCALE` is the binary logarithm of `10^alpha`, rounded up (`43_erasure.md` R155). -/
theorem dscale_eq_clog (alpha : ℕ) : dscale alpha = Nat.clog 2 (10 ^ alpha) := by
  refine eq_of_forall_ge_iff fun k => ?_
  rw [dscale, Nat.clog_le_iff_le_pow Nat.one_lt_two]
  split
  · next h => simp [h, Nat.one_le_two_pow]
  · next h =>
    have hpow : 1 < 10 ^ alpha := Nat.one_lt_pow h (by norm_num)
    rw [Nat.succ_le_iff, Nat.log2_lt (by omega)]
    omega

/-- The search for the least scale finds it where its bound admits it. -/
theorem scaleUpTo_le_iff {fuel num den j : ℕ} (h : den ≤ num * 10 ^ fuel) :
    scaleUpTo fuel num den ≤ j ↔ den ≤ num * 10 ^ j := by
  induction fuel generalizing num j with
  | zero => simpa [scaleUpTo] using (by simpa using h : den ≤ num).trans (Nat.le_mul_of_pos_right num (by positivity))
  | succ fuel ih =>
    rw [Nat.pow_succ', ← Nat.mul_assoc] at h
    rw [scaleUpTo]
    split
    · next hle => simpa using hle.trans (Nat.le_mul_of_pos_right num (by positivity))
    · next hlt =>
      cases j with
      | zero => simpa using hlt
      | succ j => rw [Nat.add_le_add_iff_right, ih h, Nat.pow_succ', ← Nat.mul_assoc]

/-- `SP` is the decimal logarithm, rounded down (`43_erasure.md` R152). -/
theorem Ratio.sp_eq_log {q : Ratio} (hn : 0 < q.num) (hd : 0 < q.den) : q.sp = Int.log 10 q.toRat := by
  have hn' : (0 : ℚ) < q.num := by exact_mod_cast hn
  have hd' : (0 : ℚ) < q.den := by exact_mod_cast hd
  rw [Ratio.sp]
  split
  · next hle =>
    have hone : 1 ≤ q.toRat := (one_le_div hd').2 (by exact_mod_cast hle)
    rw [Int.log_of_one_le_right 10 hone, Ratio.toRat, Nat.floor_div_eq_div, log10Floor_eq_log]
  · next hlt =>
    have hone : q.toRat ≤ 1 := (div_le_one hd').2 (by exact_mod_cast (Nat.lt_of_not_le hlt).le)
    have hbound : q.den ≤ q.num * 10 ^ (Nat.log2 q.den + 1) :=
      calc q.den ≤ 2 ^ (Nat.log2 q.den + 1) := Nat.lt_log2_self.le
        _ ≤ 10 ^ (Nat.log2 q.den + 1) := Nat.pow_le_pow_left (by norm_num) _
        _ ≤ q.num * 10 ^ (Nat.log2 q.den + 1) := Nat.le_mul_of_pos_left _ hn
    rw [Int.log_of_right_le_one 10 hone, neg_inj, Nat.cast_inj]
    refine eq_of_forall_ge_iff fun j => ?_
    rw [scaleUpTo_le_iff hbound, Nat.clog_le_iff_le_pow (by norm_num), Nat.ceil_le, Ratio.toRat, inv_div,
      div_le_iff₀' hn']
    exact_mod_cast Iff.rfl

/-- A number lies between the powers of two its bit length names. -/
theorem two_pow_log2_bounds {n : ℕ} (h : 0 < n) :
    (2 : ℚ) ^ (Nat.log2 n : ℤ) ≤ n ∧ (n : ℚ) < 2 ^ (Nat.log2 n + 1 : ℤ) := by
  constructor
  · exact_mod_cast Nat.log2_self_le h.ne'
  · exact_mod_cast Nat.lt_log2_self (n := n)

theorem Ratio.log2Floor_eq_log {q : Ratio} (hn : 0 < q.num) (hd : 0 < q.den) :
    q.log2Floor = Int.log 2 q.toRat := by
  have hd' : (0 : ℚ) < q.den := by exact_mod_cast hd
  have hr := Ratio.toRat_pos hn hd
  obtain ⟨hnum, hnum'⟩ := two_pow_log2_bounds hn
  obtain ⟨hden, hden'⟩ := two_pow_log2_bounds hd
  have hlow : (Nat.log2 q.num : ℤ) - Nat.log2 q.den - 1 ≤ Int.log 2 q.toRat := by
    rw [← Int.zpow_le_iff_le_log one_lt_two hr, Ratio.toRat, le_div_iff₀ hd', Nat.cast_ofNat]
    calc (2 : ℚ) ^ ((Nat.log2 q.num : ℤ) - Nat.log2 q.den - 1) * q.den
        ≤ 2 ^ ((Nat.log2 q.num : ℤ) - Nat.log2 q.den - 1) * 2 ^ (Nat.log2 q.den + 1 : ℤ) := by gcongr
      _ = 2 ^ (Nat.log2 q.num : ℤ) := by rw [← zpow_add₀ two_ne_zero]; congr 1; ring
      _ ≤ q.num := hnum
  have hhigh : Int.log 2 q.toRat < (Nat.log2 q.num : ℤ) - Nat.log2 q.den + 1 := by
    rw [← Int.lt_zpow_iff_log_lt one_lt_two hr, Ratio.toRat, div_lt_iff₀ hd', Nat.cast_ofNat]
    calc (q.num : ℚ) < 2 ^ (Nat.log2 q.num + 1 : ℤ) := hnum'
      _ = 2 ^ ((Nat.log2 q.num : ℤ) - Nat.log2 q.den + 1) * 2 ^ (Nat.log2 q.den : ℤ) := by
        rw [← zpow_add₀ two_ne_zero]; congr 1; ring
      _ ≤ 2 ^ ((Nat.log2 q.num : ℤ) - Nat.log2 q.den + 1) * q.den := by gcongr
  have htest : (Ratio.pow2 ((Nat.log2 q.num : ℤ) - Nat.log2 q.den)).le q = true ↔
      (Nat.log2 q.num : ℤ) - Nat.log2 q.den ≤ Int.log 2 q.toRat := by
    rw [Ratio.le_iff (Ratio.pow2_den_pos _) hd, Ratio.pow2_toRat]
    exact_mod_cast Int.zpow_le_iff_le_log one_lt_two hr
  simp only [Ratio.log2Floor, htest]
  split <;> omega

/-! ## Rounding to a double -/

/-- Exponent and significand of the double nearest to `r`, before the carry of a significand that rounds up to `2^53`
(`43_erasure.md` R152). -/
def NearestDouble (r : ℚ) (e : ℤ) (m : ℕ) : Prop :=
  e = max (Int.log 2 r) (-1022) ∧ NearestEven m (r * 2 ^ (52 - e))

theorem NearestDouble.unique {r : ℚ} {e e' : ℤ} {m m' : ℕ} (h : NearestDouble r e m)
    (h' : NearestDouble r e' m') : e = e' ∧ m = m' := by
  obtain ⟨he, hm⟩ := h
  obtain ⟨he', hm'⟩ := h'
  obtain rfl := he.trans he'.symm
  exact ⟨rfl, hm.unique hm'⟩

theorem NearestDouble.le {r : ℚ} {e : ℤ} {m : ℕ} (hr : 0 < r) (h : NearestDouble r e m) : m ≤ 2 ^ 53 := by
  obtain ⟨he, hm, -⟩ := h
  have hlt : r * 2 ^ (52 - e) < 2 ^ 53 :=
    calc r * 2 ^ (52 - e) < 2 ^ (e + 1) * 2 ^ (52 - e) := by
          have hlog : Int.log 2 r < e + 1 := by omega
          have := (Int.lt_zpow_iff_log_lt one_lt_two hr).2 hlog
          rw [Nat.cast_ofNat] at this
          gcongr
      _ = 2 ^ 53 := by rw [← zpow_add₀ two_ne_zero, show e + 1 + (52 - e) = 53 by ring]; rfl
  have hcast : (m : ℚ) < (2 ^ 53 : ℕ) + 1 := by
    rw [abs_le] at hm
    push_cast
    linarith
  exact Nat.lt_succ_iff.1 (by exact_mod_cast hcast)

/-- Above the subnormal range the significand has its leading bit. -/
theorem NearestDouble.ge {r : ℚ} {e : ℤ} {m : ℕ} (hr : 0 < r) (h : NearestDouble r e m) (hnormal : -1022 < e) :
    2 ^ 52 ≤ m := by
  obtain ⟨he, hm, -⟩ := h
  have hge : 2 ^ 52 ≤ r * 2 ^ (52 - e) :=
    calc (2 : ℚ) ^ 52 = 2 ^ e * 2 ^ (52 - e) := by rw [← zpow_add₀ two_ne_zero]; norm_num
      _ ≤ r * 2 ^ (52 - e) := by
          have hlog : e ≤ Int.log 2 r := by omega
          have := (Int.zpow_le_iff_le_log one_lt_two hr).2 hlog
          rw [Nat.cast_ofNat] at this
          gcongr
  have hcast : ((2 ^ 52 : ℕ) : ℚ) < m + 1 := by
    rw [abs_le] at hm
    push_cast
    linarith
  exact Nat.lt_succ_iff.1 (by exact_mod_cast hcast)

/-- The pattern of a significand that needs no carry. -/
def doubleBits (e : ℤ) (m : ℕ) : Word :=
  if e > 1023 then 0x7FF0000000000000 else BitVec.ofNat 64 ((e + 1022).toNat * 2 ^ 52 + m)

theorem doubleBits_of_gt {e : ℤ} (h : 1023 < e) (m : ℕ) : doubleBits e m = 0x7FF0000000000000 := if_pos h

theorem doubleBits_toNat {e : ℤ} {m : ℕ} (hlow : -1022 ≤ e) (hhigh : e ≤ 1023) (hm : m ≤ 2 ^ 53) :
    ((doubleBits e m).toNat : ℤ) = (e + 1022) * 2 ^ 52 + m := by
  rw [doubleBits, if_neg (by omega), BitVec.toNat_ofNat, Nat.mod_eq_of_lt (by omega)]
  push_cast
  rw [Int.toNat_of_nonneg (by omega)]

theorem Ratio.toF64_of_num_eq_zero {q : Ratio} (h : q.num = 0) : q.toF64 = 0 := by rw [Ratio.toF64, if_pos h]

/-- `TOF64` (`43_erasure.md` R152). -/
theorem Ratio.toF64_spec {q : Ratio} (hn : 0 < q.num) (hd : 0 < q.den) :
    ∃ e m, NearestDouble q.toRat e m ∧
      q.toF64 = if m = 2 ^ 53 then doubleBits (e + 1) (2 ^ 52) else doubleBits e m := by
  have hround := Ratio.rne_nearestEven (q := q.mul (Ratio.pow2 (52 - max q.log2Floor (-1022))))
    (Ratio.mul_den_pos hd (Ratio.pow2_den_pos _))
  rw [Ratio.mul_toRat, Ratio.pow2_toRat] at hround
  refine ⟨max q.log2Floor (-1022), _, ⟨by rw [Ratio.log2Floor_eq_log hn hd], hround⟩, ?_⟩
  rw [Ratio.toF64, if_neg hn.ne']
  by_cases hcarry : (q.mul (Ratio.pow2 (52 - max q.log2Floor (-1022)))).rne = 2 ^ 53
  · simp only [if_pos hcarry]
    rfl
  · simp only [if_neg hcarry]
    rfl

/-- `TOF64` depends on the rational alone. -/
theorem Ratio.toF64_congr {q q' : Ratio} (hd : 0 < q.den) (hd' : 0 < q'.den) (h : q.toRat = q'.toRat) :
    q.toF64 = q'.toF64 := by
  rcases Nat.eq_zero_or_pos q.num with h0 | hn
  · have h0' : q'.num = 0 := by
      by_contra hne
      have := Ratio.toRat_pos (Nat.pos_of_ne_zero hne) hd'
      rw [← h, Ratio.toRat, h0, Nat.cast_zero, zero_div] at this
      exact this.false
    rw [Ratio.toF64_of_num_eq_zero h0, Ratio.toF64_of_num_eq_zero h0']
  · have hn' : 0 < q'.num := Ratio.num_pos_of_toRat_pos (h ▸ Ratio.toRat_pos hn hd)
    obtain ⟨e, m, hround, heq⟩ := Ratio.toF64_spec hn hd
    obtain ⟨e', m', hround', heq'⟩ := Ratio.toF64_spec hn' hd'
    obtain ⟨rfl, rfl⟩ := hround.unique (h ▸ hround')
    rw [heq, heq']

/-! ## Patterns -/

/-- `ABS(p)` (`43_erasure.md` R152). -/
theorem absRatio_toRat (p : Word) :
    (absRatio p).toRat = ((2 ^ 52 + mantField p : ℕ) : ℚ) * 2 ^ ((expField p : ℤ) - 1075) := by
  rw [absRatio, Ratio.mul_toRat, Ratio.toRat_natCast, Ratio.pow2_toRat]

theorem absRatio_den_pos (p : Word) : 0 < (absRatio p).den := Ratio.mul_den_pos Nat.one_pos (Ratio.pow2_den_pos _)

theorem absRatio_pos (p : Word) : 0 < (absRatio p).toRat := by rw [absRatio_toRat]; positivity

theorem absRatio_num_pos (p : Word) : 0 < (absRatio p).num := Ratio.num_pos_of_toRat_pos (absRatio_pos p)

theorem magField_toNat (p : Word) : (magField p).toNat = p.toNat % 2 ^ 63 := by
  rw [magField, BitVec.toNat_and]
  exact Nat.and_two_pow_sub_one_eq_mod p.toNat 63

/-- Settles O31: each helper by its own lemma. -/
theorem exactHelpersMeetTheirDefinitions : Obligations.ExactHelpersMeetTheirDefinitions := by
  refine ⟨fun p _ => ⟨absRatio_den_pos p, absRatio_toRat p⟩, ?dscale, fun p => ⟨magField_toNat p, rfl⟩, ?sp,
    ?round, fun n hn => ⟨(pow_digits hn).1, (pow_digits hn).2, isPow10_iff n⟩, ?toF64⟩
  case dscale =>
    intro alpha
    rw [dscale_eq_clog]
    exact ⟨Nat.le_pow_clog Nat.one_lt_two _, fun k => Nat.clog_le_of_le_pow⟩
  case sp =>
    intro q hn hd
    rw [Ratio.sp_eq_log hn hd]
    exact ⟨by exact_mod_cast Int.zpow_log_le_self (b := 10) (by norm_num) (Ratio.toRat_pos hn hd),
      by exact_mod_cast Int.lt_zpow_succ_log_self (b := 10) (by norm_num) q.toRat⟩
  case round =>
    intro q hd
    obtain ⟨hhalf, htie⟩ := Ratio.rne_nearestEven hd
    rw [Ratio.ceil_eq hd]
    exact ⟨hhalf, htie, Nat.le_ceil q.toRat, Nat.ceil_lt_add_one q.toRat_nonneg⟩
  case toF64 =>
    intro q hd
    refine ⟨Ratio.toF64_of_num_eq_zero, fun hn => ?_⟩
    have hr := Ratio.toRat_pos hn hd
    obtain ⟨e, m, hround, heq⟩ := Ratio.toF64_spec hn hd
    have hm := hround.le hr
    obtain ⟨he, hhalf, htie⟩ := hround
    refine ⟨e, Int.log 2 q.toRat, m, by exact_mod_cast Int.zpow_log_le_self (b := 2) one_lt_two hr,
      by exact_mod_cast Int.lt_zpow_succ_log_self (b := 2) one_lt_two q.toRat, he, hhalf, htie,
      fun hcarry => ?carry, fun hno => ?noCarry⟩
    case carry =>
      rw [heq, if_pos hcarry]
      exact ⟨fun hbig => doubleBits_of_gt hbig _, fun hfit => doubleBits_toNat (by omega) hfit (by norm_num)⟩
    case noCarry =>
      rw [heq, if_neg hno]
      exact ⟨fun hbig => doubleBits_of_gt hbig _, fun hfit => doubleBits_toNat (by omega) hfit hm⟩

end Sys2Proof.Machine

/-! PROOFS. The precision search and erasure correctness (`43_erasure.md` R153 to R156, R165, R167). The one idea of the
recovery: erasing takes away at least one unit in the last place and less than one unit of the decimal's last digit, so
the erased magnitude lies strictly between the decimal and the one before it, and rounding up gives the decimal back. -/

namespace Sys2Proof.Machine

/-! ## Profile -/

theorem searchFrom_eq_find (p : Word) (count i : ℕ) :
    searchFrom p count i = (List.range' i count).find? (qualifies p) := by
  induction count generalizing i with
  | zero => rfl
  | succ count ih =>
    rw [searchFrom, List.range'_succ, List.find?_cons, ih]
    cases qualifies p i <;> rfl

theorem qualifies_iff (p : Word) (i : ℕ) :
    qualifies p i = true ↔ 1 ≤ scaledInt (absRatio p) i ∧
      Ratio.toF64 ⟨scaledInt (absRatio p) i, 10 ^ i⟩ = magField p := by
  simp [qualifies]

theorem profile_of_least {p : Word} {i : ℕ} (hbound : i ≤ searchBound p) (hq : qualifies p i = true)
    (hleast : ∀ j < i, ¬ qualifies p j = true) :
    profile p = (i, betaStarOf (scaledInt (absRatio p) i)) := by
  have hsearch : searchFrom p (searchBound p + 1) 0 = some i := by
    rw [searchFrom_eq_find, List.find?_range'_eq_some]
    exact ⟨hq, by simp; omega, fun j _ hj => by simpa using hleast j hj⟩
  rw [profile, hsearch]

theorem profile_of_none {p : Word} (h : ∀ i ≤ searchBound p, ¬ qualifies p i = true) :
    profile p = (searchBound p, 17) := by
  have hsearch : searchFrom p (searchBound p + 1) 0 = none := by
    rw [searchFrom_eq_find, List.find?_range'_eq_none]
    exact fun i _ hi => by simpa using h i (by omega)
  rw [profile, hsearch]
  rfl

/-- Settles O32: the search is for the first qualifying number of places in order. -/
theorem profileIsTheLeastDecimal : Obligations.ProfileIsTheLeastDecimal := by
  intro p imax n _ himax hn
  have hbound : searchBound p = imax := by
    rw [searchBound]
    omega
  obtain rfl : n = scaledInt (absRatio p) := funext hn
  simp only [← qualifies_iff, ← hbound]
  refine ⟨fun i hi hq hleast => ?_, profile_of_none⟩
  rw [profile_of_least hi hq hleast]
  exact ⟨rfl, rfl⟩

/-- A profile of at most 16 digits is that of a qualifying decimal. -/
theorem qualifies_of_profile {p : Word} (h : (profile p).2 ≠ 17) :
    qualifies p (profile p).1 = true ∧ (profile p).2 = betaStarOf (scaledInt (absRatio p) (profile p).1) := by
  rw [profile] at h ⊢
  cases hsearch : searchFrom p (searchBound p + 1) 0 with
  | none => exact absurd (by rw [hsearch]; rfl) h
  | some i =>
    rw [searchFrom_eq_find] at hsearch
    exact ⟨List.find?_some hsearch, rfl⟩

/-! ## The parts of a pattern -/

theorem classOf_eq_normal_iff (p : Word) : classOf p = .normal ↔ expField p ≠ 0 ∧ expField p ≠ 2047 := by
  unfold classOf
  by_cases h0 : expField p = 0
  · rw [if_pos h0]
    split <;> simp [h0]
  by_cases hinf : expField p = 2047
  · rw [if_neg h0, if_pos hinf]
    split <;> simp [hinf]
  · simp [h0, hinf]

theorem expField_lt (p : Word) : expField p < 2048 := Nat.mod_lt _ (by norm_num)

theorem mantField_lt (p : Word) : mantField p < 2 ^ 52 := Nat.mod_lt _ (by norm_num)

theorem magField_toNat_eq (p : Word) : (magField p).toNat = expField p * 2 ^ 52 + mantField p := by
  rw [magField_toNat, expField, mantField]
  omega

/-- `p` with its low `k` bits zero (`43_erasure.md` R156). -/
def clearLow (p : Word) (k : ℕ) : Word := p &&& ~~~ BitVec.ofNat 64 (2 ^ k - 1)

theorem erased_eq_clearLow (p : Word) : erased p = clearLow p (eraseBits p).toNat := rfl

theorem clearLow_eq_shift (p : Word) (k : ℕ) : clearLow p k = shl64 (shr p k) k := by
  apply BitVec.eq_of_getLsbD_eq
  intro i hi
  simp only [clearLow, shl64, shr, BitVec.getLsbD_and, BitVec.getLsbD_not, BitVec.getLsbD_ofNat, hi,
    Nat.testBit_two_pow_sub_one, BitVec.getLsbD_shiftLeft, BitVec.getLsbD_ushiftRight, decide_true, Bool.true_and]
  by_cases hik : i < k
  · simp [hik]
  · simp [hik, Nat.add_sub_cancel' (Nat.le_of_not_lt hik)]

theorem clearLow_toNat (p : Word) (k : ℕ) : (clearLow p k).toNat = p.toNat / 2 ^ k * 2 ^ k := by
  rw [clearLow_eq_shift, shl64_toNat, shr_toNat, Nat.mod_eq_of_lt]
  exact (Nat.div_mul_le_self _ _).trans_lt p.isLt

theorem clearLow_add_mod (p : Word) (k : ℕ) : (clearLow p k).toNat + p.toNat % 2 ^ k = p.toNat := by
  rw [clearLow_toNat, Nat.div_add_mod']

/-- What stands above the cleared bits is as it was. -/
theorem clearLow_div (p : Word) {k j : ℕ} (h : k ≤ j) : (clearLow p k).toNat / 2 ^ j = p.toNat / 2 ^ j := by
  rw [clearLow_toNat, ← Nat.add_sub_cancel' h, Nat.pow_add, ← Nat.div_div_eq_div_mul, ← Nat.div_div_eq_div_mul,
    Nat.mul_div_cancel _ (Nat.two_pow_pos k)]

theorem expField_clearLow (p : Word) {k : ℕ} (h : k ≤ 52) : expField (clearLow p k) = expField p := by
  rw [expField, clearLow_div p h, expField]

theorem mantField_clearLow (p : Word) {k : ℕ} (h : k ≤ 52) :
    mantField (clearLow p k) + p.toNat % 2 ^ k = mantField p := by
  have hdiv := clearLow_div p h
  have hadd := clearLow_add_mod p k
  rw [mantField, mantField]
  omega

theorem signField_eq_clearLow (p : Word) : signField p = clearLow p 63 := by
  rw [signField, clearLow]
  congr 1

theorem signField_clearLow (p : Word) {k : ℕ} (h : k ≤ 63) : signField (clearLow p k) = signField p := by
  apply BitVec.eq_of_toNat_eq
  rw [signField_eq_clearLow, signField_eq_clearLow, clearLow_toNat _ 63, clearLow_div p h, clearLow_toNat]

theorem signField_or_magField (p : Word) : signField p ||| magField p = p := by
  rw [signField, magField, ← BitVec.and_or_distrib_left]
  exact BitVec.and_allOnes

/-! ## The neighbourhood a pattern is rounded from -/

/-- The unit in the last place of a NORMAL pattern. -/
def ulp (p : Word) : ℚ := 2 ^ ((expField p : ℤ) - 1075)

theorem ulp_pos (p : Word) : 0 < ulp p := zpow_pos two_pos _

theorem absRatio_eq_ulp (p : Word) : (absRatio p).toRat = ((2 ^ 52 + mantField p : ℕ) : ℚ) * ulp p :=
  absRatio_toRat p

theorem absRatio_bounds (p : Word) :
    2 ^ 52 * ulp p ≤ (absRatio p).toRat ∧ (absRatio p).toRat ≤ 2 ^ 53 * ulp p := by
  have hlow : (2 ^ 52 : ℚ) ≤ (2 ^ 52 + mantField p : ℕ) := by exact_mod_cast Nat.le_add_right _ _
  have hhigh : ((2 ^ 52 + mantField p : ℕ) : ℚ) ≤ 2 ^ 53 := by
    have hle : 2 ^ 52 + mantField p ≤ 2 ^ 53 := by have := mantField_lt p; omega
    exact_mod_cast hle
  rw [absRatio_eq_ulp]
  exact ⟨mul_le_mul_of_nonneg_right hlow (ulp_pos p).le, mul_le_mul_of_nonneg_right hhigh (ulp_pos p).le⟩

/-- A rational that rounds to a NORMAL pattern other than a power of two has the pattern's exponent and significand: no
carry, no infinity, no subnormal has a mantissa that is not 0 under a NORMAL exponent. -/
theorem toF64_nearestDouble {p : Word} {q : Ratio} (hp : classOf p = .normal) (hm : mantField p ≠ 0) (hd : 0 < q.den)
    (h : q.toF64 = magField p) : NearestDouble q.toRat ((expField p : ℤ) - 1023) (2 ^ 52 + mantField p) := by
  obtain ⟨hexp0, hexp⟩ := (classOf_eq_normal_iff p).1 hp
  have hexp_lt := expField_lt p
  have hmant_lt := mantField_lt p
  have hmag : q.toF64.toNat = expField p * 2 ^ 52 + mantField p := by rw [h, magField_toNat_eq]
  have hinf : (0x7FF0000000000000 : Word).toNat = 2047 * 2 ^ 52 := rfl
  have hn : 0 < q.num := by
    by_contra h0
    have hzero : (0 : Word).toNat = 0 := rfl
    rw [Ratio.toF64_of_num_eq_zero (by omega), hzero] at hmag
    omega
  obtain ⟨e, m, hround, heq⟩ := Ratio.toF64_spec hn hd
  have hle := hround.le (Ratio.toRat_pos hn hd)
  have hge := hround.ge (Ratio.toRat_pos hn hd)
  have hlow : -1022 ≤ e := hround.1 ▸ le_max_right _ _
  rw [heq] at hmag
  have hparts : (expField p : ℤ) - 1023 = e ∧ 2 ^ 52 + mantField p = m := by
    split at hmag
    · next hcarry =>
      exfalso
      rcases lt_or_ge 1023 (e + 1) with hbig | hfit
      · rw [doubleBits_of_gt hbig, hinf] at hmag
        omega
      · have hbits := doubleBits_toNat (m := 2 ^ 52) (by omega) hfit (by norm_num)
        omega
    · next hno =>
      rcases lt_or_ge 1023 e with hbig | hfit
      · rw [doubleBits_of_gt hbig, hinf] at hmag
        omega
      · have hbits := doubleBits_toNat hlow hfit hle
        omega
  rwa [hparts.1, hparts.2]

/-- A rational that rounds to a NORMAL pattern other than a power of two is within half a unit of it. -/
theorem toF64_near {p : Word} {q : Ratio} (hp : classOf p = .normal) (hm : mantField p ≠ 0) (hd : 0 < q.den)
    (h : q.toF64 = magField p) : |(absRatio p).toRat - q.toRat| ≤ ulp p / 2 := by
  obtain ⟨-, hhalf, -⟩ := toF64_nearestDouble hp hm hd h
  have hscale : (2 : ℚ) ^ (52 - ((expField p : ℤ) - 1023)) * ulp p = 1 := by
    rw [ulp, ← zpow_add₀ two_ne_zero, show 52 - ((expField p : ℤ) - 1023) + (expField p - 1075) = 0 by ring,
      zpow_zero]
  have hdiff : (absRatio p).toRat - q.toRat =
      (((2 ^ 52 + mantField p : ℕ) : ℚ) - q.toRat * 2 ^ (52 - ((expField p : ℤ) - 1023))) * ulp p := by
    rw [sub_mul, mul_assoc, hscale, mul_one, absRatio_eq_ulp]
  rw [hdiff, abs_mul, abs_of_pos (ulp_pos p), div_eq_inv_mul, ← one_div]
  exact mul_le_mul_of_nonneg_right hhalf (ulp_pos p).le

/-! ## Recovery -/

section
variable {p : Word} {eb : ℤ}

/-- What erasing takes off the magnitude: at least one unit in the last place, and one unit less than a unit of the
decimal's last digit at most (`43_erasure.md` R155, R156). -/
theorem erased_gap (ht : ErasureTaken p eb) :
    (absRatio (clearLow p eb.toNat)).toRat + ulp p ≤ (absRatio p).toRat ∧
      (absRatio p).toRat + ulp p ≤ (absRatio (clearLow p eb.toNat)).toRat + (10 ^ (profile p).1)⁻¹ := by
  obtain ⟨heb, -, h4, h52, hlow⟩ := ht
  have hk : eb.toNat ≤ 52 := by omega
  have hc := Nat.mod_lt p.toNat (Nat.two_pow_pos eb.toNat)
  have hmant := mantField_clearLow p hk
  have hdiff : (absRatio p).toRat =
      (absRatio (clearLow p eb.toNat)).toRat + (p.toNat % 2 ^ eb.toNat : ℕ) * ulp p := by
    rw [absRatio_eq_ulp, absRatio_eq_ulp, ← hmant, ulp, ulp, expField_clearLow p hk]
    push_cast
    ring
  have hone : (1 : ℚ) ≤ (p.toNat % 2 ^ eb.toNat : ℕ) := by exact_mod_cast Nat.one_le_iff_ne_zero.2 hlow
  have hlast : ((p.toNat % 2 ^ eb.toNat : ℕ) : ℚ) + 1 ≤ 2 ^ eb := by
    rw [← Int.toNat_of_nonneg (show 0 ≤ eb by omega), zpow_natCast]
    exact_mod_cast hc
  have hunit : (2 : ℚ) ^ eb * ulp p ≤ (10 ^ (profile p).1)⁻¹ := by
    rw [ulp, ← zpow_add₀ two_ne_zero, heb]
    rw [show 52 - ((dscale (profile p).1 : ℤ) + expField p - 1023) + (expField p - 1075) =
      -(dscale (profile p).1 : ℤ) by ring, zpow_neg, zpow_natCast]
    refine inv_anti₀ (by positivity) ?_
    rw [dscale_eq_clog]
    exact_mod_cast Nat.le_pow_clog Nat.one_lt_two (10 ^ (profile p).1)
  have hfirst := mul_le_mul_of_nonneg_right hone (ulp_pos p).le
  have hall := mul_le_mul_of_nonneg_right hlast (ulp_pos p).le
  rw [hdiff]
  constructor <;> linarith

/-- A pattern that is erased is no power of two: a low bit of its mantissa is set. -/
theorem mantField_ne_zero_of_erasureTaken (ht : ErasureTaken p eb) : mantField p ≠ 0 := by
  obtain ⟨-, -, -, h52, hlow⟩ := ht
  have := mantField_clearLow p (k := eb.toNat) (by omega)
  omega

theorem expField_erased (ht : ErasureTaken p eb) : expField (clearLow p eb.toNat) = expField p := by
  obtain ⟨-, -, -, h52, -⟩ := ht
  exact expField_clearLow p (by omega)

/-- The decimal of an erased pattern, as a rational. -/
def decimalOf (p : Word) : ℚ := scaledInt (absRatio p) (profile p).1 / 10 ^ (profile p).1

theorem decimalOf_eq_toRat (p : Word) :
    decimalOf p = (Ratio.mk (scaledInt (absRatio p) (profile p).1) (10 ^ (profile p).1)).toRat := by
  simp [Ratio.toRat, decimalOf]

theorem profile_decimal (ht : ErasureTaken p eb) :
    1 ≤ scaledInt (absRatio p) (profile p).1 ∧
      Ratio.toF64 ⟨scaledInt (absRatio p) (profile p).1, 10 ^ (profile p).1⟩ = magField p ∧
      (profile p).2 = betaStarOf (scaledInt (absRatio p) (profile p).1) := by
  obtain ⟨-, h15, -⟩ := ht
  obtain ⟨hq, hbeta⟩ := qualifies_of_profile (p := p) (by omega)
  obtain ⟨hone, hround⟩ := (qualifies_iff p _).1 hq
  exact ⟨hone, hround, hbeta⟩

/-- The decimal is within half a unit in the last place of the value. -/
theorem decimalOf_near (hp : classOf p = .normal) (ht : ErasureTaken p eb) :
    |(absRatio p).toRat - decimalOf p| ≤ ulp p / 2 := by
  obtain ⟨-, hround, -⟩ := profile_decimal ht
  rw [decimalOf_eq_toRat]
  exact toF64_near hp (mantField_ne_zero_of_erasureTaken ht) (Nat.pow_pos (by norm_num)) hround

/-- The erased magnitude lies strictly between the decimal and the one before it. -/
theorem erased_between (hp : classOf p = .normal) (ht : ErasureTaken p eb) :
    decimalOf p - (10 ^ (profile p).1)⁻¹ < (absRatio (clearLow p eb.toNat)).toRat ∧
      (absRatio (clearLow p eb.toNat)).toRat < decimalOf p := by
  obtain ⟨hnear, hnear'⟩ := abs_le.1 (decimalOf_near hp ht)
  obtain ⟨hgap, hgap'⟩ := erased_gap ht
  have hulp := ulp_pos p
  constructor <;> linarith

/-- Erasing keeps the leading bit, so the decimal is less than ten times the erased magnitude. -/
theorem decimalOf_lt_ten_mul (hp : classOf p = .normal) (ht : ErasureTaken p eb) :
    decimalOf p < 10 * (absRatio (clearLow p eb.toNat)).toRat := by
  obtain ⟨hnear, -⟩ := abs_le.1 (decimalOf_near hp ht)
  obtain ⟨-, hvalue⟩ := absRatio_bounds p
  obtain ⟨herased, -⟩ := absRatio_bounds (clearLow p eb.toNat)
  have hulp_eq : ulp (clearLow p eb.toNat) = ulp p := by rw [ulp, expField_erased ht, ulp]
  rw [hulp_eq] at herased
  have hulp := ulp_pos p
  linarith

/-- A betaStar that is announced fits its register. -/
theorem betaStar_toNat {b : ℕ} (h : b ≤ 15) : (BitVec.ofNat 4 b).toNat = b := by
  rw [BitVec.toNat_ofNat, Nat.mod_eq_of_lt (by omega)]

/-- The two forms of `Recover` (`43_erasure.md` R165). -/
theorem recover_zero (v : Word) : recover v 0 = signField v ||| (Ratio.pow10 ((absRatio v).sp + 1)).toF64 := rfl

theorem recover_of_ne_zero {v : Word} {bs : BitVec 4} (h : bs ≠ 0) {alpha : ℤ}
    (ha : alpha = (bs.toNat : ℤ) - (absRatio v).sp - 1) :
    recover v bs = signField v |||
      ((Ratio.mk ((absRatio v).mul (Ratio.pow10 alpha)).ceil 1).mul (Ratio.pow10 (-alpha))).toF64 := by
  subst ha
  simp only [recover, if_neg h]

theorem sp_eq_of_bounds {v : Word} {k : ℤ} (hlow : (10 : ℚ) ^ k ≤ (absRatio v).toRat)
    (hhigh : (absRatio v).toRat < 10 ^ (k + 1)) : (absRatio v).sp = k := by
  rw [Ratio.sp_eq_log (absRatio_num_pos v) (absRatio_den_pos v)]
  have hle := (Int.zpow_le_iff_le_log (b := 10) (by norm_num) (absRatio_pos v)).1 (by exact_mod_cast hlow)
  have hlt := (Int.lt_zpow_iff_log_lt (b := 10) (by norm_num) (absRatio_pos v)).1 (by exact_mod_cast hhigh)
  omega

/-- What `Recover` makes of the erased pattern and its betaStar is the pattern of some fraction for the decimal. -/
abbrev RecoversDecimal (p : Word) (k : ℕ) : Prop :=
  ∃ d : Ratio, 0 < d.den ∧ d.toRat = decimalOf p ∧
    recover (clearLow p k) (BitVec.ofNat 4 (profile p).2) = signField (clearLow p k) ||| d.toF64

/-- A power of ten has betaStar 0, and `Recover` answers the power of ten above the erased magnitude. -/
theorem recoversDecimal_of_pow10 (hp : classOf p = .normal) (ht : ErasureTaken p eb)
    (h10 : isPow10 (scaledInt (absRatio p) (profile p).1) = true) : RecoversDecimal p eb.toNat := by
  obtain ⟨-, -, hbeta⟩ := profile_decimal ht
  obtain ⟨j, hj⟩ := (isPow10_iff _).1 h10
  have hdecimal : decimalOf p = 10 ^ ((j : ℤ) - (profile p).1 - 1 + 1) := by
    rw [decimalOf, hj, sub_add_cancel, zpow_sub₀ (by norm_num), zpow_natCast, zpow_natCast, Nat.cast_pow,
      Nat.cast_ofNat]
  have hsp : (absRatio (clearLow p eb.toNat)).sp = (j : ℤ) - (profile p).1 - 1 := by
    have hten := decimalOf_lt_ten_mul hp ht
    rw [hdecimal, zpow_add_one₀ (by norm_num)] at hten
    refine sp_eq_of_bounds (by linarith) ?_
    rw [← hdecimal]
    exact (erased_between hp ht).2
  refine ⟨Ratio.pow10 ((absRatio (clearLow p eb.toNat)).sp + 1), Ratio.pow10_den_pos _, ?_, ?_⟩
  · rw [Ratio.pow10_toRat, hsp, hdecimal]
  · rw [hbeta, betaStarOf, if_pos h10]
    exact recover_zero _

/-- A magnitude strictly between `(N - 1) / 10^alpha` and `N / 10^alpha`, `N` no power of ten, has the decimal logarithm
of the latter. -/
theorem sp_eq_digits {v : Word} {N alpha : ℕ} (hone : 1 ≤ N) (h10 : ¬ isPow10 N = true)
    (hlow : (N : ℚ) - 1 < (absRatio v).toRat * 10 ^ alpha) (hhigh : (absRatio v).toRat * 10 ^ alpha < N) :
    (absRatio v).sp = (digits N : ℤ) - 1 - alpha := by
  obtain ⟨n, hn⟩ : ∃ n, digits N = n + 1 := ⟨_, rfl⟩
  obtain ⟨hge, hlt⟩ := pow_digits hone
  rw [hn, Nat.add_sub_cancel] at hge
  rw [hn] at hlt
  have hstrict : 10 ^ n + 1 ≤ N := lt_of_le_of_ne hge fun heq => h10 ((isPow10_iff N).2 ⟨n, heq.symm⟩)
  have hstrict' : (10 : ℚ) ^ n + 1 ≤ N := by exact_mod_cast hstrict
  have hlt' : (N : ℚ) < 10 ^ (n + 1) := by exact_mod_cast hlt
  have hpow (m : ℕ) : (10 : ℚ) ^ ((m : ℤ) - alpha) = 10 ^ m / 10 ^ alpha := by
    rw [zpow_sub₀ (by norm_num), zpow_natCast, zpow_natCast]
  rw [hn, Nat.cast_add_one, add_sub_cancel_right]
  refine sp_eq_of_bounds ?_ ?_
  · rw [hpow, div_le_iff₀ (by positivity)]
    linarith
  · rw [← add_sub_right_comm, ← Nat.cast_add_one, hpow, lt_div_iff₀ (by positivity)]
    exact hhigh.trans hlt'

theorem ceil_scaled_eq {v : Word} {N alpha : ℕ} (hone : 1 ≤ N)
    (hlow : (N : ℚ) - 1 < (absRatio v).toRat * 10 ^ alpha) (hhigh : (absRatio v).toRat * 10 ^ alpha < N) :
    ((absRatio v).mul (Ratio.pow10 alpha)).ceil = N := by
  rw [Ratio.ceil_eq (Ratio.mul_den_pos (absRatio_den_pos v) (Ratio.pow10_den_pos _)), Ratio.mul_toRat,
    Ratio.pow10_toRat, zpow_natCast, Nat.ceil_eq_iff (by omega), Nat.cast_pred hone]
  exact ⟨hlow, hhigh.le⟩

/-- Otherwise betaStar is the digit count, from which `Recover` finds the number of places, and rounding up the scaled
magnitude gives the decimal's digits. -/
theorem recoversDecimal_of_not_pow10 (hp : classOf p = .normal) (ht : ErasureTaken p eb)
    (h10 : ¬ isPow10 (scaledInt (absRatio p) (profile p).1) = true) : RecoversDecimal p eb.toNat := by
  obtain ⟨hone, -, hbeta⟩ := profile_decimal ht
  obtain ⟨hlow, hhigh⟩ := erased_between hp ht
  obtain ⟨-, h15, -⟩ := ht
  have hpos : (0 : ℚ) < 10 ^ (profile p).1 := by positivity
  rw [decimalOf, ← one_div, ← sub_div, div_lt_iff₀ hpos] at hlow
  rw [decimalOf, lt_div_iff₀ hpos] at hhigh
  have hdigits : (profile p).2 = digits (scaledInt (absRatio p) (profile p).1) := by
    rw [betaStarOf, if_neg h10, Config.betaCap] at hbeta
    omega
  have hbs := betaStar_toNat h15
  have hne : BitVec.ofNat 4 (profile p).2 ≠ 0 := fun h0 => by
    have hzero : (0 : BitVec 4).toNat = 0 := rfl
    rw [h0, hzero, hdigits, digits] at hbs
    omega
  refine ⟨(Ratio.mk (scaledInt (absRatio p) (profile p).1) 1).mul (Ratio.pow10 (-(profile p).1)),
    Ratio.mul_den_pos Nat.one_pos (Ratio.pow10_den_pos _), ?_, ?_⟩
  · rw [Ratio.mul_toRat, Ratio.toRat_natCast, Ratio.pow10_toRat, zpow_neg, zpow_natCast, decimalOf, div_eq_mul_inv]
  · rw [recover_of_ne_zero hne (alpha := (profile p).1) (by rw [hbs, sp_eq_digits hone h10 hlow hhigh, hdigits]; ring),
      ceil_scaled_eq hone hlow hhigh]

/-- Erasure correctness (`43_erasure.md` R167). -/
theorem recover_clearLow (hp : classOf p = .normal) (ht : ErasureTaken p eb) :
    recover (clearLow p eb.toNat) (BitVec.ofNat 4 (profile p).2) = p := by
  obtain ⟨-, hround, -⟩ := profile_decimal ht
  have hrecovers : RecoversDecimal p eb.toNat := by
    by_cases h10 : isPow10 (scaledInt (absRatio p) (profile p).1) = true
    · exact recoversDecimal_of_pow10 hp ht h10
    · exact recoversDecimal_of_not_pow10 hp ht h10
  obtain ⟨d, hd, hdecimal, hrecover⟩ := hrecovers
  obtain ⟨-, -, -, h52, -⟩ := ht
  have hsame : d.toF64 = magField p :=
    (Ratio.toF64_congr hd (Nat.pow_pos (by norm_num)) (hdecimal.trans (decimalOf_eq_toRat p))).trans hround
  rw [hrecover, hsame, signField_clearLow p (by omega), signField_or_magField]

theorem classOf_clearLow (hp : classOf p = .normal) (ht : ErasureTaken p eb) :
    classOf (clearLow p eb.toNat) = .normal := by
  rw [classOf_eq_normal_iff, expField_erased ht]
  exact (classOf_eq_normal_iff p).1 hp

end

/-- Settles O33: the erased pattern keeps sign and exponent, and `Recover` finds the decimal it was rounded from. -/
theorem erasedValuesAreRecovered : Obligations.ErasedValuesAreRecovered :=
  fun _ _ hp ht => ⟨classOf_clearLow hp ht, recover_clearLow hp ht⟩

end Sys2Proof.Machine

/-! PROOFS. The erasure encoder (`43_erasure.md` R151, R156 to R159): `ENC.VAL` and `ENC.CLOSE` in an ERA block are the
control bits and then the X64 engine, accepted with room for both and an Overflow without. -/

namespace Sys2Proof.Machine

/-! ## What is erased -/

theorem erasureTaken_iff (p : Word) (eb : ℤ) : ErasureTaken p eb ↔ eb = eraseBits p ∧ erases p = true := by
  have hlow (n : ℕ) : low p n ≠ 0 ↔ p.toNat % 2 ^ n ≠ 0 := by
    rw [← low_toNat, Ne, Ne, ← BitVec.toNat_inj]
    rfl
  have hmin : (Config.eraseMin : ℤ) = 4 := rfl
  simp only [erases, Bool.and_eq_true, decide_eq_true_iff, hlow, hmin, and_assoc]
  constructor
  · rintro ⟨rfl, h⟩
    exact ⟨rfl, h⟩
  · rintro ⟨rfl, h⟩
    exact ⟨rfl, h⟩

/-- The pattern `ERA.ENC` hands on under control `10` (`43_erasure.md` R151). -/
theorem eraEncode_plain {m : Config.Impl} {p : Word} (h : classOf p = .normal → ∀ eb, ¬ ErasureTaken p eb) :
    eraEncode m p = putPlain m (if classOf p = .nan then Config.sentinel else p) := by
  unfold eraEncode
  cases hc : classOf p with
  | normal =>
    have hno : ¬ erases p = true := fun he => h hc _ ((erasureTaken_iff p _).2 ⟨rfl, he⟩)
    exact if_neg hno
  | _ => rfl

theorem eraEncode_erased {m : Config.Impl} {p : Word} {eb : ℤ} (hp : classOf p = .normal) (ht : ErasureTaken p eb) :
    eraEncode m p = (do putControl m (profile p).2; x64Encode m (clearLow p eb.toNat)) := by
  obtain ⟨rfl, he⟩ := (erasureTaken_iff p eb).1 ht
  unfold eraEncode
  rw [hp, ← erased_eq_clearLow]
  exact if_pos he

/-! ## A value -/

/-- In an ERA block whose sink is open, `ENC.VAL` is its dispatch row (`45_block_and_system.md` R211). -/
theorem exec_eraValue {s : State} {v : Word} {i : Instr} (hi : i ∈ [.encVal v, .eraEnc v]) (hk : s.e.codec = .era)
    (hopen : s.e.bs.sealed = false) : exec i s = .next (runEnc (do eraEncode s.impl v; pure .ok) s) := by
  simp only [List.mem_cons, List.not_mem_nil, or_false] at hi
  rcases hi with rfl | rfl
  · show execEncVal v s = _
    rw [execEncVal, if_neg (by simp [hk]), if_neg (by simp [hopen]), hk]
    rfl
  · rfl

theorem exec_eraValue_ok {s : State} {v : Word} {i : Instr} {e : EncHalf} (hi : i ∈ [.encVal v, .eraEnc v])
    (hk : s.e.codec = .era) (hopen : s.e.bs.sealed = false) (h : eraEncode s.impl v s.e = .ok () e) :
    exec i s = .next { s with e := e, resp := some .ok } := by
  rw [exec_eraValue hi hk hopen, runEnc_ok (then_ok h)]

/-- A value that does not fit is refused whole. -/
theorem exec_eraValue_overflow {s : State} {v : Word} {i : Instr} {e : EncHalf} (hi : i ∈ [.encVal v, .eraEnc v])
    (hk : s.e.codec = .era) (hopen : s.e.bs.sealed = false) (h : eraEncode s.impl v s.e = .error .overflow e) :
    exec i s = .next s.encOvf := by
  rw [exec_eraValue hi hk hopen, runEnc_error (then_ok_error h)]
  rfl

/-- With room for its record the X64 engine accepts a pattern after the control bits, and does what it does in an X64
block (`43_erasure.md` R158). -/
theorem x64Encode_handsOn {s : State} {k : BitSink} (r : EraRegs) (v : Word) (hacc : k.AccInv)
    (hroom : k.Takes s.impl (s.e.x.putLength v)) :
    ∃ e', x64Encode s.impl v { s.e with bs := k, r := r } = .ok () e' ∧
      s.HandsOn k r v { s with e := e', resp := some .ok } := by
  obtain ⟨k', x, l, hput, -, -⟩ := x64Put_ok (e := { s.e with bs := k, r := r }) v hacc hroom
  have hencode := (x64Encode_eq s.impl v _).trans ((x64Put_blind s.impl v).ok hput s.e.codec (s.e.status.saw v))
  have hx64 := exec_x64Value_ok (s := { s with e := { s.e with bs := k, r := r, codec := .x64 } }) List.mem_cons_self
    rfl hroom.1 ((x64Put_blind s.impl v).ok hput .x64 s.e.status)
  exact ⟨_, hencode, _, hx64, rfl, rfl⟩

theorem x64Encode_full {m : Config.Impl} {e : EncHalf} (v : Word) (hacc : e.bs.AccInv)
    (hfull : e.bs.Full m (e.x.putLength v)) : ∃ e', x64Encode m v e = .error .overflow e' := by
  obtain ⟨e', hput⟩ := x64Put_full (e := { e with status := e.status.saw v }) v hacc hfull
  exact ⟨e', (x64Encode_eq m v e).trans hput⟩

/-- Settles O34: control `10`, and the X64 engine on what is left of the room. -/
theorem plainValuesGoUnderControlTen : Obligations.PlainValuesGoUnderControlTen := by
  intro s p q i hi hk hacc hplain hq
  have hencode : eraEncode s.impl p = putPlain s.impl q := hq ▸ eraEncode_plain hplain
  refine ⟨fun hroom => ?_, fun hfull => ?_⟩
  · obtain ⟨k, hcontrol, hextends⟩ := putBits_extends (0b10 : Word) (by omega : 2 ≤ 64) hacc
      (hroom.mono (Nat.le_add_right _ _))
    have hrest : k.Takes s.impl (s.e.x.putLength q) := BitSink.Takes.after (l := [true, false]) hroom hextends
    obtain ⟨e', hvalue, hhands⟩ := x64Encode_handsOn s.e.r q hextends.2.2 hrest
    refine ⟨k, _, hextends, hhands, exec_eraValue_ok hi hk hroom.1 ?_⟩
    rw [hencode, putPlain, bind_ok hcontrol, ← hvalue]
  · obtain ⟨e', hall⟩ := putBits_then_full (f := fun _ => x64Encode s.impl q) (0b10 : Word) (by omega : 2 ≤ 64)
      hacc hfull fun k hacc' hfull' => x64Encode_full (e := { s.e with bs := k }) q hacc' hfull'
    exact exec_eraValue_overflow hi hk hfull.1 ((congrFun hencode s.e).trans hall)

/-- The control bits of an erased value with room for it, in both their forms (`43_erasure.md` R157). -/
theorem putControl_ok {m : Config.Impl} {b n : ℕ} {e : EncHalf} (h15 : b ≤ 15) (hacc : e.bs.AccInv)
    (hroom : e.bs.Takes m ((if e.r.lbsv = true ∧ b = e.r.lbs.toNat then 1 else 6) + n)) :
    ∃ k r, putControl m b e = .ok () { e with bs := k, r := r } ∧ k.AccInv ∧ k.Takes m n ∧
      (e.r.lbsv = true ∧ b = e.r.lbs.toNat → r = e.r ∧ k.Extends e.bs [false]) ∧
      (¬ (e.r.lbsv = true ∧ b = e.r.lbs.toNat) →
        r.lbsv = true ∧ r.lbs.toNat = b ∧ k.Extends e.bs ([true, true] ++ natBits b 4)) := by
  by_cases hknown : e.r.lbsv = true ∧ b = e.r.lbs.toNat
  · rw [if_pos hknown] at hroom
    obtain ⟨k, hcontrol, hextends⟩ := putControl_known hknown hacc (hroom.mono (Nat.le_add_right _ _))
    exact ⟨k, e.r, hcontrol, hextends.2.2, BitSink.Takes.after hroom hextends, fun _ => ⟨rfl, hextends⟩,
      absurd hknown⟩
  · rw [if_neg hknown] at hroom
    obtain ⟨k, hcontrol, hextends⟩ := putControl_new hknown h15 hacc (hroom.mono (Nat.le_add_right _ _))
    have hlength : ([true, true] ++ natBits b 4).length = 6 := by simp
    exact ⟨k, ⟨true, BitVec.ofNat 4 b⟩, hcontrol, hextends.2.2, BitSink.Takes.after (hlength ▸ hroom) hextends,
      fun h => absurd h hknown, fun _ => ⟨rfl, betaStar_toNat h15, hextends⟩⟩

/-- Settles O35: the control bits in their two forms, and the X64 engine on what is left of the room. -/
theorem erasedValuesAnnounceTheirDigits : Obligations.ErasedValuesAnnounceTheirDigits := by
  rintro s p q eb n i hi hk hacc hp ht hq rfl
  have hencode : eraEncode s.impl p = (do putControl s.impl (profile p).2; x64Encode s.impl q) :=
    hq ▸ eraEncode_erased hp ht
  obtain ⟨-, h15, -⟩ := ht
  refine ⟨fun hroom => ?_, fun hfull => ?_⟩
  · obtain ⟨k, r, hcontrol, hacc', hrest, hknown, hnew⟩ := putControl_ok h15 hacc hroom
    obtain ⟨e', hvalue, hhands⟩ := x64Encode_handsOn r q hacc' hrest
    refine ⟨k, r, _, hknown, hnew, hhands, exec_eraValue_ok hi hk hroom.1 ?_⟩
    rw [hencode, bind_ok hcontrol, ← hvalue]
  · obtain ⟨e', hall⟩ := putControl_then_full (f := fun _ => x64Encode s.impl q) hacc hfull
      fun k r hacc' hfull' => x64Encode_full (e := { s.e with bs := k, r := r }) q hacc' hfull'
    exact exec_eraValue_overflow hi hk hfull.1 ((congrFun hencode s.e).trans hall)

/-! ## The close -/

/-- In an ERA block whose sink is open, `ENC.CLOSE` is its dispatch row (`45_block_and_system.md` R211). -/
theorem exec_eraClose {s : State} {i : Instr} (hi : i ∈ [.encClose, .eraClose]) (hk : s.e.codec = .era)
    (hopen : s.e.bs.sealed = false) : exec i s = .next (runEnc (do eraFinish s.impl; pure .ok) s) := by
  simp only [List.mem_cons, List.not_mem_nil, or_false] at hi
  rcases hi with rfl | rfl
  · show execEncClose s = _
    rw [execEncClose, if_neg (by simp [hk]), if_neg (by simp [hopen]), hk]
    rfl
  · rfl

theorem x64Finish_blind (m : Config.Impl) : EncM.Blind (x64Finish m) :=
  (x64Put_blind m _).bind fun _ => (putBit_blind m false).bind fun _ => flushSink_blind

/-- A close of the X64 engine with room for it writes the sink and the X64 registers alone. -/
theorem x64Finish_ok {m : Config.Impl} {e : EncHalf} (hacc : e.bs.AccInv)
    (hroom : e.bs.Takes m (e.x.putLength Config.sentinel + 1)) :
    ∃ k x, x64Finish m e = .ok () { e with bs := k, x := x } := by
  obtain ⟨k, x, l, hput, hextends, hlength⟩ := x64Put_ok Config.sentinel hacc (hroom.mono (Nat.le_add_right _ 1))
  exact ⟨_, x, x64Finish_of_put hput (BitSink.Takes.after (hlength ▸ hroom) hextends)⟩

/-- Settles O36: control `10`, and the X64 close on what is left of the room. -/
theorem erasureCloseEndsTheBlock : Obligations.ErasureCloseEndsTheBlock := by
  intro s i hi hk hacc
  simp only [Nat.add_assoc]
  refine ⟨fun hroom => ?_, fun hfull => ?_⟩
  · obtain ⟨k, hcontrol, hextends⟩ := putBits_extends (0b10 : Word) (by omega : 2 ≤ 64) hacc
      (hroom.mono (Nat.le_add_right _ _))
    have hrest : k.Takes s.impl (s.e.x.putLength Config.sentinel + 1) :=
      BitSink.Takes.after (l := [true, false]) hroom hextends
    obtain ⟨k', x, hclose⟩ := x64Finish_ok (e := { s.e with bs := k }) hextends.2.2 hrest
    have hx64 := exec_encClose_ok (s := { s with e := { s.e with bs := k, codec := .x64 } }) nofun hrest.1
      ((x64Finish_blind s.impl).ok hclose .x64 s.e.status)
    have hall : eraFinish s.impl s.e = .ok () { s.e with bs := k', x := x } := by
      rw [eraFinish, bind_ok hcontrol, hclose]
    refine ⟨k, _, hextends, hx64, rfl, ?_⟩
    rw [exec_eraClose hi hk hroom.1, runEnc_ok (then_ok hall), ← hk]
    rfl
  · obtain ⟨e', hall⟩ := putBits_then_full (f := fun _ => x64Finish s.impl) (0b10 : Word) (by omega : 2 ≤ 64)
      hacc hfull fun k hacc' hfull' => x64Finish_full (e := { s.e with bs := k }) hacc' hfull'
    rw [exec_eraClose hi hk hfull.1, runEnc_error (then_ok_error (m := eraFinish s.impl) hall)]
    rfl

end Sys2Proof.Machine

/-! PROOFS. The erasure decoder (`43_erasure.md` R161 to R166): the control bits at the cursor, and after them the X64
engine. The one idea: the X64 rules read neither the codec register nor the registers of the erasure unit, so after the
control bits they do what they do in an X64 block. -/

namespace Sys2Proof.Machine

/-! ## The X64 rules under another codec register -/

/-- The half with another codec register and other registers of the erasure unit. -/
def DecHalf.relabel (d : DecHalf) (k : Codec) (r : EraRegs) : DecHalf := { d with codec := k, r := r }

/-- A rule that reads and writes neither the codec register nor the registers of the erasure unit. -/
structure DecM.Blind {α : Type} (x : DecM α) : Prop where
  ok : ∀ {d d' : DecHalf} {a : α}, x d = .ok a d' → ∀ k r, x (d.relabel k r) = .ok a (d'.relabel k r)
  error : ∀ {d d' : DecHalf} {c : ErrCode}, x d = .error c d' → ∀ k r,
    x (d.relabel k r) = .error c (d'.relabel k r)

theorem DecM.Blind.pure {α : Type} (a : α) : DecM.Blind (pure a) where
  ok h k r := by cases h; rfl
  error h := by cases h

theorem DecM.Blind.raise {α : Type} (c : ErrCode) : DecM.Blind (raise c : DecM α) where
  ok h := by cases h
  error h k r := by cases h; rfl

theorem DecM.Blind.bind {α β : Type} {x : DecM α} {f : α → DecM β} (hx : DecM.Blind x)
    (hf : ∀ a, DecM.Blind (f a)) : DecM.Blind (x >>= f) where
  ok h k r := by
    obtain ⟨a, u, h1, h2⟩ := bind_eq_ok h
    rw [bind_ok (hx.ok h1 k r), (hf a).ok h2 k r]
  error h k r := by
    rcases bind_cases h with ⟨a, u, h1, h2⟩ | ⟨c, u, h1, h2⟩
    · rw [bind_ok (hx.ok h1 k r), (hf a).error h2 k r]
    · cases h2
      rw [bind_error (hx.error h1 k r)]

theorem DecM.Blind.ite {α : Type} {p : Prop} [Decidable p] {x y : DecM α} (hx : DecM.Blind x) (hy : DecM.Blind y) :
    DecM.Blind (if p then x else y) := by
  by_cases h : p
  · rwa [if_pos h]
  · rwa [if_neg h]

/-- A rule that looks at the half first, and then at what blindness admits alone. -/
theorem DecM.Blind.get {β : Type} {f : DecHalf → DecM β} (hf : ∀ d, DecM.Blind (f d))
    (hsame : ∀ d k r, f (d.relabel k r) = f d) : DecM.Blind (MonadState.get >>= f) where
  ok {d d' a} h k r := by
    rw [bind_ok (run_get d)] at h
    rw [bind_ok (run_get _), hsame]
    exact (hf d).ok h k r
  error {d d' c} h k r := by
    rw [bind_ok (run_get d)] at h
    rw [bind_ok (run_get _), hsame]
    exact (hf d).error h k r

theorem consume_blind (n : ℕ) : DecM.Blind (consume n) where
  ok {d d' a} h k r := by
    rcases consume_cases n d with ⟨havail, hc⟩ | ⟨-, hc⟩ <;> rw [hc] at h <;> cases h
    exact consume_ok (d := d.relabel k r) havail
  error {d d' c} h k r := by
    rcases consume_cases n d with ⟨-, hc⟩ | ⟨hshort, hc⟩ <;> rw [hc] at h <;> cases h
    exact consume_error (d := d.relabel k r) hshort

theorem setDecX_blind (x : XorRegs) : DecM.Blind (setDecX x) where
  ok h k r := by cases h; rfl
  error h := by cases h

theorem getFirst_blind (tz : BitVec 7) (p : Word) : DecM.Blind (getFirst tz p) := by
  unfold getFirst
  refine (consume_blind 7).bind fun _ => (DecM.Blind.raise _).ite ?_
  have hrest (v : Word) : DecM.Blind (do
      let d ← get
      setDecX { d.x with first := false, sv := v }
      pure v : DecM Word) :=
    .get (fun d => (setDecX_blind _).bind fun _ => .pure v) fun _ _ _ => rfl
  by_cases h64 : tz.toNat = 64
  · simp only [if_pos h64]
    exact hrest _
  · simp only [if_neg h64]
    exact (consume_blind _).bind fun _ => hrest _

theorem getSame_blind : DecM.Blind getSame :=
  (consume_blind 2).bind fun _ => .get (fun d => .pure d.x.sv) fun _ _ _ => rfl

theorem getReuse_blind (p : Word) : DecM.Blind (getReuse p) := by
  refine (consume_blind 2).bind fun _ => .get (fun d => (DecM.Blind.raise _).ite ?_) fun _ _ _ => rfl
  exact (consume_blind _).bind fun _ => (setDecX_blind _).bind fun _ => .pure _

theorem getWindow_blind (lz cb : ℕ) (p : Word) : DecM.Blind (getWindow lz cb p) := by
  unfold getWindow
  refine (DecM.Blind.raise _).ite ((consume_blind _).bind fun _ => .get (fun d => ?_) fun _ _ _ => rfl)
  exact (setDecX_blind _).bind fun _ => .pure _

theorem getX_blind (rec : XRecord) : DecM.Blind (getX rec) := by
  cases rec with
  | first tz p => exact getFirst_blind tz p
  | same => exact getSame_blind
  | reuse p => exact getReuse_blind p
  | news iii cccc p => exact (consume_blind 2).bind fun _ => (consume_blind 7).bind fun _ => getWindow_blind _ _ p
  | newl iii cccccc p => exact (consume_blind 2).bind fun _ => (consume_blind 9).bind fun _ => getWindow_blind _ _ p

theorem x64Get_blind : DecM.Blind x64Get where
  ok {d _ _} h := (getX_blind d.xRecord).ok h
  error {d _ _} h := (getX_blind d.xRecord).error h

/-- The X64 engine leaves the codec register and the registers of the erasure unit as they are. -/
theorem x64Get_relabel {d d' : DecHalf} {v : Word} (h : x64Get d = .ok v d') : d'.codec = d.codec ∧ d'.r = d.r := by
  have hself : x64Get d = .ok v (d'.relabel d.codec d.r) := x64Get_blind.ok h d.codec d.r
  injection h.symm.trans hself with _ hd
  rw [hd]
  exact ⟨rfl, rfl⟩

theorem x64Get_error_relabel {d d' : DecHalf} {c : ErrCode} (h : x64Get d = .error c d') :
    d'.codec = d.codec ∧ d'.r = d.r := by
  have hself : x64Get d = .error c (d'.relabel d.codec d.r) := x64Get_blind.error h d.codec d.r
  injection h.symm.trans hself with _ hd
  rw [hd]
  exact ⟨rfl, rfl⟩

/-! ## After the control bits -/

/-- The pattern of the record is the sentinel: the block ends (`43_erasure.md` R164 to R166). -/
theorem eraBody_sentinel {d d' : DecHalf} (erased : Bool) (h : x64Get d = .ok Config.sentinel d') :
    eraBody erased d = .ok .endOfBlock { d' with phase := .done } := by
  rw [eraBody, bind_ok h, bind_ok (run_get d'), if_pos rfl]
  rfl

theorem eraBody_plain {d d' : DecHalf} {v : Word} (h : x64Get d = .ok v d') (hv : v ≠ Config.sentinel) :
    eraBody false d = .ok (.val v) d' := by
  rw [eraBody, bind_ok h, bind_ok (run_get d'), if_neg hv, if_pos rfl]
  rfl

theorem eraBody_malformed {d d' : DecHalf} {v : Word} (h : x64Get d = .ok v d') (hv : v ≠ Config.sentinel)
    (hclass : classOf v ≠ .normal) : eraBody true d = .error .malformedBlock d' := by
  rw [eraBody, bind_ok h, bind_ok (run_get d'), if_neg hv, if_neg nofun, if_pos hclass]
  rfl

theorem eraBody_recover {d d' : DecHalf} {v : Word} (h : x64Get d = .ok v d') (hv : v ≠ Config.sentinel)
    (hclass : classOf v = .normal) : eraBody true d = .ok (.val (recover v d'.r.lbs)) d' := by
  rw [eraBody, bind_ok h, bind_ok (run_get d'), if_neg hv, if_neg nofun, if_neg (not_not_intro hclass)]
  rfl

theorem eraBody_error {d d' : DecHalf} {c : ErrCode} (erased : Bool) (h : x64Get d = .error c d') :
    eraBody erased d = .error c d' := bind_error h _

/-! ## The control bits -/

theorem getSameb_announced {d : DecHalf} (h : 1 ≤ d.bs.avail) (hlbs : d.r.lbsv = true) :
    getSameb d = eraBody true (d.advance 1) := by
  rw [getSameb, bind_ok (consume_ok h), bind_ok (run_get _), if_neg (by simp [hlbs])]

theorem getSameb_malformed {d : DecHalf} (h : 1 ≤ d.bs.avail) (hlbs : d.r.lbsv = false) :
    getSameb d = .error .malformedBlock (d.advance 1) := by
  rw [getSameb, bind_ok (consume_ok h), bind_ok (run_get _), if_pos (by simp [hlbs])]
  rfl

theorem getPlain_eq {d : DecHalf} (h : 2 ≤ d.bs.avail) : getPlain d = eraBody false (d.advance 2) := by
  rw [getPlain, bind_ok (consume_ok (by omega)), bind_ok (consume_ok (by simp; omega)), DecHalf.advance_advance]

theorem getNewb_eq {d : DecHalf} (bbbb : BitVec 4) (h : 6 ≤ d.bs.avail) :
    getNewb bbbb d = eraBody true { d.advance 6 with r := ⟨true, bbbb⟩ } := by
  rw [getNewb, bind_ok (consume_ok (by omega)), bind_ok (consume_ok (by simp; omega)),
    bind_ok (consume_ok (by simp; omega)), bind_ok (run_get _), bind_ok (run_set _ _), DecHalf.advance_advance,
    DecHalf.advance_advance]

/-- Control bits of which none is there. -/
theorem getE_noBit {d : DecHalf} (pre : EPrefix) (h : d.bs.avail < 1) : getE pre d = .error .endOfStream d := by
  cases pre <;> exact bind_error (consume_error h) _

/-- Two control bits or more of which one is there. -/
theorem getE_oneBit {d : DecHalf} {pre : EPrefix} (hpre : pre ≠ .sameb) (h : d.bs.avail = 1) :
    getE pre d = .error .endOfStream (d.advance 1) := by
  have hsecond : (d.advance 1).bs.avail < 1 := by simp [h]
  cases pre with
  | sameb => exact absurd rfl hpre
  | plain => exact (bind_ok (consume_ok h.ge) _).trans (bind_error (consume_error hsecond) _)
  | newb bbbb => exact (bind_ok (consume_ok h.ge) _).trans (bind_error (consume_error hsecond) _)

theorem getNewb_short {d : DecHalf} (bbbb : BitVec 4) (h2 : 2 ≤ d.bs.avail) (h6 : d.bs.avail < 6) :
    getNewb bbbb d = .error .endOfStream (d.advance 2) := by
  rw [getNewb, bind_ok (consume_ok (by omega)), bind_ok (consume_ok (by simp; omega)), DecHalf.advance_advance]
  exact bind_error (consume_error (by simp; omega)) _

/-- Where nothing stands after the control bits, the record's first field is not there (`60_exceptions.md` R238). -/
theorem x64Get_noBit {d : DecHalf} (h : d.bs.avail = 0) : x64Get d = .error .endOfStream d := by
  rw [x64Get, DecHalf.xRecord]
  cases d.x.first with
  | true =>
    obtain ⟨tz, p, hrec⟩ := decodeX_first_shape (64 - d.x.slz.toNat - d.x.stz.toNat) d.bs.unread
    rw [hrec]
    exact getFirst_noHeader tz p (by omega)
  | false => exact getX_noFlag _ (decodeX_steady_ne_first _ _) (by omega)

/-! ## Control bits and record -/

/-- The state with the decode half back in the ERA block. -/
abbrev State.backInEra (u : State) : State := { u with d := { u.d with codec := .era } }

theorem DecHalf.relabel_x64_back {d : DecHalf} {r : EraRegs} (hk : d.codec = .era) (hr : d.r = r) :
    { d.relabel .x64 r with codec := .era } = d := by
  rw [← hk, ← hr]
  rfl

/-- What `DEC.VAL` makes of the record after the control bits in an X64 block is what the X64 engine answers in
the ERA block: a value, the end of the block, or a fault. -/
theorem exec_decVal_x64_of_era {s : State} {d : DecHalf} (hk : d.codec = .era) (hp : d.phase = .run)
    (hreads : ¬ (d.x.first = true ∧ d.bs.avail = 0)) :
    ∃ u, exec .decVal { s with d := d.relabel .x64 d.r } = .next u ∧
      ((∃ v d', x64Get d = .ok v d' ∧ v ≠ Config.sentinel ∧ d'.r = d.r ∧ u.resp = some (.val v) ∧
          u.backInEra = { s with d := d', resp := some (.val v) }) ∨
        (∃ d', x64Get d = .ok Config.sentinel d' ∧ u.resp = some .endOfBlock ∧
          u.backInEra = { s with d := { d' with phase := .done }, resp := some .endOfBlock }) ∨
        ∃ c d', x64Get d = .error c d' ∧ u.resp = some (.err c) ∧ u.backInEra = s.raised d' c) := by
  refine ⟨_, exec_decVal_run (s := { s with d := d.relabel .x64 d.r }) nofun hp hreads, ?_⟩
  cases hget : x64Get d with
  | ok v d' =>
    obtain ⟨hk', hr'⟩ := x64Get_relabel hget
    have hback := DecHalf.relabel_x64_back (hk'.trans hk) hr'
    have hx64 : (ruleOf s.impl .x64) (d.relabel .x64 d.r) = x64Deliver v (d'.relabel .x64 d.r) :=
      bind_ok (x64Get_blind.ok hget .x64 d.r) _
    by_cases hv : v = Config.sentinel
    · subst hv
      rw [x64Deliver, if_pos rfl] at hx64
      rw [runDec_ok hx64]
      exact .inr (.inl ⟨d', rfl, rfl,
        congrArg (fun d => { s with d := { d with phase := .done }, resp := some .endOfBlock }) hback⟩)
    · rw [x64Deliver, if_neg hv] at hx64
      rw [runDec_ok hx64]
      exact .inl ⟨v, d', rfl, hv, hr', rfl, congrArg (fun d => { s with d := d, resp := some (.val v) }) hback⟩
  | error c d' =>
    obtain ⟨hk', hr'⟩ := x64Get_error_relabel hget
    have hback := DecHalf.relabel_x64_back (hk'.trans hk) hr'
    have hx64 : (ruleOf s.impl .x64) (d.relabel .x64 d.r) = .error c (d'.relabel .x64 d.r) :=
      bind_error (x64Get_blind.error hget .x64 d.r) _
    rw [runDec_error hx64]
    exact .inr (.inr ⟨c, d', rfl, rfl, congrArg (s.raised · c) hback⟩)

/-- `E.PLAIN`: the answer of the X64 engine is the answer (`43_erasure.md` R164). -/
theorem exec_plain_record {s : State} {d : DecHalf} (hk : d.codec = .era) (hp : d.phase = .run)
    (hreads : ¬ (d.x.first = true ∧ d.bs.avail = 0)) :
    ∃ u, exec .decVal { s with d := d.relabel .x64 d.r } = .next u ∧
      ∀ rule : DecM Response, rule s.d = eraBody false d → runDec rule s = u.backInEra := by
  obtain ⟨u, hexec, hcases⟩ := exec_decVal_x64_of_era (s := s) hk hp hreads
  refine ⟨u, hexec, fun rule hrule => ?_⟩
  rcases hcases with ⟨v, d', hget, hv, -, -, hback⟩ | ⟨d', hget, -, hback⟩ | ⟨c, d', hget, -, hback⟩
  · rw [hback, runDec_ok (hrule.trans (eraBody_plain hget hv))]
  · rw [hback, runDec_ok (hrule.trans (eraBody_sentinel false hget))]
  · rw [hback, runDec_error (hrule.trans (eraBody_error false hget))]

/-- `E.SAMEB` and `E.NEWB`: a pattern is recovered or malformed, the other answers stand (`43_erasure.md` R165,
R166). -/
theorem exec_erased_record {s : State} {d : DecHalf} (hk : d.codec = .era) (hp : d.phase = .run)
    (hreads : ¬ (d.x.first = true ∧ d.bs.avail = 0)) :
    ∃ u, exec .decVal { s with d := d.relabel .x64 d.r } = .next u ∧
      ∀ rule : DecM Response, rule s.d = eraBody true d →
        ((∀ v, u.resp ≠ some (.val v)) → runDec rule s = u.backInEra) ∧
          ∀ v, u.resp = some (.val v) →
            (classOf v = .normal → runDec rule s = { u.backInEra with resp := some (.val (recover v d.r.lbs)) }) ∧
              (classOf v ≠ .normal → runDec rule s = u.raised u.backInEra.d .malformedBlock) := by
  obtain ⟨u, hexec, hcases⟩ := exec_decVal_x64_of_era (s := s) hk hp hreads
  refine ⟨u, hexec, fun rule hrule => ?_⟩
  rcases hcases with
    ⟨v, d', hget, hv, hr, hresp, hback⟩ | ⟨d', hget, hresp, hback⟩ | ⟨c, d', hget, hresp, hback⟩
  · refine ⟨fun hno => absurd hresp (hno v), fun v' hv' => ?_⟩
    cases hresp.symm.trans hv'
    refine ⟨fun hclass => ?_, fun hclass => ?_⟩
    · rw [hback, runDec_ok (hrule.trans (eraBody_recover hget hv hclass)), hr]
    · rw [runDec_error (hrule.trans (eraBody_malformed hget hv hclass))]
      exact congrArg (fun t => t.raised t.d .malformedBlock) hback.symm
  · refine ⟨fun _ => by rw [hback, runDec_ok (hrule.trans (eraBody_sentinel true hget))], fun v hv => ?_⟩
    cases hresp.symm.trans hv
  · refine ⟨fun _ => by rw [hback, runDec_error (hrule.trans (eraBody_error true hget))], fun v hv => ?_⟩
    cases hresp.symm.trans hv

/-- Behind the control bits a record stands, or the block is past its first. -/
theorem State.Decoding.reads_after {s : State} {first : Bool} {pre rest : List Bool}
    (h : s.Decoding .era first (pre ++ rest)) (hrest : first = true → rest ≠ []) (r : EraRegs) :
    ¬ (({ s.d.advance pre.length with r := r } : DecHalf).x.first = true ∧
      ({ s.d.advance pre.length with r := r } : DecHalf).bs.avail = 0) := by
  rintro ⟨hfirst, havail⟩
  have hlength : (s.d.advance pre.length).bs.avail = rest.length := by
    rw [DecHalf.advance_avail, h.avail, List.length_append, Nat.add_sub_cancel_left]
  refine hrest (h.era_first.symm.trans hfirst) (List.length_eq_zero_iff.1 ?_)
  rw [← hlength]
  exact havail

/-- The control bits at the cursor are those of `pre`, and what is left for its rule to do is to read the record from
the half `d'`. -/
def DecHalf.ReadsE (d : DecHalf) (pre : EPrefix) (wasErased : Bool) (d' : DecHalf) : Prop :=
  decodeE d.bs.unread = pre ∧ getE pre d = eraBody wasErased d'

theorem reads_sameb {d : DecHalf} {rest : List Bool} (hbits : d.bs.unread = [false] ++ rest)
    (hlbsv : d.r.lbsv = true) : d.ReadsE .sameb true (d.advance 1) := by
  have havail := BitSource.avail_of_unread hbits
  exact ⟨by rw [hbits]; rfl, getSameb_announced (by simp [havail]) hlbsv⟩

theorem reads_plain {d : DecHalf} {rest : List Bool} (hbits : d.bs.unread = [true, false] ++ rest) :
    d.ReadsE .plain false (d.advance 2) := by
  have havail := BitSource.avail_of_unread hbits
  exact ⟨by rw [hbits]; rfl, getPlain_eq (by simp [havail])⟩

theorem reads_newb {d : DecHalf} {bbbb : BitVec 4} {rest : List Bool}
    (hbits : d.bs.unread = [true, true] ++ natBits bbbb.toNat 4 ++ rest) :
    d.ReadsE (.newb bbbb) true { d.advance 6 with r := ⟨true, bbbb⟩ } := by
  have havail := BitSource.avail_of_unread hbits
  rw [List.append_assoc] at hbits
  exact ⟨by rw [hbits]; exact decodeE_newb bbbb rest, getNewb_eq bbbb (by simp [havail])⟩

/-- Settles O37: the control bits are consumed, and the record after them is that of an X64 block. -/
theorem erasurePrefixesAreDecoded : Obligations.ErasurePrefixesAreDecoded := by
  intro s first bbbb r pre rest i hrest hdec
  refine ⟨fun hi hpre => ?plain, fun h => ?erased⟩
  case plain =>
    subst hpre
    obtain ⟨hcursor, hget⟩ := reads_plain hdec.unread
    obtain ⟨u, hx64, hrun⟩ := exec_plain_record (s := s) (d := s.d.advance 2) hdec.1 hdec.2.1
      (hdec.reads_after hrest s.d.r)
    exact ⟨u, hx64, by rw [exec_ePrefix .plain hi hdec hcursor, hrun _ hget]⟩
  case erased =>
    have hprefix : ∃ pre' : EPrefix, i ∈ [.decVal, .eraDec, pre'.toInstr] ∧
        s.d.ReadsE pre' true { s.d.advance pre.length with r := r } := by
      rcases h with ⟨hi, rfl, hlbsv, rfl⟩ | ⟨hi, rfl, rfl⟩
      · exact ⟨.sameb, hi, reads_sameb hdec.unread hlbsv⟩
      · exact ⟨.newb bbbb, hi, by simpa using reads_newb hdec.unread⟩
    obtain ⟨pre', hi, hcursor, hget⟩ := hprefix
    obtain ⟨u, hx64, hrun⟩ := exec_erased_record (s := s) (d := { s.d.advance pre.length with r := r }) hdec.1
      hdec.2.1 (hdec.reads_after hrest r)
    obtain ⟨hother, hvalue⟩ := hrun _ hget
    rw [exec_ePrefix pre' hi hdec hcursor]
    exact ⟨u, hx64, fun hno => congrArg _ (hother hno), fun v hv =>
      ⟨fun hclass => congrArg _ ((hvalue v hv).1 hclass), fun hclass => congrArg _ ((hvalue v hv).2 hclass)⟩⟩

/-! ## Prefixes that fault -/

/-- Where the control bits at the cursor and those of the row named raise the same, so do the three ways to run it. -/
theorem exec_ePrefix_raised {s : State} {first : Bool} {bits : List Bool} {i : Instr} {c : ErrCode} {d' : DecHalf}
    (pre : EPrefix) (hi : i ∈ [.decVal, .eraDec, pre.toInstr]) (hdec : s.Decoding .era first bits)
    (hcursor : getE (decodeE bits) s.d = .error c d') (hnamed : getE pre s.d = .error c d') :
    exec i s = .next (s.raised d' c) := by
  obtain ⟨pre', hpre', hexec⟩ := exec_ePrefix_any pre hi hdec
  rw [hexec]
  rcases hpre' with rfl | rfl
  · exact congrArg _ (runDec_error hcursor)
  · exact congrArg _ (runDec_error hnamed)

/-- Control bits that are whole, with nothing after them. -/
theorem exec_ePrefix_noRecord {s : State} {first wasErased : Bool} {bits : List Bool} {i : Instr} {pre : EPrefix}
    {d' : DecHalf} (hi : i ∈ [.decVal, .eraDec, pre.toInstr]) (hdec : s.Decoding .era first bits)
    (hreads : s.d.ReadsE pre wasErased d') (hend : d'.bs.avail = 0) :
    exec i s = .next (s.raised d' .endOfStream) := by
  obtain ⟨hcursor, hget⟩ := hreads
  rw [exec_ePrefix pre hi hdec hcursor, runDec_error (hget.trans (eraBody_error wasErased (x64Get_noBit hend)))]

section
variable {s : State} {first : Bool} {i : Instr} {bbbb : BitVec 4} {rest : List Bool}

/-- The rows of the prefixes, each by the name its control bits have. -/
theorem exists_prefix (hi : i ∈ [.decVal, .eraDec, .eSameb, .ePlain, .eNewb bbbb]) :
    ∃ pre : EPrefix, i ∈ [.decVal, .eraDec, pre.toInstr] := by
  simp only [List.mem_cons, List.not_mem_nil, or_false] at hi
  rcases hi with rfl | rfl | rfl | rfl | rfl
  · exact ⟨.sameb, by simp⟩
  · exact ⟨.sameb, by simp⟩
  · exact ⟨.sameb, by simp [EPrefix.toInstr]⟩
  · exact ⟨.plain, by simp [EPrefix.toInstr]⟩
  · exact ⟨.newb bbbb, by simp [EPrefix.toInstr]⟩

/-- The rows of the prefixes that begin with a 1. -/
theorem exists_long_prefix (hi : i ∈ [.decVal, .eraDec, .ePlain, .eNewb bbbb]) :
    ∃ pre : EPrefix, i ∈ [.decVal, .eraDec, pre.toInstr] ∧ pre ≠ .sameb := by
  simp only [List.mem_cons, List.not_mem_nil, or_false] at hi
  rcases hi with rfl | rfl | rfl | rfl
  · exact ⟨.plain, by simp, nofun⟩
  · exact ⟨.plain, by simp, nofun⟩
  · exact ⟨.plain, by simp [EPrefix.toInstr], nofun⟩
  · exact ⟨.newb bbbb, by simp [EPrefix.toInstr], nofun⟩

theorem exec_noBit_faults (hi : i ∈ [.decVal, .eraDec, .eSameb, .ePlain, .eNewb bbbb])
    (hdec : s.Decoding .era first []) : exec i s = .next (s.raised s.d .endOfStream) := by
  obtain ⟨pre, hi⟩ := exists_prefix hi
  have havail : s.d.bs.avail < 1 := by simp [hdec.avail]
  exact exec_ePrefix_raised pre hi hdec (getE_noBit _ havail) (getE_noBit pre havail)

theorem exec_sameb_faults (hi : i ∈ [.decVal, .eraDec, .eSameb]) (hdec : s.Decoding .era first ([false] ++ rest)) :
    (s.d.r.lbsv = false → exec i s = .next (s.raised (s.d.advance 1) .malformedBlock)) ∧
      (s.d.r.lbsv = true → first = true → rest = [] →
        exec i s = .next (s.raised (s.d.advance 1) .endOfStream)) := by
  have havail := hdec.avail
  refine ⟨fun hlbsv => ?_, fun hlbsv _ hrest => ?_⟩
  · have hget := getSameb_malformed (d := s.d) (by simp [havail]) hlbsv
    exact exec_ePrefix_raised .sameb hi hdec hget hget
  · exact exec_ePrefix_noRecord (pre := .sameb) hi hdec (reads_sameb hdec.unread hlbsv) (by simp [havail, hrest])

theorem exec_oneBit_faults (hi : i ∈ [.decVal, .eraDec, .ePlain, .eNewb bbbb]) (hdec : s.Decoding .era first [true]) :
    exec i s = .next (s.raised (s.d.advance 1) .endOfStream) := by
  obtain ⟨pre, hi, hpre⟩ := exists_long_prefix hi
  exact exec_ePrefix_raised pre hi hdec (getE_oneBit (by decide) hdec.avail) (getE_oneBit hpre hdec.avail)

theorem exec_newb_faults (hi : i ∈ [.decVal, .eraDec, .eNewb bbbb])
    (hdec : s.Decoding .era first ([true, true] ++ rest)) (hshort : rest.length < 4) :
    exec i s = .next (s.raised (s.d.advance 2) .endOfStream) := by
  have havail := hdec.avail
  rw [List.length_append, List.length_cons, List.length_singleton] at havail
  have hget (b : BitVec 4) : getNewb b s.d = .error .endOfStream (s.d.advance 2) :=
    getNewb_short b (by omega) (by omega)
  exact exec_ePrefix_raised (.newb bbbb) hi hdec (hget _) (hget bbbb)

end

/-- Settles O38: the faults in the order of the fields. -/
theorem erasurePrefixesFault : Obligations.ErasurePrefixesFault := by
  intro s first bbbb rest
  refine ⟨fun i hi => exec_noBit_faults hi, fun i hi => exec_sameb_faults hi, fun i hi => exec_oneBit_faults hi,
    fun i hi hdec => ?plain, fun i hi => ⟨exec_newb_faults hi, fun hdec => ?newb⟩⟩
  case plain =>
    exact exec_ePrefix_noRecord (pre := .plain) hi hdec (reads_plain (rest := []) hdec.unread) (by simp [hdec.avail])
  case newb =>
    refine exec_ePrefix_noRecord (pre := .newb bbbb) hi hdec (reads_newb (rest := []) (by simp [hdec.unread])) ?_
    show (s.d.advance 6).bs.avail = 0
    simp [hdec.avail]

end Sys2Proof.Machine

/-! PROOFS. The round trip of ERA (`43_erasure.md` R169). Encoder and decoder hold the same X64 registers and the same
last betaStar; the control bits and the record the encoder wrote, read under those, give back the value and what both
hold after it. -/

namespace Sys2Proof.Machine

/-! ## What the decoder makes of control bits and a record -/

/-- Under the registers `r` the bits `l` are read as control bits, which leave the registers `r'`. -/
def EraRegs.Announces (r : EraRegs) (l : List Bool) (wasErased : Bool) (r' : EraRegs) : Prop :=
  ∀ (d : DecHalf) (rest : List Bool), d.r = r → d.bs.unread = l ++ rest →
    eraDecode d = eraBody wasErased { d.advance l.length with r := r' }

theorem DecHalf.ReadsE.eraDecode {d d' : DecHalf} {pre : EPrefix} {wasErased : Bool} (h : d.ReadsE pre wasErased d') :
    eraDecode d = eraBody wasErased d' := by
  obtain ⟨hcursor, hget⟩ := h
  rwa [Machine.eraDecode, hcursor]

theorem announces_plain (r : EraRegs) : r.Announces [true, false] false r := by
  rintro d rest rfl hbits
  exact (reads_plain hbits).eraDecode

theorem announces_known {r : EraRegs} (h : r.lbsv = true) : r.Announces [false] true r := by
  rintro d rest rfl hbits
  exact (reads_sameb hbits h).eraDecode

theorem announces_new (r : EraRegs) (bbbb : BitVec 4) :
    r.Announces ([true, true] ++ natBits bbbb.toNat 4) true ⟨true, bbbb⟩ := by
  rintro d rest - hbits
  rw [List.length_append, natBits_length]
  exact (reads_newb hbits).eraDecode

/-- Under the registers `x` and `r` the bits `l` are read as one value `v` of an ERA block, which leaves the registers
`x'` and `r'`; the sentinel as the end of the block. -/
def EraReadBack (x : XorRegs) (r : EraRegs) (l : List Bool) (v : Word) (x' : XorRegs) (r' : EraRegs) : Prop :=
  ∀ (d : DecHalf) (rest : List Bool), d.x = x → d.r = r → d.bs.unread = l ++ rest →
    eraDecode d = x64Deliver v { d.advance l.length with x := x', r := r' }

/-- A value whose record is read back under the registers after the control bits, if what they make of the record's
pattern is the value. -/
theorem EraRegs.Announces.readBack {x x' : XorRegs} {r r' : EraRegs} {l l' : List Bool} {wasErased : Bool} {q v : Word}
    (hprefix : r.Announces l wasErased r') (hrecord : x.ReadBack l' q x')
    (hbody : ∀ d d' : DecHalf, d'.r = r' → x64Get d = .ok q d' → eraBody wasErased d = x64Deliver v d') :
    EraReadBack x r (l ++ l') v x' r' := by
  intro d rest hx hr hbits
  rw [List.append_assoc] at hbits
  have hunread : ({ d.advance l.length with r := r' } : DecHalf).bs.unread = l' ++ rest := by
    show (d.advance l.length).bs.unread = _
    rw [DecHalf.advance_unread, hbits, List.drop_left' rfl]
  have hget := hrecord { d.advance l.length with r := r' } rest hx hunread
  rw [hprefix d (l' ++ rest) hr hbits, hbody _ _ rfl hget, List.length_append, ← DecHalf.advance_advance]
  rfl

theorem eraBody_false_of_get {d d' : DecHalf} {v : Word} (h : x64Get d = .ok v d') :
    eraBody false d = x64Deliver v d' := by
  by_cases hv : v = Config.sentinel
  · subst hv
    rw [eraBody_sentinel false h, x64Deliver, if_pos rfl]
  · rw [eraBody_plain h hv, x64Deliver, if_neg hv]

theorem ne_sentinel_of_ne_nan {v : Word} (h : classOf v ≠ .nan) : v ≠ Config.sentinel := by
  rintro rfl
  exact h (by decide)

theorem eraBody_true_of_get {d d' : DecHalf} {p q : Word} (h : x64Get d = .ok q d') (hq : classOf q = .normal)
    (hp : classOf p = .normal) (hrecover : recover q d'.r.lbs = p) : eraBody true d = x64Deliver p d' := by
  have hq' : q ≠ Config.sentinel := ne_sentinel_of_ne_nan (by rw [hq]; decide)
  have hp' : p ≠ Config.sentinel := ne_sentinel_of_ne_nan (by rw [hp]; decide)
  rw [eraBody_recover h hq' hq, hrecover, x64Deliver, if_neg hp']

/-! ## What the encoder appends -/

/-- An accepted `WBITS` writes the sink alone. -/
theorem putBits_accepted {m : Config.Impl} {v : Word} {n : ℕ} {e e' : EncHalf} (h : putBits m v n e = .ok () e')
    (hacc : e.bs.AccInv) : ∃ k, e' = { e with bs := k } ∧ k.Extends e.bs (natBits v.toNat n) := by
  rcases putBits_cases m v n e with ⟨-, -, h'⟩ | ⟨-, h'⟩ | ⟨-, h'⟩ <;> rw [h'] at h <;> cases h
  exact ⟨_, rfl, BitSink.pushBits_extends hacc v n⟩

/-- The header of `E.NEWB` (`43_erasure.md` R157). -/
theorem natBits_newbHeader {b : ℕ} (h15 : b ≤ 15) :
    natBits (BitVec.ofNat 64 (48 + b)).toNat 6 = [true, true] ++ natBits b 4 := by
  rw [BitVec.toNat_ofNat, Nat.mod_eq_of_lt (by omega), natBits_append _ 2 4, show (48 + b) / 2 ^ 4 = 3 by omega]
  exact congrArg _ (natBits_congr (by omega))

/-- Accepted control bits are read back, with the betaStar as the last one announced (`43_erasure.md` R157). -/
theorem putControl_accepted {m : Config.Impl} {b : ℕ} {e e' : EncHalf} (h : putControl m b e = .ok () e')
    (h15 : b ≤ 15) (hacc : e.bs.AccInv) :
    ∃ k r l, e' = { e with bs := k, r := r } ∧ k.Extends e.bs l ∧ e.r.Announces l true r ∧
      r.lbs = BitVec.ofNat 4 b := by
  by_cases hknown : e.r.lbsv = true ∧ b = e.r.lbs.toNat
  · rw [putControl, if_pos hknown] at h
    obtain ⟨k, rfl, hextends⟩ := putBits_accepted h hacc
    exact ⟨k, e.r, _, rfl, hextends, announces_known hknown.1,
      by rw [hknown.2, BitVec.ofNat_toNat, BitVec.setWidth_eq]⟩
  · rw [putControl, if_neg hknown] at h
    obtain ⟨⟨⟩, e1, hbits, h⟩ := bind_eq_ok h
    obtain ⟨k, rfl, hextends⟩ := putBits_accepted hbits hacc
    cases h
    rw [natBits_newbHeader h15, ← betaStar_toNat h15] at hextends
    exact ⟨k, _, _, rfl, hextends, announces_new e.r (BitVec.ofNat 4 b), rfl⟩

/-- An accepted record of the X64 engine is read back, and the registers of the erasure unit stay. -/
theorem x64Encode_accepted {m : Config.Impl} {v : Word} {e e' : EncHalf} (h : x64Encode m v e = .ok () e')
    (hacc : e.bs.AccInv) (hopen : e.bs.sealed = false) (hwindow : e.x.WindowInv) :
    ∃ l, e'.bs.Extends e.bs l ∧ e.x.ReadBack l v e'.x ∧ e'.r = e.r := by
  rw [x64Encode_eq] at h
  obtain ⟨l, hextends, hread⟩ := x64Put_readBack h hacc hopen hwindow
  refine ⟨l, hextends, hread, ?_⟩
  rcases BitSink.takes_or_full m (e.x.putLength v) hopen with hroom | hfull
  · obtain ⟨k, x, -, hput, -, -⟩ := x64Put_ok (e := { e with status := e.status.saw v }) v hacc hroom
    cases h.symm.trans hput
    rfl
  · obtain ⟨_, hput⟩ := x64Put_full (e := { e with status := e.status.saw v }) v hacc hfull
    cases h.symm.trans hput

/-- An accepted value of an ERA block that is no NaN is read back: as it is under control `10`, and recovered where it
was erased (`43_erasure.md` R158, R167). -/
theorem eraEncode_readBack {m : Config.Impl} {v : Word} {e e' : EncHalf} (h : eraEncode m v e = .ok () e')
    (hv : classOf v ≠ .nan) (hacc : e.bs.AccInv) (hopen : e.bs.sealed = false) (hwindow : e.x.WindowInv) :
    ∃ l, e'.bs.Extends e.bs l ∧ EraReadBack e.x e.r l v e'.x e'.r := by
  by_cases herased : classOf v = .normal ∧ ∃ eb, ErasureTaken v eb
  · obtain ⟨hnormal, eb, ht⟩ := herased
    rw [eraEncode_erased hnormal ht] at h
    obtain ⟨⟨⟩, e1, hcontrol, hvalue⟩ := bind_eq_ok h
    obtain ⟨k, r, l, rfl, hextends, hprefix, hlbs⟩ := putControl_accepted hcontrol ht.2.1 hacc
    obtain ⟨l', hextends', hrecord, hr⟩ := x64Encode_accepted hvalue hextends.2.2 (hextends.2.1.trans hopen) hwindow
    refine ⟨l ++ l', hextends.trans hextends', hr ▸ hprefix.readBack hrecord fun d d' hd' hget => ?_⟩
    refine eraBody_true_of_get hget (classOf_clearLow hnormal ht) hnormal ?_
    rw [hd', hlbs, recover_clearLow hnormal ht]
  · have hplain : classOf v = .normal → ∀ eb, ¬ ErasureTaken v eb :=
      fun hnormal eb ht => herased ⟨hnormal, eb, ht⟩
    rw [eraEncode_plain hplain, if_neg hv] at h
    obtain ⟨⟨⟩, e1, hcontrol, hvalue⟩ := bind_eq_ok h
    obtain ⟨k, rfl, hextends⟩ := putBits_accepted hcontrol hacc
    obtain ⟨l, hextends', hrecord, hr⟩ := x64Encode_accepted hvalue hextends.2.2 (hextends.2.1.trans hopen) hwindow
    refine ⟨[true, false] ++ l, hextends.trans hextends', hr ▸ (announces_plain e.r).readBack hrecord ?_⟩
    exact fun d d' _ hget => eraBody_false_of_get hget

/-- An accepted `ERA.CLOSE` leaves bytes that spell what was written, the end of the block and what pads it. -/
theorem eraFinish_readBack {m : Config.Impl} {e e' : EncHalf} (h : eraFinish m e = .ok () e') (hacc : e.bs.AccInv)
    (hopen : e.bs.sealed = false) (hwindow : e.x.WindowInv) :
    ∃ l x' pad, bytesBits e'.bs.buf = e.bs.bits ++ (l ++ pad) ∧ EraReadBack e.x e.r l Config.sentinel x' e.r := by
  obtain ⟨⟨⟩, e1, hcontrol, hclose⟩ := bind_eq_ok h
  obtain ⟨k, rfl, hbits, hseal, hacc'⟩ := putBits_accepted hcontrol hacc
  obtain ⟨l, x', pad, hbytes, hrecord⟩ := x64Finish_readBack hclose hacc' (hseal.trans hopen) hwindow
  rw [hbits, List.append_assoc] at hbytes
  refine ⟨[true, false] ++ l, x', pad, hbytes, (announces_plain e.r).readBack hrecord ?_⟩
  exact fun d d' _ hget => eraBody_false_of_get hget

/-! ## A block -/

/-- The loop of `DECOMPRESS` from the half `d`, where it ends, answers the values `vs` behind those it has. -/
def DecHalf.DecodesTo (m : Config.Impl) (d : DecHalf) (vs : List Word) : Prop :=
  ∀ (fuel : ℕ) (d' : DecHalf) (out : List Word) (r : Response), decodeAll m fuel d out = some (r, d') →
    r = .vals (out ++ vs)

theorem DecHalf.decodesTo_nil {m : Config.Impl} {d d' : DecHalf} (h : d.decVal m = (.endOfBlock, d')) :
    d.DecodesTo m [] := by
  intro fuel d'' out r hloop
  cases fuel with
  | zero => cases hloop
  | succ fuel =>
    rw [decodeAll_end h] at hloop
    cases hloop
    rw [List.append_nil]

theorem DecHalf.DecodesTo.cons {m : Config.Impl} {d d' : DecHalf} {v : Word} {vs : List Word}
    (hrest : d'.DecodesTo m vs) (h : d.decVal m = (.val v, d')) : d.DecodesTo m (v :: vs) := by
  intro fuel d'' out r hloop
  cases fuel with
  | zero => cases hloop
  | succ fuel =>
    rw [decodeAll_val h] at hloop
    rw [List.append_cons]
    exact hrest fuel d'' _ r hloop

/-- `DEC.VAL` at a value of an ERA block that is read back. -/
theorem EraReadBack.decVal {x x' : XorRegs} {r r' : EraRegs} {l rest : List Bool} {v : Word} {d : DecHalf}
    (m : Config.Impl) (h : EraReadBack x r l v x' r') (hk : d.codec = .era) (hp : d.phase = .run) (hx : d.x = x)
    (hr : d.r = r) (hbits : d.bs.unread = l ++ rest) :
    d.decVal m = runDecHalf (x64Deliver v) { d.advance l.length with x := x', r := r' } := by
  have hrule := h d rest hx hr hbits
  have hreads : ¬ (d.atFirst = true ∧ d.bs.avail = 0) := by
    rintro ⟨-, hempty⟩
    have herror : eraDecode d = .error .endOfStream d := getE_noBit _ (by omega)
    rw [herror, x64Deliver] at hrule
    split at hrule <;> cases hrule
  rw [decVal_run m (by simp [hk]) hp hreads, hk]
  show runDecHalf eraDecode d = _
  rw [runDecHalf, hrule]
  rfl

/-- Under the registers `x` and `r` the bits `l` are the rest of an ERA block that holds the values `vs`. -/
def EraDecodesTo (x : XorRegs) (r : EraRegs) (l : List Bool) (vs : List Word) : Prop :=
  ∀ (m : Config.Impl) (d : DecHalf), d.codec = .era → d.phase = .run → d.x = x → d.r = r → d.bs.unread = l →
    d.DecodesTo m vs

theorem EraReadBack.decodesTo_nil {x x' : XorRegs} {r r' : EraRegs} {l : List Bool}
    (h : EraReadBack x r l Config.sentinel x' r') (rest : List Bool) : EraDecodesTo x r (l ++ rest) [] := by
  intro m d hk hp hx hr hbits
  exact DecHalf.decodesTo_nil ((h.decVal m hk hp hx hr hbits).trans (runDecHalf_ok (if_pos rfl)))

theorem EraReadBack.decodesTo_cons {x x' : XorRegs} {r r' : EraRegs} {l l' : List Bool} {v : Word} {vs : List Word}
    (h : EraReadBack x r l v x' r') (hv : v ≠ Config.sentinel) (hrest : EraDecodesTo x' r' l' vs) :
    EraDecodesTo x r (l ++ l') (v :: vs) := by
  intro m d hk hp hx hr hbits
  have hunread : (d.advance l.length).bs.unread = l' := by
    rw [DecHalf.advance_unread, hbits, List.drop_left' rfl]
  have hvalue := (h.decVal m hk hp hx hr hbits).trans (runDecHalf_ok (if_neg hv))
  exact (hrest m { d.advance l.length with x := x', r := r' } hk hp rfl rfl hunread).cons hvalue

/-- The values and the close of an ERA block, accepted from a half whose bits are already in the sink: what they append
decodes to the values under the registers they started from. -/
theorem encodeAll_era_decodesTo {m : Config.Impl} {vs : List Word} {e e1 e2 : EncHalf}
    (hvs : ∀ v ∈ vs, classOf v ≠ .nan) (hvalues : encodeAll m .era vs e = .ok () e1)
    (hclose : eraFinish m e1 = .ok () e2) (hacc : e.bs.AccInv) (hopen : e.bs.sealed = false)
    (hwindow : e.x.WindowInv) : ∃ l, bytesBits e2.bs.buf = e.bs.bits ++ l ∧ EraDecodesTo e.x e.r l vs := by
  induction vs generalizing e with
  | nil =>
    cases hvalues
    obtain ⟨l, x', pad, hbytes, hread⟩ := eraFinish_readBack hclose hacc hopen hwindow
    exact ⟨_, hbytes, hread.decodesTo_nil pad⟩
  | cons v vs ih =>
    obtain ⟨hv, hvs⟩ := List.forall_mem_cons.1 hvs
    obtain ⟨⟨⟩, e', hvalue, hvalues⟩ := bind_eq_ok hvalues
    obtain ⟨l, ⟨hbits, hseal, hacc'⟩, hread⟩ := eraEncode_readBack hvalue hv hacc hopen hwindow
    have hwindow' := ((eraEncode_good m v e).ok hvalue).window hwindow
    obtain ⟨l', hbytes, hrest⟩ := ih hvs hvalues hacc' (hseal.trans hopen) hwindow'
    rw [hbits, List.append_assoc] at hbytes
    exact ⟨_, hbytes, hread.decodesTo_cons (ne_sentinel_of_ne_nan hv) hrest⟩

/-- Settles O50: both halves open with the same registers, so the block the encoder wrote from them decodes to its
values, by induction on the values. -/
theorem erasureBlocksRoundTrip : Obligations.ErasureBlocksRoundTrip := by
  intro s t s' vs data hvs hexec hresp hcap
  obtain ⟨e1, e2, hvalues, hclose, rfl⟩ := compress_accepted (by decide) hexec hresp
  obtain ⟨l, hbytes, hdecodes⟩ :=
    encodeAll_era_decodesTo hvs hvalues hclose (by simp [BitSink.AccInv, BitSink.reset]) rfl XorRegs.reset_windowInv
  have hunread : ((s'.d.loaded e2.bs.buf).opened s'.cfgLog2w .era).bs.unread = l := hbytes
  exact exec_decompress_of_answer (by decide) hcap fun fuel r d' hloop =>
    hdecodes s'.impl _ rfl rfl rfl rfl hunread fuel d' [] r hloop

end Sys2Proof.Machine

/-! PROOFS. The history-indexed encoder (`44_chimp.md` R181 to R190): `ENC.VAL` and `ENC.CLOSE` in a CHP block are
`CHP.PUT` and what follows it, accepted with room and an Overflow without. -/

namespace Sys2Proof.Machine

/-! ## A record -/

/-- The bits of the steady-state record of `v`, case by case as `putCRecord` writes them (`44_chimp.md` R185 to R188). -/
def ChpEncRegs.recordBits (c : ChpEncRegs) (v : Word) : List Bool :=
  let xor := c.refXor v
  let lz := lzRound (clz xor)
  let tz := ctz xor
  if xor = 0 then [false, false] ++ natBits (c.refSlot v) c.log2w.toNat
  else if c.hit v then
    [false, true] ++ natBits (c.refSlot v) c.log2w.toNat ++ natBits (lzIdx lz).toNat 3 ++ natBits (64 - lz - tz) 6 ++
      bitSlice xor (63 - lz) tz
  else (if lz = c.slz.toNat then [true, false] else [true, true] ++ natBits (lzIdx lz).toNat 3) ++
    bitSlice xor (63 - lz) 0

/-- The announced count after the steady-state record of `v` (`44_chimp.md` R185 to R188). -/
def ChpEncRegs.announced (c : ChpEncRegs) (v : Word) : BitVec 7 :=
  if c.refXor v = 0 ∨ c.hit v = true then Config.noWindow else BitVec.ofNat 7 (lzRound (clz (c.refXor v)))

/-- A canonical leading count fits the register of the announced count. -/
theorem ofNat_lzRound_toNat (n : ℕ) : (BitVec.ofNat 7 (lzRound n)).toNat = lzRound n := by
  have := lzRound_le_24 n
  rw [BitVec.toNat_ofNat, Nat.mod_eq_of_lt (by omega)]

/-- A count that is the announced one announces the same count. -/
theorem ofNat_eq_of_eq_toNat {n : ℕ} {slz : BitVec 7} (h : n = slz.toNat) : BitVec.ofNat 7 n = slz := by
  rw [h, BitVec.ofNat_toNat, BitVec.setWidth_eq]

/-- With room for it, the steady-state record is accepted: its bits, and the count it announces. -/
theorem putCRecord_bits {m : Config.Impl} {e : EncHalf} (v : Word) (hacc : e.bs.AccInv) (hl : e.c.log2w.toNat ≤ 53)
    (hroom : e.bs.Takes m (e.c.recordLength v)) :
    ∃ k, putCRecord m v e.c e = .ok () { e with bs := k, c := { e.c with slz := e.c.announced v } } ∧
      k.Extends e.bs (e.c.recordBits v) := by
  have hslot := e.c.refSlot_lt v
  unfold ChpEncRegs.recordLength at hroom
  unfold putCRecord ChpEncRegs.announced ChpEncRegs.recordBits
  by_cases hx : e.c.refXor v = 0
  · simp only [if_pos hx, if_pos (Or.inl hx : _ ∨ e.c.hit v = true)] at hroom ⊢
    exact putCopy_ok hacc hl hslot hroom
  by_cases hh : e.c.hit v = true
  · have hctz := e.c.hit_ctz hh
    simp only [if_neg hx, if_pos hh, if_pos (Or.inr hh : e.c.refXor v = 0 ∨ _)] at hroom ⊢
    exact putHist_ok hacc hl hslot hx (by omega) hroom
  simp only [if_neg hx, if_neg hh, if_neg (not_or.2 ⟨hx, hh⟩)] at hroom ⊢
  by_cases hz : lzRound (clz (e.c.refXor v)) = e.c.slz.toNat
  · simp only [if_pos hz] at hroom ⊢
    rw [ofNat_eq_of_eq_toNat hz]
    exact putPrev_ok _ hacc hroom
  · simp only [if_neg hz] at hroom ⊢
    exact putPrevn_ok e.c _ hacc hroom

/-- With room for its record, `CHP.PUT` of a steady-state value whose position can be counted writes the record and
stores the value (`44_chimp.md` R189). -/
theorem chpPut_steady_ok {m : Config.Impl} {e : EncHalf} (v : Word) (hfirst : e.c.first = false)
    (hcount : ∀ b ∈ m.idxBits, e.c.index ≠ 2 ^ b - 1) (hacc : e.bs.AccInv) (hl : e.c.log2w.toNat ≤ 53)
    (hroom : e.bs.Takes m (e.c.recordLength v)) :
    ∃ k, chpPut m v e =
        .ok () { e with bs := k, c := { e.c with slz := e.c.announced v }.store (e.c.index + 1) v } ∧
      k.Extends e.bs (e.c.recordBits v) := by
  obtain ⟨k, hrecord, hextends⟩ := putCRecord_bits v hacc hl hroom
  exact ⟨k, by rw [chpPut_steady hroom.1 hfirst hcount, bind_ok hrecord]; rfl, hextends⟩

/-! ## A value -/

/-- In a CHP block whose sink is open, `ENC.VAL` is its dispatch row (`45_block_and_system.md` R211). -/
theorem exec_chpValue {s : State} {v : Word} {i : Instr} (hi : i ∈ [.encVal v, .chpEnc v]) (hk : s.e.codec = .chp)
    (hopen : s.e.bs.sealed = false) : exec i s = .next (runEnc (do chpEncode s.impl v; pure .ok) s) := by
  simp only [List.mem_cons, List.not_mem_nil, or_false] at hi
  rcases hi with rfl | rfl
  · show execEncVal v s = _
    rw [execEncVal, if_neg (by simp [hk]), if_neg (by simp [hopen]), hk]
    rfl
  · rfl

/-- `CHP.ENC` is `CHP.PUT` once a sentinel was noted (`70_reset_and_hazards.md` R266). -/
theorem chpEncode_eq (m : Config.Impl) (v : Word) (e : EncHalf) :
    chpEncode m v e = chpPut m v { e with status := e.status.saw v } := bind_ok (markSent_ok v e) _

/-- A value whose record was accepted: the sink and registers of `CHP.PUT`, and the note of a sentinel. -/
theorem exec_chpValue_ok {s : State} {v : Word} {i : Instr} {k : BitSink} {c : ChpEncRegs}
    (hi : i ∈ [.encVal v, .chpEnc v]) (hk : s.e.codec = .chp) (hopen : s.e.bs.sealed = false)
    (hput : chpPut s.impl v s.e = .ok () { s.e with bs := k, c := c }) :
    exec i s = .next { s with
      e := { s.e with bs := k, c := c, status := s.e.status.saw v }
      resp := some .ok } := by
  have hencode := (chpEncode_eq s.impl v s.e).trans ((chpPut_blind s.impl v).ok hput s.e.codec (s.e.status.saw v))
  rw [exec_chpValue hi hk hopen, runEnc_ok (then_ok hencode)]
  rfl

/-- A value whose record overflows is refused whole. -/
theorem exec_chpValue_full {s : State} {v : Word} {i : Instr} {e' : EncHalf} (hi : i ∈ [.encVal v, .chpEnc v])
    (hk : s.e.codec = .chp) (hopen : s.e.bs.sealed = false) (hput : chpPut s.impl v s.e = .error .overflow e') :
    exec i s = .next s.encOvf := by
  have hencode := (chpEncode_eq s.impl v s.e).trans ((chpPut_blind s.impl v).error hput s.e.codec (s.e.status.saw v))
  rw [exec_chpValue hi hk hopen, runEnc_error (then_ok_error hencode)]
  rfl

/-- A first value without room for its 64 bits overflows. -/
theorem chpPut_first_full {m : Config.Impl} {e : EncHalf} (v : Word) (hfirst : e.c.first = true)
    (hfull : e.bs.Full m 64) : chpPut m v e = .error .overflow e :=
  (chpPut_first hfull.1 hfirst).trans (bind_error (putBits_full v (by omega) hfull) _)

/-- Settles O39: the case `C.FIRST` of `CHP.PUT`. -/
theorem historyFirstValueIsEmitted : Obligations.HistoryFirstValueIsEmitted := by
  rintro s v i hi hk hfirst ⟨hring, htblv, htbl, -⟩ hacc
  refine ⟨fun hroom => ?_, fun hfull => exec_chpValue_full hi hk hfull.1 (chpPut_first_full v hfirst hfull)⟩
  obtain ⟨k, hput, hextends⟩ := putCFirst_ok v s.e.c hacc hroom
  exact ⟨k, _, hextends, ChpEncRegs.store_stored (c := { s.e.c with first := false }) 0 v hring htblv htbl rfl, rfl,
    exec_chpValue_ok hi hk hroom.1 ((chpPut_first hroom.1 hfirst).trans hput)⟩

/-- What the four steady-state records share: the bits written, the count announced, the value stored. -/
theorem exec_chpSteady {s : State} {v xor : Word} {hist : Bool} {ref n : ℕ} {i : Instr}
    (hi : i ∈ [.encVal v, .chpEnc v]) (h : s.ChpSteady) (hsel : s.e.c.Selects v hist ref xor)
    (hn : n = s.e.c.recordLength v) :
    (s.Room n →
      ∃ k c, k.Extends s.e.bs (s.e.c.recordBits v) ∧ s.e.c.Stored c (s.e.c.index + 1) v ∧
        c.slz = s.e.c.announced v ∧
        exec i s = .next { s with
          e := { s.e with bs := k, c := c, status := s.e.status.saw v }
          resp := some .ok }) ∧
    (s.NoRoom n → exec i s = .next s.encOvf) := by
  obtain ⟨hk, hfirst, hl, ⟨hring, htblv, htbl, -⟩, hacc, hcount⟩ := h
  refine ⟨fun hroom => ?_, fun hfull => ?_⟩
  · obtain ⟨k, hput, hextends⟩ := chpPut_steady_ok v hfirst hcount hacc hl (hn ▸ hroom)
    exact ⟨k, _, hextends,
      ChpEncRegs.store_stored (c := { s.e.c with slz := s.e.c.announced v }) _ v hring htblv htbl hfirst, rfl,
      exec_chpValue_ok hi hk hroom.1 hput⟩
  · have hlength : s.e.c.PutLength v n := by
      obtain ⟨hhit, -, hxor⟩ := hsel.eq
      exact .inr ⟨hfirst, hist, ref, xor, hsel, by rw [hn, ChpEncRegs.recordLength, hhit, hxor]⟩
    obtain ⟨e', hput⟩ := chpPut_noRoom v hacc hl hlength hfull
    exact exec_chpValue_full hi hk hfull.1 hput

/-- Settles O40: the cases `C.COPY` and `C.HIST` of the record. -/
theorem historyMatchesAreEmitted : Obligations.HistoryMatchesAreEmitted := by
  rintro s v xor hist ref _ _ n i hi hsteady hsel rfl rfl hmatch hn
  obtain ⟨hhit, href, hxor⟩ := hsel.eq
  have hbits : s.e.c.recordBits v =
      if xor = 0 then [false, false] ++ natBits ref s.e.c.log2w.toNat
      else [false, true] ++ natBits ref s.e.c.log2w.toNat ++ natBits (lzIdx (lzRound (clz xor))).toNat 3 ++
        natBits (64 - lzRound (clz xor) - ctz xor) 6 ++ bitSlice xor (63 - lzRound (clz xor)) (ctz xor) := by
    simp only [ChpEncRegs.recordBits, hhit, href, hxor]
    split_ifs with h0 h1
    · rfl
    · rfl
    all_goals exact absurd hmatch (not_or.2 ⟨h0, h1⟩)
  have hslz : s.e.c.announced v = 65 := by
    rw [ChpEncRegs.announced, hxor, hhit]
    exact if_pos hmatch
  have hlength : n = s.e.c.recordLength v := by
    rw [hn, ChpEncRegs.recordLength, hhit, hxor]
    split_ifs with h0 h1
    · rfl
    · rfl
    all_goals exact absurd hmatch (not_or.2 ⟨h0, h1⟩)
  have h := exec_chpSteady hi hsteady hsel hlength
  rwa [hbits, hslz] at h

/-- Settles O41: the cases `C.PREV` and `C.PREVN` of the record. -/
theorem historyPreviousIsEmitted : Obligations.HistoryPreviousIsEmitted := by
  rintro s v xor ref _ n i hi hsteady hsel hne rfl hn
  obtain ⟨hhit, -, hxor⟩ := hsel.eq
  have hbits : s.e.c.recordBits v =
      (if lzRound (clz xor) = s.e.c.slz.toNat then [true, false]
        else [true, true] ++ natBits (lzIdx (lzRound (clz xor))).toNat 3) ++
        bitSlice xor (63 - lzRound (clz xor)) 0 := by
    simp only [ChpEncRegs.recordBits, hhit, hxor]
    rw [if_neg hne, if_neg Bool.false_ne_true]
  have hslz : s.e.c.announced v = BitVec.ofNat 7 (lzRound (clz xor)) := by
    rw [ChpEncRegs.announced, hxor, hhit]
    exact if_neg (not_or.2 ⟨hne, Bool.false_ne_true⟩)
  have hlength : n = s.e.c.recordLength v := by
    rw [hn, ChpEncRegs.recordLength, hhit, hxor, if_neg hne]
    rfl
  obtain ⟨hok, hfull⟩ := exec_chpSteady hi hsteady hsel hlength
  rw [hbits] at hok
  refine ⟨fun hroom => ?_, hfull⟩
  obtain ⟨k, c, hextends, hstored, hc, hexec⟩ := hok hroom
  exact ⟨k, c, hextends, hstored, by rw [hc, hslz, ofNat_lzRound_toNat], hexec⟩

/-! ## The close -/

/-- In a CHP block whose sink is open, `ENC.CLOSE` is its dispatch row (`45_block_and_system.md` R211). -/
theorem exec_chpClose {s : State} {i : Instr} (hi : i ∈ [.encClose, .chpClose]) (hk : s.e.codec = .chp)
    (hopen : s.e.bs.sealed = false) : exec i s = .next (runEnc (do chpFinish s.impl; pure .ok) s) := by
  simp only [List.mem_cons, List.not_mem_nil, or_false] at hi
  rcases hi with rfl | rfl
  · show execEncClose s = _
    rw [execEncClose, if_neg (by simp [hk]), if_neg (by simp [hopen]), hk]
    rfl
  · rfl

/-- After the sentinel's record the flush, with no bit between (`44_chimp.md` R190). -/
theorem chpFinish_of_put {m : Config.Impl} {e e' : EncHalf} (hput : chpPut m Config.sentinel e = .ok () e') :
    chpFinish m e = .ok () { e' with bs := e'.bs.flushed } := by
  rw [chpFinish, bind_ok hput]
  rfl

/-- Settles O42: the close runs `CHP.PUT` as `ENC.VAL` does but for the note of a sentinel, and flushes. -/
theorem historyCloseEndsTheBlock : Obligations.HistoryCloseEndsTheBlock := by
  intro s n i hi hk hl hacc hcount hn
  refine ⟨fun hroom => ?_, fun hfull => ?_⟩
  · obtain ⟨k, c, l, hput, ⟨-, hseal, hacc'⟩, -⟩ := chpPut_ok Config.sentinel hacc hl hn hroom hcount
    refine ⟨_, k.flushed, exec_chpValue_ok List.mem_cons_self hk hroom.1 hput, rfl,
      BitSink.flushed_sealed hacc' (hseal.trans hroom.1), ?_⟩
    rw [exec_chpClose hi hk hroom.1, runEnc_ok (then_ok (chpFinish_of_put hput))]
  · obtain ⟨e', hput⟩ := chpPut_noRoom Config.sentinel hacc hl hn hfull
    have hfinish : chpFinish s.impl s.e = .error .overflow e' := bind_error hput _
    rw [exec_chpClose hi hk hfull.1, runEnc_error (then_ok_error hfinish)]
    rfl

end Sys2Proof.Machine

/-! PROOFS. The history-indexed decoder (`44_chimp.md` R194 to R201): which record stands at the cursor, what its rule
answers and how it is delivered, or at which field it raises. -/

namespace Sys2Proof.Machine

/-! ## Records that are whole -/

/-- The record at the cursor is `rec`, and its rule consumes `n` bits, announces the count `slz` and delivers the
pattern `v`. -/
def DecHalf.ReadsC (d : DecHalf) (rec : CRecord) (n : ℕ) (slz : BitVec 7) (v : Word) : Prop :=
  d.cRecord = rec ∧
    ∀ m, getC m rec d = chpDeliver m v { d.advance n with c := { d.c with slz := slz } }

/-- The record at the cursor is the one its unread bits begin. -/
theorem DecHalf.cRecord_eq {d : DecHalf} {bits : List Bool} (h : d.bs.unread = bits) :
    d.cRecord = decodeC d.c.first d.c.log2w.toNat (64 - d.c.slz.toNat) bits := by
  rw [DecHalf.cRecord, h]

theorem DecHalf.cRecord_first {d : DecHalf} {p : Word} {rest : List Bool} (hfirst : d.c.first = true)
    (hbits : d.bs.unread = natBits p.toNat 64 ++ rest) : d.cRecord = .first p := by
  rw [DecHalf.cRecord_eq hbits, hfirst, decodeC_first, field_natBits_full]

theorem reads_copy {d : DecHalf} {r : Word} {rest : List Bool} (hfirst : d.c.first = false)
    (hr : r.toNat < 2 ^ d.c.log2w.toNat) (hlive : r.toNat ≤ d.c.index)
    (hbits : d.bs.unread = [false, false] ++ natBits r.toNat d.c.log2w.toNat ++ rest) :
    d.ReadsC (.copy r) (2 + d.c.log2w.toNat) Config.noWindow (d.c.slotValue r.toNat) := by
  have havail := BitSource.avail_of_unread hbits
  simp only [List.length_append, natBits_length, List.length_cons, List.length_nil] at havail
  rw [List.append_assoc] at hbits
  refine ⟨?_, fun m => bind_ok (getCopy_ok (by omega) hlive) _⟩
  rw [DecHalf.cRecord_eq hbits, hfirst, decodeC_copy, field_natBits_append r hr]

theorem histWidth_of_le {iii : BitVec 3} {ssssss : BitVec 6} (h : lzVal iii + ssssss.toNat ≤ 64) :
    histWidth iii ssssss = ssssss.toNat := if_neg (Nat.not_lt.2 h)

theorem reads_hist {d : DecHalf} {r : Word} {iii : BitVec 3} {ssssss : BitVec 6} {p v : Word} {rest : List Bool}
    (hfirst : d.c.first = false) (hr : r.toNat < 2 ^ d.c.log2w.toNat) (hlive : r.toNat ≤ d.c.index)
    (hpos : 0 < ssssss.toNat) (hlz : lzVal iii + ssssss.toNat ≤ 64) (hp : p.toNat < 2 ^ ssssss.toNat)
    (hv : (v ^^^ d.c.slotValue r.toNat).toNat = p.toNat * 2 ^ (64 - lzVal iii - ssssss.toNat))
    (hbits : d.bs.unread =
      [false, true] ++ natBits r.toNat d.c.log2w.toNat ++ natBits iii.toNat 3 ++ natBits ssssss.toNat 6 ++
        natBits p.toNat ssssss.toNat ++ rest) :
    d.ReadsC (.hist r iii ssssss p) (11 + d.c.log2w.toNat + ssssss.toNat) Config.noWindow v := by
  have havail := BitSource.avail_of_unread hbits
  simp only [List.length_append, natBits_length, List.length_cons, List.length_nil] at havail
  simp only [List.append_assoc] at hbits
  refine ⟨?_, fun m => bind_ok (getHist_ok (by omega) hlive hpos hlz hp hv) _⟩
  rw [DecHalf.cRecord_eq hbits, hfirst, decodeC_hist _ _ hr, histWidth_of_le hlz, field_natBits_append p hp]

theorem reads_prev {d : DecHalf} {p : Word} {rest : List Bool} (hfirst : d.c.first = false)
    (hslz : d.c.slz ≠ Config.noWindow) (hp : p.toNat < 2 ^ (64 - d.c.slz.toNat))
    (hbits : d.bs.unread = [true, false] ++ natBits p.toNat (64 - d.c.slz.toNat) ++ rest) :
    d.ReadsC (.prev p) (2 + (64 - d.c.slz.toNat)) d.c.slz (d.c.slotValue (d.c.slot d.c.index) ^^^ p) := by
  have havail := BitSource.avail_of_unread hbits
  simp only [List.length_append, natBits_length, List.length_cons, List.length_nil] at havail
  rw [List.append_assoc] at hbits
  refine ⟨?_, fun m => bind_ok (getPrev_ok p hslz (by omega)) _⟩
  rw [DecHalf.cRecord_eq hbits, hfirst, decodeC_prev, field_natBits_append p hp]

theorem reads_prevn {d : DecHalf} {iii : BitVec 3} {p : Word} {rest : List Bool} (hfirst : d.c.first = false)
    (hp : p.toNat < 2 ^ (64 - lzVal iii))
    (hbits : d.bs.unread = [true, true] ++ natBits iii.toNat 3 ++ natBits p.toNat (64 - lzVal iii) ++ rest) :
    d.ReadsC (.prevn iii p) (5 + (64 - lzVal iii)) (BitVec.ofNat 7 (lzVal iii))
      (d.c.slotValue (d.c.slot d.c.index) ^^^ p) := by
  have havail := BitSource.avail_of_unread hbits
  simp only [List.length_append, natBits_length, List.length_cons, List.length_nil] at havail
  simp only [List.append_assoc] at hbits
  refine ⟨?_, fun m => bind_ok (getPrevn_ok iii p (by omega)) _⟩
  rw [DecHalf.cRecord_eq hbits, hfirst, decodeC_prevn, prevnWidth, field_natBits_append p hp]

/-- The instruction `i` meets a whole steady-state CHP record of `n` bits that announces `slz` and decodes to `v`. -/
def State.MeetsC (s : State) (i : Instr) (n : ℕ) (slz : BitVec 7) (v : Word) : Prop :=
  ∃ (rec : CRecord) (bits : List Bool), i ∈ [.decVal, .chpDec, rec.toInstr] ∧ s.Decoding .chp false bits ∧
    s.d.ReadsC rec n slz v

theorem State.MatchRecord.meets {s : State} {i : Instr} {n : ℕ} {v : Word} (h : s.MatchRecord i n v) :
    s.MeetsC i n Config.noWindow v := by
  obtain ⟨r, iii, ssssss, p, rest, hr, hlive, ⟨hi, rfl, rfl, hdec⟩ | ⟨hi, rfl, hpos, hlz, hp, hv, hdec⟩⟩ := h
  · exact ⟨.copy r, _, hi, hdec, reads_copy hdec.c_first hr hlive hdec.unread⟩
  · exact ⟨.hist r iii ssssss p, _, hi, hdec, reads_hist hdec.c_first hr hlive hpos hlz hp hv hdec.unread⟩

theorem State.PrevRecord.meets {s : State} {i : Instr} {n : ℕ} {slz : BitVec 7} {v : Word}
    (h : s.PrevRecord i n slz v) : s.MeetsC i n slz v := by
  obtain ⟨iii, p, rest, hp, rfl, ⟨hi, rfl, rfl, hne, hdec⟩ | ⟨hi, rfl, hslz, hdec⟩⟩ := h
  · exact ⟨.prev p, _, hi, hdec, reads_prev hdec.c_first hne hp hdec.unread⟩
  · obtain rfl : slz = BitVec.ofNat 7 (lzVal iii) := BitVec.eq_of_toNat_eq (hslz.trans (lzVal_slz iii).symm)
    rw [lzVal_slz] at hp hdec ⊢
    exact ⟨.prevn iii p, _, hi, hdec, reads_prevn hdec.c_first hp hdec.unread⟩

/-! ## Delivery -/

/-- The three cases of a delivery (`44_chimp.md` R194, R201). -/
theorem chpDeliver_end (m : Config.Impl) (d : DecHalf) :
    chpDeliver m Config.sentinel d = .ok .endOfBlock { d with phase := .done } := if_pos rfl

theorem chpDeliver_val {m : Config.Impl} {v : Word} {d : DecHalf} (hv : v ≠ Config.sentinel)
    (hcount : ∀ b ∈ m.idxBits, d.c.index ≠ 2 ^ b - 1) :
    chpDeliver m v d = .ok (.val v) { d with c := d.c.store (d.c.index + 1) v } := by
  rw [chpDeliver, if_neg hv, if_neg (by simp [indexFull_eq_false hcount])]

theorem indexFull_eq_true {m : Config.Impl} {n : ℕ} (h : ∃ b ∈ m.idxBits, n = 2 ^ b - 1) :
    indexFull m n = true := by
  obtain ⟨b, hb, rfl⟩ := h
  rw [Option.mem_def] at hb
  simp [indexFull, hb]

theorem chpDeliver_full {m : Config.Impl} {v : Word} {d : DecHalf} (hv : v ≠ Config.sentinel)
    (hfull : ∃ b ∈ m.idxBits, d.c.index = 2 ^ b - 1) : chpDeliver m v d = .error .overflow d := by
  rw [chpDeliver, if_neg hv, if_pos (indexFull_eq_true hfull)]

/-- A whole record is answered: the sentinel ends the block, any other pattern the counter can count is stored. -/
theorem State.MeetsC.answers {s : State} {i : Instr} {n : ℕ} {slz : BitVec 7} {v : Word} (h : s.MeetsC i n slz v)
    (hring : Memory.wf 0 s.d.c.ring = true)
    (hcount : v ≠ Config.sentinel → ∀ b ∈ s.impl.idxBits, s.d.c.index ≠ 2 ^ b - 1) :
    ∃ t, s.ChpAnswers n slz v t ∧ exec i s = .next t := by
  obtain ⟨rec, bits, hi, hdec, hrec, hget⟩ := h
  rw [exec_cRecord rec hi hdec hrec]
  by_cases hv : v = Config.sentinel
  · subst hv
    refine ⟨_, ?_, congrArg _ (runDec_ok ((hget s.impl).trans (chpDeliver_end ..)))⟩
    rw [State.ChpAnswers, if_pos rfl]
  · have hdeliver := chpDeliver_val (d := { s.d.advance n with c := { s.d.c with slz := slz } }) hv (hcount hv)
    refine ⟨_, ?_, congrArg _ (runDec_ok ((hget s.impl).trans hdeliver))⟩
    rw [State.ChpAnswers, if_neg hv]
    exact ⟨_, ChpDecRegs.store_stored (c := { s.d.c with slz := slz }) _ v hring hdec.c_first, rfl, rfl⟩

/-- A whole record whose pattern the counter cannot count. -/
theorem State.MeetsC.overflows {s : State} {i : Instr} {n : ℕ} {slz : BitVec 7} {v : Word} (h : s.MeetsC i n slz v)
    (hv : v ≠ Config.sentinel) (hfull : ∃ b ∈ s.impl.idxBits, s.d.c.index = 2 ^ b - 1) :
    exec i s = .next (s.raised { s.d.advance n with c := { s.d.c with slz := slz } } .overflow) := by
  obtain ⟨rec, bits, hi, hdec, hrec, hget⟩ := h
  rw [exec_cRecord rec hi hdec hrec, runDec_error ((hget s.impl).trans (chpDeliver_full hv hfull))]

/-- Settles O43: the first record is read whole, and its rule has the two outcomes. -/
theorem historyFirstValueIsDecoded : Obligations.HistoryFirstValueIsDecoded := by
  intro s p rest i hi hdec hring
  have hexec := exec_cRecord (.first p) hi hdec (DecHalf.cRecord_first hdec.c_first hdec.unread)
  have havail : 64 ≤ s.d.bs.avail := by simp [hdec.avail]
  refine ⟨?_, fun hp => ?_⟩
  · rintro rfl
    exact hexec.trans (congrArg _ (runDec_ok (getCFirst_end havail)))
  · refine ⟨_, ChpDecRegs.store_stored (c := { s.d.c with first := false }) 0 p hring rfl, rfl, ?_⟩
    exact hexec.trans (congrArg _ (runDec_ok (getCFirst_val havail hp)))

/-- Settles O44: a match record is a whole record. -/
theorem historyMatchIsDecoded : Obligations.HistoryMatchIsDecoded :=
  fun _ _ _ _ h hring hcount => h.meets.answers hring hcount

/-- Settles O45: a previous-value record is a whole record. -/
theorem historyPreviousIsDecoded : Obligations.HistoryPreviousIsDecoded :=
  fun _ _ _ _ _ h hring hcount => h.meets.answers hring hcount

/-! ## Records that fault -/

/-- Where both the record at the cursor and the record named raise the same, so do the three ways to run it. -/
theorem exec_chpRaised {s : State} {first : Bool} {bits : List Bool} {i : Instr} {c : ErrCode} {d' : DecHalf}
    (rec : CRecord) (hi : i ∈ [.decVal, .chpDec, rec.toInstr]) (hdec : s.Decoding .chp first bits)
    (hcursor : getC s.impl (decodeC first s.d.c.log2w.toNat (64 - s.d.c.slz.toNat) bits) s.d = .error c d')
    (hnamed : getC s.impl rec s.d = .error c d') : exec i s = .next (s.raised d' c) := by
  obtain ⟨rec', hrec', hexec⟩ := exec_cRecord_any rec hi hdec
  rw [hdec.c_first] at hrec'
  rw [hexec]
  rcases hrec' with rfl | rfl
  · exact congrArg _ (runDec_error hcursor)
  · exact congrArg _ (runDec_error hnamed)

/-- A steady-state record is no `C.FIRST`. -/
theorem decodeC_steady_ne_first (slot prev : ℕ) (bits : List Bool) (p : Word) :
    decodeC false slot prev bits ≠ .first p := by
  unfold decodeC
  rw [if_neg Bool.false_ne_true]
  split_ifs <;> exact nofun

/-- The rows of the steady-state records, each named by a record that is no `C.FIRST`. -/
theorem exists_steady_chpRecord {i : Instr} {r p : Word} {iii : BitVec 3} {ssssss : BitVec 6}
    (hi : i ∈ [.decVal, .chpDec, .cCopy r, .cHist r iii ssssss p, .cPrev p, .cPrevn iii p]) :
    ∃ rec : CRecord, i ∈ [.decVal, .chpDec, rec.toInstr] ∧ ∀ p, rec ≠ .first p := by
  simp only [List.mem_cons, List.not_mem_nil, or_false] at hi
  rcases hi with rfl | rfl | rfl | rfl | rfl | rfl
  · exact ⟨.copy r, by simp, nofun⟩
  · exact ⟨.copy r, by simp, nofun⟩
  · exact ⟨.copy r, by simp [CRecord.toInstr], nofun⟩
  · exact ⟨.hist r iii ssssss p, by simp [CRecord.toInstr], nofun⟩
  · exact ⟨.prev p, by simp [CRecord.toInstr], nofun⟩
  · exact ⟨.prevn iii p, by simp [CRecord.toInstr], nofun⟩

/-- What is unread behind the first bits of a record. -/
theorem State.Decoding.avail_append {s : State} {k : Codec} {first : Bool} {l rest : List Bool} {n : ℕ}
    (h : s.Decoding k first (l ++ rest)) (hn : l.length = n) : s.d.bs.avail = n + rest.length := by
  rw [h.avail, List.length_append, hn]

section
variable {s : State} {i : Instr} {rest : List Bool} {r p : Word} {iii : BitVec 3} {ssssss : BitVec 6}

theorem exec_cFirst_short (hi : i ∈ [.decVal, .chpDec, .cFirst p]) (hdec : s.Decoding .chp true rest)
    (hshort : rest.length < 64) : exec i s = .next (s.raised s.d .endOfStream) := by
  rw [← hdec.avail] at hshort
  exact exec_chpRaised (.first p) hi hdec (getCFirst_noPayload _ hshort) (getCFirst_noPayload p hshort)

theorem exec_chpNoFlag {rec : CRecord} (hrec : ∀ p, rec ≠ .first p) (hi : i ∈ [.decVal, .chpDec, rec.toInstr])
    (hdec : s.Decoding .chp false rest) (hshort : rest.length < 2) :
    exec i s = .next (s.raised s.d .endOfStream) := by
  rw [← hdec.avail] at hshort
  exact exec_chpRaised rec hi hdec (getC_noFlag _ (decodeC_steady_ne_first _ _ rest) hshort)
    (getC_noFlag rec hrec hshort)

theorem exec_copy_faults (hi : i ∈ [.decVal, .chpDec, .cCopy r]) :
    (s.Decoding .chp false ([false, false] ++ rest) → rest.length < s.d.c.log2w.toNat →
        exec i s = .next (s.raised (s.d.advance 2) .endOfStream)) ∧
      (s.Decoding .chp false ([false, false] ++ natBits r.toNat s.d.c.log2w.toNat ++ rest) →
        r.toNat < 2 ^ s.d.c.log2w.toNat → s.d.c.index < r.toNat →
        exec i s = .next (s.raised (s.d.advance (2 + s.d.c.log2w.toNat)) .malformedBlock)) := by
  refine ⟨fun hdec hshort => ?slot, fun hdec hr hdead => ?dead⟩
  case slot =>
    have havail := hdec.avail_append (n := 2) rfl
    have hget (r : Word) : getC s.impl (.copy r) s.d = .error .endOfStream (s.d.advance 2) :=
      bind_error (getCopy_noSlot r (by omega) (by omega)) _
    exact exec_chpRaised (.copy r) hi hdec (hget _) (hget r)
  case dead =>
    have havail := hdec.avail_append (n := 2 + s.d.c.log2w.toNat) (by simp; omega)
    have hget : getC s.impl (.copy r) s.d = .error .malformedBlock (s.d.advance (2 + s.d.c.log2w.toNat)) :=
      bind_error (getCopy_malformed (by omega) hdead) _
    rw [List.append_assoc] at hdec
    refine exec_chpRaised (.copy r) hi hdec ?_ hget
    rwa [decodeC_copy, field_natBits_append r hr]

theorem exec_hist_faults (hi : i ∈ [.decVal, .chpDec, .cHist r iii ssssss p]) :
    (s.Decoding .chp false ([false, true] ++ rest) → rest.length < s.d.c.log2w.toNat + 9 →
        exec i s = .next (s.raised (s.d.advance 2) .endOfStream)) ∧
      (s.Decoding .chp false ([false, true] ++ natBits r.toNat s.d.c.log2w.toNat ++ natBits iii.toNat 3 ++
          natBits ssssss.toNat 6 ++ rest) →
        r.toNat < 2 ^ s.d.c.log2w.toNat →
        (s.d.c.index < r.toNat ∨ ssssss.toNat = 0 ∨ 64 < lzVal iii + ssssss.toNat →
            exec i s = .next (s.raised (s.d.advance (11 + s.d.c.log2w.toNat)) .malformedBlock)) ∧
          (r.toNat ≤ s.d.c.index → lzVal iii + ssssss.toNat ≤ 64 → rest.length < ssssss.toNat →
            exec i s = .next (s.raised (s.d.advance (11 + s.d.c.log2w.toNat)) .endOfStream))) := by
  refine ⟨fun hdec hshort => ?header, fun hdec hr => ?payload⟩
  case header =>
    have havail := hdec.avail_append (n := 2) rfl
    have hget (r iii ssssss p) : getC s.impl (.hist r iii ssssss p) s.d = .error .endOfStream (s.d.advance 2) :=
      bind_error (getHist_noHeader r iii ssssss p (by omega) (by omega)) _
    obtain ⟨r', iii', ssssss', p', hrec⟩ := decodeC_hist' s.d.c.log2w.toNat (64 - s.d.c.slz.toNat) rest
    exact exec_chpRaised (.hist r iii ssssss p) hi hdec (hrec ▸ hget r' iii' ssssss' p') (hget r iii ssssss p)
  case payload =>
    have havail := hdec.avail_append (n := 11 + s.d.c.log2w.toNat) (by simp; omega)
    simp only [List.append_assoc] at hdec
    have hraised (c : ErrCode)
        (hget : ∀ q, getHist r iii ssssss q s.d = .error c (s.d.advance (11 + s.d.c.log2w.toNat))) :
        exec i s = .next (s.raised (s.d.advance (11 + s.d.c.log2w.toNat)) c) := by
      refine exec_chpRaised (.hist r iii ssssss p) hi hdec ?_ (bind_error (hget p) _)
      rw [decodeC_hist _ _ hr]
      exact bind_error (hget _) _
    refine ⟨fun hbad => hraised _ fun q => getHist_malformed q (by omega) hbad, fun hlive hlz hshort => ?_⟩
    exact hraised _ fun q => getHist_noPayload q (by omega) hlive hlz (by omega)

theorem exec_prev_faults (hi : i ∈ [.decVal, .chpDec, .cPrev p])
    (hdec : s.Decoding .chp false ([true, false] ++ rest)) :
    (s.d.c.slz = Config.noWindow → exec i s = .next (s.raised (s.d.advance 2) .malformedBlock)) ∧
      (s.d.c.slz ≠ Config.noWindow → rest.length < 64 - s.d.c.slz.toNat →
        exec i s = .next (s.raised (s.d.advance 2) .endOfStream)) := by
  have havail := hdec.avail_append (n := 2) rfl
  have hraised (c : ErrCode) (hget : ∀ q, getPrev q s.d = .error c (s.d.advance 2)) :
      exec i s = .next (s.raised (s.d.advance 2) c) :=
    exec_chpRaised (.prev p) hi hdec (bind_error (hget _) _) (bind_error (hget p) _)
  exact ⟨fun hslz => hraised _ fun q => getPrev_malformed q (by omega) hslz,
    fun hslz hshort => hraised _ fun q => getPrev_noPayload q (by omega) hslz (by omega)⟩

theorem exec_prevn_faults (hi : i ∈ [.decVal, .chpDec, .cPrevn iii p]) :
    (s.Decoding .chp false ([true, true] ++ rest) → rest.length < 3 →
        exec i s = .next (s.raised (s.d.advance 2) .endOfStream)) ∧
      (s.Decoding .chp false ([true, true] ++ natBits iii.toNat 3 ++ rest) → rest.length < 64 - lzVal iii →
        ∃ slz, slz.toNat = lzVal iii ∧
          exec i s = .next (s.raised { s.d.advance 5 with c := { s.d.c with slz := slz } } .endOfStream)) := by
  refine ⟨fun hdec hshort => ?header, fun hdec hshort => ?payload⟩
  case header =>
    have havail := hdec.avail_append (n := 2) rfl
    have hget (iii p) : getC s.impl (.prevn iii p) s.d = .error .endOfStream (s.d.advance 2) :=
      bind_error (getPrevn_noHeader iii p (by omega) (by omega)) _
    exact exec_chpRaised (.prevn iii p) hi hdec (hget _ _) (hget iii p)
  case payload =>
    have havail := hdec.avail_append (n := 5) (by simp)
    have hget (q : Word) := bind_error (getPrevn_noPayload (d := s.d) iii q (by omega) (by omega)) (chpDeliver s.impl)
    rw [List.append_assoc] at hdec
    refine ⟨_, lzVal_slz iii, exec_chpRaised (.prevn iii p) hi hdec ?_ (hget p)⟩
    rw [decodeC_prevn]
    exact hget _

end

/-- Settles O46: each format's faults in the order of its fields, and the delivery the counter cannot count. -/
theorem historyRecordsFault : Obligations.HistoryRecordsFault := by
  intro s r iii ssssss p rest
  refine ⟨fun i hi => exec_cFirst_short hi, fun i hi hdec hshort => ?noFlag, fun i hi => exec_copy_faults hi,
    fun i hi => exec_hist_faults hi, fun i hi => exec_prev_faults hi, fun i n slz v hrec hv hfull => ?overflow,
    fun i hi => exec_prevn_faults hi⟩
  case noFlag =>
    obtain ⟨rec, hi, hrec⟩ := exists_steady_chpRecord hi
    exact exec_chpNoFlag hrec hi hdec hshort
  case overflow =>
    rcases hrec with ⟨hmatch, rfl⟩ | hprev
    · exact hmatch.meets.overflows hv hfull
    · exact hprev.meets.overflows hv hfull

end Sys2Proof.Machine

/-! PROOFS. The round trip of CHP (`44_chimp.md` R203). The one idea: the decoder's registers mirror the encoder's, with
equal patterns in every live slot; under them a record the encoder wrote is read back as its value, and after it the
registers mirror each other again. -/

namespace Sys2Proof.Machine

/-! ## Registers that mirror each other -/

/-- The half `d` decodes a CHP block and has `bits` unread, and its registers mirror the encoder's registers `c`: once a
value was stored, the slots written in this block hold the same patterns (`44_chimp.md` R197). -/
structure DecHalf.Mirrors (d : DecHalf) (c : ChpEncRegs) (bits : List Bool) : Prop where
  codec : d.codec = .chp
  phase : d.phase = .run
  unread : d.bs.unread = bits
  ring : Memory.wf 0 d.c.ring = true
  log2w : d.c.log2w = c.log2w
  first : d.c.first = c.first
  index : d.c.index = c.index
  slz : d.c.slz = c.slz
  live : c.first = false → ∀ i, i < 2 ^ c.log2w.toNat → i ≤ c.index → d.c.slotValue i = c.slotValue i

/-- The position of the next value of the block. -/
def ChpEncRegs.nextPos (c : ChpEncRegs) : ℕ := if c.first then 0 else c.index + 1

theorem ChpEncRegs.nextPos_first {c : ChpEncRegs} (h : c.first = true) : c.nextPos = 0 := if_pos h

theorem ChpEncRegs.nextPos_steady {c : ChpEncRegs} (h : c.first = false) : c.nextPos = c.index + 1 :=
  if_neg (by simp [h])

/-- A position that is live after a value was stored was live before, or is the value's own. -/
theorem ChpEncRegs.live_before {c : ChpEncRegs} {i : ℕ} (hi : i < 2 ^ c.log2w.toNat) (hle : i ≤ c.nextPos)
    (hne : i ≠ c.nextPos % 2 ^ c.log2w.toNat) : c.first = false ∧ i ≤ c.index := by
  have hlt : i < c.nextPos := Nat.lt_of_le_of_ne hle fun h => hne (by rw [← h, Nat.mod_eq_of_lt hi])
  cases hfirst : c.first with
  | true => rw [nextPos_first hfirst] at hlt; omega
  | false => rw [nextPos_steady hfirst] at hlt; exact ⟨rfl, by omega⟩

/-- Behind a value that both stored, under the same announced count, the registers mirror each other again. -/
theorem DecHalf.Mirrors.stored {d : DecHalf} {c c' : ChpEncRegs} {dc' : ChpDecRegs} {l rest : List Bool} {v : Word}
    (h : d.Mirrors c (l ++ rest)) (hc : c.Stored c' c.nextPos v) (hd : d.c.Stored dc' c.nextPos v)
    (hslz : dc'.slz = c'.slz) (hring : Memory.wf 0 dc'.ring = true) :
    { d.advance l.length with c := dc' }.Mirrors c' rest := by
  obtain ⟨hclog, hcfirst, hcindex, hcring, -, -⟩ := hc
  obtain ⟨hdlog, hdfirst, hdindex, hdring⟩ := hd
  refine ⟨h.codec, h.phase, ?unread, hring, hdlog.trans (h.log2w.trans hclog.symm), hdfirst.trans hcfirst.symm,
    hdindex.trans hcindex.symm, hslz, fun _ i hi hle => ?live⟩
  case unread =>
    show (d.advance l.length).bs.unread = rest
    rw [DecHalf.advance_unread, h.unread, List.drop_left' rfl]
  case live =>
    rw [hclog] at hi
    rw [hcindex] at hle
    show Memory.read 0 dc'.ring i = Memory.read 0 c'.ring i
    rw [hdring, hcring, h.log2w]
    split_ifs with hslot
    · rfl
    · obtain ⟨hfirst, hlive⟩ := ChpEncRegs.live_before hi hle hslot
      exact h.live hfirst i hi hlive

/-- `DEC.VAL` at a record of a CHP block. -/
theorem DecHalf.Mirrors.decVal {d : DecHalf} {c : ChpEncRegs} {bits : List Bool} {rec : CRecord} (m : Config.Impl)
    (h : d.Mirrors c bits) (hbits : c.first = true → bits ≠ []) (hrec : d.cRecord = rec) :
    d.decVal m = runDecHalf (getC m rec) d := by
  have hreads : ¬ (d.atFirst = true ∧ d.bs.avail = 0) := by
    rintro ⟨hfirst, hempty⟩
    rw [DecHalf.atFirst, if_pos h.codec, h.first] at hfirst
    rw [BitSource.avail_of_unread h.unread] at hempty
    exact hbits hfirst (List.length_eq_zero_iff.1 hempty)
  rw [decVal_run m (by simp [h.codec]) h.phase hreads, h.codec, ← hrec]
  rfl

/-! ## A record is read back -/

/-- Under registers that mirror `c` the bits `l` are read as one record of the pattern `v`: the sentinel ends the block,
any other pattern the counter can count is the value, and behind it the registers mirror `c'`. -/
def ChpEncRegs.ReadBack (c : ChpEncRegs) (l : List Bool) (v : Word) (c' : ChpEncRegs) : Prop :=
  ∀ (m : Config.Impl) (d : DecHalf) (rest : List Bool), d.Mirrors c (l ++ rest) →
    (v = Config.sentinel → ∃ d', d.decVal m = (.endOfBlock, d')) ∧
    (v ≠ Config.sentinel → (c.first = false → ∀ b ∈ m.idxBits, c.index ≠ 2 ^ b - 1) →
      ∃ d', d.decVal m = (.val v, d') ∧ d'.Mirrors c' rest)

theorem readBack_cFirst {c : ChpEncRegs} (v : Word) (hfirst : c.first = true)
    (hmem : Memory.wf 0 c.ring = true ∧ Memory.wf false c.tblv = true ∧ Memory.wf 0 c.tbl = true) :
    c.ReadBack (natBits v.toNat 64) v ({ c with first := false }.store 0 v) := by
  intro m d rest h
  obtain ⟨hring, htblv, htbl⟩ := hmem
  have hval := h.decVal m (fun _ => by simp [← List.length_eq_zero_iff])
    (DecHalf.cRecord_first (h.first.trans hfirst) h.unread)
  have havail : 64 ≤ d.bs.avail := by simp [BitSource.avail_of_unread h.unread]
  refine ⟨?_, fun hv _ => ⟨_, hval.trans (runDecHalf_ok (getCFirst_val havail hv)), ?_⟩⟩
  · rintro rfl
    exact ⟨_, hval.trans (runDecHalf_ok (getCFirst_end havail))⟩
  · rw [← natBits_length v.toNat 64]
    refine h.stored (v := v) ?_ ?_ h.slz (Memory.wf_write _ _ h.ring) <;> rw [ChpEncRegs.nextPos_first hfirst]
    · exact ChpEncRegs.store_stored (c := { c with first := false }) 0 v hring htblv htbl rfl
    · exact ChpDecRegs.store_stored (c := { d.c with first := false }) 0 v h.ring rfl

/-- The reference is a live slot: a valid table entry names a position already written (`44_chimp.md` R183). -/
theorem ChpEncRegs.refSlot_le_index {c : ChpEncRegs} (h : c.HistoryInv) (v : Word) : c.refSlot v ≤ c.index := by
  obtain ⟨-, hvalid⟩ := h
  unfold ChpEncRegs.refSlot
  split
  · next hhit =>
    simp only [ChpEncRegs.hit, Bool.and_eq_true] at hhit
    obtain ⟨⟨hkey, -⟩, -⟩ := hhit
    exact (Nat.mod_le _ _).trans (hvalid _ hkey).1
  · exact Nat.mod_le _ _

theorem ChpEncRegs.refSlot_of_not_hit {c : ChpEncRegs} {v : Word} (h : ¬ c.hit v = true) :
    c.refSlot v = c.slot c.index := if_neg h

/-- The value, from its reference and the XOR with it. -/
theorem ChpEncRegs.xor_refXor (c : ChpEncRegs) (v : Word) : c.slotValue (c.refSlot v) ^^^ c.refXor v = v := by
  rw [ChpEncRegs.refXor, ← BitVec.xor_assoc, BitVec.xor_self, BitVec.zero_xor]

section
variable {d : DecHalf} {c : ChpEncRegs} {v : Word} {rest : List Bool} {n : ℕ}

/-- Encoder and decoder see the same pattern in the reference slot. -/
theorem DecHalf.Mirrors.slotValue_refSlot {bits : List Bool} (h : d.Mirrors c bits) (hfirst : c.first = false)
    (hhist : c.HistoryInv) : d.c.slotValue (c.refSlot v) = c.slotValue (c.refSlot v) :=
  h.live hfirst _ (c.refSlot_lt v) (ChpEncRegs.refSlot_le_index hhist v)

/-- A slot number as the field of a record. -/
theorem exists_slotField (c : ChpEncRegs) (v : Word) : ∃ r : Word, r.toNat = c.refSlot v := by
  have hlt : 2 ^ c.log2w.toNat < 2 ^ 64 := Nat.pow_lt_pow_right (by omega) c.log2w.isLt
  exact ⟨BitVec.ofNat 64 (c.refSlot v), Nat.mod_eq_of_lt ((c.refSlot_lt v).trans hlt)⟩

theorem DecHalf.Mirrors.reads_copy (hfirst : c.first = false) (hhist : c.HistoryInv) (hx : c.refXor v = 0)
    (h : d.Mirrors c ([false, false] ++ natBits (c.refSlot v) c.log2w.toNat ++ rest)) 
    (hn : n = 2 + c.log2w.toNat) :
    ∃ rec, d.ReadsC rec n Config.noWindow v := by
  subst hn
  have hslot := h.slotValue_refSlot (v := v) hfirst hhist
  have hlt := c.refSlot_lt v
  have hle := ChpEncRegs.refSlot_le_index hhist v
  have hv : c.slotValue (c.refSlot v) = v := BitVec.xor_eq_zero_iff.1 hx
  have hbits := h.unread
  obtain ⟨r, hr⟩ := exists_slotField c v
  rw [← hr, ← h.log2w] at hlt hbits
  rw [← hr, ← h.index] at hle
  have hreads := Machine.reads_copy (h.first.trans hfirst) hlt hle hbits
  rw [hr, hslot, hv, h.log2w] at hreads
  exact ⟨_, hreads⟩

theorem DecHalf.Mirrors.reads_hist (hfirst : c.first = false) (hhist : c.HistoryInv) (hx : c.refXor v ≠ 0)
    (hhit : c.hit v = true) {lz tz : ℕ} (hlz : lz = lzRound (clz (c.refXor v))) (htz : tz = ctz (c.refXor v))
    (h : d.Mirrors c ([false, true] ++ natBits (c.refSlot v) c.log2w.toNat ++ natBits (lzIdx lz).toNat 3 ++
      natBits (64 - lz - tz) 6 ++ bitSlice (c.refXor v) (63 - lz) tz ++ rest)) 
    (hn : n = 11 + c.log2w.toNat + (64 - lz - tz)) :
    ∃ rec, d.ReadsC rec n Config.noWindow v := by
  subst hn
  have hslot := h.slotValue_refSlot (v := v) hfirst hhist
  have hlt := c.refSlot_lt v
  have hle := ChpEncRegs.refSlot_le_index hhist v
  have hbits := h.unread
  have hsum : lz + tz ≤ 63 := hlz ▸ htz ▸ lzRound_clz_add_ctz hx
  have hpos : 6 + c.log2w.toNat < tz := htz ▸ ChpEncRegs.hit_ctz hhit
  have hindex : lzVal (lzIdx lz) = lz := lzVal_lzIdx (hlz ▸ lzRound_mem _)
  have hp : (shr (c.refXor v) tz).toNat < 2 ^ (64 - lz - tz) :=
    shr_lt (hlz ▸ lt_two_pow_lzRound (c.refXor v)) (by omega)
  have hv : (c.refXor v).toNat = (shr (c.refXor v) tz).toNat * 2 ^ tz := by
    rw [shr_toNat, Nat.div_mul_cancel (htz ▸ ctz_dvd _)]
  rw [← natBits_shr _ tz (64 - lz - tz) _ (by omega)] at hbits
  obtain ⟨r, hr⟩ := exists_slotField c v
  obtain ⟨ssssss, hs⟩ : ∃ ssssss : BitVec 6, ssssss.toNat = 64 - lz - tz :=
    ⟨BitVec.ofNat 6 (64 - lz - tz), Nat.mod_eq_of_lt (by omega)⟩
  rw [← hr, ← h.log2w, ← hs] at hbits
  rw [← hr, ← h.log2w] at hlt
  rw [← hr, ← h.index] at hle
  rw [← hs] at hp
  have hreads := Machine.reads_hist (v := v) (h.first.trans hfirst) hlt hle (by omega) (by omega) hp ?_ hbits
  · rw [h.log2w, hs] at hreads
    exact ⟨_, hreads⟩
  · rw [hr, hslot, BitVec.xor_comm, hindex, hs, show 64 - lz - (64 - lz - tz) = tz by omega]
    exact hv

/-- The pattern a previous-value record is read with. -/
theorem DecHalf.Mirrors.previous_xor {bits : List Bool} (h : d.Mirrors c bits) (hfirst : c.first = false)
    (hhist : c.HistoryInv) (hhit : ¬ c.hit v = true) :
    d.c.slotValue (d.c.slot d.c.index) ^^^ c.refXor v = v := by
  have hslot : d.c.slot d.c.index = c.refSlot v := by
    rw [ChpEncRegs.refSlot_of_not_hit hhit, ChpDecRegs.slot, h.index, h.log2w]
    rfl
  rw [hslot, h.slotValue_refSlot hfirst hhist, c.xor_refXor]

theorem DecHalf.Mirrors.reads_prev (hfirst : c.first = false) (hhist : c.HistoryInv) (hhit : ¬ c.hit v = true)
    (hslz : lzRound (clz (c.refXor v)) = c.slz.toNat)
    (h : d.Mirrors c ([true, false] ++ bitSlice (c.refXor v) (63 - lzRound (clz (c.refXor v))) 0 ++ rest)) 
    (hn : n = 2 + (64 - lzRound (clz (c.refXor v)))) :
    ∃ rec, d.ReadsC rec n c.slz v := by
  subst hn
  have h24 := lzRound_le_24 (clz (c.refXor v))
  have hp := lt_two_pow_lzRound (c.refXor v)
  have hbits := h.unread
  rw [← natBits_eq_bitSlice_zero _ _ (by omega), hslz, ← h.slz] at hbits
  rw [hslz, ← h.slz] at hp h24
  have hne : d.c.slz ≠ Config.noWindow := by
    intro hno
    rw [hno] at h24
    exact absurd h24 (by decide)
  have hreads := Machine.reads_prev (h.first.trans hfirst) hne hp hbits
  rw [h.previous_xor hfirst hhist hhit, h.slz, ← hslz] at hreads
  exact ⟨_, hreads⟩

theorem DecHalf.Mirrors.reads_prevn (hfirst : c.first = false) (hhist : c.HistoryInv) (hhit : ¬ c.hit v = true)
    (h : d.Mirrors c ([true, true] ++ natBits (lzIdx (lzRound (clz (c.refXor v)))).toNat 3 ++
      bitSlice (c.refXor v) (63 - lzRound (clz (c.refXor v))) 0 ++ rest)) 
    (hn : n = 5 + (64 - lzRound (clz (c.refXor v)))) :
    ∃ rec, d.ReadsC rec n (BitVec.ofNat 7 (lzRound (clz (c.refXor v)))) v := by
  subst hn
  have h24 := lzRound_le_24 (clz (c.refXor v))
  have hp := lt_two_pow_lzRound (c.refXor v)
  have hindex := lzVal_lzIdx (lzRound_mem (clz (c.refXor v)))
  have hbits := h.unread
  rw [← natBits_eq_bitSlice_zero _ _ (by omega)] at hbits
  have hreads := Machine.reads_prevn (d := d) (iii := lzIdx (lzRound (clz (c.refXor v)))) (p := c.refXor v) (rest := rest)
    (h.first.trans hfirst)
  rw [hindex, h.previous_xor hfirst hhist hhit] at hreads
  exact ⟨_, hreads hp hbits⟩

/-- A steady-state record the encoder wrote stands at the cursor as a record of its value. -/
theorem DecHalf.Mirrors.reads_recordBits (hfirst : c.first = false) (hhist : c.HistoryInv)
    (h : d.Mirrors c (c.recordBits v ++ rest)) :
    ∃ rec, d.ReadsC rec (c.recordBits v).length (c.announced v) v := by
  unfold ChpEncRegs.announced
  unfold ChpEncRegs.recordBits at h ⊢
  by_cases hx : c.refXor v = 0
  · simp only [if_pos hx, if_pos (Or.inl hx : _ ∨ c.hit v = true)] at h ⊢
    exact h.reads_copy hfirst hhist hx (by simp; omega)
  by_cases hhit : c.hit v = true
  · simp only [if_neg hx, if_pos hhit, if_pos (Or.inr hhit : c.refXor v = 0 ∨ _)] at h ⊢
    have h63 := lzRound_clz_add_ctz hx
    exact h.reads_hist hfirst hhist hx hhit rfl rfl (by simp; omega)
  have h24 := lzRound_le_24 (clz (c.refXor v))
  simp only [if_neg hx, if_neg hhit, if_neg (not_or.2 ⟨hx, hhit⟩)] at h ⊢
  by_cases hslz : lzRound (clz (c.refXor v)) = c.slz.toNat
  · simp only [if_pos hslz] at h ⊢
    rw [ofNat_eq_of_eq_toNat hslz]
    exact h.reads_prev hfirst hhist hhit hslz (by simp; omega)
  · simp only [if_neg hslz] at h ⊢
    exact h.reads_prevn hfirst hhist hhit (by simp; omega)

end

theorem readBack_record {c : ChpEncRegs} (v : Word) (hfirst : c.first = false) (hhist : c.HistoryInv)
    (hmem : Memory.wf 0 c.ring = true ∧ Memory.wf false c.tblv = true ∧ Memory.wf 0 c.tbl = true) :
    c.ReadBack (c.recordBits v) v ({ c with slz := c.announced v }.store (c.index + 1) v) := by
  intro m d rest h
  obtain ⟨hring, htblv, htbl⟩ := hmem
  obtain ⟨rec, hrec, hget⟩ := h.reads_recordBits hfirst hhist
  have hval := h.decVal m (fun htrue => by simp [hfirst] at htrue) hrec
  refine ⟨?_, fun hv hcount => ?_⟩
  · rintro rfl
    exact ⟨_, hval.trans (runDecHalf_ok ((hget m).trans (chpDeliver_end ..)))⟩
  · have hcount := hcount hfirst
    rw [← h.index] at hcount
    have hdeliver := chpDeliver_val
      (d := { d.advance (c.recordBits v).length with c := { d.c with slz := c.announced v } }) hv hcount
    refine ⟨_, hval.trans (runDecHalf_ok ((hget m).trans hdeliver)), ?_⟩
    refine h.stored (v := v) ?_ ?_ rfl (Memory.wf_write _ _ h.ring) <;> rw [ChpEncRegs.nextPos_steady hfirst]
    · exact ChpEncRegs.store_stored (c := { c with slz := c.announced v }) _ v hring htblv htbl hfirst
    · rw [← h.index]
      exact ChpDecRegs.store_stored (c := { d.c with slz := c.announced v }) _ v h.ring (h.first.trans hfirst)

/-! ## A value -/

/-- An accepted `CHP.PUT` appends a record that is read back under the registers it started from, and moves on by one
position. -/
theorem chpPut_readBack {m : Config.Impl} {v : Word} {e e' : EncHalf} (hput : chpPut m v e = .ok () e')
    (hacc : e.bs.AccInv) (hopen : e.bs.sealed = false) (hl : e.c.log2w.toNat ≤ 53) (hhist : e.HistoryInv) :
    ∃ l, e'.bs.Extends e.bs l ∧ e.c.ReadBack l v e'.c ∧ e'.c.nextPos = e.c.nextPos + 1 := by
  obtain ⟨hmem, hhist⟩ := hhist
  cases hfirst : e.c.first with
  | true =>
    rcases BitSink.takes_or_full m 64 hopen with hroom | hfull
    · obtain ⟨k, hfirstPut, hextends⟩ := putCFirst_ok v e.c hacc hroom
      cases hput.symm.trans ((chpPut_first hopen hfirst).trans hfirstPut)
      exact ⟨_, hextends, readBack_cFirst v hfirst hmem, by rw [ChpEncRegs.nextPos_first hfirst]; rfl⟩
    · cases hput.symm.trans (chpPut_first_full v hfirst hfull)
  | false =>
    by_cases hcount : indexFull m e.c.index = true
    · cases hput.symm.trans (chpPut_full hopen hfirst hcount)
    have hcount : ∀ b ∈ m.idxBits, e.c.index ≠ 2 ^ b - 1 := fun b hb h => hcount (indexFull_eq_true ⟨b, hb, h⟩)
    rcases BitSink.takes_or_full m (e.c.recordLength v) hopen with hroom | hfull
    · obtain ⟨k, hsteadyPut, hextends⟩ := chpPut_steady_ok v hfirst hcount hacc hl hroom
      cases hput.symm.trans hsteadyPut
      refine ⟨_, hextends, readBack_record v hfirst hhist hmem, ?_⟩
      rw [ChpEncRegs.nextPos_steady hfirst]
      exact ChpEncRegs.nextPos_steady hfirst
    · obtain ⟨_, herror⟩ := putCRecord_full v hacc hl hfull
      rw [chpPut_steady hopen hfirst hcount, bind_error herror] at hput
      cases hput

/-! ## A block -/

/-- Under registers that mirror `c` the bits `l` are the rest of a CHP block that holds the values `vs`, on a machine
whose position counter counts them. -/
def ChpEncRegs.DecodesTo (c : ChpEncRegs) (l : List Bool) (vs : List Word) : Prop :=
  ∀ (m : Config.Impl) (d : DecHalf), d.Mirrors c l → (∀ b ∈ m.idxBits, c.nextPos + vs.length ≤ 2 ^ b) →
    d.DecodesTo m vs

theorem ChpEncRegs.ReadBack.decodesTo_nil {c c' : ChpEncRegs} {l : List Bool}
    (h : c.ReadBack l Config.sentinel c') (rest : List Bool) : c.DecodesTo (l ++ rest) [] := by
  intro m d hmirrors _
  obtain ⟨d', hval⟩ := (h m d rest hmirrors).1 rfl
  exact DecHalf.decodesTo_nil hval

theorem ChpEncRegs.ReadBack.decodesTo_cons {c c' : ChpEncRegs} {l l' : List Bool} {v : Word} {vs : List Word}
    (h : c.ReadBack l v c') (hv : v ≠ Config.sentinel) (hnext : c'.nextPos = c.nextPos + 1)
    (hrest : c'.DecodesTo l' vs) : c.DecodesTo (l ++ l') (v :: vs) := by
  intro m d hmirrors hcount
  simp only [List.length_cons] at hcount
  have hfits : c.first = false → ∀ b ∈ m.idxBits, c.index ≠ 2 ^ b - 1 := by
    intro hfirst b hb
    have hb := hcount b hb
    rw [ChpEncRegs.nextPos_steady hfirst] at hb
    omega
  obtain ⟨d', hval, hmirrors'⟩ := (h m d l' hmirrors).2 hv hfits
  exact (hrest m d' hmirrors' fun b hb => by have := hcount b hb; omega).cons hval

/-- An accepted `CHP.CLOSE` leaves bytes that spell what was written, a record of the sentinel and what pads it. -/
theorem chpFinish_readBack {m : Config.Impl} {e e' : EncHalf} (h : chpFinish m e = .ok () e') (hacc : e.bs.AccInv)
    (hopen : e.bs.sealed = false) (hl : e.c.log2w.toNat ≤ 53) (hhist : e.HistoryInv) :
    ∃ l c' pad, bytesBits e'.bs.buf = e.bs.bits ++ (l ++ pad) ∧ e.c.ReadBack l Config.sentinel c' := by
  obtain ⟨⟨⟩, e1, hput, h⟩ := bind_eq_ok h
  cases h
  obtain ⟨l, ⟨hbits, hseal, hacc1⟩, hread, -⟩ := chpPut_readBack hput hacc hopen hl hhist
  obtain ⟨hflushed, -, hwoff, -⟩ := BitSink.flushed_sealed hacc1 (hseal.trans hopen)
  rw [BitSink.bits_of_woff_eq_zero hwoff, hbits, List.append_assoc] at hflushed
  exact ⟨l, e1.c, _, hflushed, hread⟩

/-- The values and the close of a CHP block, accepted from a half whose bits are already in the sink: what they append
decodes to the values under the registers they started from. -/
theorem encodeAll_chp_decodesTo {m : Config.Impl} {vs : List Word} {e e1 e2 : EncHalf} (hvs : Config.sentinel ∉ vs)
    (hvalues : encodeAll m .chp vs e = .ok () e1) (hclose : chpFinish m e1 = .ok () e2) (hacc : e.bs.AccInv)
    (hopen : e.bs.sealed = false) (hl : e.c.log2w.toNat ≤ 53) (hhist : e.HistoryInv) :
    ∃ l, bytesBits e2.bs.buf = e.bs.bits ++ l ∧ e.c.DecodesTo l vs := by
  induction vs generalizing e with
  | nil =>
    cases hvalues
    obtain ⟨l, c', pad, hbytes, hread⟩ := chpFinish_readBack hclose hacc hopen hl hhist
    exact ⟨_, hbytes, hread.decodesTo_nil pad⟩
  | cons v vs ih =>
    obtain ⟨hv, hvs⟩ := not_or.1 (List.mem_cons.not.1 hvs)
    obtain ⟨⟨⟩, e', hvalue, hvalues⟩ := bind_eq_ok hvalues
    have hput := (chpEncode_eq m v e).symm.trans hvalue
    obtain ⟨l, ⟨hbits, hseal, hacc'⟩, hread, hnext⟩ := chpPut_readBack hput hacc hopen hl hhist
    have hkeeps := (chpEncode_good m v e).ok hvalue
    obtain ⟨l', hbytes, hrest⟩ := ih hvs hvalues hacc' (hseal.trans hopen) (hkeeps.log2w ▸ hl)
      ⟨hkeeps.memory hhist.1, hkeeps.history hhist.1 hhist.2⟩
    rw [hbits, List.append_assoc] at hbytes
    exact ⟨_, hbytes, hread.decodesTo_cons (Ne.symm hv) hnext hrest⟩

/-- Both halves open a CHP block with registers that mirror each other: no slot is live yet. -/
theorem opened_mirrors {e : EncHalf} {d : DecHalf} {w : BitVec 6} {bits : List Bool}
    (hring : Memory.wf 0 d.c.ring = true)
    (hbits : d.bs.unread = bits) : (d.opened w .chp).Mirrors (e.opened w .chp).c bits :=
  ⟨rfl, rfl, hbits, hring, rfl, rfl, rfl, rfl, nofun⟩

/-- Settles O51: both halves open with registers that mirror each other, so the block the encoder wrote from them decodes
to its values, by induction on the values. -/
theorem historyBlocksRoundTrip : Obligations.HistoryBlocksRoundTrip := by
  rintro s t s' vs data hvs ⟨-, hmax, hcfg, -, -⟩ ⟨hring, -, htbl, -⟩ ⟨-, -, -, hring'⟩ hwindow hexec hresp hcap hcount
  obtain ⟨e1, e2, hvalues, hclose, rfl⟩ := compress_accepted (by decide) hexec hresp
  obtain ⟨l, hbytes, hdecodes⟩ := encodeAll_chp_decodesTo hvs hvalues hclose (by simp [BitSink.AccInv, BitSink.reset])
    rfl (hcfg.trans hmax) ⟨⟨hring, rfl, htbl⟩, ChpEncRegs.historyInv_of_clear rfl rfl⟩
  have hmirrors : ((s'.d.loaded e2.bs.buf).opened s'.cfgLog2w .chp).Mirrors (s.e.opened s.cfgLog2w .chp).c l :=
    hwindow ▸ opened_mirrors hring' hbytes
  refine exec_decompress_of_answer (by decide) hcap fun fuel r d' hloop => ?_
  exact hdecodes s'.impl _ hmirrors (by simpa [ChpEncRegs.nextPos] using hcount) fuel d' [] r hloop

end Sys2Proof.Machine

/-! PROOFS. The system commands and the opening of blocks (`45_block_and_system.md` R210 to R216), and where `ENC.VAL`,
`ENC.CLOSE` and `DEC.VAL` are refused, answer at once, or are the row of their codec. -/

namespace Sys2Proof.Machine

/-! ## System commands -/

/-- The first of two fields that stand side by side counts from above the second. -/
theorem toNat_append_eq_add {v w : ℕ} (x : BitVec v) (y : BitVec w) :
    (x ++ y).toNat = x.toNat * 2 ^ w + y.toNat := by
  rw [BitVec.toNat_append, ← Nat.shiftLeft_add_eq_or_of_lt y.isLt, Nat.shiftLeft_eq]

@[simp] theorem flagBit_toNat (b : Bool) : (flagBit b).toNat = b.toNat := BitVec.toNat_ofBool b

theorem EncStatus.byte_toNat (st : EncStatus) : st.byte.toNat = st.cv.toNat + 2 * st.sent.toNat + 4 * st.ovf.toNat := by
  simp only [EncStatus.byte, toNat_append_eq_add, flagBit_toNat, BitVec.toNat_ofNat]
  omega

theorem DecHalf.statusByte_toNat (d : DecHalf) : d.statusByte.toNat = d.cv.toNat := by
  rw [DecHalf.statusByte, toNat_append_eq_add, flagBit_toNat, BitVec.toNat_ofNat]
  omega

/-- The status word as the sum of its fields (`45_block_and_system.md` R216). -/
theorem State.statusWord_toNat (s : State) : s.statusWord.toNat =
    s.e.status.cv.toNat + 2 * s.e.status.sent.toNat + 4 * s.e.status.ovf.toNat + 2 ^ 8 * s.d.cv.toNat +
      2 ^ 16 * s.e.codec.code.toNat + 2 ^ 18 * s.d.codec.code.toNat + 2 ^ 20 * s.d.phase.code.toNat +
      2 ^ 22 * s.d.err.code.toNat + 2 ^ 25 * s.e.bs.sealed.toNat + 2 ^ 32 * s.cfgLog2w.toNat := by
  simp only [State.statusWord, toNat_append_eq_add, flagBit_toNat, EncStatus.byte_toNat, DecHalf.statusByte_toNat,
    BitVec.toNat_ofNat]
  omega

/-- Settles O3: the numbers are those of the tables, and the fields stand side by side in the word. -/
theorem statusReadsEveryField : Obligations.StatusReadsEveryField := by
  refine ⟨?codecs, ?phases, ?errors, fun s => ⟨s.statusWord, rfl, s.statusWord_toNat⟩⟩
  case codecs => exact ⟨rfl, rfl, rfl, rfl⟩
  case phases => exact ⟨rfl, rfl, rfl⟩
  case errors => exact ⟨rfl, rfl, rfl, rfl, rfl, rfl⟩

/-- The registers of the reset state stand whatever the ports and the parameters are. -/
theorem State.reset_atReset (m : Config.Impl) (port : List Command) (r : Option Response) :
    State.AtReset { State.reset with impl := m, port := port, resp := r } := by
  unfold State.AtReset
  and_intros
  all_goals
    intros
    rfl

/-- Settles O1: `RESET` leaves the reset state but for the ports and the parameters, which are no registers. -/
theorem resetPutsEveryRegisterAtItsValue : Obligations.ResetPutsEveryRegisterAtItsValue :=
  ⟨State.reset_atReset _ _ _, fun s => ⟨_, rfl, State.reset_atReset s.impl s.port (some .ok), rfl⟩⟩

/-! ## Opening a block -/

/-- Settles O19: both OPENs write the registers named and keep the rest; `ENC.OPEN` clears the valid bits. -/
theorem openStartsABlock : Obligations.OpenStartsABlock :=
  fun _ _ => ⟨⟨[], Memory.read_nil false, rfl⟩, rfl⟩

theorem exec_cfgW_of_tooWide {s : State} {n : BitVec 7} (h : s.impl.log2wMax < n.toNat) :
    exec (.cfgW n) s = .next { s with resp := some (.err .contractViolation) } := if_pos h

theorem exec_cfgW_of_le {s : State} {n : BitVec 7} (h : n.toNat ≤ s.impl.log2wMax) :
    exec (.cfgW n) s = .next { s with cfgLog2w := BitVec.ofNat 6 n.toNat, resp := some .ok } :=
  if_neg (Nat.not_lt.2 h)

/-- Settles O2: a window that is accepted fits its register, and each OPEN latches the register. -/
theorem cfgWSetsTheWindowOfLaterBlocks : Obligations.CfgWSetsTheWindowOfLaterBlocks := by
  intro s n hmax
  refine ⟨exec_cfgW_of_tooWide, fun hle => ?_⟩
  have hfits : (BitVec.ofNat 6 n.toNat).toNat = n.toNat := by
    rw [BitVec.toNat_ofNat, Nat.mod_eq_of_lt (by omega)]
  exact ⟨_, hfits, exec_cfgW_of_le hle, ⟨_, rfl, rfl⟩, _, rfl, rfl⟩

/-! ## The row a codec selects -/

theorem exec_encVal_refused {s : State} (v : Word) (h : s.e.codec = .raw ∨ s.e.bs.sealed = true) :
    exec (.encVal v) s = .next s.encCv := by
  by_cases hk : s.e.codec = .raw
  · exact if_pos hk
  · exact (if_neg hk).trans (if_pos (h.resolve_left hk))

theorem exec_encClose_refused {s : State} (h : s.e.codec = .raw ∨ s.e.bs.sealed = true) :
    exec .encClose s = .next s.encCv := by
  by_cases hk : s.e.codec = .raw
  · exact if_pos hk
  · exact (if_neg hk).trans (if_pos (h.resolve_left hk))

/-- A close whose record overflows is refused whole. -/
theorem exec_chpClose_full {s : State} {i : Instr} {e' : EncHalf} (hi : i ∈ [.encClose, .chpClose])
    (hk : s.e.codec = .chp) (hopen : s.e.bs.sealed = false)
    (hput : chpPut s.impl Config.sentinel s.e = .error .overflow e') : exec i s = .next s.encOvf := by
  rw [exec_chpClose hi hk hopen, runEnc_error (then_ok_error (m := chpFinish s.impl) (bind_error hput _))]
  rfl

/-- On an open sink `ENC.VAL` is the row its codec selects. -/
theorem exec_encVal_dispatched {s : State} {v : Word} {j : Instr} (hopen : s.e.bs.sealed = false)
    (h : dispatchCommand s.e.codec s.d.codec (.encVal v) = .ok j) : exec (.encVal v) s = exec j s := by
  cases hk : s.e.codec <;> rw [hk] at h <;> cases h
  · exact exec_x64Value List.mem_cons_self hk hopen
  · exact exec_eraValue List.mem_cons_self hk hopen
  · exact exec_chpValue List.mem_cons_self hk hopen

/-- On an open sink `ENC.CLOSE` is the row its codec selects. -/
theorem exec_encClose_dispatched {s : State} {j : Instr} (hopen : s.e.bs.sealed = false)
    (h : dispatchCommand s.e.codec s.d.codec .encClose = .ok j) : exec .encClose s = exec j s := by
  cases hk : s.e.codec <;> rw [hk] at h <;> cases h
  · exact exec_x64Close List.mem_cons_self hk hopen
  · exact exec_eraClose List.mem_cons_self hk hopen
  · exact exec_chpClose List.mem_cons_self hk hopen

/-- Where it reads a record, `DEC.VAL` is the row its codec selects. -/
theorem exec_decVal_dispatched {s : State} {j : Instr} (hp : s.d.phase = .run)
    (hreads : s.d.atFirst = true → 0 < s.d.bs.avail)
    (h : dispatchCommand s.e.codec s.d.codec .decVal = .ok j) : exec .decVal s = exec j s := by
  have hrecord : ¬ (s.d.atFirst = true ∧ s.d.bs.avail = 0) := fun ⟨hfirst, hempty⟩ => (hreads hfirst).ne' hempty
  cases hk : s.d.codec <;> rw [hk] at h <;> cases h
  all_goals
    rw [exec_decVal_run (by simp [hk]) hp hrecord, hk]
    rfl

/-- Settles O20: the refusals in the order of the rule, and the row of each codec. -/
theorem codecsSelectTheirUnit : Obligations.CodecsSelectTheirUnit := by
  intro s v
  refine ⟨fun h => ⟨exec_encVal_refused v h, exec_encClose_refused h⟩, ?counter, ?encode, ?decode⟩
  case counter =>
    intro hk hopen hfirst hcount
    have hfull (v : Word) : chpPut s.impl v s.e = .error .overflow s.e :=
      chpPut_full hopen hfirst (indexFull_eq_true hcount)
    exact ⟨exec_chpValue_full List.mem_cons_self hk hopen (hfull v),
      exec_chpClose_full List.mem_cons_self hk hopen (hfull _)⟩
  case encode =>
    rintro hopen i j (rfl | rfl) h
    · exact exec_encVal_dispatched hopen h
    · exact exec_encClose_dispatched hopen h
  case decode => exact fun hp hreads j h => exec_decVal_dispatched hp hreads h

/-- `DEC.VAL` leaves and answers what it does on the half. -/
theorem exec_decVal_of_half {s : State} {r : Response} {d : DecHalf} (h : s.d.decVal s.impl = (r, d)) :
    exec .decVal s = .next { s with d := d, resp := some r } := by
  show execDecVal s = _
  rw [execDecVal, h]

/-- Settles O21: each case is that of `DEC.VAL` on the half. -/
theorem decValAnswersWithoutReading : Obligations.DecValAnswersWithoutReading := by
  intro s
  refine ⟨fun hraw => exec_decVal_of_half (decVal_raw _ hraw), fun hk => ⟨?fault, ?done, ?empty⟩⟩
  case fault => exact fun hp => exec_decVal_of_half (decVal_fault _ hk hp)
  case done => exact fun hp => exec_decVal_of_half (decVal_done _ hk hp)
  case empty => exact fun hp hfirst hempty => exec_decVal_of_half (decVal_empty _ hk hp ⟨hfirst, hempty⟩)

end Sys2Proof.Machine

/-! PROOFS. The whole-block commands (`45_block_and_system.md` R217, R218). The one idea: `COMPRESS` and its expansion run
the same micro-operations one after another, so they part ways nowhere before the first refusal; and in a block that
`ENC.OPEN` began the only refusal there is is an Overflow. `DECOMPRESS` runs `DEC.VAL` itself. -/

namespace Sys2Proof.Machine

/-! ## In a block being written the only refusal is an Overflow -/

/-- A block of codec `k` is being written: the sink open and in its form, the latched window in range. -/
structure EncHalf.Writing (k : Codec) (e : EncHalf) : Prop where
  codec : e.codec = k
  acc : e.bs.AccInv
  opened : e.bs.sealed = false
  window : e.c.log2w.toNat ≤ 53

/-- The implementation limits the sink or the position counter (`00_scope.md` R6). -/
abbrev HasLimit (m : Config.Impl) : Prop := m.sinkCap ≠ none ∨ m.idxBits ≠ none

/-- From the half `e` the sequence is accepted and leaves a half in `post`; or there is a limit, and it overflows. -/
def EncM.FitsAt (m : Config.Impl) (x : EncM Unit) (e : EncHalf) (post : EncHalf → Prop) : Prop :=
  (∃ e', x e = .ok () e' ∧ post e') ∨ HasLimit m ∧ ∃ e', x e = .error .overflow e'

section
variable {m : Config.Impl} {k : Codec} {e : EncHalf} {post post' : EncHalf → Prop}

theorem EncM.FitsAt.bind {x : EncM Unit} {f : Unit → EncM Unit} (hx : EncM.FitsAt m x e post)
    (hf : ∀ e', post e' → EncM.FitsAt m (f ()) e' post') : EncM.FitsAt m (x >>= f) e post' := by
  rcases hx with ⟨e', h, hpost⟩ | ⟨hlimit, e', h⟩
  · rw [EncM.FitsAt, bind_ok h]
    exact hf e' hpost
  · exact .inr ⟨hlimit, e', bind_error h _⟩

theorem BitSink.Full.hasLimit {b : BitSink} {n : ℕ} (h : b.Full m n) : HasLimit m := by
  obtain ⟨-, cap, hcap, -⟩ := h
  exact .inl fun hnone => by simp [hnone] at hcap

theorem hasLimit_of_indexFull {n : ℕ} (h : indexFull m n = true) : HasLimit m := by
  refine .inr fun hnone => ?_
  simp [indexFull, hnone] at h

theorem EncHalf.Writing.extended {b : BitSink} {l : List Bool} (h : e.Writing k) (hb : b.Extends e.bs l) :
    EncHalf.Writing k { e with bs := b } := by
  obtain ⟨-, hseal, hacc⟩ := hb
  exact ⟨h.codec, hacc, hseal.trans h.opened, h.window⟩

theorem putBits_fits {n : ℕ} (v : Word) (hn : n ≤ 64) (h : e.Writing k) :
    EncM.FitsAt m (putBits m v n) e (EncHalf.Writing k) := by
  rcases BitSink.takes_or_full m n h.opened with hroom | hfull
  · obtain ⟨b, hput, hextends⟩ := putBits_extends v hn h.acc hroom
    exact .inl ⟨_, hput, h.extended hextends⟩
  · exact .inr ⟨hfull.hasLimit, e, putBits_full v hn hfull⟩

theorem putBit_fits (b : Bool) (h : e.Writing k) : EncM.FitsAt m (putBit m b) e (EncHalf.Writing k) := by
  rcases BitSink.takes_or_full m 1 h.opened with hroom | hfull
  · exact .inl ⟨_, putBit_ok hroom, h.extended (BitSink.push_extends h.acc b)⟩
  · exact .inr ⟨hfull.hasLimit, e, putBit_full b hfull⟩

/-! ### The engines -/

theorem x64Put_fits (v : Word) (h : e.Writing k) : EncM.FitsAt m (x64Put m v) e (EncHalf.Writing k) := by
  rcases BitSink.takes_or_full m (e.x.putLength v) h.opened with hroom | hfull
  · obtain ⟨b, x, l, hput, hextends, -⟩ := x64Put_ok v h.acc hroom
    obtain ⟨hcodec, hacc, hopen, hwindow⟩ := h.extended hextends
    exact .inl ⟨_, hput, hcodec, hacc, hopen, hwindow⟩
  · exact .inr ⟨hfull.hasLimit, x64Put_full v h.acc hfull⟩

theorem EncHalf.Writing.flagged (h : e.Writing k) (st : EncStatus) : EncHalf.Writing k { e with status := st } :=
  ⟨h.codec, h.acc, h.opened, h.window⟩

theorem x64Encode_fits (v : Word) (h : e.Writing k) : EncM.FitsAt m (x64Encode m v) e (EncHalf.Writing k) := by
  rw [EncM.FitsAt, x64Encode_eq]
  exact x64Put_fits v (h.flagged _)

theorem putControl_fits (b : ℕ) (h : e.Writing k) : EncM.FitsAt m (putControl m b) e (EncHalf.Writing k) := by
  unfold EncM.FitsAt putControl
  by_cases hknown : e.r.lbsv = true ∧ b = e.r.lbs.toNat
  · simp only [if_pos hknown]
    exact putBits_fits 0 (by omega) h
  · simp only [if_neg hknown]
    refine EncM.FitsAt.bind (putBits_fits _ (by omega) h) fun e' h' => .inl ⟨_, rfl, ?_⟩
    exact ⟨h'.codec, h'.acc, h'.opened, h'.window⟩

theorem eraEncode_fits (v : Word) (h : e.Writing k) : EncM.FitsAt m (eraEncode m v) e (EncHalf.Writing k) := by
  by_cases herased : classOf v = .normal ∧ ∃ eb, ErasureTaken v eb
  · obtain ⟨hnormal, eb, ht⟩ := herased
    rw [eraEncode_erased hnormal ht]
    exact (putControl_fits _ h).bind fun _ => x64Encode_fits _
  · rw [eraEncode_plain fun hnormal eb ht => herased ⟨hnormal, eb, ht⟩]
    exact (putBits_fits _ (by omega) h).bind fun _ => x64Encode_fits _

theorem putCRecord_fits (v : Word) (h : e.Writing k) :
    EncM.FitsAt m (putCRecord m v e.c) e (EncHalf.Writing k) := by
  rcases BitSink.takes_or_full m (e.c.recordLength v) h.opened with hroom | hfull
  · obtain ⟨b, c, l, hput, hextends, -⟩ := putCRecord_ok v h.acc h.window hroom
    obtain ⟨hcodec, hacc, hopen, -⟩ := h.extended hextends
    have hlog2w := ((putCRecord_record m v e).good.ok hput).log2w
    exact .inl ⟨_, hput, hcodec, hacc, hopen, hlog2w ▸ h.window⟩
  · exact .inr ⟨hfull.hasLimit, putCRecord_full v h.acc h.window hfull⟩

theorem putCFirst_fits (v : Word) (h : e.Writing k) : EncM.FitsAt m (putCFirst m v e.c) e (EncHalf.Writing k) :=
  (putBits_fits v (by omega) h).bind fun _ h' => .inl ⟨_, rfl, h'.codec, h'.acc, h'.opened, h.window⟩

theorem chpPut_fits (v : Word) (h : e.Writing k) : EncM.FitsAt m (chpPut m v) e (EncHalf.Writing k) := by
  by_cases hfirst : e.c.first = true
  · rw [EncM.FitsAt, chpPut_first h.opened hfirst]
    exact putCFirst_fits v h
  have hsteady : e.c.first = false := by simpa using hfirst
  by_cases hfull : indexFull m e.c.index = true
  · exact .inr ⟨hasLimit_of_indexFull hfull, e, chpPut_full h.opened hsteady hfull⟩
  have hput : chpPut m v e = (do putCRecord m v e.c; updateHistory v : EncM Unit) e := by
    rw [chpPut, if_neg (by simp [h.opened]), if_neg hfirst, if_neg hfull]
  rw [EncM.FitsAt, hput]
  refine EncM.FitsAt.bind (putCRecord_fits v h) fun e' h' => .inl ⟨_, rfl, ?_⟩
  exact ⟨h'.codec, h'.acc, h'.opened, h'.window⟩

theorem chpEncode_fits (v : Word) (h : e.Writing k) : EncM.FitsAt m (chpEncode m v) e (EncHalf.Writing k) := by
  rw [EncM.FitsAt, chpEncode_eq]
  exact chpPut_fits v (h.flagged _)

theorem encodeWith_fits (hk : k ≠ .raw) (v : Word) (h : e.Writing k) :
    EncM.FitsAt m (encodeWith m k v) e (EncHalf.Writing k) := by
  cases k with
  | raw => exact absurd rfl hk
  | x64 => exact x64Encode_fits v h
  | era => exact eraEncode_fits v h
  | chp => exact chpEncode_fits v h

/-! ### The close -/

theorem flushSink_fits : EncM.FitsAt m flushSink e (fun e' => e'.bs.sealed = true) :=
  .inl ⟨_, rfl, e.bs.flushed_sealed_eq_true⟩

theorem x64Finish_fits (h : e.Writing k) : EncM.FitsAt m (x64Finish m) e (fun e' => e'.bs.sealed = true) :=
  (x64Put_fits _ h).bind fun _ h1 => (putBit_fits false h1).bind fun _ _ => flushSink_fits

theorem finishWith_fits (hk : k ≠ .raw) (h : e.Writing k) :
    EncM.FitsAt m (finishWith m k) e (fun e' => e'.bs.sealed = true) := by
  cases k with
  | raw => exact absurd rfl hk
  | x64 => exact x64Finish_fits h
  | era => exact (putBits_fits _ (by omega) h).bind fun _ => x64Finish_fits
  | chp => exact (chpPut_fits _ h).bind fun _ _ => flushSink_fits

end

/-! ## `COMPRESS` -/

theorem State.ParamInv.opened_writing {s : State} (h : s.ParamInv) (k : Codec) :
    (s.e.opened s.cfgLog2w k).Writing k := by
  obtain ⟨-, hmax, hcfg, henc, -⟩ := h
  refine ⟨rfl, by simp [BitSink.AccInv, BitSink.reset], rfl, ?_⟩
  rw [EncHalf.opened_c_log2w]
  split
  · exact hcfg.trans hmax
  · exact henc.trans hmax

/-- No response of a sequence is an error. -/
abbrev NoError (rs : List (Option Response)) : Prop := ∀ r ∈ rs, ∀ c, r ≠ some (.err c)

theorem noError_cons {r : Response} {rs : List (Option Response)} (h : NoError rs) (hr : ∀ c, r ≠ .err c) :
    NoError (some r :: rs) :=
  List.forall_mem_cons.2 ⟨fun c hc => hr c (Option.some.inj hc), h⟩

/-- From `s` the commands `is` do what the sequence `x` does: they answer no error, and leave and answer last what it
does; or there is a limit, one of them answers an error, and it overflows. -/
def State.RunsAs (s : State) (is : List Instr) (x : EncM Response) : Prop :=
  (∃ rs e r, issue is s = some (rs, { s with e := e, resp := some r }) ∧ NoError rs ∧ x s.e = .ok r e) ∨
    HasLimit s.impl ∧ (∃ rs t, issue is s = some (rs, t) ∧ ∃ r ∈ rs, ∃ c, r = some (.err c)) ∧
      ∃ e, x s.e = .error .overflow e

/-- Commands of the encode half all answer, so a sequence of them runs to its end. -/
theorem issue_encode {is : List Instr} (h : ∀ i ∈ is, i.isEncode = true) (s : State) :
    ∃ rs t, issue is s = some (rs, t) := by
  induction is generalizing s with
  | nil => exact ⟨[], s, rfl⟩
  | cons i is ih =>
    obtain ⟨hi, his⟩ := List.forall_mem_cons.1 h
    obtain ⟨r, e, -, hacts⟩ := encode_acts hi s
    obtain ⟨rs, t, hissue⟩ := ih his { s with e := e, resp := some r }
    exact ⟨_, t, issue_cons (hacts s.d) hissue⟩

/-- A first command that is accepted. -/
theorem State.RunsAs.cons {s : State} {i : Instr} {is : List Instr} {x x' : EncM Response} {e : EncHalf}
    (hexec : exec i s = .next { s with e := e, resp := some .ok }) (hx : x s.e = x' e)
    (h : State.RunsAs { s with e := e, resp := some .ok } is x') : s.RunsAs (i :: is) x := by
  rcases h with ⟨rs, e', r, hissue, hrs, hx'⟩ | ⟨hlimit, ⟨rs, t, hissue, r, hr, c, rfl⟩, e', hx'⟩
  · exact .inl ⟨_, e', r, issue_cons hexec hissue, noError_cons hrs nofun, hx.trans hx'⟩
  · exact .inr ⟨hlimit, ⟨_, t, issue_cons hexec hissue, _, List.mem_cons_of_mem _ hr, c, rfl⟩, e', hx.trans hx'⟩

/-- A first command that is refused. -/
theorem State.RunsAs.refused {s : State} {i : Instr} {is : List Instr} {x : EncM Response} {e : EncHalf}
    (hlimit : HasLimit s.impl) (hexec : exec i s = .next (s.refuseEnc .overflow)) (his : ∀ i ∈ is, i.isEncode = true)
    (hx : x s.e = .error .overflow e) : s.RunsAs (i :: is) x := by
  obtain ⟨rs, t, hissue⟩ := issue_encode his (s.refuseEnc .overflow)
  exact .inr ⟨hlimit, ⟨_, t, issue_cons hexec hissue, _, List.mem_cons_self, .overflow, rfl⟩, e, hx⟩

/-! ### The expansion -/

/-- What `COMPRESS` runs after its `ENC.OPEN` (`45_block_and_system.md` R217). -/
def blockCommands (data : List Word) : List Instr := data.map .encVal ++ [.encClose, .bytes]

theorem blockCommands_isEncode (data : List Word) : ∀ i ∈ blockCommands data, i.isEncode = true := by
  intro i hi
  simp only [blockCommands, List.mem_append, List.mem_map, List.mem_cons, List.not_mem_nil, or_false] at hi
  rcases hi with ⟨v, -, rfl⟩ | rfl | rfl <;> rfl

/-- What `COMPRESS` runs last: `BYTES` of a sink the close has sealed. -/
def answerBytes : EncM Response := do
  let e ← get
  pure (.bytes e.bs.buf)

theorem compressBody_nil (m : Config.Impl) (k : Codec) :
    compressBody m k [] = (do finishWith m k; answerBytes) := by
  simp only [compressBody, encodeAll, pure_bind]
  rfl

theorem compressBody_cons (m : Config.Impl) (k : Codec) (v : Word) (vs : List Word) :
    compressBody m k (v :: vs) = (do encodeWith m k v; compressBody m k vs) := by
  simp only [compressBody, encodeAll, bind_assoc]

theorem bytes_runsAs {s : State} (h : s.e.bs.sealed = true) : s.RunsAs [.bytes] answerBytes :=
  .inl ⟨_, s.e, .bytes s.e.bs.buf, issue_cons (exec_bytes_of_sealed h) rfl, by simp [NoError], rfl⟩

/-- In a block being written, the values, the close and `BYTES` do what `COMPRESS` does. -/
theorem block_runsAs {s : State} {k : Codec} (hk : k ≠ .raw) (data : List Word) (h : s.e.Writing k) :
    s.RunsAs (blockCommands data) (compressBody s.impl k data) := by
  have hcodec : s.e.codec ≠ .raw := h.codec ▸ hk
  induction data generalizing s with
  | nil =>
    rw [compressBody_nil]
    rcases finishWith_fits (m := s.impl) hk h with ⟨e', hclose, hseal⟩ | ⟨hlimit, e', hclose⟩
    · exact .cons (exec_encClose_ok hcodec h.opened (h.codec ▸ hclose)) (bind_ok hclose _) (bytes_runsAs hseal)
    · exact .refused hlimit (exec_encClose_error hcodec h.opened (h.codec ▸ hclose))
        (List.forall_mem_singleton.2 rfl) (bind_error hclose _)
  | cons v vs ih =>
    rw [compressBody_cons]
    rcases encodeWith_fits (m := s.impl) hk v h with ⟨e', hvalue, hwriting⟩ | ⟨hlimit, e', hvalue⟩
    · exact .cons (exec_encVal_ok hcodec h.opened (h.codec ▸ hvalue)) (bind_ok hvalue _)
        (ih (s := { s with e := e', resp := some .ok }) hwriting (hwriting.codec ▸ hk))
    · exact .refused hlimit (exec_encVal_error hcodec h.opened (h.codec ▸ hvalue)) (blockCommands_isEncode vs)
        (bind_error hvalue _)

theorem exec_compress {s : State} {k : Codec} (hk : k ≠ .raw) (data : List Word) :
    exec (.compress k data) s =
      .next (runEnc (compressBody s.impl k data) { s with e := s.e.opened s.cfgLog2w k }) := if_neg hk

/-- The state after `ENC.OPEN` (`45_block_and_system.md` R210). -/
def State.encOpened (s : State) (k : Codec) : State := { s with e := s.e.opened s.cfgLog2w k, resp := some .ok }

theorem exec_encOpen (s : State) (k : Codec) : exec (.encOpen k) s = .next (s.encOpened k) := rfl

theorem exec_compress_ok {s : State} {k : Codec} {data : List Word} {r : Response} {e : EncHalf} (hk : k ≠ .raw)
    (h : compressBody s.impl k data (s.encOpened k).e = .ok r e) :
    exec (.compress k data) s = .next { s.encOpened k with e := e, resp := some r } :=
  (exec_compress hk data).trans (congrArg _ (runEnc_ok (s := { s with e := s.e.opened s.cfgLog2w k }) h))

theorem exec_compress_overflow {s : State} {k : Codec} {data : List Word} {e : EncHalf} (hk : k ≠ .raw)
    (h : compressBody s.impl k data (s.encOpened k).e = .error .overflow e) :
    exec (.compress k data) s = .next (s.encOpened k).encOvf :=
  (exec_compress hk data).trans (congrArg _ (runEnc_error (s := { s with e := s.e.opened s.cfgLog2w k }) h))

/-- The bytes `COMPRESS` answers are those it leaves in the sink. -/
theorem compressBody_answers {m : Config.Impl} {k : Codec} {data : List Word} {e e' : EncHalf} {r : Response}
    (h : compressBody m k data e = .ok r e') : r = .bytes e'.bs.buf := by
  obtain ⟨_, _, -, h⟩ := bind_eq_ok h
  obtain ⟨_, e2, -, h⟩ := bind_eq_ok h
  rw [bind_ok (run_get e2)] at h
  cases h
  rfl

/-- Settles O47: after `ENC.OPEN` a block is being written, in which the expansion and the command do the same. -/
theorem compressIsItsExpansion : Obligations.CompressIsItsExpansion := by
  intro s k data hparam
  refine ⟨fun hraw => if_pos hraw, fun hk => ?_⟩
  rcases block_runsAs (s := s.encOpened k) hk data (hparam.opened_writing k) with
    ⟨rs, e, r, hissue, hrs, hbody⟩ | ⟨hlimit, ⟨rs, t, hissue, _, hr, c, rfl⟩, e, hbody⟩
  · have hnone : NoError (some .ok :: rs) := noError_cons hrs nofun
    refine ⟨_, _, issue_cons (exec_encOpen s k) hissue, ?accepted, ?refused, fun _ _ => hnone⟩
    case accepted => exact fun _ => ⟨exec_compress_ok hk hbody, congrArg some (compressBody_answers hbody)⟩
    case refused => exact fun ⟨r, hr, c, hc⟩ => absurd hc (hnone r hr c)
  · have hmem : some (.err c) ∈ some .ok :: rs := List.mem_cons_of_mem _ hr
    refine ⟨_, t, issue_cons (exec_encOpen s k) hissue, ?accepted, ?refused, ?unlimited⟩
    case accepted => exact fun hnone => absurd rfl (hnone _ hmem c)
    case refused => exact fun _ => ⟨_, exec_encOpen s k, exec_compress_overflow hk hbody⟩
    case unlimited => exact fun hsink hcount => absurd hlimit (not_or.2 ⟨not_not.2 hsink, not_not.2 hcount⟩)

/-! ## `DECOMPRESS` -/

/-- The loop of `DECOMPRESS` is as many `DEC.VAL`s as it gives values and one more, which ends it. -/
theorem decodeAll_issue {s : State} {fuel : ℕ} {d' : DecHalf} {out : List Word} {r : Response}
    (hk : s.d.codec ≠ .raw) (h : decodeAll s.impl fuel s.d out = some (r, d')) :
    ∃ (vs : List Word) (last : Response),
      issue (List.replicate (vs.length + 1) .decVal) s =
          some ((vs.map fun v => some (.val v)) ++ [some last], { s with d := d', resp := some last }) ∧
        (last = .endOfBlock ∧ r = .vals (out ++ vs) ∨ ∃ c, last = .err c ∧ r = .err c) := by
  induction fuel generalizing s out with
  | zero => cases h
  | succ fuel ih =>
    rcases decVal_answers s.impl hk with ⟨v, d1, hval, hkeep, -⟩ | ⟨d1, hval⟩ | ⟨c, d1, hval⟩
    · rw [decodeAll_val hval] at h
      obtain ⟨vs, last, hissue, hlast⟩ :=
        ih (s := { s with d := d1, resp := some (.val v) }) (hkeep.codec ▸ hk) h
      rw [List.append_assoc] at hlast
      exact ⟨v :: vs, last, issue_cons (exec_decVal_of_half hval) hissue, hlast⟩
    · rw [decodeAll_end hval] at h
      cases h
      exact ⟨[], .endOfBlock, issue_cons (exec_decVal_of_half hval) rfl, .inl ⟨rfl, by rw [List.append_nil]⟩⟩
    · rw [decodeAll_err hval] at h
      cases h
      exact ⟨[], .err c, issue_cons (exec_decVal_of_half hval) rfl, .inr ⟨c, rfl, rfl⟩⟩

theorem sourceTooLong_of_lt {m : Config.Impl} {data : List Byte} (h : ∃ cap ∈ m.srcCap, cap < data.length) :
    sourceTooLong m data = true := by
  obtain ⟨cap, hcap, hlt⟩ := h
  rw [← Bool.not_eq_false, sourceTooLong_eq_false]
  exact fun hfits => absurd (hfits cap hcap) (Nat.not_le.2 hlt)

theorem exec_decompress_of_tooLong {s : State} {k : Codec} {data : List Byte} (hk : k ≠ .raw)
    (h : ∃ cap ∈ s.impl.srcCap, cap < data.length) :
    exec (.decompress k data) s = .next { s with resp := some (.err .overflow) } := by
  show execDecompress k data s = _
  rw [execDecompress, if_neg hk, if_pos (sourceTooLong_of_lt h), State.refuseDec_overflow]
  rfl

/-- Settles O48: the loop ends, and it is the `DEC.VAL`s the host would issue. -/
theorem decompressIsItsExpansion : Obligations.DecompressIsItsExpansion := by
  intro s k data
  refine ⟨?raw, exec_decompress_of_tooLong, fun hk hcap => ?fits⟩
  case raw =>
    intro hraw
    rw [← State.refuseDec_contractViolation]
    exact if_pos hraw
  case fits =>
    obtain ⟨r, d, hloop⟩ := decompress_isSome s.impl s.d s.cfgLog2w k data hk
    have hexec := exec_decompress_of_loop hk (by simp [sourceTooLong_eq_false.2 hcap]) hloop
    obtain ⟨vs, last, hissue, hlast⟩ :=
      decodeAll_issue (s := { s with d := (s.d.loaded data).opened s.cfgLog2w k, resp := some .ok }) hk hloop
    refine ⟨vs, last, _, issue_cons (exec_load_of_fits hcap) (issue_cons rfl hissue), ?_⟩
    rw [List.nil_append] at hlast
    rcases hlast with ⟨hend, rfl⟩ | ⟨c, herror, rfl⟩
    · exact .inl ⟨hend, hexec⟩
    · exact .inr ⟨c, herror, hexec⟩

end Sys2Proof.Machine

/-! PROOFS. Refusals, FAULT and the sticky flags (`60_exceptions.md` R237, R240, R241). The one idea: a command that is
no fresh start of a half either does not touch that half, or is one atomic sequence of it, or continues what the half
was doing, and none of these clears a flag or leaves FAULT. -/

namespace Sys2Proof.Machine

/-! ## Accepted whole or refused whole -/

/-- The outcomes a command of the encode half has (`60_exceptions.md` R237): it answers `Ok` and no refusal flag
changes, or it leaves the old state but for one flag and the response. -/
def State.Atomic (s t : State) : Prop :=
  t.resp = some .ok ∧ t.e.status.cv = s.e.status.cv ∧ t.e.status.ovf = s.e.status.ovf ∨ t = s.encCv ∨ t = s.encOvf

theorem runEnc_atomic {x : EncM Response} {s : State} (hx : EncM.Good s.impl x)
    (hanswer : ∀ {r e}, x s.e = .ok r e → r = .ok) : s.Atomic (runEnc x s) := by
  rcases runEnc_good hx s with ⟨r, e, hok, hkeep, hrun⟩ | hrefused
  · rw [hrun, hanswer hok]
    exact .inl ⟨rfl, hkeep.cv, hkeep.ovf⟩
  · exact .inr hrefused

theorem then_ok_answer {x : EncM Unit} {e e' : EncHalf} {r : Response}
    (h : (do x; pure Response.ok : EncM Response) e = .ok r e') : r = .ok := by
  obtain ⟨_, _, -, hpure⟩ := bind_eq_ok h
  cases hpure
  rfl

theorem guarded_answer {x : Codec → EncM Unit} {e e' : EncHalf} {r : Response} (h : guarded x e = .ok r e') :
    r = .ok := by
  unfold guarded at h
  split_ifs at h
  exact then_ok_answer h

/-- A command that is one sequence of the encode half (the writes, `FLUSH`, the dispatch rows). -/
theorem exec_atomic_of_unit {i : Instr} {s : State} {x : EncM Unit} (hx : EncM.Good s.impl x)
    (hexec : exec i s = .next (runEnc (do x; pure .ok) s)) : ∃ t, exec i s = .next t ∧ s.Atomic t :=
  ⟨_, hexec, runEnc_atomic (hx.answers .ok) then_ok_answer⟩

/-- A command whose sequence the codec selects (`45_block_and_system.md` R211). -/
theorem exec_atomic_of_guarded {i : Instr} {s : State} {x : Codec → EncM Unit} (hx : ∀ k, EncM.Good s.impl (x k))
    (hexec : exec i s = .next (runEnc (guarded x) s)) : ∃ t, exec i s = .next t ∧ s.Atomic t :=
  ⟨_, hexec, runEnc_atomic (guarded_good hx) guarded_answer⟩

/-- Settles O22: each command is one sequence that is accepted or refused as a whole, and answers `Ok` when accepted. -/
theorem encodeCommandsAreAtomic : Obligations.EncodeCommandsAreAtomic := by
  intro s v b n i hi
  show ∃ t, exec i s = .next t ∧ s.Atomic t
  simp only [List.mem_cons, List.not_mem_nil, or_false] at hi
  rcases hi with rfl | rfl | rfl | rfl | rfl | rfl | rfl | rfl | rfl | rfl | rfl
  · exact exec_atomic_of_unit (putBit_good _ b) rfl
  · exact exec_atomic_of_unit (putBits_good _ v n.toNat) rfl
  · exact exec_atomic_of_unit (flushSink_good _) rfl
  · exact exec_atomic_of_guarded (fun k => encodeWith_good _ k v) (execEncVal_eq v s)
  · exact exec_atomic_of_guarded (finishWith_good _) (execEncClose_eq s)
  · exact exec_atomic_of_unit (x64Encode_good _ v) rfl
  · exact exec_atomic_of_unit (eraEncode_good _ v) rfl
  · exact exec_atomic_of_unit (chpEncode_good _ v) rfl
  · exact exec_atomic_of_unit (x64Finish_good _) rfl
  · exact exec_atomic_of_unit (eraFinish_good _) rfl
  · exact exec_atomic_of_unit (chpFinish_good _) rfl

/-! ## What a command leaves alone -/

/-- `CFG.W` writes the configuration register at most (`45_block_and_system.md` R214). -/
theorem exec_cfgW_halves {n : BitVec 7} {s t : State} (h : exec (.cfgW n) s = .next t) : t.e = s.e ∧ t.d = s.d := by
  rcases Nat.lt_or_ge s.impl.log2wMax n.toNat with hwide | hle
  · rw [exec_cfgW_of_tooWide hwide] at h
    cases h
    exact ⟨rfl, rfl⟩
  · rw [exec_cfgW_of_le hle] at h
    cases h
    exact ⟨rfl, rfl⟩

/-- An instruction other than `RESET` leaves the encode half alone, unless it is one of that half. -/
theorem exec_e_eq_or_isEncode {i : Instr} {s t : State} (h : exec i s = .next t) (hreset : i ≠ .reset) :
    t.e = s.e ∨ i.isEncode = true := by
  rcases system_or_half i with rfl | ⟨n, rfl⟩ | rfl | hi | hi
  · exact absurd rfl hreset
  · exact .inl (exec_cfgW_halves h).1
  · cases h
    exact .inl rfl
  · exact .inr hi
  · exact .inl ((halvesAreIndependent i s t h).2 hi).1

/-- An instruction other than `RESET` leaves the decode half alone, unless it is one of that half. -/
theorem exec_d_eq_or_isDecode {i : Instr} {s t : State} (h : exec i s = .next t) (hreset : i ≠ .reset) :
    t.d = s.d ∨ i.isDecode = true := by
  rcases system_or_half i with rfl | ⟨n, rfl⟩ | rfl | hi | hi
  · exact absurd rfl hreset
  · exact .inl (exec_cfgW_halves h).2
  · cases h
    exact .inl rfl
  · exact .inl ((halvesAreIndependent i s t h).1 hi).1
  · exact .inr hi

/-! ## Reads and `DEC.VAL` continue what the decode half was doing -/

/-- FAULT with its code, and the source that faulted, stay (`60_exceptions.md` R240, R241). -/
def DecHalf.StaysFaulted (d d' : DecHalf) : Prop := d'.phase = .fault ∧ d'.err = d.err ∧ d'.bs.buf = d.bs.buf

/-- What a command of the decode half keeps that is no fresh start: the sticky flag, and FAULT. -/
structure DecHalf.Continues (d d' : DecHalf) : Prop where
  cv : d.cv = true → d'.cv = true
  fault : d.phase = .fault → d.StaysFaulted d'

theorem DecHalf.Continues.refl (d : DecHalf) : d.Continues d := ⟨id, fun hp => ⟨hp, rfl, rfl⟩⟩

theorem DecHalf.Continues.advance (d : DecHalf) (n : Nat) : d.Continues (d.advance n) :=
  ⟨id, fun hp => ⟨hp, rfl, rfl⟩⟩

theorem DecHalf.Continues.flagged (d : DecHalf) : d.Continues { d with cv := true } :=
  ⟨fun _ => rfl, fun hp => ⟨hp, rfl, rfl⟩⟩

/-- A half in `RUN` has no FAULT to keep. -/
theorem DecHalf.Continues.ofRun {d d' : DecHalf} (hp : d.phase = .run) (hcv : d'.cv = d.cv) : d.Continues d' :=
  ⟨fun h => hcv.trans h, fun hf => absurd (hp.symm.trans hf) (by decide)⟩

theorem rbit_continues {s t : State} (h : exec .rbit s = .next t) : s.d.Continues t.d := by
  rcases Nat.lt_or_ge s.d.bs.avail 1 with hshort | havail
  · rw [exec_rbit_of_short hshort] at h
    cases h
    exact .refl s.d
  · rw [exec_rbit_of_avail havail] at h
    cases h
    exact .advance s.d 1

theorem rbits_continues {n : BitVec 7} {s t : State} (h : exec (.rbits n) s = .next t) : s.d.Continues t.d := by
  rcases Nat.lt_or_ge 64 n.toNat with hwide | hn
  · rw [exec_rbits_of_wide hwide] at h
    cases h
    exact .flagged s.d
  rcases Nat.lt_or_ge s.d.bs.avail n.toNat with hshort | havail
  · rw [exec_rbits_of_short hn hshort] at h
    cases h
    exact .refl s.d
  · rw [exec_rbits_of_avail hn havail] at h
    cases h
    exact .advance s.d n.toNat

/-- In FAULT `DEC.VAL` answers at once (`45_block_and_system.md` R213); its rules run, and raise, in `RUN` only. -/
theorem DecHalf.decVal_continues (m : Config.Impl) (d : DecHalf) : d.Continues (d.decVal m).2 := by
  rcases decVal_cases m d with ⟨-, h⟩ | ⟨-, -, h⟩ | ⟨-, -, h⟩ | ⟨-, hp, h⟩ | ⟨hk, hp, h⟩ <;> rw [h]
  · exact .flagged d
  · exact .refl d
  · exact .refl d
  · exact .ofRun hp rfl
  · rcases runDecHalf_cases (ruleOf_good m d.codec hk d) with ⟨r, d', h', -, hkeep, -⟩ | ⟨c, d', h', hkeep, -⟩
    · exact h' ▸ .ofRun hp hkeep.cv
    · exact h' ▸ .ofRun hp hkeep.cv

theorem decVal_continues {s t : State} (h : exec .decVal s = .next t) : s.d.Continues t.d := by
  cases h
  exact s.d.decVal_continues s.impl

/-! ## FAULT -/

/-- The commands that start the decode half afresh: `RESET`, `DEC.OPEN`, `LOAD`, and `DECOMPRESS`, which is the last two
(`60_exceptions.md` R240). -/
def FreshStart (i : Instr) : Prop :=
  i = .reset ∨ (∃ k, i = .decOpen k) ∨ (∃ data, i = .load data) ∨ ∃ k data, i = .decompress k data

/-- The host commands of the decode half; its other instructions are not issued from the port. -/
theorem decodeHalfCommand_cases {i : Instr} (hi : i.isDecode = true) (hport : i.wellFormed .port = true) :
    FreshStart i ∨ i = .rbit ∨ (∃ n, i = .rbits n) ∨ i = .decVal := by
  cases i with
  | load data => exact .inl (.inr (.inr (.inl ⟨data, rfl⟩)))
  | decOpen k => exact .inl (.inr (.inl ⟨k, rfl⟩))
  | decompress k data => exact .inl (.inr (.inr (.inr ⟨k, data, rfl⟩)))
  | rbit => exact .inr (.inl rfl)
  | rbits n => exact .inr (.inr (.inl ⟨n, rfl⟩))
  | decVal => exact .inr (.inr (.inr rfl))
  | x64Dec | eraDec | chpDec => cases hport
  | xFirst | xSame | xReuse | xNews | xNewl => cases hport
  | eSameb | ePlain | eNewb => cases hport
  | cFirst | cCopy | cHist | cPrev | cPrevn => cases hport
  | _ => cases hi

/-- A host command that is no fresh start continues what the decode half was doing. -/
theorem command_freshStart_or_continues {i : Instr} {s t : State} (hport : i.wellFormed .port = true)
    (h : exec i s = .next t) : FreshStart i ∨ s.d.Continues t.d := by
  by_cases hreset : i = .reset
  · exact .inl (.inl hreset)
  rcases exec_d_eq_or_isDecode h hreset with hd | hi
  · exact .inr (hd ▸ .refl s.d)
  rcases decodeHalfCommand_cases hi hport with hfresh | rfl | ⟨n, rfl⟩ | rfl
  · exact .inl hfresh
  · exact .inr (rbit_continues h)
  · exact .inr (rbits_continues h)
  · exact .inr (decVal_continues h)

/-- Settles O54: a step waits, refuses a reserved command, or runs a host command, which starts afresh or keeps
FAULT. -/
theorem faultIsLeftOnlyByAFreshStart : Obligations.FaultIsLeftOnlyByAFreshStart := by
  intro s t hp hstep
  cases hport : s.port with
  | nil =>
    rw [step_of_port_nil hport] at hstep
    cases hstep
    exact .inr ⟨hp, rfl, rfl⟩
  | cons w rest =>
    cases hdecode : decodeCommand w with
    | error r =>
      rw [step_of_decodeCommand_error hport hdecode] at hstep
      cases hstep
      exact .inr ⟨hp, rfl, rfl⟩
    | ok i =>
      rw [step_of_decodeCommand hport hdecode] at hstep
      rcases command_freshStart_or_continues (decodeCommand_wellFormed hdecode) hstep with hfresh | hcontinues
      · refine .inl ⟨w, rest, rfl, ?_⟩
        simp only [hdecode, Except.ok.injEq]
        exact hfresh
      · exact .inr (hcontinues.fault hp)

/-! ## The sticky flags -/

/-- The flags of `E.STATUS` that are set stay set. -/
def EncStatus.Stays (st st' : EncStatus) : Prop :=
  (st.cv = true → st'.cv = true) ∧ (st.sent = true → st'.sent = true) ∧ (st.ovf = true → st'.ovf = true)

/-- A refusal sets a flag and clears none. -/
theorem State.stays_encCv (s : State) : s.e.status.Stays s.encCv.e.status := ⟨fun _ => rfl, id, id⟩

theorem State.stays_encOvf (s : State) : s.e.status.Stays s.encOvf.e.status := ⟨id, id, fun _ => rfl⟩

theorem runEnc_status_stays {x : EncM Response} {s : State} (hx : EncM.Good s.impl x) :
    s.e.status.Stays (runEnc x s).e.status := by
  rcases runEnc_good hx s with ⟨r, e, -, hkeep, hrun⟩ | hcv | hovf
  · rw [hrun]
    exact ⟨hkeep.cv.trans, hkeep.sent, hkeep.ovf.trans⟩
  · exact hcv ▸ s.stays_encCv
  · exact hovf ▸ s.stays_encOvf

/-- Only `RESET` and what opens an encode block clear a flag of `E.STATUS` (`10_state.md` R27). -/
theorem exec_status_stays {i : Instr} {s t : State} (h : exec i s = .next t) (hreset : i ≠ .reset)
    (hopen : ∀ k, i ≠ .encOpen k) (hcompress : ∀ k vs, i ≠ .compress k vs) : s.e.status.Stays t.e.status := by
  rcases exec_e_eq_or_isEncode h hreset with he | hi
  · rw [he]
    exact ⟨id, id, id⟩
  rcases exec_encode i s.impl hi with ⟨k, hk⟩ | ⟨k, vs, hk⟩ | ⟨x, hx, hexec⟩
  · exact absurd hk (hopen k)
  · exact absurd hk (hcompress k vs)
  · obtain rfl : runEnc x s = t := by injection (hexec s rfl).symm.trans h
    exact runEnc_status_stays hx

/-- `LOAD` leaves the flag: its refusal has none of its own (`60_exceptions.md` R248). -/
theorem exec_load_cv {data : List Byte} {s t : State} (h : exec (.load data) s = .next t) : t.d.cv = s.d.cv := by
  by_cases hfits : ∀ cap ∈ s.impl.srcCap, data.length ≤ cap
  · rw [exec_load_of_fits hfits] at h
    cases h
    rfl
  · rw [exec_load_of_tooLong (by simpa only [not_forall, not_le, exists_prop] using hfits)] at h
    cases h
    rfl

theorem runDec_cv {n : Nat} {x : DecM Response} {s : State} (hx : DecM.GoodAt n x s.d) :
    (runDec x s).d.cv = s.d.cv := by
  rcases runDec_good hx with ⟨r, d, -, hkeep, -, hrun⟩ | ⟨c, d, -, hkeep, -, hrun⟩ <;> rw [hrun]
  · exact hkeep.cv
  · exact hkeep.cv

/-- Only `RESET` and what opens a decode block clear `D.STATUS.CV` (`10_state.md` R30). -/
theorem exec_cv_stays {i : Instr} {s t : State} (h : exec i s = .next t) (hreset : i ≠ .reset)
    (hopen : ∀ k, i ≠ .decOpen k) (hdecompress : ∀ k data, i ≠ .decompress k data) (hcv : s.d.cv = true) :
    t.d.cv = true := by
  rcases exec_d_eq_or_isDecode h hreset with hd | hi
  · rw [hd]
    exact hcv
  rcases exec_record i s.impl hi with ⟨data, rfl⟩ | ⟨k, hk⟩ | rfl | ⟨n, rfl⟩ | rfl | ⟨k, data, hk⟩ | ⟨x, hx, hexec⟩
  · exact (exec_load_cv h).trans hcv
  · exact absurd hk (hopen k)
  · exact (rbit_continues h).cv hcv
  · exact (rbits_continues h).cv hcv
  · exact (decVal_continues h).cv hcv
  · exact absurd hk (hdecompress k data)
  · obtain rfl : runDec x s = t := by injection (hexec s rfl).symm.trans h
    exact (runDec_cv (hx s.d)).trans hcv

/-- Settles O55: the flags of each half, by the commands of that half. -/
theorem stickyFlagsStay : Obligations.StickyFlagsStay :=
  fun _ _ _ h hreset => ⟨exec_status_stays h hreset, exec_cv_stays h hreset⟩

end Sys2Proof.Machine

/-! PROOFS. Every instruction answers, and blocks are independent (`70_reset_and_hazards.md` R270, R272). The one idea of
the second: two runs of one block, begun by an OPEN on halves that differ in what earlier blocks left, stay alike in all
that a block reads, the history of a CHP block only where that block has written it. -/

namespace Sys2Proof.Machine

/-! ## Every instruction answers -/

/-- Settles O7: a system command answers at once, any other instruction acts on its half and answers. -/
theorem everyInstructionAnswers : Obligations.EveryInstructionAnswers := by
  intro i s
  rcases system_or_half i with rfl | ⟨n, rfl⟩ | rfl | hi | hi
  · exact ⟨_, .ok, rfl, rfl⟩
  · rcases Nat.lt_or_ge s.impl.log2wMax n.toNat with hwide | hle
    · exact ⟨_, .err .contractViolation, exec_cfgW_of_tooWide hwide, rfl⟩
    · exact ⟨_, .ok, exec_cfgW_of_le hle, rfl⟩
  · exact ⟨_, .status s.statusWord, rfl, rfl⟩
  · obtain ⟨r, e, -, hacts⟩ := encode_acts hi s
    exact ⟨_, r, hacts s.d, rfl⟩
  · obtain ⟨r, d, hacts⟩ := decode_acts hi s
    exact ⟨_, r, hacts s.e, rfl⟩

/-! ## Two runs of a sequence -/

section
variable {ε σ α β : Type} {R : σ → σ → Prop}

/-- Two runs end alike: both accepted, with one answer and states that `R` relates, or both turned away with one code. -/
inductive SameOutcome (R : σ → σ → Prop) : EStateM.Result ε σ α → EStateM.Result ε σ α → Prop
  | ok (a : α) {s t : σ} (h : R s t) : SameOutcome R (.ok a s) (.ok a t)
  | error (c : ε) (s t : σ) : SameOutcome R (.error c s) (.error c t)

/-- From states that `R` relates the two sequences end alike. -/
structure SameRun (R : σ → σ → Prop) (x y : EStateM ε σ α) : Prop where
  outcome : ∀ {s t}, R s t → SameOutcome R (x s) (y t)

theorem SameOutcome.bind {x y : EStateM ε σ α} {f g : α → EStateM ε σ β} {s t : σ} (hxy : SameOutcome R (x s) (y t))
    (hfg : ∀ {a s' t'}, x s = .ok a s' → R s' t' → SameOutcome R (f a s') (g a t')) :
    SameOutcome R ((x >>= f) s) ((y >>= g) t) := by
  generalize hx : x s = r at hxy hfg
  generalize hy : y t = r' at hxy
  cases hxy with
  | ok a h =>
    rw [bind_ok hx, bind_ok hy]
    exact hfg rfl h
  | error c s' t' =>
    rw [bind_error hx, bind_error hy]
    exact .error c s' t'

theorem SameRun.bind {x y : EStateM ε σ α} {f g : α → EStateM ε σ β} (hxy : SameRun R x y)
    (hfg : ∀ a, SameRun R (f a) (g a)) : SameRun R (x >>= f) (y >>= g) :=
  ⟨fun h => (hxy.outcome h).bind fun _ h' => (hfg _).outcome h'⟩

theorem SameRun.pure (a : α) : SameRun (ε := ε) R (pure a) (pure a) := ⟨fun h => .ok a h⟩

theorem SameRun.ite {p : Prop} [Decidable p] {x x' y y' : EStateM ε σ α} (hx : SameRun R x x') (hy : SameRun R y y') :
    SameRun R (if p then x else y) (if p then x' else y') := by
  by_cases h : p
  · simpa only [if_pos h] using hx
  · simpa only [if_neg h] using hy

/-- Sequences that look at their states first. -/
theorem SameRun.get {f g : σ → EStateM ε σ α} (hfg : ∀ {s t}, R s t → SameRun R (f s) (g t)) :
    SameRun R (MonadState.get >>= f) (MonadState.get >>= g) where
  outcome h := by
    rw [bind_ok (run_get _), bind_ok (run_get _)]
    exact (hfg h).outcome h

theorem SameRun.set {s t : σ} (h : R s t) : SameRun (ε := ε) R (MonadStateOf.set s) (MonadStateOf.set t) :=
  ⟨fun _ => .ok _ h⟩

end

/-! ## What a block being written reads -/

/-- The stores of the encoder's history are in their canonical form. -/
abbrev ChpEncRegs.Canonical (c : ChpEncRegs) : Prop :=
  Memory.wf 0 c.ring = true ∧ Memory.wf false c.tblv = true ∧ Memory.wf 0 c.tbl = true

/-- The registers hold the same history of the block: one set of valid keys, with one position each, already counted;
and once a value was stored, one pattern in every slot written in this block (`44_chimp.md` R184). -/
structure ChpEncRegs.SameHistory (c c' : ChpEncRegs) : Prop where
  log2w : c'.log2w = c.log2w
  first : c'.first = c.first
  index : c'.index = c.index
  slz : c'.slz = c.slz
  canonical : c.Canonical
  canonical' : c'.Canonical
  valid : ∀ key, Memory.read false c'.tblv key = Memory.read false c.tblv key
  entry : ∀ key, Memory.read false c.tblv key = true →
    c.first = false ∧ Memory.read 0 c.tbl key ≤ c.index ∧ Memory.read 0 c'.tbl key = Memory.read 0 c.tbl key
  live : c.first = false → ∀ i, i < 2 ^ c.log2w.toNat → i ≤ c.index → c'.slotValue i = c.slotValue i

/-- Only a valid key gives a match. -/
theorem ChpEncRegs.valid_of_hit {c : ChpEncRegs} {v : Word} (h : c.hit v = true) :
    Memory.read false c.tblv (keyOf c.log2w v) = true := by
  simp only [hit, Bool.and_eq_true] at h
  obtain ⟨⟨hvalid, -⟩, -⟩ := h
  exact hvalid

namespace ChpEncRegs.SameHistory
variable {c c' : ChpEncRegs}

theorem withSlz (h : c.SameHistory c') (slz : BitVec 7) :
    ChpEncRegs.SameHistory { c with slz := slz } { c' with slz := slz } :=
  { h with slz := rfl }

theorem nextPos_eq (h : c.SameHistory c') : c'.nextPos = c.nextPos := by
  rw [nextPos, nextPos, h.first, h.index]

/-- A position that was counted names a slot the block has written. -/
theorem slotValue_slot (h : c.SameHistory c') (hfirst : c.first = false) {p : ℕ} (hp : p ≤ c.index) :
    c'.slotValue (c'.slot p) = c.slotValue (c.slot p) := by
  rw [slot, h.log2w]
  exact h.live hfirst _ (Nat.mod_lt _ (Nat.two_pow_pos _)) ((Nat.mod_le _ _).trans hp)

theorem hit_eq (h : c.SameHistory c') (v : Word) : c'.hit v = c.hit v := by
  simp only [hit, h.log2w, h.index, h.valid]
  cases hvalid : Memory.read false c.tblv (keyOf c.log2w v) with
  | false => rfl
  | true =>
    obtain ⟨hfirst, hle, hentry⟩ := h.entry _ hvalid
    rw [hentry, h.slotValue_slot hfirst hle]

theorem refSlot_eq (h : c.SameHistory c') (v : Word) : c'.refSlot v = c.refSlot v := by
  simp only [refSlot, h.hit_eq, slot, h.log2w, h.index]
  by_cases hhit : c.hit v = true
  · obtain ⟨-, -, hentry⟩ := h.entry _ (valid_of_hit hhit)
    rw [hentry]
  · rw [if_neg hhit, if_neg hhit]

/-- The reference slot is one the block has written, so both registers hold one reference. -/
theorem refXor_eq (h : c.SameHistory c') (hfirst : c.first = false) (v : Word) : c'.refXor v = c.refXor v := by
  rw [refXor, refXor, h.refSlot_eq]
  obtain ⟨p, hp, hslot⟩ : ∃ p ≤ c.index, c.refSlot v = c.slot p := by
    by_cases hhit : c.hit v = true
    · obtain ⟨-, hle, -⟩ := h.entry _ (valid_of_hit hhit)
      exact ⟨_, hle, if_pos hhit⟩
    · exact ⟨c.index, le_rfl, if_neg hhit⟩
  rw [hslot, ← h.slotValue_slot hfirst hp, slot, slot, h.log2w]

/-- A value that both store leaves one history. -/
theorem stored {d d' : ChpEncRegs} {v : Word} (h : c.SameHistory c') (hd : c.Stored d c.nextPos v)
    (hd' : c'.Stored d' c'.nextPos v) (hslz : d'.slz = d.slz) (hcanonical : d.Canonical)
    (hcanonical' : d'.Canonical) : d.SameHistory d' := by
  obtain ⟨hlog, hfirst, hindex, hring, hvalid, htbl⟩ := hd
  obtain ⟨hlog', hfirst', hindex', hring', hvalid', htbl'⟩ := hd'
  rw [h.nextPos_eq] at hindex' hring' htbl'
  rw [h.log2w] at hlog' hring' hvalid' htbl'
  refine ⟨hlog'.trans hlog.symm, hfirst'.trans hfirst.symm, hindex'.trans hindex.symm, hslz, hcanonical, hcanonical',
    fun key => ?valid, fun key hkey => ?entry, fun _ i hi hle => ?live⟩
  case valid => rw [hvalid', hvalid, h.valid]
  case entry =>
    rw [hvalid] at hkey
    rw [htbl', htbl, hindex]
    split_ifs with hown
    · exact ⟨hfirst, le_rfl, rfl⟩
    · rw [if_neg hown] at hkey
      obtain ⟨hsteady, hle, hentry⟩ := h.entry key hkey
      rw [nextPos_steady hsteady]
      exact ⟨hfirst, by omega, hentry⟩
  case live =>
    rw [hlog] at hi
    rw [hindex] at hle
    rw [slotValue, slotValue, hring', hring]
    split_ifs with hslot
    · rfl
    · obtain ⟨hsteady, hlive⟩ := live_before hi hle hslot
      exact h.live hsteady i hi hlive

theorem store_first (h : c.SameHistory c') (hfirst : c.first = true) (v : Word) :
    (ChpEncRegs.store { c with first := false } 0 v).SameHistory (ChpEncRegs.store { c' with first := false } 0 v) := by
  obtain ⟨hring, hvalid, htbl⟩ := h.canonical
  obtain ⟨hring', hvalid', htbl'⟩ := h.canonical'
  refine h.stored (v := v) ?_ ?_ h.slz (store_memory 0 v h.canonical) (store_memory 0 v h.canonical')
  · rw [nextPos_first hfirst]
    exact store_stored (c := { c with first := false }) 0 v hring hvalid htbl rfl
  · rw [nextPos_first (h.first.trans hfirst)]
    exact store_stored (c := { c' with first := false }) 0 v hring' hvalid' htbl' rfl

theorem store_next (h : c.SameHistory c') (hfirst : c.first = false) (v : Word) :
    (c.store (c.index + 1) v).SameHistory (c'.store (c'.index + 1) v) := by
  obtain ⟨hring, hvalid, htbl⟩ := h.canonical
  obtain ⟨hring', hvalid', htbl'⟩ := h.canonical'
  have hfirst' : c'.first = false := h.first.trans hfirst
  refine h.stored (v := v) ?_ ?_ h.slz (store_memory _ v h.canonical) (store_memory _ v h.canonical')
  · rw [nextPos_steady hfirst]
    exact store_stored _ v hring hvalid htbl hfirst
  · rw [nextPos_steady hfirst']
    exact store_stored _ v hring' hvalid' htbl' hfirst'

end ChpEncRegs.SameHistory

/-- Two encode halves are alike for a block of codec `k`: the sink and the registers the codec's encoder reads are the
same, and for CHP the history is. -/
structure EncHalf.Alike (k : Codec) (e e' : EncHalf) : Prop where
  bs : e'.bs = e.bs
  x : e'.x = e.x
  r : e'.r = e.r
  history : k = .chp → e.c.SameHistory e'.c

/-- Whatever the halves held, `ENC.OPEN` leaves them alike (`45_block_and_system.md` R210). -/
theorem EncHalf.opened_alike {e e' : EncHalf} (w : BitVec 6) (k : Codec) (h : e.c.Canonical) (h' : e'.c.Canonical) :
    (e.opened w k).Alike k (e'.opened w k) := by
  refine ⟨rfl, rfl, rfl, fun hk => ?_⟩
  obtain ⟨hring, -, htbl⟩ := h
  obtain ⟨hring', -, htbl'⟩ := h'
  exact {
    log2w := by simp [hk]
    first := rfl
    index := rfl
    slz := rfl
    canonical := ⟨hring, rfl, htbl⟩
    canonical' := ⟨hring', rfl, htbl'⟩
    valid := fun _ => rfl
    entry := by simp
    live := nofun }

/-! ## Encoding -/

section
variable {k : Codec} {m : Config.Impl} {e e' : EncHalf}

theorem putBits_alike (v : Word) (n : ℕ) : SameRun (EncHalf.Alike k) (putBits m v n) (putBits m v n) := by
  refine ⟨fun {e e'} h => ?_⟩
  rw [putBits, putBits, h.bs]
  split_ifs
  · exact .error ..
  · exact .error ..
  · exact .error ..
  · exact .ok _ { h with bs := rfl }

theorem putBit_alike (b : Bool) : SameRun (EncHalf.Alike k) (putBit m b) (putBit m b) := by
  refine ⟨fun {e e'} h => ?_⟩
  rw [putBit, putBit, h.bs]
  split_ifs
  · exact .error ..
  · exact .error ..
  · exact .ok _ { h with bs := rfl }

theorem flushSink_alike : SameRun (EncHalf.Alike k) flushSink flushSink :=
  ⟨fun h => .ok _ { h with bs := congrArg BitSink.flushed h.bs }⟩

theorem markSent_alike (v : Word) : SameRun (EncHalf.Alike k) (markSent v) (markSent v) := by
  refine ⟨fun {e e'} h => ?_⟩
  rw [markSent_ok, markSent_ok]
  exact .ok _ ⟨h.bs, h.x, h.r, h.history⟩

theorem setEncX_alike (x : XorRegs) : SameRun (EncHalf.Alike k) (setEncX x) (setEncX x) :=
  ⟨fun h => .ok _ { h with x := rfl }⟩

theorem setEncC_alike {c c' : ChpEncRegs} (hc : c.SameHistory c') :
    SameRun (EncHalf.Alike k) (setEncC c) (setEncC c') :=
  ⟨fun h => .ok _ { h with history := fun _ => hc }⟩

/-! ### XOR64 and erasure -/

theorem putFirst_alike (v : Word) (x : XorRegs) : SameRun (EncHalf.Alike k) (putFirst m v x) (putFirst m v x) := by
  unfold putFirst
  refine (putBits_alike _ _).bind fun _ => ?_
  by_cases hpayload : ctz v < 64
  · simp only [if_pos hpayload]
    exact (putBits_alike _ _).bind fun _ => setEncX_alike _
  · simp only [if_neg hpayload]
    exact (SameRun.pure _).bind fun _ => setEncX_alike _

theorem putReuse_alike (xor : Word) (x : XorRegs) :
    SameRun (EncHalf.Alike k) (putReuse m xor x) (putReuse m xor x) :=
  .ite ((putBits_alike _ _).bind fun _ => putBits_alike _ _) (putBits_alike _ _)

theorem putWindow_alike (v xor : Word) (lz tz : ℕ) (x : XorRegs) :
    SameRun (EncHalf.Alike k) (putWindow m v xor lz tz x) (putWindow m v xor lz tz x) := by
  unfold putWindow
  by_cases hshort : 64 - lz - tz ≤ 16
  · simp only [if_pos hshort]
    exact ((putBits_alike _ _).bind fun _ => putBits_alike _ _).bind fun _ => setEncX_alike _
  · simp only [if_neg hshort]
    exact ((putBits_alike _ _).bind fun _ => putBits_alike _ _).bind fun _ => setEncX_alike _

theorem x64Put_alike (v : Word) : SameRun (EncHalf.Alike k) (x64Put m v) (x64Put m v) := by
  refine ⟨fun {e e'} h => ?_⟩
  rw [x64Put, x64Put, h.x]
  split_ifs
  · exact (putFirst_alike _ _).outcome h
  · exact ((putBits_alike _ _).bind fun _ => setEncX_alike _).outcome h
  · exact ((putReuse_alike _ _).bind fun _ => setEncX_alike _).outcome h
  · exact (putWindow_alike _ _ _ _ _).outcome h

theorem x64Encode_alike (v : Word) : SameRun (EncHalf.Alike k) (x64Encode m v) (x64Encode m v) :=
  (markSent_alike v).bind fun _ => x64Put_alike v

theorem x64Finish_alike : SameRun (EncHalf.Alike k) (x64Finish m) (x64Finish m) :=
  (x64Put_alike _).bind fun _ => (putBit_alike _).bind fun _ => flushSink_alike

theorem putControl_alike (b : ℕ) : SameRun (EncHalf.Alike k) (putControl m b) (putControl m b) := by
  refine ⟨fun {e e'} h => ?_⟩
  rw [putControl, putControl, h.r]
  split_ifs
  · exact (putBits_alike _ _).outcome h
  · exact ((putBits_alike _ _).outcome h).bind fun _ h' => .ok _ { h' with r := rfl }

theorem putPlain_alike (v : Word) : SameRun (EncHalf.Alike k) (putPlain m v) (putPlain m v) :=
  (putBits_alike _ _).bind fun _ => x64Encode_alike v

theorem eraEncode_alike (v : Word) : SameRun (EncHalf.Alike k) (eraEncode m v) (eraEncode m v) := by
  unfold eraEncode
  cases classOf v with
  | nan | zero | inf | subnormal => exact putPlain_alike _
  | normal => exact .ite ((putControl_alike _).bind fun _ => x64Encode_alike _) (putPlain_alike v)

/-! ### The history -/

theorem putCRecord_alike {c c' : ChpEncRegs} (v : Word) (hc : c.SameHistory c') (hfirst : c.first = false) :
    SameRun (EncHalf.Alike k) (putCRecord m v c) (putCRecord m v c') := by
  unfold putCRecord
  rw [hc.refXor_eq hfirst, hc.hit_eq, hc.refSlot_eq, hc.slz]
  refine .ite ?copy (.ite ?hist (.ite ?prev ?prevn))
  case copy =>
    refine SameRun.bind ?_ fun _ => setEncC_alike (hc.withSlz _)
    rw [hc.log2w]
    exact putBits_alike _ _
  case hist =>
    refine SameRun.bind ?_ fun _ => (putBits_alike _ _).bind fun _ => setEncC_alike (hc.withSlz _)
    rw [hc.log2w]
    exact putBits_alike _ _
  case prev => exact (putBits_alike _ _).bind fun _ => putBits_alike _ _
  case prevn =>
    exact (setEncC_alike (hc.withSlz _)).bind fun _ => (putBits_alike _ _).bind fun _ => putBits_alike _ _

theorem chpPut_alike (v : Word) : SameRun (EncHalf.Alike .chp) (chpPut m v) (chpPut m v) := by
  refine ⟨fun {e e'} h => ?_⟩
  have hc := h.history rfl
  rw [chpPut, chpPut, h.bs, hc.first, hc.index]
  split_ifs with hseal hfirst hfull
  · exact .error ..
  · exact ((putBits_alike _ _).bind fun _ => setEncC_alike (hc.store_first hfirst v)).outcome h
  · exact .error ..
  have hsteady : e.c.first = false := by simpa using hfirst
  refine ((putCRecord_alike v hc hsteady).outcome h).bind fun hrecord h' => ?_
  have hsteady' := congrArg (·.c.first) ((putCRecord_record m v e).regs hrecord)
  exact .ok _ { h' with history := fun _ => (h'.history rfl).store_next (hsteady'.trans hsteady) v }

/-! ### A block -/

theorem encodeWith_alike (k : Codec) (v : Word) : SameRun (EncHalf.Alike k) (encodeWith m k v) (encodeWith m k v) := by
  cases k with
  | raw => exact ⟨fun _ => .error ..⟩
  | x64 => exact x64Encode_alike v
  | era => exact eraEncode_alike v
  | chp => exact (markSent_alike v).bind fun _ => chpPut_alike v

theorem finishWith_alike (k : Codec) : SameRun (EncHalf.Alike k) (finishWith m k) (finishWith m k) := by
  cases k with
  | raw => exact ⟨fun _ => .error ..⟩
  | x64 => exact x64Finish_alike
  | era => exact (putBits_alike _ _).bind fun _ => x64Finish_alike
  | chp => exact (chpPut_alike _).bind fun _ => flushSink_alike

theorem compressBody_alike (k : Codec) (data : List Word) :
    SameRun (EncHalf.Alike k) (compressBody m k data) (compressBody m k data) := by
  induction data with
  | nil =>
    rw [compressBody_nil]
    refine (finishWith_alike k).bind fun _ => .get fun h => ?_
    rw [h.bs]
    exact .pure _
  | cons v vs ih =>
    rw [compressBody_cons]
    exact (encodeWith_alike k v).bind fun _ => ih

end

theorem runEnc_resp_eq {R : EncHalf → EncHalf → Prop} {x y : EncM Response} {s s' : State}
    (h : SameOutcome R (x s.e) (y s'.e)) : (runEnc x s).resp = (runEnc y s').resp := by
  generalize hx : x s.e = r at h
  generalize hy : y s'.e = r' at h
  cases h with
  | ok a => rw [runEnc_ok hx, runEnc_ok hy]
  | error c => rw [runEnc_error hx, runEnc_error hy, State.refuseEnc_resp, State.refuseEnc_resp]

/-- `COMPRESS` answers the same whatever its half held before. -/
theorem compress_resp_eq {s s' t t' : State} {k : Codec} {vs : List Word} (hc : s.e.c.Canonical)
    (hc' : s'.e.c.Canonical) (himpl : s.impl = s'.impl) (hcfg : s.cfgLog2w = s'.cfgLog2w)
    (ht : exec (.compress k vs) s = .next t) (ht' : exec (.compress k vs) s' = .next t') : t.resp = t'.resp := by
  by_cases hk : k = .raw
  · subst hk
    cases ht
    cases ht'
    rfl
  · rw [exec_compress hk] at ht ht'
    cases ht
    cases ht'
    rw [himpl, hcfg]
    exact runEnc_resp_eq ((compressBody_alike k vs).outcome (EncHalf.opened_alike _ k hc hc'))

/-! ## What a block being decoded reads -/

/-- The registers hold the same history of the block: while the block runs, once a value was stored, one pattern in
every slot written in this block (`44_chimp.md` R197). -/
structure ChpDecRegs.SameHistory (phase : Phase) (c c' : ChpDecRegs) : Prop where
  log2w : c'.log2w = c.log2w
  first : c'.first = c.first
  index : c'.index = c.index
  slz : c'.slz = c.slz
  canonical : Memory.wf 0 c.ring = true
  canonical' : Memory.wf 0 c'.ring = true
  live : phase = .run → c.first = false → ∀ i, i < 2 ^ c.log2w.toNat → i ≤ c.index → c'.slotValue i = c.slotValue i

namespace ChpDecRegs.SameHistory
variable {phase : Phase} {c c' : ChpDecRegs}

theorem withSlz (h : c.SameHistory phase c') (slz : BitVec 7) :
    ChpDecRegs.SameHistory phase { c with slz := slz } { c' with slz := slz } :=
  { h with slz := rfl }

/-- At the end of the block no slot is read again, so none has to hold the same. -/
theorem ended (h : c.SameHistory phase c') : c.SameHistory .done c' := { h with live := nofun }

/-- What the registers hold while the block runs they hold in any phase. -/
theorem ofRun (h : c.SameHistory .run c') (phase : Phase) : c.SameHistory phase c' :=
  { h with live := fun _ => h.live rfl }

theorem slotValue_prev (h : c.SameHistory .run c') (hfirst : c.first = false) :
    c'.slotValue (c'.slot c'.index) = c.slotValue (c.slot c.index) := by
  rw [slot, h.log2w, h.index]
  exact h.live rfl hfirst _ (Nat.mod_lt _ (Nat.two_pow_pos _)) (Nat.mod_le _ _)

theorem slotValue_store (hring : Memory.wf 0 c.ring = true) (p : ℕ) (v : Word) (i : ℕ) :
    (c.store p v).slotValue i = if i = p % 2 ^ c.log2w.toNat then v else c.slotValue i :=
  Memory.read_write _ v i hring

/-- The first value of the block: slot 0 is the only one live after it. -/
theorem store_first (h : c.SameHistory phase c') (v : Word) :
    (ChpDecRegs.store { c with first := false } 0 v).SameHistory phase
      (ChpDecRegs.store { c' with first := false } 0 v) where
  log2w := h.log2w
  first := rfl
  index := rfl
  slz := h.slz
  canonical := Memory.wf_write _ _ h.canonical
  canonical' := Memory.wf_write _ _ h.canonical'
  live _ _ i _ hle := by
    rw [slotValue_store (c := { c with first := false }) h.canonical,
      slotValue_store (c := { c' with first := false }) h.canonical', Nat.le_zero.1 hle, Nat.zero_mod, Nat.zero_mod]
    rfl

/-- A later value: a slot live after it was live before, or is the value's own. -/
theorem store_next (h : c.SameHistory phase c') (v : Word) :
    (c.store (c.index + 1) v).SameHistory phase (c'.store (c'.index + 1) v) where
  log2w := h.log2w
  first := h.first
  index := congrArg (· + 1) h.index
  slz := h.slz
  canonical := Memory.wf_write _ _ h.canonical
  canonical' := Memory.wf_write _ _ h.canonical'
  live hrun hfirst i hi hle := by
    rw [ChpDecRegs.store_log2w] at hi
    rw [slotValue_store h.canonical, slotValue_store h.canonical', h.index, h.log2w]
    split_ifs with hslot
    · rfl
    · have hne : i ≠ c.index + 1 := fun heq => hslot (by rw [← heq, Nat.mod_eq_of_lt hi])
      exact h.live hrun hfirst i hi (Nat.le_of_lt_succ (Nat.lt_of_le_of_ne hle hne))

end ChpDecRegs.SameHistory

/-- Two decode halves are alike for a block of codec `k`: the source and the registers a decode rule reads are the same,
and for CHP the history is. -/
structure DecHalf.Alike (k : Codec) (d d' : DecHalf) : Prop where
  codec : d.codec = k
  codec' : d'.codec = k
  bs : d'.bs = d.bs
  phase : d'.phase = d.phase
  err : d'.err = d.err
  x : d'.x = d.x
  r : d'.r = d.r
  history : k = .chp → d.c.SameHistory d.phase d'.c

/-- Whatever the halves held, `LOAD` and `DEC.OPEN` leave them alike (`45_block_and_system.md` R212, R218). -/
theorem DecHalf.opened_alike {d d' : DecHalf} (data : List Byte) (w : BitVec 6) (k : Codec)
    (h : Memory.wf 0 d.c.ring = true) (h' : Memory.wf 0 d'.c.ring = true) :
    ((d.loaded data).opened w k).Alike k ((d'.loaded data).opened w k) := by
  refine ⟨rfl, rfl, rfl, rfl, rfl, rfl, rfl, fun hk => ?_⟩
  exact {
    log2w := by simp [hk]
    first := rfl
    index := rfl
    slz := rfl
    canonical := h
    canonical' := h'
    live := nofun }

/-! ## Decoding -/

section
variable {k : Codec} {m : Config.Impl} {d d' : DecHalf}

theorem DecHalf.Alike.ended (h : d.Alike k d') : DecHalf.Alike k { d with phase := .done } { d' with phase := .done } :=
  { h with phase := rfl, history := fun hk => (h.history hk).ended }

theorem raise_alike {α : Type} (c : ErrCode) : SameRun (DecHalf.Alike k) (raise c : DecM α) (raise c) :=
  ⟨fun _ => .error ..⟩

theorem consume_alike (n : ℕ) : SameRun (DecHalf.Alike k) (consume n) (consume n) := by
  refine ⟨fun {d d'} h => ?_⟩
  rw [consume, consume, h.bs]
  split_ifs
  · exact .error ..
  · exact .ok _ { h with bs := rfl }

theorem setDecX_alike (x : XorRegs) : SameRun (DecHalf.Alike k) (setDecX x) (setDecX x) :=
  ⟨fun h => .ok _ { h with x := rfl }⟩

/-! ### XOR64 and erasure -/

theorem getFirst_alike (tz : BitVec 7) (p : Word) : SameRun (DecHalf.Alike k) (getFirst tz p) (getFirst tz p) := by
  unfold getFirst
  refine (consume_alike 7).bind fun _ => (raise_alike _).ite ?_
  have hrest (v : Word) : SameRun (DecHalf.Alike k)
      (do let d ← get; setDecX { d.x with first := false, sv := v }; pure v : DecM Word)
      (do let d ← get; setDecX { d.x with first := false, sv := v }; pure v) :=
    .get fun h => h.x ▸ (setDecX_alike _).bind fun _ => .pure v
  by_cases h64 : tz.toNat = 64
  · simp only [if_pos h64]
    exact hrest _
  · simp only [if_neg h64]
    exact (consume_alike _).bind fun _ => hrest _

theorem getSame_alike : SameRun (DecHalf.Alike k) getSame getSame :=
  (consume_alike 2).bind fun _ => .get fun h => h.x ▸ .pure _

theorem getReuse_alike (p : Word) : SameRun (DecHalf.Alike k) (getReuse p) (getReuse p) := by
  refine (consume_alike 2).bind fun _ => .get fun h => ?_
  rw [h.x]
  exact (raise_alike _).ite ((consume_alike _).bind fun _ => (setDecX_alike _).bind fun _ => .pure _)

theorem getWindow_alike (lz cb : ℕ) (p : Word) :
    SameRun (DecHalf.Alike k) (getWindow lz cb p) (getWindow lz cb p) := by
  refine (raise_alike _).ite ((consume_alike _).bind fun _ => .get fun h => ?_)
  rw [h.x]
  exact (setDecX_alike _).bind fun _ => .pure _

theorem getX_alike (rec : XRecord) : SameRun (DecHalf.Alike k) (getX rec) (getX rec) := by
  cases rec with
  | first tz p => exact getFirst_alike tz p
  | same => exact getSame_alike
  | reuse p => exact getReuse_alike p
  | news iii cccc p => exact (consume_alike 2).bind fun _ => (consume_alike 7).bind fun _ => getWindow_alike _ _ p
  | newl iii cccccc p => exact (consume_alike 2).bind fun _ => (consume_alike 9).bind fun _ => getWindow_alike _ _ p

theorem x64Get_alike : SameRun (DecHalf.Alike k) x64Get x64Get := by
  refine ⟨fun {d d'} h => ?_⟩
  rw [x64Get, x64Get, DecHalf.xRecord, DecHalf.xRecord, h.x, h.bs]
  exact (getX_alike _).outcome h

theorem x64Decode_alike : SameRun (DecHalf.Alike k) x64Decode x64Decode := by
  refine x64Get_alike.bind fun v => ⟨fun h => ?_⟩
  rw [x64Deliver, x64Deliver]
  split_ifs
  · exact .ok _ h.ended
  · exact .ok _ h

theorem eraBody_alike (wasErased : Bool) : SameRun (DecHalf.Alike k) (eraBody wasErased) (eraBody wasErased) := by
  refine x64Get_alike.bind fun v => .get fun h => ?_
  refine .ite ((SameRun.set h.ended).bind fun _ => .pure _) ?_
  rw [h.r]
  exact .ite (.pure _) ((raise_alike _).ite (.pure _))

theorem getE_alike (pre : EPrefix) : SameRun (DecHalf.Alike k) (getE pre) (getE pre) := by
  cases pre with
  | sameb =>
    refine (consume_alike 1).bind fun _ => .get fun h => ?_
    rw [h.r]
    exact (raise_alike _).ite (eraBody_alike true)
  | plain => exact (consume_alike 1).bind fun _ => (consume_alike 1).bind fun _ => eraBody_alike false
  | newb bbbb =>
    refine (consume_alike 1).bind fun _ => (consume_alike 1).bind fun _ => (consume_alike 4).bind fun _ => ?_
    exact .get fun h => (SameRun.set { h with r := rfl }).bind fun _ => eraBody_alike true

theorem eraDecode_alike : SameRun (DecHalf.Alike k) eraDecode eraDecode := by
  refine ⟨fun {d d'} h => ?_⟩
  rw [eraDecode, eraDecode, h.bs]
  exact (getE_alike _).outcome h

/-! ### The history -/

theorem getCFirst_alike (p : Word) : SameRun (DecHalf.Alike .chp) (getCFirst p) (getCFirst p) := by
  refine (consume_alike 64).bind fun _ => .get fun h => ?_
  have hc := h.history rfl
  refine .ite ((SameRun.set ?ended).bind fun _ => .pure _) ((SameRun.set ?stored).bind fun _ => .pure _)
  case ended => exact { h.ended with history := fun _ => { hc.ended with first := rfl, live := nofun } }
  case stored => exact { h with history := fun _ => hc.store_first p }

theorem chpDeliver_alike (v : Word) : SameRun (DecHalf.Alike .chp) (chpDeliver m v) (chpDeliver m v) := by
  refine ⟨fun {d d'} h => ?_⟩
  have hc := h.history rfl
  have hfull : indexFull m d'.c.index = indexFull m d.c.index := congrArg _ hc.index
  rw [chpDeliver, chpDeliver, hfull]
  split_ifs
  · exact .ok _ h.ended
  · exact .error ..
  · exact .ok _ { h with history := fun _ => hc.store_next v }

theorem setDecC_alike {c c' : ChpDecRegs} (hc : c.SameHistory .run c') :
    SameRun (DecHalf.Alike k) (setDecC c) (setDecC c') :=
  ⟨fun h => .ok _ { h with history := fun _ => hc.ofRun _ }⟩

/-- What is known of a record at the cursor: one that refers to the history stands behind the first value of the block,
and the slot it names is spelled by `L` bits (`44_chimp.md` R194, R196, R198). -/
def DecHalf.CanMeet (d : DecHalf) : CRecord → Prop
  | .first _ => True
  | .copy r | .hist r _ _ _ => d.c.first = false ∧ r.toNat < 2 ^ d.c.log2w.toNat
  | .prev _ | .prevn _ _ => d.c.first = false

theorem field_toNat_lt (w n : ℕ) (bits : List Bool) : (field w n bits).toNat < 2 ^ n :=
  (BitVec.toNat_ofNat _ _ ▸ Nat.mod_le _ _).trans_lt (numeral_lt n bits)

theorem DecHalf.canMeet_cRecord (d : DecHalf) : d.CanMeet d.cRecord := by
  unfold DecHalf.cRecord
  cases hfirst : d.c.first with
  | true => trivial
  | false =>
    rw [decodeC, if_neg Bool.false_ne_true]
    split_ifs
    · exact ⟨hfirst, field_toNat_lt ..⟩
    · exact ⟨hfirst, field_toNat_lt ..⟩
    · exact hfirst
    · exact hfirst

theorem getCopy_alike {r : Word} (h : d.Alike .chp d') (hc : d.c.SameHistory .run d'.c) (hfirst : d.c.first = false)
    (hr : r.toNat < 2 ^ d.c.log2w.toNat) : SameOutcome (DecHalf.Alike .chp) (getCopy r d) (getCopy r d') := by
  rw [getCopy, bind_ok (run_get d), bind_ok (run_get d'), hc.log2w, hc.index]
  refine ((consume_alike _).bind fun _ => (consume_alike _).bind fun _ => ?_).outcome h
  by_cases hlive : r.toNat > d.c.index
  · simpa only [if_pos hlive] using raise_alike _
  · simp only [if_neg hlive]
    rw [hc.live rfl hfirst _ hr (Nat.le_of_not_lt hlive)]
    exact (setDecC_alike (hc.withSlz _)).bind fun _ => .pure _

theorem getHist_alike {r : Word} (iii : BitVec 3) (ssssss : BitVec 6) (p : Word) (h : d.Alike .chp d')
    (hc : d.c.SameHistory .run d'.c) (hfirst : d.c.first = false) (hr : r.toNat < 2 ^ d.c.log2w.toNat) :
    SameOutcome (DecHalf.Alike .chp) (getHist r iii ssssss p d) (getHist r iii ssssss p d') := by
  rw [getHist, bind_ok (run_get d), bind_ok (run_get d'), hc.log2w, hc.index]
  refine ((consume_alike _).bind fun _ => (consume_alike _).bind fun _ => ?_).outcome h
  by_cases hlive : r.toNat > d.c.index
  · simpa only [if_pos hlive] using raise_alike _
  · simp only [if_neg hlive]
    rw [hc.live rfl hfirst _ hr (Nat.le_of_not_lt hlive)]
    refine (raise_alike _).ite ((raise_alike _).ite ((consume_alike _).bind fun _ => ?_))
    exact (setDecC_alike (hc.withSlz _)).bind fun _ => .pure _

theorem getPrev_alike (p : Word) (h : d.Alike .chp d') (hc : d.c.SameHistory .run d'.c)
    (hfirst : d.c.first = false) : SameOutcome (DecHalf.Alike .chp) (getPrev p d) (getPrev p d') := by
  rw [getPrev, bind_ok (run_get d), bind_ok (run_get d'), hc.slz, hc.slotValue_prev hfirst]
  refine ((consume_alike _).bind fun _ => ?_).outcome h
  exact (raise_alike _).ite ((consume_alike _).bind fun _ => .pure _)

theorem getPrevn_alike (iii : BitVec 3) (p : Word) (h : d.Alike .chp d') (hc : d.c.SameHistory .run d'.c)
    (hfirst : d.c.first = false) : SameOutcome (DecHalf.Alike .chp) (getPrevn iii p d) (getPrevn iii p d') := by
  rw [getPrevn, bind_ok (run_get d), bind_ok (run_get d'), hc.slotValue_prev hfirst]
  refine ((consume_alike _).bind fun _ => (consume_alike _).bind fun _ => ?_).outcome h
  exact (setDecC_alike (hc.withSlz _)).bind fun _ => (consume_alike _).bind fun _ => .pure _

theorem getC_alike {rec : CRecord} (h : d.Alike .chp d') (hrun : d.phase = .run) (hrec : d.CanMeet rec) :
    SameOutcome (DecHalf.Alike .chp) (getC m rec d) (getC m rec d') := by
  have hc : d.c.SameHistory .run d'.c := hrun ▸ h.history rfl
  have deliver {x : DecM Word} (hx : SameOutcome (DecHalf.Alike .chp) (x d) (x d')) :
      SameOutcome (DecHalf.Alike .chp) ((do let v ← x; chpDeliver m v : DecM Response) d)
        ((do let v ← x; chpDeliver m v : DecM Response) d') :=
    hx.bind fun _ h' => (chpDeliver_alike _).outcome h'
  cases rec with
  | first p => exact (getCFirst_alike p).outcome h
  | copy r =>
    obtain ⟨hfirst, hr⟩ := hrec
    exact deliver (getCopy_alike h hc hfirst hr)
  | hist r iii ssssss p =>
    obtain ⟨hfirst, hr⟩ := hrec
    exact deliver (getHist_alike iii ssssss p h hc hfirst hr)
  | prev p => exact deliver (getPrev_alike p h hc hrec)
  | prevn iii p => exact deliver (getPrevn_alike iii p h hc hrec)

theorem chpDecode_alike (h : d.Alike .chp d') (hrun : d.phase = .run) :
    SameOutcome (DecHalf.Alike .chp) (chpDecode m d) (chpDecode m d') := by
  have hc := h.history rfl
  have hrec : d'.cRecord = d.cRecord := by
    rw [DecHalf.cRecord, DecHalf.cRecord, hc.first, hc.log2w, hc.slz, h.bs]
  rw [chpDecode, chpDecode, hrec]
  exact getC_alike h hrun d.canMeet_cRecord

/-! ### A block -/

theorem ruleOf_alike (h : d.Alike k d') (hrun : d.phase = .run) :
    SameOutcome (DecHalf.Alike k) (ruleOf m k d) (ruleOf m k d') := by
  cases k with
  | raw => exact .error ..
  | x64 => exact x64Decode_alike.outcome h
  | era => exact eraDecode_alike.outcome h
  | chp => exact chpDecode_alike h hrun

theorem DecHalf.Alike.atFirst (h : d.Alike k d') : d'.atFirst = d.atFirst := by
  rw [DecHalf.atFirst, DecHalf.atFirst, h.codec, h.codec', h.x]
  by_cases hk : k = .chp
  · rw [if_pos hk, if_pos hk, (h.history hk).first]
  · rw [if_neg hk, if_neg hk]

theorem runDecHalf_alike {x y : DecM Response} (h : SameOutcome (DecHalf.Alike k) (x d) (y d')) :
    (runDecHalf x d).1 = (runDecHalf y d').1 ∧
      ∀ v, (runDecHalf x d).1 = .val v → (runDecHalf x d).2.Alike k (runDecHalf y d').2 := by
  generalize hx : x d = r at h
  generalize hy : y d' = r' at h
  cases h with
  | ok a h =>
    rw [runDecHalf_ok hx, runDecHalf_ok hy]
    exact ⟨rfl, fun _ _ => h⟩
  | error c =>
    rw [runDecHalf_error hx, runDecHalf_error hy]
    exact ⟨rfl, nofun⟩

/-- `DEC.VAL` answers the same on both halves, and after a value they are alike again. -/
theorem decVal_alike (hk : k ≠ .raw) (h : d.Alike k d') :
    (d.decVal m).1 = (d'.decVal m).1 ∧ ∀ v, (d.decVal m).1 = .val v → (d.decVal m).2.Alike k (d'.decVal m).2 := by
  have hcodec : d.codec ≠ .raw := h.codec ▸ hk
  have hcodec' : d'.codec ≠ .raw := h.codec' ▸ hk
  cases hphase : d.phase with
  | fault =>
    rw [decVal_fault m hcodec hphase, decVal_fault m hcodec' (h.phase.trans hphase), h.err]
    exact ⟨rfl, nofun⟩
  | done =>
    rw [decVal_done m hcodec hphase, decVal_done m hcodec' (h.phase.trans hphase)]
    exact ⟨rfl, nofun⟩
  | run =>
    have hphase' : d'.phase = .run := h.phase.trans hphase
    have hreads : (d'.atFirst = true ∧ d'.bs.avail = 0) = (d.atFirst = true ∧ d.bs.avail = 0) := by
      rw [h.atFirst, h.bs]
    by_cases hempty : d.atFirst = true ∧ d.bs.avail = 0
    · rw [decVal_empty m hcodec hphase hempty, decVal_empty m hcodec' hphase' (hreads ▸ hempty)]
      exact ⟨rfl, nofun⟩
    · rw [decVal_run m hcodec hphase hempty, decVal_run m hcodec' hphase' (hreads ▸ hempty), h.codec, h.codec']
      exact runDecHalf_alike (ruleOf_alike h hphase)

theorem decodeAll_alike {fuel : ℕ} {out : List Word} (hk : k ≠ .raw) (h : d.Alike k d') :
    (decodeAll m fuel d out).map Prod.fst = (decodeAll m fuel d' out).map Prod.fst := by
  induction fuel generalizing d d' out with
  | zero => rfl
  | succ fuel ih =>
    obtain ⟨hresp, hnext⟩ := decVal_alike (m := m) hk h
    generalize hb : d'.decVal m = b at hresp hnext
    obtain ⟨r, b⟩ := b
    rcases decVal_answers m (h.codec ▸ hk) with ⟨v, a, ha, -⟩ | ⟨a, ha⟩ | ⟨c, a, ha⟩ <;> rw [ha] at hresp hnext <;>
      obtain rfl := hresp
    · rw [decodeAll_val ha, decodeAll_val hb]
      exact ih (hnext v rfl)
    · rw [decodeAll_end ha, decodeAll_end hb]
      rfl
    · rw [decodeAll_err ha, decodeAll_err hb]
      rfl

end

/-- `DECOMPRESS` answers the same whatever its half held before. -/
theorem decompress_resp_eq {s s' t t' : State} {k : Codec} {data : List Byte} (hring : Memory.wf 0 s.d.c.ring = true)
    (hring' : Memory.wf 0 s'.d.c.ring = true) (himpl : s.impl = s'.impl) (hcfg : s.cfgLog2w = s'.cfgLog2w)
    (ht : exec (.decompress k data) s = .next t) (ht' : exec (.decompress k data) s' = .next t') :
    t.resp = t'.resp := by
  by_cases hk : k = .raw
  · subst hk
    cases ht
    cases ht'
    rfl
  by_cases hlong : sourceTooLong s.impl data = true
  · have refused {u v : State} (hu : sourceTooLong u.impl data = true) (hv : exec (.decompress k data) u = .next v) :
        v.resp = some (.err .overflow) := by
      rw [show exec (.decompress k data) u = .next (u.refuseDec .overflow) from (if_neg hk).trans (if_pos hu)] at hv
      cases hv
      rfl
    rw [refused hlong ht, refused (himpl ▸ hlong) ht']
  obtain ⟨r, d, hloop⟩ := decompress_isSome s.impl s.d s.cfgLog2w k data hk
  obtain ⟨r', d', hloop'⟩ := decompress_isSome s'.impl s'.d s'.cfgLog2w k data hk
  have hsame := decodeAll_alike (m := s.impl) (fuel := 4 * data.length + 1) (out := []) hk
    (DecHalf.opened_alike data s.cfgLog2w k hring hring')
  rw [exec_decompress_of_loop hk hlong hloop] at ht
  rw [exec_decompress_of_loop hk (himpl ▸ hlong) hloop'] at ht'
  cases ht
  cases ht'
  rw [← himpl, ← hcfg] at hloop'
  rw [hloop, hloop'] at hsame
  exact hsame

/-- Settles O52: both commands begin a block afresh, and its two runs stay alike. -/
theorem blocksAreIndependent : Obligations.BlocksAreIndependent := by
  intro s s' t t' i ⟨hring, hvalid, htbl, hdec⟩ ⟨hring', hvalid', htbl', hdec'⟩ himpl hcfg hi ht ht'
  rcases hi with ⟨k, vs, rfl⟩ | ⟨k, data, rfl⟩
  · exact compress_resp_eq ⟨hring, hvalid, htbl⟩ ⟨hring', hvalid', htbl'⟩ himpl hcfg ht ht'
  · exact decompress_resp_eq hdec hdec' himpl hcfg ht ht'

end Sys2Proof.Machine
